-- ==== Sys2Proof/Word.lean ====
section
/-! DEFINITION. The word types of the module (R5, R139, R198, R214) and the plain data that the steps
without an encoding carry with them. -/

namespace Sys2Proof

/-- One byte of memory (R5). -/
abbrev Byte := BitVec 8
/-- The 32 bits of one lane of a vector register (R198). -/
abbrev Lane := BitVec 32
/-- The 64 bits of a uniform register, an address or a register of BAR 0 (R232). -/
abbrev Word := BitVec 64
/-- One bit for each of the 1,024 lanes a team may have (R143). -/
abbrev Mask := BitVec 1024

/-- What the error correction finds when a request reads its location (R51, R52). -/
inductive Ecc where
  /-- no error -/
  | ok
  /-- an error the code corrects -/
  | single
  /-- an error the code does not correct -/
  | double
  deriving DecidableEq, Repr

/-- The answer of a peer module to a flow reservation (R84). -/
inductive PeerAnswer where
  /-- no reservation was asked for -/
  | none
  /-- accepted; the window of the permitted partition -/
  | accepted (base count : Nat)
  /-- no flow permit for this virtual device -/
  | noPermit
  /-- the destination range lies outside the permitted window -/
  | outside
  deriving DecidableEq, Repr

/-- A step-region packet, and the sluice or millpond entry made of it (R132). -/
structure StepEntry where
  data : List Byte
  mask : Word
  line : Nat
  src : Nat
  region : Nat
  kind : Nat
  spill : Bool
  step : Nat
  lseq : Nat
  team : Nat
  seq : Nat
  deriving DecidableEq, Repr

/-- What the start stages find (R381): the outside supplies it. `powerLost` says that power was lost before this start (R380). -/
structure StartReport where
  powerLost : Bool
  images : Bool
  linkOk : Bool
  width : Nat
  speed : Nat
  ucie : Bool
  stacksFailed : List Nat
  millsFailed : List Nat
  passOk : Bool
  noiseOk : Bool
  portsUp : List Nat
  deriving DecidableEq, Repr

/-- Where the distributor puts a workgroup (R176): the mill, a team slot for each team, the first row of
its Plain region, and the byte within the slice at which each team's save area begins. -/
structure Placement where
  mill : Nat
  slots : List Nat
  wpRow : Nat
  saves : List Nat
  deriving DecidableEq, Repr

end Sys2Proof
end

