-- ==== Sys2Proof/Syntax.lean ====
section
/-! DEFINITION. The one syntax of the model: a constructor for each row of the opcode table. First come the
instructions whose encoding has fields (R215 to R228), their arguments those raw fields from the lowest bit up;
then the steps without an encoding, their arguments what the outside supplies; last the instructions without
a field. -/

namespace Sys2Proof

/-- One step of the module: an instruction of a team, or an event of the device, host or fabric. -/
inductive Instr where
  /-- R232. Uniform add modulo 2^64. -/
  | sadd (d a b : BitVec 6)
  /-- R232. Uniform subtract modulo 2^64. -/
  | ssub (d a b : BitVec 6)
  /-- R232. Low 64 bits of a uniform product. -/
  | smul (d a b : BitVec 6)
  /-- R232. High 64 bits of a signed 128-bit product. -/
  | smulh (d a b : BitVec 6)
  /-- R232. High 64 bits of an unsigned 128-bit product. -/
  | smulhu (d a b : BitVec 6)
  /-- R232. Signed uniform quotient under Div, setting IDZ as needed. -/
  | sdiv (d a b : BitVec 6)
  /-- R232. Unsigned uniform quotient under Div. -/
  | sdivu (d a b : BitVec 6)
  /-- R232. Signed uniform remainder under Div. -/
  | srem (d a b : BitVec 6)
  /-- R232. Unsigned uniform remainder under Div. -/
  | sremu (d a b : BitVec 6)
  /-- R232. Uniform bitwise AND. -/
  | sand (d a b : BitVec 6)
  /-- R232. Uniform bitwise OR. -/
  | sor (d a b : BitVec 6)
  /-- R232. Uniform bitwise XOR. -/
  | sxor (d a b : BitVec 6)
  /-- R232. Uniform shift left by B[5:0]. -/
  | sshl (d a b : BitVec 6)
  /-- R232. Uniform logical shift right. -/
  | sshr (d a b : BitVec 6)
  /-- R232. Uniform arithmetic shift right. -/
  | ssar (d a b : BitVec 6)
  /-- R232. Signed uniform minimum. -/
  | smin (d a b : BitVec 6)
  /-- R232. Signed uniform maximum. -/
  | smax (d a b : BitVec 6)
  /-- R232. Unsigned uniform minimum. -/
  | sminu (d a b : BitVec 6)
  /-- R232. Unsigned uniform maximum. -/
  | smaxu (d a b : BitVec 6)
  /-- R232. Set 1 if A < B signed. -/
  | sslt (d a b : BitVec 6)
  /-- R232. Set 1 if A < B unsigned. -/
  | ssltu (d a b : BitVec 6)
  /-- R232. Set 1 if A = B. -/
  | sseq (d a b : BitVec 6)
  /-- R232. Uniform move. -/
  | smov (d a : BitVec 6)
  /-- R232. Count leading zeros of a uniform register. -/
  | sclz (d a : BitVec 6)
  /-- R232. Count one bits of a uniform register. -/
  | spopc (d a : BitVec 6)
  /-- R233. Uniform add of a sign-extended immediate. -/
  | saddi (d a : BitVec 6) (imm : BitVec 12)
  /-- R233. Uniform AND with a zero-extended immediate. -/
  | sandi (d a : BitVec 6) (imm : BitVec 12)
  /-- R233. Uniform OR with a zero-extended immediate. -/
  | sori (d a : BitVec 6) (imm : BitVec 12)
  /-- R233. Uniform XOR with a zero-extended immediate. -/
  | sxori (d a : BitVec 6) (imm : BitVec 12)
  /-- R233. Uniform shift left by an immediate amount. -/
  | sshli (d a k : BitVec 6)
  /-- R233. Uniform logical shift right by an immediate amount. -/
  | sshri (d a k : BitVec 6)
  /-- R233. Uniform arithmetic shift right by an immediate amount. -/
  | ssari (d a k : BitVec 6)
  /-- R233. Set 1 if A is below a signed immediate. -/
  | sslti (d a : BitVec 6) (imm : BitVec 12)
  /-- R234. Load an 18-bit immediate into bits [31:14], sign-extending bit 31. -/
  | slui (d : BitVec 6) (imm : BitVec 18)
  /-- R234. Load an 18-bit immediate into bits [63:46]. -/
  | sluih (d : BitVec 6) (imm : BitVec 18)
  /-- R234. Form a PC-relative address in a uniform register. -/
  | slea (d : BitVec 6) (imm : BitVec 18)
  /-- R235. Uniform load of 1 to 8 bytes from translated memory or the Plain. -/
  | sld (d a : BitVec 6) (off : BitVec 9) (p : BitVec 1) (sz : BitVec 2)
  /-- R235. Uniform store of 1 to 8 bytes. -/
  | sst (d a : BitVec 6) (off : BitVec 9) (p : BitVec 1) (sz : BitVec 2)
  /-- R236. Read a system register into a uniform register. -/
  | sgets (d : BitVec 6) (n : BitVec 12)
  /-- R236. Write a system register from a uniform register, field by field. -/
  | ssets (a : BitVec 6) (n : BitVec 12)
  /-- R239. Unconditional PC-relative branch. -/
  | bra (off : BitVec 24)
  /-- R239. PC-relative call writing s63. -/
  | call (off : BitVec 24)
  /-- R240. Jump to a uniform register plus offset. -/
  | jmp (a : BitVec 6) (off : BitVec 11)
  /-- R240. Jump through a uniform register and write the link. -/
  | jmpl (d a : BitVec 6) (off : BitVec 11)
  /-- R241. Branch if a uniform register is zero. -/
  | bsz (s : BitVec 6) (off : BitVec 17)
  /-- R241. Branch if a uniform register is nonzero. -/
  | bsnz (s : BitVec 6) (off : BitVec 17)
  /-- R242. Branch if some active lane holds the predicate. -/
  | bany (p : BitVec 4) (off : BitVec 18)
  /-- R242. Branch if every active lane holds the predicate. -/
  | ball (p : BitVec 4) (off : BitVec 18)
  /-- R242. Branch if no active lane holds the predicate. -/
  | bnone (p : BitVec 4) (off : BitVec 18)
  /-- R244. Push the mask and narrow it by a predicate. -/
  | ifp (p : BitVec 4)
  /-- R244. Push the mask and narrow it by the negated predicate. -/
  | ifpN (p : BitVec 4)
  /-- R244. Set the mask from a predicate within the enclosing region. -/
  | mset (p : BitVec 4)
  /-- R244. Write the active mask into a predicate. -/
  | mget (p : BitVec 4)
  /-- R248. Park the team for n clocks. -/
  | sleep (n : BitVec 20)
  /-- R249. Drain the closure and set the deferral mode. -/
  | defer (m : BitVec 2)
  /-- R249. Drain the closure and set the latest flashback point. -/
  | fbpt (n : BitVec 12)
  /-- R250. Set the plot size. -/
  | plot (s : BitVec 3)
  /-- R251. Join donation set k of the wheel. -/
  | rdv (k : BitVec 2)
  /-- R153. Return n registers' rows to the donation pool. -/
  | give (g : BitVec 4)
  /-- R153. Queue for n registers' rows from the donation pool. -/
  | take (g : BitVec 4)
  /-- R156. Push a child descriptor onto the mill's deque. -/
  | fork (d a : BitVec 6)
  /-- R157. Wait on a child counter as ACWAIT. -/
  | join (d a : BitVec 6)
  /-- R253. Set trap enables and optionally the rounding mode. -/
  | modeset (e : BitVec 6) (r : BitVec 3)
  /-- R253. Clear trap enables. -/
  | modeclr (e : BitVec 6)
  /-- R254. Wait for memory instructions and read %time. -/
  | time (d : BitVec 6)
  /-- R257. Lane add per element width. -/
  | vadd (d a b : BitVec 7) (w : BitVec 2)
  /-- R257. Lane subtract per element width. -/
  | vsub (d a b : BitVec 7) (w : BitVec 2)
  /-- R257. Low 32 bits of a lane product. -/
  | vmul (d a b : BitVec 7)
  /-- R257. High 32 bits of a signed lane product. -/
  | vmulHi (d a b : BitVec 7)
  /-- R257. High 32 bits of an unsigned lane product. -/
  | vmulHiu (d a b : BitVec 7)
  /-- R257. Lane multiply-add, low 32 bits. -/
  | vmad (d a b : BitVec 7)
  /-- R257. Signed lane quotient. -/
  | vdiv (d a b : BitVec 7)
  /-- R257. Unsigned lane quotient. -/
  | vdivU (d a b : BitVec 7)
  /-- R257. Signed lane remainder. -/
  | vrem (d a b : BitVec 7)
  /-- R257. Unsigned lane remainder. -/
  | vremU (d a b : BitVec 7)
  /-- R257. Lane bitwise AND. -/
  | vand (d a b : BitVec 7)
  /-- R257. Lane bitwise OR. -/
  | vor (d a b : BitVec 7)
  /-- R257. Lane bitwise XOR. -/
  | vxor (d a b : BitVec 7)
  /-- R257. Lane A AND NOT B. -/
  | vandn (d a b : BitVec 7)
  /-- R257. Lane shift left. -/
  | vshl (d a b : BitVec 7)
  /-- R257. Lane logical shift right. -/
  | vshr (d a b : BitVec 7)
  /-- R257. Lane arithmetic shift right. -/
  | vshrA (d a b : BitVec 7)
  /-- R257. Lane minimum per element, signed or unsigned. -/
  | vmin (d a b : BitVec 7) (u : BitVec 1) (w : BitVec 2)
  /-- R257. Lane maximum per element, signed or unsigned. -/
  | vmax (d a b : BitVec 7) (u : BitVec 1) (w : BitVec 2)
  /-- R258. Lane absolute value. -/
  | vabs (d a : BitVec 7)
  /-- R258. Lane negate. -/
  | vneg (d a : BitVec 7)
  /-- R258. Lane count leading zeros. -/
  | vclz (d a : BitVec 7)
  /-- R258. Lane population count. -/
  | vpopc (d a : BitVec 7)
  /-- R258. Lane bit reverse. -/
  | vbrev (d a : BitVec 7)
  /-- R258. Lane index of lowest set bit. -/
  | vffs (d a : BitVec 7)
  /-- R258. Lane unsigned bit-field extract. -/
  | vbfx (d a b : BitVec 7)
  /-- R258. Lane signed bit-field extract. -/
  | vbfxS (d a b : BitVec 7)
  /-- R258. Lane bit-field insert. -/
  | vbfi (d a b : BitVec 7)
  /-- R259. Lane select by predicate. -/
  | vsel (d a b : BitVec 7) (p : BitVec 3)
  /-- R259. Lane integer compare into a predicate. -/
  | vcmp (p : BitVec 4) (a b : BitVec 7) (c : BitVec 6)
  /-- R260. Lane add of a signed immediate. -/
  | vaddi (d a : BitVec 7) (imm : BitVec 10)
  /-- R260. Lane AND with an immediate. -/
  | vandi (d a : BitVec 7) (imm : BitVec 10)
  /-- R260. Lane OR with an immediate. -/
  | vori (d a : BitVec 7) (imm : BitVec 10)
  /-- R260. Lane XOR with an immediate. -/
  | vxori (d a : BitVec 7) (imm : BitVec 10)
  /-- R260. Lane shift left by an immediate. -/
  | vshli (d a : BitVec 7) (k : BitVec 5)
  /-- R260. Lane logical shift right by an immediate. -/
  | vshri (d a : BitVec 7) (k : BitVec 5)
  /-- R260. Lane arithmetic shift right by an immediate. -/
  | vsari (d a : BitVec 7) (k : BitVec 5)
  /-- R260. Lane move of a 16-bit signed immediate. -/
  | vmovi (d : BitVec 7) (hi : BitVec 6) (imm : BitVec 10)
  /-- R260. Broadcast low 32 bits of a uniform register to lanes. -/
  | vmovs (d : BitVec 7) (s : BitVec 6)
  /-- R260. Broadcast high 32 bits of a uniform register to lanes. -/
  | vmovsHi (d : BitVec 7) (s : BitVec 6)
  /-- R260. Write a lane, swath or plot index. -/
  | vlane (d : BitVec 7) (k : BitVec 10)
  /-- R260. Lane shifted add of a small offset. -/
  | vlea (d a : BitVec 7) (off : BitVec 8) (hint : BitVec 2)
  /-- R260. Lane multiply by a signed immediate. -/
  | vmuli (d a : BitVec 7) (imm : BitVec 10)
  /-- R261. FP32 add rounded once. -/
  | fadd (d a b : BitVec 7) (r : BitVec 3)
  /-- R261. FP32 subtract rounded once. -/
  | fsub (d a b : BitVec 7) (r : BitVec 3)
  /-- R261. FP32 multiply rounded once. -/
  | fmul (d a b : BitVec 7) (r : BitVec 3)
  /-- R261. FP32 fused multiply-add. -/
  | ffma (d a b : BitVec 7) (r : BitVec 3)
  /-- R261. FP32 fused multiply-subtract from the destination. -/
  | ffms (d a b : BitVec 7) (r : BitVec 3)
  /-- R261. FP32 divide rounded once. -/
  | fdiv (d a b : BitVec 7) (r : BitVec 3)
  /-- R261. FP32 square root rounded once. -/
  | fsqrt (d a : BitVec 7) (r : BitVec 3)
  /-- R262. FP32 minimum under R197. -/
  | fmin (d a b : BitVec 7)
  /-- R262. FP32 maximum under R197. -/
  | fmax (d a b : BitVec 7)
  /-- R262. Clear the sign bit. -/
  | fabs (d a : BitVec 7)
  /-- R262. Invert the sign bit. -/
  | fneg (d a : BitVec 7)
  /-- R262. Copy the sign of B onto A. -/
  | fcpsgn (d a b : BitVec 7)
  /-- R263. FP32 compare into a predicate. -/
  | fcmp (p : BitVec 4) (a b : BitVec 7) (c : BitVec 6)
  /-- R264. Classify an FP32 value as one set bit. -/
  | fclass (d a : BitVec 7)
  /-- R265. Approximate reciprocal. -/
  | frcp (d a : BitVec 7)
  /-- R265. Approximate reciprocal square root. -/
  | frsq (d a : BitVec 7)
  /-- R265. Approximate 2^x. -/
  | fex2 (d a : BitVec 7)
  /-- R265. Approximate log2 x. -/
  | flg2 (d a : BitVec 7)
  /-- R265. Approximate sine. -/
  | fsin (d a : BitVec 7)
  /-- R265. Approximate cosine. -/
  | fcos (d a : BitVec 7)
  /-- R265. Approximate hyperbolic tangent. -/
  | ftanh (d a : BitVec 7)
  /-- R266. Packed half add. -/
  | hadd2 (d : BitVec 7) (a b : BitVec 6) (f : BitVec 1) (r : BitVec 3)
  /-- R266. Packed half subtract. -/
  | hsub2 (d : BitVec 7) (a b : BitVec 6) (f : BitVec 1) (r : BitVec 3)
  /-- R266. Packed half multiply. -/
  | hmul2 (d : BitVec 7) (a b : BitVec 6) (f : BitVec 1) (r : BitVec 3)
  /-- R266. Packed half fused multiply-add. -/
  | hfma2 (d : BitVec 7) (a b : BitVec 6) (f : BitVec 1) (r : BitVec 3)
  /-- R266. Packed half fused multiply-subtract. -/
  | hfms2 (d : BitVec 7) (a b : BitVec 6) (f : BitVec 1) (r : BitVec 3)
  /-- R266. Packed half minimum. -/
  | hmin2 (d : BitVec 7) (a b : BitVec 6) (f : BitVec 1)
  /-- R266. Packed half maximum. -/
  | hmax2 (d : BitVec 7) (a b : BitVec 6) (f : BitVec 1)
  /-- R267. Convert lane elements between types. -/
  | cvt (d a : BitVec 7) (t f r : BitVec 3)
  /-- R269. Write 32 noise-source bits to each active lane. -/
  | rnd (d : BitVec 7)
  /-- R270. RND that also appends records to the log ring. -/
  | rndLog (d : BitVec 7)
  /-- R271. Hash-based reproducible random bits. -/
  | hrnd (d a : BitVec 7) (s : BitVec 6)
  /-- R268. Pack two halves. -/
  | packH (d a b : BitVec 7)
  /-- R268. Pack four bytes from two INT16 pairs. -/
  | packB (d a b : BitVec 7)
  /-- R268. Unpack an INT16 element to INT32. -/
  | unpackH (d a b : BitVec 7)
  /-- R268. Unpack two INT8 elements to INT16. -/
  | unpackB (d a b : BitVec 7)
  /-- R273. Shuffle by index within the plot. -/
  | shflIdx (d a b : BitVec 7)
  /-- R273. Shuffle up within the plot. -/
  | shflUp (d a b : BitVec 7)
  /-- R273. Shuffle down within the plot. -/
  | shflDown (d a b : BitVec 7)
  /-- R273. Butterfly shuffle within the plot. -/
  | shflXor (d a b : BitVec 7)
  /-- R274. Predicate true if any active lane of the plot holds it. -/
  | voteAny (p q : BitVec 4)
  /-- R274. Predicate true if every active lane of the plot holds it. -/
  | voteAll (p q : BitVec 4)
  /-- R274. Predicate true if all active lanes of the plot hold equal bits. -/
  | voteEq (p : BitVec 4) (a : BitVec 7)
  /-- R275. Reduce the active lanes of each plot. -/
  | vred (d a : BitVec 7) (op : BitVec 3)
  /-- R275. Inclusive scan over the active lanes of each plot. -/
  | vscan (d a : BitVec 7) (op : BitVec 3)
  /-- R276. Mask of plot lanes with an equal 32-bit key. -/
  | matchBits (d a b : BitVec 7)
  /-- R276. Mask of plot lanes with an FP32-equal key. -/
  | matchFloat (d a b : BitVec 7)
  /-- R277. Broadcast a plot position to the plot. -/
  | bcast (d a : BitVec 7) (s : BitVec 6)
  /-- R277. Read one lane into a uniform register. -/
  | sread (d : BitVec 6) (a : BitVec 7) (b : BitVec 6)
  /-- R279. Lane load from translated memory. -/
  | ldg (d : BitVec 7) (s : BitVec 6) (x : BitVec 7) (hint sz : BitVec 2)
  /-- R279. Lane store to translated memory. -/
  | stg (d : BitVec 7) (s : BitVec 6) (x : BitVec 7) (hint sz : BitVec 2)
  /-- R279. Lane load from the Plain. -/
  | ldp (d : BitVec 7) (s : BitVec 6) (x : BitVec 7) (sz : BitVec 2)
  /-- R279. Lane store to the Plain. -/
  | stp (d : BitVec 7) (s : BitVec 6) (x : BitVec 7) (sz : BitVec 2)
  /-- R284. Acquire load at a scope. -/
  | lda (d : BitVec 7) (s : BitVec 6) (x : BitVec 7) (c : BitVec 2) (p sz : BitVec 1)
  /-- R285. Release store at a scope. -/
  | stl (d : BitVec 7) (s : BitVec 6) (x : BitVec 7) (c : BitVec 2) (p sz : BitVec 1)
  /-- R287. Acquire and release fence at a scope. -/
  | fence (c : BitVec 2)
  /-- R289. Ask for lane-cache fills without trapping. -/
  | pref (s : BitVec 6) (x : BitVec 7)
  /-- R291. Atomic FP32 add. -/
  | atomFadd (d : BitVec 7) (s x : BitVec 6) (r : BitVec 1) (c : BitVec 2) (p : BitVec 1)
  /-- R291. Atomic integer add. -/
  | atomAdd (d : BitVec 7) (s x : BitVec 6) (r : BitVec 1) (c : BitVec 2) (p sz : BitVec 1)
  /-- R291. Atomic signed minimum. -/
  | atomMin (d : BitVec 7) (s x : BitVec 6) (r : BitVec 1) (c : BitVec 2) (p sz : BitVec 1)
  /-- R291. Atomic signed maximum. -/
  | atomMax (d : BitVec 7) (s x : BitVec 6) (r : BitVec 1) (c : BitVec 2) (p sz : BitVec 1)
  /-- R291. Atomic AND. -/
  | atomAnd (d : BitVec 7) (s x : BitVec 6) (r : BitVec 1) (c : BitVec 2) (p sz : BitVec 1)
  /-- R291. Atomic OR. -/
  | atomOr (d : BitVec 7) (s x : BitVec 6) (r : BitVec 1) (c : BitVec 2) (p sz : BitVec 1)
  /-- R291. Atomic XOR. -/
  | atomXor (d : BitVec 7) (s x : BitVec 6) (r : BitVec 1) (c : BitVec 2) (p sz : BitVec 1)
  /-- R291. Atomic exchange returning the old value. -/
  | atomXchg (d : BitVec 7) (s x : BitVec 6) (c : BitVec 2) (p sz : BitVec 1)
  /-- R291. Atomic compare-and-swap returning the old value. -/
  | atomCas (d : BitVec 7) (s x : BitVec 6) (c : BitVec 2) (p sz : BitVec 1)
  /-- R83. Walk, check, pin and reserve for a tensor descriptor into a claim slot. -/
  | claim (c : BitVec 4) (a b : BitVec 6) (p v : BitVec 1)
  /-- R90. Check and register a flow over a claim. -/
  | flow (c : BitVec 4) (a b : BitVec 6) (all : BitVec 1)
  /-- R96. Release a claim slot to FREE. -/
  | unclaim (c : BitVec 4)
  /-- R96. Read a claim slot word. -/
  | clstat (d : BitVec 6) (c : BitVec 4)
  /-- R98. Arm an arrival counter with EXPECTED. -/
  | acarm (a b : BitVec 6)
  /-- R98. Park until a counter is satisfied or flagged. -/
  | acwait (d a : BitVec 6)
  /-- R98. Add to an arrival counter. -/
  | acadd (a b : BitVec 6)
  /-- R98. Reset a counter, bump GEN, release waiters and cancel armed nodes. -/
  | acrst (a : BitVec 6)
  /-- R98. Read one word of a counter. -/
  | acread (d a w : BitVec 6)
  /-- R128. Read step number, quota or region state. -/
  | stepq (d k b : BitVec 6)
  /-- R299. Append a submission to the device queue. -/
  | gsubmit (d a : BitVec 6)
  /-- R319. Workgroup issue of a collective over a rank group. -/
  | coll (n : BitVec 5) (t : BitVec 1) (a b : BitVec 6) (op k : BitVec 3)
  /-- R323. Workgroup issue of a variable all-to-all exchange. -/
  | a2av (a b : BitVec 6)
  /-- R306. Tile load from the Plain with a row stride, optionally smoothed. -/
  | tld (t : BitVec 5) (a b : BitVec 6) (m : BitVec 1)
  /-- R307. Tile load through a tensor descriptor, optionally smoothed. -/
  | tldD (t : BitVec 5) (a b : BitVec 6) (m : BitVec 1)
  /-- R306. Tile store to the Plain with a row stride. -/
  | tst (t : BitVec 5) (a b : BitVec 6)
  /-- R307. Tile store through a tensor descriptor. -/
  | tstD (t : BitVec 5) (a : BitVec 6)
  /-- R312. Tile matrix multiply-accumulate under a semiring. -/
  | mma (c : BitVec 4) (a b : BitVec 5) (s : BitVec 3) (f : BitVec 6)
  /-- R314. Clear an accumulator. -/
  | aclr (d : BitVec 4)
  /-- R314. Scale an accumulator by an FP32 value. -/
  | ascale (d : BitVec 4) (b : BitVec 5) (r : BitVec 3)
  /-- R314. Add a per-column bias vector to an accumulator. -/
  | abias (d : BitVec 4) (b : BitVec 5) (r : BitVec 3)
  /-- R315. Convert an accumulator into a tile. -/
  | amov (d : BitVec 5) (a : BitVec 4) (r : BitVec 3)
  /-- R314. Smooth and quantise an accumulator into a block-format tile. -/
  | amovQ (d : BitVec 5) (a : BitVec 4) (b : BitVec 5) (r : BitVec 3)
  /-- R314. Transpose a tile. -/
  | ttrn (d a : BitVec 5)
  /-- R180. Request a lease of n Millstone operations. -/
  | mlease (n : BitVec 12)
  /-- R310. Zero all bytes of a tile. -/
  | tzero (t : BitVec 5)
  /-- R327. Invalidate one page of the team's ASID. -/
  | tlbinv (a : BitVec 6)
  /-- R328. Load key material from the Plain into an index and erase it. -/
  | keyld (a b : BitVec 6)
  /-- R328. Destroy a key index and park until RETIRED. -/
  | keydel (a : BitVec 6)
  /-- R329. Read a partition quota and its use. -/
  | pquota (d a b : BitVec 6)
  /-- R330. Read 8 bytes at a BAR 0 offset. -/
  | csrr (d a : BitVec 6)
  /-- R330. Write 8 bytes at a permitted BAR 0 offset. -/
  | csrw (a b : BitVec 6)
  /-- R332. Raise breakpoint, routable to the lanes. -/
  | trap (c : BitVec 16)
  /-- R332. Raise breakpoint to the fault queue. -/
  | brk (c : BitVec 16)
  /-- R217. Compact move, as VOR vd, vs, vs. -/
  | vmovC (d s : BitVec 5)
  /-- R217. Compact VADD. -/
  | vaddC (d s : BitVec 5)
  /-- R217. Compact VSUB. -/
  | vsubC (d s : BitVec 5)
  /-- R217. Compact VMUL. -/
  | vmulC (d s : BitVec 5)
  /-- R217. Compact VAND. -/
  | vandC (d s : BitVec 5)
  /-- R217. Compact VOR. -/
  | vorC (d s : BitVec 5)
  /-- R217. Compact VXOR. -/
  | vxorC (d s : BitVec 5)
  /-- R217. Compact VSHL. -/
  | vshlC (d s : BitVec 5)
  /-- R217. Compact logical VSHR. -/
  | vshrC (d s : BitVec 5)
  /-- R217. Compact arithmetic VSHR.A. -/
  | vshrAC (d s : BitVec 5)
  /-- R217. Compact FADD, dynamic rounding. -/
  | faddC (d s : BitVec 5)
  /-- R217. Compact HADD2.BF16. -/
  | hadd2Bf16C (d s : BitVec 5)
  /-- R217. Compact FSUB. -/
  | fsubC (d s : BitVec 5)
  /-- R217. Compact HSUB2.BF16. -/
  | hsub2Bf16C (d s : BitVec 5)
  /-- R217. Compact FMUL. -/
  | fmulC (d s : BitVec 5)
  /-- R217. Compact HMUL2.BF16. -/
  | hmul2Bf16C (d s : BitVec 5)
  /-- R217. Compact signed VMIN. -/
  | vminC (d s : BitVec 5)
  /-- R217. Compact unsigned VMIN. -/
  | vminUC (d s : BitVec 5)
  /-- R217. Compact signed VMAX. -/
  | vmaxC (d s : BitVec 5)
  /-- R217. Compact unsigned VMAX. -/
  | vmaxUC (d s : BitVec 5)
  /-- R217. Compact FMIN. -/
  | fminC (d s : BitVec 5)
  /-- R217. Compact HMIN2.BF16. -/
  | hmin2Bf16C (d s : BitVec 5)
  /-- R217. Compact FMAX. -/
  | fmaxC (d s : BitVec 5)
  /-- R217. Compact HMAX2.BF16. -/
  | hmax2Bf16C (d s : BitVec 5)
  /-- R248. The SLEEP count expires and the team becomes READY. -/
  | sleepExpiry (team : Nat)
  /-- R86. After its walks, peer answer and chunk-buffer wait, the claim becomes HELD. -/
  | claimHeld (team : Nat) (answer : PeerAnswer)
  /-- R92. A held FLOW registers its Weir entries and starts once no flow or conflict remains. -/
  | flowStart (team : Nat)
  /-- R162. The closure head runs once all its sources have landed. -/
  | closureRun (team : Nat)
  /-- R37. A word request completes and its completion counter drops. -/
  | memoryRequestComplete (request : Nat) (ecc : Ecc)
  /-- R34. A bank serves the request at the head of its queue. -/
  | bankServe (slice bank : Nat) (ecc : Ecc)
  /-- R61. The die walker completes a translation walk for a page. -/
  | walk (walk : Nat)
  /-- R52. A parity rebuild of a line ends and stalled requests return. -/
  | basinRebuildDone (line : Nat) (parity : Bool)
  /-- R55. The touched page's copy ends and the leaf is swapped to the Basin frame. -/
  | migrateOnTouchCopyDone (migration : Nat)
  /-- R55. The invalidation is acknowledged and parked accesses reissue. -/
  | migrateOnTouchInvalAck (migration : Nat)
  /-- R56. The fault unit takes an optimistic migration command from the ring. -/
  | migrationCommand (vd : Nat)
  /-- R56. An optimistic copy ends and the dirty filter decides switch, retry or abandon. -/
  | optMigrationCopyDone (migration : Nat)
  /-- R56. The switching swap of word 0 succeeds or fails. -/
  | optMigrationSwapDone (migration : Nat)
  /-- R56. The invalidation drains and the migration is reported done. -/
  | optMigrationDrainAck (migration : Nat)
  /-- R45. Writes accepted under a destroyed key drain and the index becomes RETIRED. -/
  | keyRetire (index : Nat)
  /-- R84. A peer module receives a flow reservation, which names the rows of the destination, and accepts or refuses it. -/
  | peerReservation (source vd : Nat) (addresses sizes : List Nat)
  /-- R91. A destination write of a flow is accepted and its bytes are added to the counter. -/
  | flowChunkAccept (flow offset : Nat)
  /-- R111. A mill receives a promotion request and answers once its stores perform at device scope. -/
  | promotionRequest (promotion : Nat)
  /-- R111. A promotion answer reaches the slice and completes a waiting acquire or release. -/
  | promotionAnswer (promotion : Nat)
  /-- R365. A target's sluice and millpond grant reaches a source. -/
  | stepGrant (vd target step slines mlines : Nat)
  /-- R131. A step-region packet arrives at its target sluice or millpond. -/
  | stepPacket (entry : StepEntry)
  /-- R124. A Peer load arrives at the target and is held until COMMITTED reaches its step. -/
  | peerLoadRequest (source load address bytes step : Nat)
  /-- R129. END(n) from a member arrives and may enter the boundary. -/
  | boundaryEndMessage (vd source step lines : Nat)
  /-- R129. Enter barrier n completes on the collective sequencer. -/
  | enterBarrierDone (vd step : Nat)
  /-- R134. Commit(n) ends; COMMITTED is set and held loads are served. -/
  | commitDone (vd step : Nat)
  /-- R129. Commit barrier n completes; COMPLETE is set and next grants are sent. -/
  | commitBarrierDone (vd step : Nat)
  /-- R321. A reduction slot is granted to a waiting collective. -/
  | reductionSlotGrant (collective : Nat)
  /-- R322. Landed collective or exchange bytes are counted at a member. -/
  | collectiveLand (collective offset : Nat) (others : List (List Byte))
  /-- R324. All members' send counts have arrived and RCNT and EXPECTED are written. -/
  | a2avCounts (exchange : Nat) (counts : List Nat)
  /-- R74. The fabric reports a module lost and its UP clears, incrementing GEN. -/
  | peerDown (target : Nat)
  /-- R376. A fabric port trains, degrades or loses UP. -/
  | portStateChange (port : Nat) (up degraded : Bool) (neighbour : Nat)
  /-- R377. A loss notice arrives from a downstream module. -/
  | lossNotice (target : Nat) (alternate : Bool)
  /-- R376. A flit arrives at a port, is CRC-checked and replayed if bad. -/
  | fabricFlitReceive (port : Nat) (good : Bool) (queued source : Nat)
  /-- R379. A source receives a congestion notice and halves its injection rate. -/
  | congestionNotice (target : Nat)
  /-- R379. 10 µs without a notice elapse and the rate doubles. -/
  | congestionRecovery (target : Nat)
  /-- R188. A launch packet arrives and is appended or refused. -/
  | fabricLaunchPacket (source entry : Nat) (args : List Word)
  /-- R189. A refusal returns to the sender, which posts an event. -/
  | fabricLaunchRefusal (vd entry target : Nat)
  /-- R369. A snoop takes the tail line and the Pass die rereads TAIL. -/
  | tailLineSnoop (vd queue : Nat)
  /-- R369. The Pass die reads the submission at HEAD and hands it on. -/
  | submissionRead (vd queue : Nat)
  /-- R171. The distributor checks a submission and accepts or refuses it. -/
  | submission (vd : Nat)
  /-- R176. The distributor places a launchable workgroup on a mill. -/
  | workgroupPlace (vd : Nat) (place : Placement)
  /-- R175. Die 0's copy engine arms, claims and flows a copy node. -/
  | copyNodeStart (graph node : Nat)
  /-- R158. A mill starts an entry from the head of its deque. -/
  | dequeStart (mill : Nat) (place : Placement)
  /-- R158. A mill takes an entry from a neighbour's deque tail. -/
  | dequeSteal (thief owner : Nat)
  /-- R186. A time slice expires and the partition switches or continues. -/
  | sliceExpiry (partition : Nat)
  /-- R167. A pre-empted team is rewound or fully saved once its waits end. -/
  | preemptSave (team : Nat)
  /-- R359. A saved team is restored and resumes. -/
  | teamResume (workgroup : Nat) (place : Placement)
  /-- R349. After pending loads complete the frame is written and the team vectors to HVEC. -/
  | trapEntry (team : Nat)
  /-- R352. A fault record is written to the fault queue once there is room. -/
  | faultRecordWrite (team : Nat)
  /-- R370. An event record is written, waited for or dropped. -/
  | eventRecordWrite (vd : Nat)
  /-- R72. Host INVCMD KIND 00 invalidates one page of an ASID. -/
  | invcmdOnePage (vd : Nat) (page : Word) (asid : BitVec 12)
  /-- R71. Host INVCMD KIND 01 invalidates every page of an ASID. -/
  | invcmdAsid (vd : Nat) (asid : BitVec 12)
  /-- R71. Host INVCMD KIND 10 invalidates every ASID of the virtual device. -/
  | invcmdVirtualDevice (vd : Nat)
  /-- R72. Drains and flows end and the invalidation is acknowledged. -/
  | invalidationAcknowledge (invalidation : Nat)
  /-- R48. Mark a Basin range for scrubbing and bind it. -/
  | scrctlGo (oldkey : BitVec 16)
  /-- R19. Write a Plain window descriptor, enabling, refusing or ignoring. -/
  | pwinWrite (partition : Nat) (value : Word)
  /-- R30. Write an address-space root, refused if the ASID mismatches. -/
  | addressSpaceRootWrite (asid : Nat) (second : Bool) (value : Word)
  /-- R119. Enable or disable a step domain, with grants sent on enable. -/
  | vdstepWrite (vd : Nat) (value : Word)
  /-- R121. Write a step-region entry, enabling, disabling or ignoring. -/
  | stepRegionWrite (region index : Nat) (value : Word)
  /-- R122. Direct Basin translations of the region are removed and EN reads 1. -/
  | stepRegionEnableDone (region : Nat)
  /-- R368. Enable or disable a launch queue. -/
  | lqbaseWrite (vd queue : Nat) (value : Word)
  /-- R373. Resume the team parked on a guest event. -/
  | vdcmdResume (vd : Nat) (seq : BitVec 32)
  /-- R373. Pre-empt the virtual device with a full switch. -/
  | vdcmdPreempt (vd : Nat)
  /-- R374. Host load of key material for a partition. -/
  | kcmdLoad (partition : Nat) (index : BitVec 16)
  /-- R374. Host destroy of a key index for a partition. -/
  | kcmdDestroy (partition : Nat) (index : BitVec 16)
  /-- R354. Reissue the instruction of a parked fault record. -/
  | vdfrespReissue (vd : Nat) (seq : BitVec 32)
  /-- R354. Continue after the faulting instruction. -/
  | vdfrespContinue (vd : Nat) (seq : BitVec 32)
  /-- R354. Retire the parked team as EXIT does. -/
  | vdfrespRetire (vd : Nat) (seq : BitVec 32)
  /-- R74. Host sets UP of a peer entry. -/
  | peerUpSet (target : Nat)
  /-- R377. Write a route entry, clearing LOST. -/
  | routeWrite (target : Nat) (alternate : Bool) (value : Word)
  /-- R360. Write the time base and latch DREF. -/
  | vdtbaseWrite (vd : Nat) (value : Word)
  /-- R7. Write to a register with no behaviour of its own. -/
  | registerWrite (offset bytes : Nat) (value : Word)
  /-- R381. Retry a start from minimal mode. -/
  | bootcmdRetry (report : StartReport)
  /-- R381. Power or reset runs the start stages. -/
  | moduleStart (report : StartReport)
  /-- R383. Request an attestation report. -/
  | attcmdWrite (value : Word)
  /-- R383. The signed report is written and TYPE 0x26 posted. -/
  | attestationComplete (random : List Byte)
  /-- R382. Give a firmware update image. -/
  | fwcmdWrite (value : Word)
  /-- R382. The update is verified and its result posted. -/
  | firmwareUpdateComplete (length signature : Nat)
  /-- R385. A failing unit is stopped and reported. -/
  | unitStop (kind index : Nat)
  /-- R301. A Millstone operation such as MMA, AMOV or ACLR finishes writing its tiles or accumulator some clocks after issue, releasing instructions that wait at issue on those operands and, for the MMA that brings REMAIN to 0, ending the lease. -/
  | millstoneOperationComplete (mill : Nat)
  /-- R50. The scrubber zeroes the next marked block and clears its bit. -/
  | scrubBlock
  /-- R240. Return to s63. -/
  | ret
  /-- R244. Switch the mask to the other arm of the region. -/
  | maskElse
  /-- R244. Pop the mask stack. -/
  | endif
  /-- R246. Arrive at the workgroup barrier as a mill-scope release. -/
  | barArrive
  /-- R246. Wait for the generation of the team's arrival to complete. -/
  | barWait
  /-- R246. Arrive and wait at the workgroup barrier. -/
  | barSync
  /-- R248. Drain, wait for a flow, perform accesses, end lease, free slots and retire the team. -/
  | exit
  /-- R248. Reset the team's issue age. -/
  | yield
  /-- R248. No operation. -/
  | nop
  /-- R288. Empty the mill's lane cache and instruction cache. -/
  | lcinv
  /-- R127. Count the team's arrival at the next step boundary. -/
  | step
  /-- R298. Release and set the workgroup's ready flag. -/
  | grdy
  /-- R180. End a held lease. -/
  | mrels
  /-- R326. Restore the frame and return from the handler. -/
  | eret
  /-- R327. Invalidate every page of the team's ASID. -/
  | tlbinvAll
  /-- R331. Stop the virtual device and clear RUN. -/
  | halt
  deriving DecidableEq, Repr

end Sys2Proof
end

