-- ==== Sys2Proof/WellFormed.lean ====
section
/-! DEFINITION. Which field values and which event arguments are allowed: the ranges that R145, R191, R214 and
R219 to R227 give the fields that the encoding tables leave open, and the ranges of the numbers of R3. -/

namespace Sys2Proof

/-- The system register numbers of R228. -/
def listedSystemRegister (n : BitVec 12) : Bool :=
  n.toNat ≤ 0x009 || (0x010 ≤ n.toNat && n.toNat ≤ 0x013) ||
  (0x020 ≤ n.toNat && n.toNat ≤ 0x03F) || (0x040 ≤ n.toNat && n.toNat ≤ 0x04F)

/-- A rounding field that names a mode (R191). -/
def roundingField (r : BitVec 3) : Bool := r.toNat ≤ 5

/-- A width field that names a width (R221). -/
def widthField (w : BitVec 2) : Bool := w != 3

/-- A register that begins a group of `n` (R214). -/
def groupStart {w : Nat} (d : BitVec w) (n : Nat) : Bool := d.toNat % n == 0

/-- The register group of an 8-byte access (R214). -/
def pairFor {w v : Nat} (sz : BitVec v) (eight : Nat) (d : BitVec w) : Bool :=
  sz.toNat != eight || groupStart d 2

/-- The kind and operation of a collective (R226, R316). -/
def collField (k o : BitVec 3) (t : BitVec 1) (n : BitVec 5) : Bool :=
  k.toNat ≤ 4 && o.toNat ≤ 3 && (!(k == 2 || k == 3) || o == 0) && (t == 0 || n.toNat < 16)

/-- A placement names a mill and team slots of it (R3, R182). -/
def Placement.wf (p : Placement) : Bool :=
  p.mill < 512 && p.slots.all (· < 64) && p.wpRow < 512 && p.saves.all (· < 0x200000)

/-- A step entry names a line, a module and a region (R132). -/
def StepEntry.wf (e : StepEntry) : Bool :=
  e.data.length == 64 && e.src < 4096 && e.region < 256 && e.kind < 6 && e.line % 64 == 0 && e.line < 2 ^ 39

/-- The instruction's fields, or the event's arguments, are in range. DEDUCED: log 20. -/
def Instr.wellFormed : Instr → Bool
  | .sgets _ n => listedSystemRegister n
  | .ssets _ n => listedSystemRegister n
  | .sleep n => n != 0
  | .defer m => m != 3
  | .plot s => 1 ≤ s.toNat && s.toNat ≤ 5
  | .give g => g != 0
  | .take g => g != 0
  | .modeset _ r => roundingField r
  | .vadd _ _ _ w => widthField w
  | .vsub _ _ _ w => widthField w
  | .vmin _ _ _ _ w => widthField w
  | .vmax _ _ _ _ w => widthField w
  | .vcmp _ _ _ c => c.toNat ≤ 9
  | .fcmp _ _ _ c => c.toNat ≤ 7
  | .vlane _ k => k.toNat ≤ 3
  | .fadd _ _ _ r => roundingField r
  | .fsub _ _ _ r => roundingField r
  | .fmul _ _ _ r => roundingField r
  | .ffma _ _ _ r => roundingField r
  | .ffms _ _ _ r => roundingField r
  | .fdiv _ _ _ r => roundingField r
  | .fsqrt _ _ r => roundingField r
  | .hadd2 _ _ _ _ r => roundingField r
  | .hsub2 _ _ _ _ r => roundingField r
  | .hmul2 _ _ _ _ r => roundingField r
  | .hfma2 _ _ _ _ r => roundingField r
  | .hfms2 _ _ _ _ r => roundingField r
  | .cvt _ _ t f r => roundingField r && t != f
  | .ldg d _ _ _ sz => pairFor sz 3 d
  | .stg d _ _ _ sz => pairFor sz 3 d
  | .ldp d _ _ sz => pairFor sz 3 d
  | .stp d _ _ sz => pairFor sz 3 d
  | .lda d _ _ _ _ sz => pairFor sz 1 d
  | .stl d _ _ _ _ sz => pairFor sz 1 d
  | .atomAdd d _ _ _ _ _ sz => pairFor sz 1 d
  | .atomMin d _ _ _ _ _ sz => pairFor sz 1 d
  | .atomMax d _ _ _ _ _ sz => pairFor sz 1 d
  | .atomAnd d _ _ _ _ _ sz => pairFor sz 1 d
  | .atomOr d _ _ _ _ _ sz => pairFor sz 1 d
  | .atomXor d _ _ _ _ _ sz => pairFor sz 1 d
  | .atomXchg d _ _ _ _ sz => pairFor sz 1 d
  | .atomCas d _ _ _ _ sz => groupStart d (if sz == 1 then 4 else 2)
  | .claim _ _ b _ v => v == 1 || b == 0
  | .flow _ _ b all => all == 0 || b == 0
  | .acread _ _ w => w.toNat ≤ 3
  | .stepq _ k b => k.toNat ≤ 2 && (k != 0 || b == 0)
  | .coll n t _ _ o k => collField k o t n
  | .tldD _ _ b m => m == 1 || b == 0
  | .mma _ _ _ s _ => s.toNat ≤ 4
  | .ascale _ _ r => roundingField r
  | .abias _ _ r => roundingField r
  | .amov _ _ r => roundingField r
  | .amovQ _ _ _ r => roundingField r
  | .bankServe slice bank _ => slice < 512 && bank < 32
  | .stepPacket e => e.wf
  | .workgroupPlace vd p => vd < 256 && p.wf
  | .dequeStart mill p => mill < 512 && p.wf
  | .teamResume _ p => p.wf
  | .portStateChange port _ _ n => port < 16 && n < 4096
  | .pwinWrite p _ => p < 32
  | .addressSpaceRootWrite a _ _ => a < 4096
  | .stepRegionWrite g i _ => g < 256 && i < 4
  | .vdstepWrite vd _ => vd < 256
  | .lqbaseWrite vd q _ => vd < 256 && q < 16
  | .kcmdLoad p _ => p < 32
  | .kcmdDestroy p _ => p < 32
  | .peerUpSet m => m < 4096
  | .peerDown m => m < 4096
  | .routeWrite m _ _ => m < 4096
  | .registerWrite _ n _ => n == 4 || n == 8
  | .millstoneOperationComplete m => m < 512
  | .sadd _ _ _ => true
  | .ssub _ _ _ => true
  | .smul _ _ _ => true
  | .smulh _ _ _ => true
  | .smulhu _ _ _ => true
  | .sdiv _ _ _ => true
  | .sdivu _ _ _ => true
  | .srem _ _ _ => true
  | .sremu _ _ _ => true
  | .sand _ _ _ => true
  | .sor _ _ _ => true
  | .sxor _ _ _ => true
  | .sshl _ _ _ => true
  | .sshr _ _ _ => true
  | .ssar _ _ _ => true
  | .smin _ _ _ => true
  | .smax _ _ _ => true
  | .sminu _ _ _ => true
  | .smaxu _ _ _ => true
  | .sslt _ _ _ => true
  | .ssltu _ _ _ => true
  | .sseq _ _ _ => true
  | .smov _ _ => true
  | .sclz _ _ => true
  | .spopc _ _ => true
  | .saddi _ _ _ => true
  | .sandi _ _ _ => true
  | .sori _ _ _ => true
  | .sxori _ _ _ => true
  | .sshli _ _ _ => true
  | .sshri _ _ _ => true
  | .ssari _ _ _ => true
  | .sslti _ _ _ => true
  | .slui _ _ => true
  | .sluih _ _ => true
  | .slea _ _ => true
  | .sld _ _ _ _ _ => true
  | .sst _ _ _ _ _ => true
  | .bra _ => true
  | .call _ => true
  | .jmp _ _ => true
  | .jmpl _ _ _ => true
  | .ret => true
  | .bsz _ _ => true
  | .bsnz _ _ => true
  | .bany _ _ => true
  | .ball _ _ => true
  | .bnone _ _ => true
  | .ifp _ => true
  | .ifpN _ => true
  | .maskElse => true
  | .endif => true
  | .mset _ => true
  | .mget _ => true
  | .barArrive => true
  | .barWait => true
  | .barSync => true
  | .exit => true
  | .yield => true
  | .nop => true
  | .fbpt _ => true
  | .rdv _ => true
  | .fork _ _ => true
  | .join _ _ => true
  | .modeclr _ => true
  | .time _ => true
  | .vmul _ _ _ => true
  | .vmulHi _ _ _ => true
  | .vmulHiu _ _ _ => true
  | .vmad _ _ _ => true
  | .vdiv _ _ _ => true
  | .vdivU _ _ _ => true
  | .vrem _ _ _ => true
  | .vremU _ _ _ => true
  | .vand _ _ _ => true
  | .vor _ _ _ => true
  | .vxor _ _ _ => true
  | .vandn _ _ _ => true
  | .vshl _ _ _ => true
  | .vshr _ _ _ => true
  | .vshrA _ _ _ => true
  | .vabs _ _ => true
  | .vneg _ _ => true
  | .vclz _ _ => true
  | .vpopc _ _ => true
  | .vbrev _ _ => true
  | .vffs _ _ => true
  | .vbfx _ _ _ => true
  | .vbfxS _ _ _ => true
  | .vbfi _ _ _ => true
  | .vsel _ _ _ _ => true
  | .vaddi _ _ _ => true
  | .vandi _ _ _ => true
  | .vori _ _ _ => true
  | .vxori _ _ _ => true
  | .vshli _ _ _ => true
  | .vshri _ _ _ => true
  | .vsari _ _ _ => true
  | .vmovi _ _ _ => true
  | .vmovs _ _ => true
  | .vmovsHi _ _ => true
  | .vlea _ _ _ _ => true
  | .vmuli _ _ _ => true
  | .fmin _ _ _ => true
  | .fmax _ _ _ => true
  | .fabs _ _ => true
  | .fneg _ _ => true
  | .fcpsgn _ _ _ => true
  | .fclass _ _ => true
  | .frcp _ _ => true
  | .frsq _ _ => true
  | .fex2 _ _ => true
  | .flg2 _ _ => true
  | .fsin _ _ => true
  | .fcos _ _ => true
  | .ftanh _ _ => true
  | .hmin2 _ _ _ _ => true
  | .hmax2 _ _ _ _ => true
  | .rnd _ => true
  | .rndLog _ => true
  | .hrnd _ _ _ => true
  | .packH _ _ _ => true
  | .packB _ _ _ => true
  | .unpackH _ _ _ => true
  | .unpackB _ _ _ => true
  | .shflIdx _ _ _ => true
  | .shflUp _ _ _ => true
  | .shflDown _ _ _ => true
  | .shflXor _ _ _ => true
  | .voteAny _ _ => true
  | .voteAll _ _ => true
  | .voteEq _ _ => true
  | .vred _ _ _ => true
  | .vscan _ _ _ => true
  | .matchBits _ _ _ => true
  | .matchFloat _ _ _ => true
  | .bcast _ _ _ => true
  | .sread _ _ _ => true
  | .fence _ => true
  | .lcinv => true
  | .pref _ _ => true
  | .atomFadd _ _ _ _ _ _ => true
  | .unclaim _ => true
  | .clstat _ _ => true
  | .acarm _ _ => true
  | .acwait _ _ => true
  | .acadd _ _ => true
  | .acrst _ => true
  | .step => true
  | .grdy => true
  | .gsubmit _ _ => true
  | .a2av _ _ => true
  | .tld _ _ _ _ => true
  | .tst _ _ _ => true
  | .tstD _ _ => true
  | .aclr _ => true
  | .ttrn _ _ => true
  | .mlease _ => true
  | .mrels => true
  | .tzero _ => true
  | .eret => true
  | .tlbinv _ => true
  | .tlbinvAll => true
  | .keyld _ _ => true
  | .keydel _ => true
  | .pquota _ _ _ => true
  | .csrr _ _ => true
  | .csrw _ _ => true
  | .halt => true
  | .trap _ => true
  | .brk _ => true
  | .vmovC _ _ => true
  | .vaddC _ _ => true
  | .vsubC _ _ => true
  | .vmulC _ _ => true
  | .vandC _ _ => true
  | .vorC _ _ => true
  | .vxorC _ _ => true
  | .vshlC _ _ => true
  | .vshrC _ _ => true
  | .vshrAC _ _ => true
  | .faddC _ _ => true
  | .hadd2Bf16C _ _ => true
  | .fsubC _ _ => true
  | .hsub2Bf16C _ _ => true
  | .fmulC _ _ => true
  | .hmul2Bf16C _ _ => true
  | .vminC _ _ => true
  | .vminUC _ _ => true
  | .vmaxC _ _ => true
  | .vmaxUC _ _ => true
  | .fminC _ _ => true
  | .hmin2Bf16C _ _ => true
  | .fmaxC _ _ => true
  | .hmax2Bf16C _ _ => true
  | .sleepExpiry _ => true
  | .claimHeld _ _ => true
  | .flowStart _ => true
  | .closureRun _ => true
  | .memoryRequestComplete _ _ => true
  | .walk _ => true
  | .basinRebuildDone _ _ => true
  | .migrateOnTouchCopyDone _ => true
  | .migrateOnTouchInvalAck _ => true
  | .migrationCommand _ => true
  | .optMigrationCopyDone _ => true
  | .optMigrationSwapDone _ => true
  | .optMigrationDrainAck _ => true
  | .keyRetire _ => true
  | .peerReservation _ _ addresses sizes => addresses.length == sizes.length
  | .flowChunkAccept _ _ => true
  | .promotionRequest _ => true
  | .promotionAnswer _ => true
  | .stepGrant _ _ _ _ _ => true
  | .peerLoadRequest _ _ _ _ _ => true
  | .boundaryEndMessage _ _ _ _ => true
  | .enterBarrierDone _ _ => true
  | .commitDone _ _ => true
  | .commitBarrierDone _ _ => true
  | .reductionSlotGrant _ => true
  | .collectiveLand _ _ _ => true
  | .a2avCounts _ _ => true
  | .lossNotice _ _ => true
  | .fabricFlitReceive _ _ _ _ => true
  | .congestionNotice _ => true
  | .congestionRecovery _ => true
  | .fabricLaunchPacket _ _ _ => true
  | .fabricLaunchRefusal _ _ _ => true
  | .tailLineSnoop _ _ => true
  | .submissionRead _ _ => true
  | .submission _ => true
  | .copyNodeStart _ _ => true
  | .dequeSteal _ _ => true
  | .sliceExpiry _ => true
  | .preemptSave _ => true
  | .trapEntry _ => true
  | .faultRecordWrite _ => true
  | .eventRecordWrite _ => true
  | .invcmdOnePage _ _ _ => true
  | .invcmdAsid _ _ => true
  | .invcmdVirtualDevice _ => true
  | .invalidationAcknowledge _ => true
  | .scrctlGo _ => true
  | .scrubBlock => true
  | .stepRegionEnableDone _ => true
  | .vdcmdResume _ _ => true
  | .vdcmdPreempt _ => true
  | .vdfrespReissue _ _ => true
  | .vdfrespContinue _ _ => true
  | .vdfrespRetire _ _ => true
  | .vdtbaseWrite _ _ => true
  | .bootcmdRetry _ => true
  | .moduleStart _ => true
  | .attcmdWrite _ => true
  | .attestationComplete _ => true
  | .fwcmdWrite _ => true
  | .firmwareUpdateComplete length signature => signature + 29792 ≤ length
  | .unitStop _ _ => true

end Sys2Proof
end

