-- ==== Sys2Proof/Decode.lean ====
section
/-! DEFINITION. The decoder (R209 to R229), total on any bytes, and the encoder. The rows below are the encoding
tables of R219 to R227 (and R82, R90, R96, R98, R126 for the engines, R217 for the compact form): for each
instruction its fixed fields and the fields it reads. -/

namespace Sys2Proof

/-- Why a bit pattern selects no instruction (R213 steps 2 to 5). -/
inductive DecodeError where
  /-- fewer bytes than the instruction has -/
  | truncated
  /-- the major opcode is reserved (R218) -/
  | reservedOpcode
  /-- a function value, a field combination or a zero field that is not allowed (R219 to R227) -/
  | reservedFunction
  /-- a field value out of the range its chapter gives (R191, R214, R219 to R227) -/
  | reservedValue
  deriving DecidableEq, Repr

/-- Bits [hi:lo] of `w` (R5). -/
def fieldNat (w hi lo : Nat) : Nat := w / 2 ^ lo % 2 ^ (hi - lo + 1)

/-- Bits [hi:lo] of `w`, as a field. -/
def fieldBV (w hi lo : Nat) : BitVec (hi - lo + 1) := BitVec.ofNat _ (w / 2 ^ lo)

/-- One row of the encoding tables: the fixed fields (high bit, low bit, value), and the reading. -/
structure Row where
  fixed : List (Nat × Nat × Nat)
  read : Nat → Instr

/-- Every fixed field of the row stands in `w`. -/
def Row.fits (r : Row) (w : Nat) : Bool := r.fixed.all fun (h, l, v) => fieldNat w h l == v

/-- Rows of the major opcodes 0x00 to 0x0F. -/
def rowsUniform0 : List Row := [
  ⟨[(7, 0, 1), (31, 26, 0)], fun w => .sadd (fieldBV w 13 8) (fieldBV w 19 14) (fieldBV w 25 20)⟩,
  ⟨[(7, 0, 1), (31, 26, 1)], fun w => .ssub (fieldBV w 13 8) (fieldBV w 19 14) (fieldBV w 25 20)⟩,
  ⟨[(7, 0, 1), (31, 26, 2)], fun w => .smul (fieldBV w 13 8) (fieldBV w 19 14) (fieldBV w 25 20)⟩,
  ⟨[(7, 0, 1), (31, 26, 3)], fun w => .smulh (fieldBV w 13 8) (fieldBV w 19 14) (fieldBV w 25 20)⟩,
  ⟨[(7, 0, 1), (31, 26, 4)], fun w => .smulhu (fieldBV w 13 8) (fieldBV w 19 14) (fieldBV w 25 20)⟩,
  ⟨[(7, 0, 1), (31, 26, 5)], fun w => .sdiv (fieldBV w 13 8) (fieldBV w 19 14) (fieldBV w 25 20)⟩,
  ⟨[(7, 0, 1), (31, 26, 6)], fun w => .sdivu (fieldBV w 13 8) (fieldBV w 19 14) (fieldBV w 25 20)⟩,
  ⟨[(7, 0, 1), (31, 26, 7)], fun w => .srem (fieldBV w 13 8) (fieldBV w 19 14) (fieldBV w 25 20)⟩,
  ⟨[(7, 0, 1), (31, 26, 8)], fun w => .sremu (fieldBV w 13 8) (fieldBV w 19 14) (fieldBV w 25 20)⟩,
  ⟨[(7, 0, 1), (31, 26, 9)], fun w => .sand (fieldBV w 13 8) (fieldBV w 19 14) (fieldBV w 25 20)⟩,
  ⟨[(7, 0, 1), (31, 26, 10)], fun w => .sor (fieldBV w 13 8) (fieldBV w 19 14) (fieldBV w 25 20)⟩,
  ⟨[(7, 0, 1), (31, 26, 11)], fun w => .sxor (fieldBV w 13 8) (fieldBV w 19 14) (fieldBV w 25 20)⟩,
  ⟨[(7, 0, 1), (31, 26, 12)], fun w => .sshl (fieldBV w 13 8) (fieldBV w 19 14) (fieldBV w 25 20)⟩,
  ⟨[(7, 0, 1), (31, 26, 13)], fun w => .sshr (fieldBV w 13 8) (fieldBV w 19 14) (fieldBV w 25 20)⟩,
  ⟨[(7, 0, 1), (31, 26, 14)], fun w => .ssar (fieldBV w 13 8) (fieldBV w 19 14) (fieldBV w 25 20)⟩,
  ⟨[(7, 0, 1), (31, 26, 15)], fun w => .smin (fieldBV w 13 8) (fieldBV w 19 14) (fieldBV w 25 20)⟩,
  ⟨[(7, 0, 1), (31, 26, 16)], fun w => .smax (fieldBV w 13 8) (fieldBV w 19 14) (fieldBV w 25 20)⟩,
  ⟨[(7, 0, 1), (31, 26, 17)], fun w => .sminu (fieldBV w 13 8) (fieldBV w 19 14) (fieldBV w 25 20)⟩,
  ⟨[(7, 0, 1), (31, 26, 18)], fun w => .smaxu (fieldBV w 13 8) (fieldBV w 19 14) (fieldBV w 25 20)⟩,
  ⟨[(7, 0, 1), (31, 26, 19)], fun w => .sslt (fieldBV w 13 8) (fieldBV w 19 14) (fieldBV w 25 20)⟩,
  ⟨[(7, 0, 1), (31, 26, 20)], fun w => .ssltu (fieldBV w 13 8) (fieldBV w 19 14) (fieldBV w 25 20)⟩,
  ⟨[(7, 0, 1), (31, 26, 21)], fun w => .sseq (fieldBV w 13 8) (fieldBV w 19 14) (fieldBV w 25 20)⟩,
  ⟨[(7, 0, 1), (31, 20, 1408)], fun w => .smov (fieldBV w 13 8) (fieldBV w 19 14)⟩,
  ⟨[(7, 0, 1), (31, 20, 1472)], fun w => .sclz (fieldBV w 13 8) (fieldBV w 19 14)⟩]

/-- Rows of the major opcodes 0x00 to 0x0F. -/
def rowsUniform1 : List Row := [
  ⟨[(7, 0, 1), (31, 20, 1536)], fun w => .spopc (fieldBV w 13 8) (fieldBV w 19 14)⟩,
  ⟨[(7, 0, 3)], fun w => .saddi (fieldBV w 13 8) (fieldBV w 19 14) (fieldBV w 31 20)⟩,
  ⟨[(7, 0, 5)], fun w => .sandi (fieldBV w 13 8) (fieldBV w 19 14) (fieldBV w 31 20)⟩,
  ⟨[(7, 0, 7)], fun w => .sori (fieldBV w 13 8) (fieldBV w 19 14) (fieldBV w 31 20)⟩,
  ⟨[(7, 0, 9)], fun w => .sxori (fieldBV w 13 8) (fieldBV w 19 14) (fieldBV w 31 20)⟩,
  ⟨[(7, 0, 11), (31, 26, 0)], fun w => .sshli (fieldBV w 13 8) (fieldBV w 19 14) (fieldBV w 25 20)⟩,
  ⟨[(7, 0, 13), (31, 26, 0)], fun w => .sshri (fieldBV w 13 8) (fieldBV w 19 14) (fieldBV w 25 20)⟩,
  ⟨[(7, 0, 15), (31, 26, 0)], fun w => .ssari (fieldBV w 13 8) (fieldBV w 19 14) (fieldBV w 25 20)⟩,
  ⟨[(7, 0, 23)], fun w => .sslti (fieldBV w 13 8) (fieldBV w 19 14) (fieldBV w 31 20)⟩,
  ⟨[(7, 0, 17)], fun w => .slui (fieldBV w 13 8) (fieldBV w 31 14)⟩,
  ⟨[(7, 0, 19)], fun w => .sluih (fieldBV w 13 8) (fieldBV w 31 14)⟩,
  ⟨[(7, 0, 21)], fun w => .slea (fieldBV w 13 8) (fieldBV w 31 14)⟩,
  ⟨[(7, 0, 25)], fun w => .sld (fieldBV w 13 8) (fieldBV w 19 14) (fieldBV w 28 20) (fieldBV w 29 29) (fieldBV w 31 30)⟩,
  ⟨[(7, 0, 27)], fun w => .sst (fieldBV w 13 8) (fieldBV w 19 14) (fieldBV w 28 20) (fieldBV w 29 29) (fieldBV w 31 30)⟩,
  ⟨[(7, 0, 29), (19, 14, 0)], fun w => .sgets (fieldBV w 13 8) (fieldBV w 31 20)⟩,
  ⟨[(13, 0, 31)], fun w => .ssets (fieldBV w 19 14) (fieldBV w 31 20)⟩]

/-- Rows of the major opcodes 0x10 to 0x1E. -/
def rowsControl0 : List Row := [
  ⟨[(7, 0, 33)], fun w => .bra (fieldBV w 31 8)⟩,
  ⟨[(7, 0, 35)], fun w => .call (fieldBV w 31 8)⟩,
  ⟨[(13, 0, 37), (31, 31, 0)], fun w => .jmp (fieldBV w 19 14) (fieldBV w 30 20)⟩,
  ⟨[(7, 0, 37), (31, 31, 1)], fun w => .jmpl (fieldBV w 13 8) (fieldBV w 19 14) (fieldBV w 30 20)⟩,
  ⟨[(31, 0, 43)], fun _ => .ret⟩,
  ⟨[(7, 0, 39), (14, 14, 0)], fun w => .bsz (fieldBV w 13 8) (fieldBV w 31 15)⟩,
  ⟨[(7, 0, 39), (14, 14, 1)], fun w => .bsnz (fieldBV w 13 8) (fieldBV w 31 15)⟩,
  ⟨[(7, 0, 41), (13, 12, 0)], fun w => .bany (fieldBV w 11 8) (fieldBV w 31 14)⟩,
  ⟨[(7, 0, 41), (13, 12, 1)], fun w => .ball (fieldBV w 11 8) (fieldBV w 31 14)⟩,
  ⟨[(7, 0, 41), (13, 12, 2)], fun w => .bnone (fieldBV w 11 8) (fieldBV w 31 14)⟩,
  ⟨[(11, 0, 45), (31, 16, 0)], fun w => .ifp (fieldBV w 15 12)⟩,
  ⟨[(11, 0, 301), (31, 16, 0)], fun w => .ifpN (fieldBV w 15 12)⟩,
  ⟨[(31, 0, 557)], fun _ => .maskElse⟩,
  ⟨[(31, 0, 813)], fun _ => .endif⟩,
  ⟨[(11, 0, 1069), (31, 16, 0)], fun w => .mset (fieldBV w 15 12)⟩,
  ⟨[(11, 0, 1325), (31, 16, 0)], fun w => .mget (fieldBV w 15 12)⟩,
  ⟨[(31, 0, 47)], fun _ => .barArrive⟩,
  ⟨[(31, 0, 303)], fun _ => .barWait⟩,
  ⟨[(31, 0, 559)], fun _ => .barSync⟩,
  ⟨[(31, 0, 49)], fun _ => .exit⟩,
  ⟨[(31, 0, 305)], fun _ => .yield⟩,
  ⟨[(31, 0, 561)], fun _ => .nop⟩,
  ⟨[(11, 0, 817)], fun w => .sleep (fieldBV w 31 12)⟩,
  ⟨[(9, 0, 51), (31, 12, 0)], fun w => .defer (fieldBV w 11 10)⟩]

/-- Rows of the major opcodes 0x10 to 0x1E. -/
def rowsControl1 : List Row := [
  ⟨[(19, 0, 307)], fun w => .fbpt (fieldBV w 31 20)⟩,
  ⟨[(7, 0, 53), (31, 11, 0)], fun w => .plot (fieldBV w 10 8)⟩,
  ⟨[(9, 0, 55), (31, 12, 0)], fun w => .rdv (fieldBV w 11 10)⟩,
  ⟨[(9, 0, 311), (31, 14, 0)], fun w => .give (fieldBV w 13 10)⟩,
  ⟨[(9, 0, 567), (31, 14, 0)], fun w => .take (fieldBV w 13 10)⟩,
  ⟨[(7, 0, 57), (31, 20, 0)], fun w => .fork (fieldBV w 13 8) (fieldBV w 19 14)⟩,
  ⟨[(7, 0, 57), (31, 20, 64)], fun w => .join (fieldBV w 13 8) (fieldBV w 19 14)⟩,
  ⟨[(8, 0, 59), (31, 18, 0)], fun w => .modeset (fieldBV w 14 9) (fieldBV w 17 15)⟩,
  ⟨[(8, 0, 315), (31, 15, 0)], fun w => .modeclr (fieldBV w 14 9)⟩,
  ⟨[(7, 0, 61), (31, 14, 0)], fun w => .time (fieldBV w 13 8)⟩]

/-- Rows of the major opcodes 0x20 to 0x3C. -/
def rowsLaneInt0 : List Row := [
  ⟨[(7, 0, 65), (29, 29, 0)], fun w => .vadd (fieldBV w 14 8) (fieldBV w 21 15) (fieldBV w 28 22) (fieldBV w 31 30)⟩,
  ⟨[(7, 0, 67), (29, 29, 0)], fun w => .vsub (fieldBV w 14 8) (fieldBV w 21 15) (fieldBV w 28 22) (fieldBV w 31 30)⟩,
  ⟨[(7, 0, 69), (31, 29, 0)], fun w => .vmul (fieldBV w 14 8) (fieldBV w 21 15) (fieldBV w 28 22)⟩,
  ⟨[(7, 0, 69), (31, 29, 1)], fun w => .vmulHi (fieldBV w 14 8) (fieldBV w 21 15) (fieldBV w 28 22)⟩,
  ⟨[(7, 0, 69), (31, 29, 2)], fun w => .vmulHiu (fieldBV w 14 8) (fieldBV w 21 15) (fieldBV w 28 22)⟩,
  ⟨[(7, 0, 71), (31, 29, 0)], fun w => .vmad (fieldBV w 14 8) (fieldBV w 21 15) (fieldBV w 28 22)⟩,
  ⟨[(7, 0, 73), (31, 29, 0)], fun w => .vdiv (fieldBV w 14 8) (fieldBV w 21 15) (fieldBV w 28 22)⟩,
  ⟨[(7, 0, 73), (31, 29, 1)], fun w => .vdivU (fieldBV w 14 8) (fieldBV w 21 15) (fieldBV w 28 22)⟩,
  ⟨[(7, 0, 75), (31, 29, 0)], fun w => .vrem (fieldBV w 14 8) (fieldBV w 21 15) (fieldBV w 28 22)⟩,
  ⟨[(7, 0, 75), (31, 29, 1)], fun w => .vremU (fieldBV w 14 8) (fieldBV w 21 15) (fieldBV w 28 22)⟩,
  ⟨[(7, 0, 77), (31, 29, 0)], fun w => .vand (fieldBV w 14 8) (fieldBV w 21 15) (fieldBV w 28 22)⟩,
  ⟨[(7, 0, 79), (31, 29, 0)], fun w => .vor (fieldBV w 14 8) (fieldBV w 21 15) (fieldBV w 28 22)⟩,
  ⟨[(7, 0, 81), (31, 29, 0)], fun w => .vxor (fieldBV w 14 8) (fieldBV w 21 15) (fieldBV w 28 22)⟩,
  ⟨[(7, 0, 83), (31, 29, 0)], fun w => .vandn (fieldBV w 14 8) (fieldBV w 21 15) (fieldBV w 28 22)⟩,
  ⟨[(7, 0, 85), (31, 29, 0)], fun w => .vshl (fieldBV w 14 8) (fieldBV w 21 15) (fieldBV w 28 22)⟩,
  ⟨[(7, 0, 87), (31, 29, 0)], fun w => .vshr (fieldBV w 14 8) (fieldBV w 21 15) (fieldBV w 28 22)⟩,
  ⟨[(7, 0, 87), (31, 29, 1)], fun w => .vshrA (fieldBV w 14 8) (fieldBV w 21 15) (fieldBV w 28 22)⟩,
  ⟨[(7, 0, 89)], fun w => .vmin (fieldBV w 14 8) (fieldBV w 21 15) (fieldBV w 28 22) (fieldBV w 29 29) (fieldBV w 31 30)⟩,
  ⟨[(7, 0, 91)], fun w => .vmax (fieldBV w 14 8) (fieldBV w 21 15) (fieldBV w 28 22) (fieldBV w 29 29) (fieldBV w 31 30)⟩,
  ⟨[(7, 0, 93), (31, 22, 0)], fun w => .vabs (fieldBV w 14 8) (fieldBV w 21 15)⟩,
  ⟨[(7, 0, 93), (31, 22, 128)], fun w => .vneg (fieldBV w 14 8) (fieldBV w 21 15)⟩,
  ⟨[(7, 0, 95), (31, 22, 0)], fun w => .vclz (fieldBV w 14 8) (fieldBV w 21 15)⟩,
  ⟨[(7, 0, 95), (31, 22, 128)], fun w => .vpopc (fieldBV w 14 8) (fieldBV w 21 15)⟩,
  ⟨[(7, 0, 95), (31, 22, 256)], fun w => .vbrev (fieldBV w 14 8) (fieldBV w 21 15)⟩]

/-- Rows of the major opcodes 0x20 to 0x3C. -/
def rowsLaneInt1 : List Row := [
  ⟨[(7, 0, 95), (31, 22, 384)], fun w => .vffs (fieldBV w 14 8) (fieldBV w 21 15)⟩,
  ⟨[(7, 0, 97), (31, 29, 0)], fun w => .vbfx (fieldBV w 14 8) (fieldBV w 21 15) (fieldBV w 28 22)⟩,
  ⟨[(7, 0, 97), (31, 29, 1)], fun w => .vbfxS (fieldBV w 14 8) (fieldBV w 21 15) (fieldBV w 28 22)⟩,
  ⟨[(7, 0, 99), (31, 29, 0)], fun w => .vbfi (fieldBV w 14 8) (fieldBV w 21 15) (fieldBV w 28 22)⟩,
  ⟨[(7, 0, 101)], fun w => .vsel (fieldBV w 14 8) (fieldBV w 21 15) (fieldBV w 28 22) (fieldBV w 31 29)⟩,
  ⟨[(7, 0, 103)], fun w => .vcmp (fieldBV w 11 8) (fieldBV w 18 12) (fieldBV w 25 19) (fieldBV w 31 26)⟩,
  ⟨[(7, 0, 105)], fun w => .vaddi (fieldBV w 14 8) (fieldBV w 21 15) (fieldBV w 31 22)⟩,
  ⟨[(7, 0, 107)], fun w => .vandi (fieldBV w 14 8) (fieldBV w 21 15) (fieldBV w 31 22)⟩,
  ⟨[(7, 0, 109)], fun w => .vori (fieldBV w 14 8) (fieldBV w 21 15) (fieldBV w 31 22)⟩,
  ⟨[(7, 0, 111)], fun w => .vxori (fieldBV w 14 8) (fieldBV w 21 15) (fieldBV w 31 22)⟩,
  ⟨[(7, 0, 113), (31, 27, 0)], fun w => .vshli (fieldBV w 14 8) (fieldBV w 21 15) (fieldBV w 26 22)⟩,
  ⟨[(7, 0, 113), (31, 27, 8)], fun w => .vshri (fieldBV w 14 8) (fieldBV w 21 15) (fieldBV w 26 22)⟩,
  ⟨[(7, 0, 113), (31, 27, 16)], fun w => .vsari (fieldBV w 14 8) (fieldBV w 21 15) (fieldBV w 26 22)⟩,
  ⟨[(7, 0, 115), (21, 21, 0)], fun w => .vmovi (fieldBV w 14 8) (fieldBV w 20 15) (fieldBV w 31 22)⟩,
  ⟨[(7, 0, 115), (31, 21, 1)], fun w => .vmovs (fieldBV w 14 8) (fieldBV w 20 15)⟩,
  ⟨[(7, 0, 115), (31, 21, 3)], fun w => .vmovsHi (fieldBV w 14 8) (fieldBV w 20 15)⟩,
  ⟨[(7, 0, 117), (21, 15, 0)], fun w => .vlane (fieldBV w 14 8) (fieldBV w 31 22)⟩,
  ⟨[(7, 0, 119)], fun w => .vlea (fieldBV w 14 8) (fieldBV w 21 15) (fieldBV w 29 22) (fieldBV w 31 30)⟩,
  ⟨[(7, 0, 121)], fun w => .vmuli (fieldBV w 14 8) (fieldBV w 21 15) (fieldBV w 31 22)⟩]

/-- Rows of the major opcodes 0x40 to 0x54. -/
def rowsFloat0 : List Row := [
  ⟨[(7, 0, 129)], fun w => .fadd (fieldBV w 14 8) (fieldBV w 21 15) (fieldBV w 28 22) (fieldBV w 31 29)⟩,
  ⟨[(7, 0, 131)], fun w => .fsub (fieldBV w 14 8) (fieldBV w 21 15) (fieldBV w 28 22) (fieldBV w 31 29)⟩,
  ⟨[(7, 0, 133)], fun w => .fmul (fieldBV w 14 8) (fieldBV w 21 15) (fieldBV w 28 22) (fieldBV w 31 29)⟩,
  ⟨[(7, 0, 135)], fun w => .ffma (fieldBV w 14 8) (fieldBV w 21 15) (fieldBV w 28 22) (fieldBV w 31 29)⟩,
  ⟨[(7, 0, 137)], fun w => .ffms (fieldBV w 14 8) (fieldBV w 21 15) (fieldBV w 28 22) (fieldBV w 31 29)⟩,
  ⟨[(7, 0, 147)], fun w => .fdiv (fieldBV w 14 8) (fieldBV w 21 15) (fieldBV w 28 22) (fieldBV w 31 29)⟩,
  ⟨[(7, 0, 149), (28, 22, 0)], fun w => .fsqrt (fieldBV w 14 8) (fieldBV w 21 15) (fieldBV w 31 29)⟩,
  ⟨[(7, 0, 139), (31, 29, 0)], fun w => .fmin (fieldBV w 14 8) (fieldBV w 21 15) (fieldBV w 28 22)⟩,
  ⟨[(7, 0, 139), (31, 29, 1)], fun w => .fmax (fieldBV w 14 8) (fieldBV w 21 15) (fieldBV w 28 22)⟩,
  ⟨[(7, 0, 141), (31, 22, 0)], fun w => .fabs (fieldBV w 14 8) (fieldBV w 21 15)⟩,
  ⟨[(7, 0, 141), (31, 22, 128)], fun w => .fneg (fieldBV w 14 8) (fieldBV w 21 15)⟩,
  ⟨[(7, 0, 141), (31, 29, 2)], fun w => .fcpsgn (fieldBV w 14 8) (fieldBV w 21 15) (fieldBV w 28 22)⟩,
  ⟨[(7, 0, 143)], fun w => .fcmp (fieldBV w 11 8) (fieldBV w 18 12) (fieldBV w 25 19) (fieldBV w 31 26)⟩,
  ⟨[(7, 0, 145), (31, 22, 0)], fun w => .fclass (fieldBV w 14 8) (fieldBV w 21 15)⟩,
  ⟨[(7, 0, 151), (31, 22, 0)], fun w => .frcp (fieldBV w 14 8) (fieldBV w 21 15)⟩,
  ⟨[(7, 0, 151), (31, 22, 128)], fun w => .frsq (fieldBV w 14 8) (fieldBV w 21 15)⟩,
  ⟨[(7, 0, 151), (31, 22, 256)], fun w => .fex2 (fieldBV w 14 8) (fieldBV w 21 15)⟩,
  ⟨[(7, 0, 151), (31, 22, 384)], fun w => .flg2 (fieldBV w 14 8) (fieldBV w 21 15)⟩,
  ⟨[(7, 0, 151), (31, 22, 512)], fun w => .fsin (fieldBV w 14 8) (fieldBV w 21 15)⟩,
  ⟨[(7, 0, 151), (31, 22, 640)], fun w => .fcos (fieldBV w 14 8) (fieldBV w 21 15)⟩,
  ⟨[(7, 0, 151), (31, 22, 768)], fun w => .ftanh (fieldBV w 14 8) (fieldBV w 21 15)⟩,
  ⟨[(7, 0, 153), (21, 21, 0)], fun w => .hadd2 (fieldBV w 14 8) (fieldBV w 20 15) (fieldBV w 27 22) (fieldBV w 28 28) (fieldBV w 31 29)⟩,
  ⟨[(7, 0, 153), (21, 21, 1)], fun w => .hsub2 (fieldBV w 14 8) (fieldBV w 20 15) (fieldBV w 27 22) (fieldBV w 28 28) (fieldBV w 31 29)⟩,
  ⟨[(7, 0, 155), (21, 21, 0)], fun w => .hmul2 (fieldBV w 14 8) (fieldBV w 20 15) (fieldBV w 27 22) (fieldBV w 28 28) (fieldBV w 31 29)⟩]

/-- Rows of the major opcodes 0x40 to 0x54. -/
def rowsFloat1 : List Row := [
  ⟨[(7, 0, 157), (21, 21, 0)], fun w => .hfma2 (fieldBV w 14 8) (fieldBV w 20 15) (fieldBV w 27 22) (fieldBV w 28 28) (fieldBV w 31 29)⟩,
  ⟨[(7, 0, 157), (21, 21, 1)], fun w => .hfms2 (fieldBV w 14 8) (fieldBV w 20 15) (fieldBV w 27 22) (fieldBV w 28 28) (fieldBV w 31 29)⟩,
  ⟨[(7, 0, 159), (21, 21, 0), (31, 29, 0)], fun w => .hmin2 (fieldBV w 14 8) (fieldBV w 20 15) (fieldBV w 27 22) (fieldBV w 28 28)⟩,
  ⟨[(7, 0, 159), (21, 21, 1), (31, 29, 0)], fun w => .hmax2 (fieldBV w 14 8) (fieldBV w 20 15) (fieldBV w 27 22) (fieldBV w 28 28)⟩,
  ⟨[(7, 0, 161), (22, 22, 0)], fun w => .cvt (fieldBV w 14 8) (fieldBV w 21 15) (fieldBV w 25 23) (fieldBV w 28 26) (fieldBV w 31 29)⟩,
  ⟨[(7, 0, 165), (31, 15, 0)], fun w => .rnd (fieldBV w 14 8)⟩,
  ⟨[(7, 0, 165), (31, 15, 16384)], fun w => .rndLog (fieldBV w 14 8)⟩,
  ⟨[(7, 0, 167), (31, 28, 0)], fun w => .hrnd (fieldBV w 14 8) (fieldBV w 21 15) (fieldBV w 27 22)⟩,
  ⟨[(7, 0, 169), (31, 29, 0)], fun w => .packH (fieldBV w 14 8) (fieldBV w 21 15) (fieldBV w 28 22)⟩,
  ⟨[(7, 0, 169), (31, 29, 1)], fun w => .packB (fieldBV w 14 8) (fieldBV w 21 15) (fieldBV w 28 22)⟩,
  ⟨[(7, 0, 169), (31, 29, 4)], fun w => .unpackH (fieldBV w 14 8) (fieldBV w 21 15) (fieldBV w 28 22)⟩,
  ⟨[(7, 0, 169), (31, 29, 5)], fun w => .unpackB (fieldBV w 14 8) (fieldBV w 21 15) (fieldBV w 28 22)⟩]

/-- Rows of the major opcodes 0x58 to 0x5E. -/
def rowsCross : List Row := [
  ⟨[(7, 0, 177), (31, 29, 0)], fun w => .shflIdx (fieldBV w 14 8) (fieldBV w 21 15) (fieldBV w 28 22)⟩,
  ⟨[(7, 0, 177), (31, 29, 1)], fun w => .shflUp (fieldBV w 14 8) (fieldBV w 21 15) (fieldBV w 28 22)⟩,
  ⟨[(7, 0, 177), (31, 29, 2)], fun w => .shflDown (fieldBV w 14 8) (fieldBV w 21 15) (fieldBV w 28 22)⟩,
  ⟨[(7, 0, 177), (31, 29, 3)], fun w => .shflXor (fieldBV w 14 8) (fieldBV w 21 15) (fieldBV w 28 22)⟩,
  ⟨[(7, 0, 179), (31, 16, 0)], fun w => .voteAny (fieldBV w 11 8) (fieldBV w 15 12)⟩,
  ⟨[(7, 0, 179), (31, 16, 1024)], fun w => .voteAll (fieldBV w 11 8) (fieldBV w 15 12)⟩,
  ⟨[(7, 0, 179), (31, 19, 256)], fun w => .voteEq (fieldBV w 11 8) (fieldBV w 18 12)⟩,
  ⟨[(7, 0, 181), (28, 22, 0)], fun w => .vred (fieldBV w 14 8) (fieldBV w 21 15) (fieldBV w 31 29)⟩,
  ⟨[(7, 0, 183), (28, 22, 0)], fun w => .vscan (fieldBV w 14 8) (fieldBV w 21 15) (fieldBV w 31 29)⟩,
  ⟨[(7, 0, 185), (31, 29, 0)], fun w => .matchBits (fieldBV w 14 8) (fieldBV w 21 15) (fieldBV w 28 22)⟩,
  ⟨[(7, 0, 185), (31, 29, 1)], fun w => .matchFloat (fieldBV w 14 8) (fieldBV w 21 15) (fieldBV w 28 22)⟩,
  ⟨[(7, 0, 187), (31, 28, 0)], fun w => .bcast (fieldBV w 14 8) (fieldBV w 21 15) (fieldBV w 27 22)⟩,
  ⟨[(7, 0, 189), (14, 14, 0), (31, 28, 0)], fun w => .sread (fieldBV w 13 8) (fieldBV w 21 15) (fieldBV w 27 22)⟩]

/-- Rows of the major opcodes 0x60 to 0x6F. -/
def rowsMemory : List Row := [
  ⟨[(7, 0, 193)], fun w => .ldg (fieldBV w 14 8) (fieldBV w 20 15) (fieldBV w 27 21) (fieldBV w 29 28) (fieldBV w 31 30)⟩,
  ⟨[(7, 0, 195)], fun w => .stg (fieldBV w 14 8) (fieldBV w 20 15) (fieldBV w 27 21) (fieldBV w 29 28) (fieldBV w 31 30)⟩,
  ⟨[(7, 0, 197), (29, 28, 0)], fun w => .ldp (fieldBV w 14 8) (fieldBV w 20 15) (fieldBV w 27 21) (fieldBV w 31 30)⟩,
  ⟨[(7, 0, 199), (29, 28, 0)], fun w => .stp (fieldBV w 14 8) (fieldBV w 20 15) (fieldBV w 27 21) (fieldBV w 31 30)⟩,
  ⟨[(7, 0, 201)], fun w => .lda (fieldBV w 14 8) (fieldBV w 20 15) (fieldBV w 27 21) (fieldBV w 29 28) (fieldBV w 30 30) (fieldBV w 31 31)⟩,
  ⟨[(7, 0, 203)], fun w => .stl (fieldBV w 14 8) (fieldBV w 20 15) (fieldBV w 27 21) (fieldBV w 29 28) (fieldBV w 30 30) (fieldBV w 31 31)⟩,
  ⟨[(27, 0, 205), (31, 30, 0)], fun w => .fence (fieldBV w 29 28)⟩,
  ⟨[(31, 0, 461)], fun _ => .lcinv⟩,
  ⟨[(14, 0, 717), (31, 28, 0)], fun w => .pref (fieldBV w 20 15) (fieldBV w 27 21)⟩,
  ⟨[(7, 0, 207), (31, 31, 0)], fun w => .atomFadd (fieldBV w 14 8) (fieldBV w 20 15) (fieldBV w 26 21) (fieldBV w 27 27) (fieldBV w 29 28) (fieldBV w 30 30)⟩,
  ⟨[(7, 0, 209)], fun w => .atomAdd (fieldBV w 14 8) (fieldBV w 20 15) (fieldBV w 26 21) (fieldBV w 27 27) (fieldBV w 29 28) (fieldBV w 30 30) (fieldBV w 31 31)⟩,
  ⟨[(7, 0, 211)], fun w => .atomMin (fieldBV w 14 8) (fieldBV w 20 15) (fieldBV w 26 21) (fieldBV w 27 27) (fieldBV w 29 28) (fieldBV w 30 30) (fieldBV w 31 31)⟩,
  ⟨[(7, 0, 213)], fun w => .atomMax (fieldBV w 14 8) (fieldBV w 20 15) (fieldBV w 26 21) (fieldBV w 27 27) (fieldBV w 29 28) (fieldBV w 30 30) (fieldBV w 31 31)⟩,
  ⟨[(7, 0, 215)], fun w => .atomAnd (fieldBV w 14 8) (fieldBV w 20 15) (fieldBV w 26 21) (fieldBV w 27 27) (fieldBV w 29 28) (fieldBV w 30 30) (fieldBV w 31 31)⟩,
  ⟨[(7, 0, 217)], fun w => .atomOr (fieldBV w 14 8) (fieldBV w 20 15) (fieldBV w 26 21) (fieldBV w 27 27) (fieldBV w 29 28) (fieldBV w 30 30) (fieldBV w 31 31)⟩,
  ⟨[(7, 0, 219)], fun w => .atomXor (fieldBV w 14 8) (fieldBV w 20 15) (fieldBV w 26 21) (fieldBV w 27 27) (fieldBV w 29 28) (fieldBV w 30 30) (fieldBV w 31 31)⟩,
  ⟨[(7, 0, 221), (27, 27, 1)], fun w => .atomXchg (fieldBV w 14 8) (fieldBV w 20 15) (fieldBV w 26 21) (fieldBV w 29 28) (fieldBV w 30 30) (fieldBV w 31 31)⟩,
  ⟨[(7, 0, 223), (27, 27, 1)], fun w => .atomCas (fieldBV w 14 8) (fieldBV w 20 15) (fieldBV w 26 21) (fieldBV w 29 28) (fieldBV w 30 30) (fieldBV w 31 31)⟩]

/-- Rows of the major opcodes 0x70 to 0x77. -/
def rowsEngine : List Row := [
  ⟨[(7, 0, 225), (13, 12, 0), (31, 28, 0)], fun w => .claim (fieldBV w 11 8) (fieldBV w 19 14) (fieldBV w 25 20) (fieldBV w 26 26) (fieldBV w 27 27)⟩,
  ⟨[(7, 0, 227), (13, 12, 0), (31, 27, 0)], fun w => .flow (fieldBV w 11 8) (fieldBV w 19 14) (fieldBV w 25 20) (fieldBV w 26 26)⟩,
  ⟨[(7, 0, 229), (31, 12, 0)], fun w => .unclaim (fieldBV w 11 8)⟩,
  ⟨[(7, 0, 229), (31, 18, 256)], fun w => .clstat (fieldBV w 13 8) (fieldBV w 17 14)⟩,
  ⟨[(13, 0, 231), (31, 26, 0)], fun w => .acarm (fieldBV w 19 14) (fieldBV w 25 20)⟩,
  ⟨[(7, 0, 231), (31, 20, 64)], fun w => .acwait (fieldBV w 13 8) (fieldBV w 19 14)⟩,
  ⟨[(13, 0, 231), (31, 26, 2)], fun w => .acadd (fieldBV w 19 14) (fieldBV w 25 20)⟩,
  ⟨[(13, 0, 231), (31, 20, 192)], fun w => .acrst (fieldBV w 19 14)⟩,
  ⟨[(7, 0, 231), (31, 26, 4)], fun w => .acread (fieldBV w 13 8) (fieldBV w 19 14) (fieldBV w 25 20)⟩,
  ⟨[(31, 0, 233)], fun _ => .step⟩,
  ⟨[(7, 0, 233), (31, 26, 1)], fun w => .stepq (fieldBV w 13 8) (fieldBV w 19 14) (fieldBV w 25 20)⟩,
  ⟨[(31, 0, 235)], fun _ => .grdy⟩,
  ⟨[(7, 0, 235), (31, 20, 64)], fun w => .gsubmit (fieldBV w 13 8) (fieldBV w 19 14)⟩,
  ⟨[(7, 0, 237)], fun w => .coll (fieldBV w 12 8) (fieldBV w 13 13) (fieldBV w 19 14) (fieldBV w 25 20) (fieldBV w 28 26) (fieldBV w 31 29)⟩,
  ⟨[(13, 0, 239), (31, 26, 0)], fun w => .a2av (fieldBV w 19 14) (fieldBV w 25 20)⟩]

/-- Rows of the major opcodes 0x78 to 0x7C. -/
def rowsTile : List Row := [
  ⟨[(7, 0, 241), (13, 13, 0), (29, 26, 0), (31, 31, 0)], fun w => .tld (fieldBV w 12 8) (fieldBV w 19 14) (fieldBV w 25 20) (fieldBV w 30 30)⟩,
  ⟨[(7, 0, 241), (13, 13, 0), (29, 26, 0), (31, 31, 1)], fun w => .tldD (fieldBV w 12 8) (fieldBV w 19 14) (fieldBV w 25 20) (fieldBV w 30 30)⟩,
  ⟨[(7, 0, 243), (13, 13, 0), (31, 26, 0)], fun w => .tst (fieldBV w 12 8) (fieldBV w 19 14) (fieldBV w 25 20)⟩,
  ⟨[(7, 0, 243), (13, 13, 0), (31, 20, 2048)], fun w => .tstD (fieldBV w 12 8) (fieldBV w 19 14)⟩,
  ⟨[(7, 0, 245), (12, 12, 0)], fun w => .mma (fieldBV w 11 8) (fieldBV w 17 13) (fieldBV w 22 18) (fieldBV w 25 23) (fieldBV w 31 26)⟩,
  ⟨[(7, 0, 247), (31, 12, 0)], fun w => .aclr (fieldBV w 11 8)⟩,
  ⟨[(7, 0, 247), (17, 12, 0), (25, 23, 0), (31, 29, 1)], fun w => .ascale (fieldBV w 11 8) (fieldBV w 22 18) (fieldBV w 28 26)⟩,
  ⟨[(7, 0, 247), (17, 12, 0), (25, 23, 0), (31, 29, 2)], fun w => .abias (fieldBV w 11 8) (fieldBV w 22 18) (fieldBV w 28 26)⟩,
  ⟨[(7, 0, 247), (25, 17, 0), (31, 29, 3)], fun w => .amov (fieldBV w 12 8) (fieldBV w 16 13) (fieldBV w 28 26)⟩,
  ⟨[(7, 0, 247), (17, 17, 0), (25, 23, 0), (31, 29, 4)], fun w => .amovQ (fieldBV w 12 8) (fieldBV w 16 13) (fieldBV w 22 18) (fieldBV w 28 26)⟩,
  ⟨[(7, 0, 247), (31, 18, 10240)], fun w => .ttrn (fieldBV w 12 8) (fieldBV w 17 13)⟩,
  ⟨[(9, 0, 249), (31, 22, 0)], fun w => .mlease (fieldBV w 21 10)⟩,
  ⟨[(31, 0, 505)], fun _ => .mrels⟩,
  ⟨[(9, 0, 761), (31, 15, 0)], fun w => .tzero (fieldBV w 14 10)⟩]

/-- Rows of the major opcodes 0x7E to 0x7F. -/
def rowsSystem : List Row := [
  ⟨[(31, 0, 253)], fun _ => .eret⟩,
  ⟨[(13, 0, 253), (31, 20, 64)], fun w => .tlbinv (fieldBV w 19 14)⟩,
  ⟨[(31, 0, 134217981)], fun _ => .tlbinvAll⟩,
  ⟨[(13, 0, 253), (31, 26, 3)], fun w => .keyld (fieldBV w 19 14) (fieldBV w 25 20)⟩,
  ⟨[(13, 0, 253), (31, 20, 256)], fun w => .keydel (fieldBV w 19 14)⟩,
  ⟨[(7, 0, 253), (31, 26, 5)], fun w => .pquota (fieldBV w 13 8) (fieldBV w 19 14) (fieldBV w 25 20)⟩,
  ⟨[(7, 0, 253), (31, 20, 384)], fun w => .csrr (fieldBV w 13 8) (fieldBV w 19 14)⟩,
  ⟨[(13, 0, 253), (31, 26, 7)], fun w => .csrw (fieldBV w 19 14) (fieldBV w 25 20)⟩,
  ⟨[(31, 0, 536871165)], fun _ => .halt⟩,
  ⟨[(15, 0, 255)], fun w => .trap (fieldBV w 31 16)⟩,
  ⟨[(15, 0, 511)], fun w => .brk (fieldBV w 31 16)⟩]

/-- The 32-bit instructions. -/
def rows32 : List Row := rowsUniform0 ++ rowsUniform1 ++ rowsControl0 ++ rowsControl1 ++ rowsLaneInt0 ++ rowsLaneInt1 ++ rowsFloat0 ++ rowsFloat1 ++ rowsCross ++ rowsMemory ++ rowsEngine ++ rowsTile ++ rowsSystem

/-- The 16-bit instructions (R217). -/
def rows16 : List Row := [
  ⟨[(4, 0, 0), (15, 15, 0)], fun w => .vmovC (fieldBV w 9 5) (fieldBV w 14 10)⟩,
  ⟨[(4, 0, 2), (15, 15, 0)], fun w => .vaddC (fieldBV w 9 5) (fieldBV w 14 10)⟩,
  ⟨[(4, 0, 4), (15, 15, 0)], fun w => .vsubC (fieldBV w 9 5) (fieldBV w 14 10)⟩,
  ⟨[(4, 0, 6), (15, 15, 0)], fun w => .vmulC (fieldBV w 9 5) (fieldBV w 14 10)⟩,
  ⟨[(4, 0, 8), (15, 15, 0)], fun w => .vandC (fieldBV w 9 5) (fieldBV w 14 10)⟩,
  ⟨[(4, 0, 10), (15, 15, 0)], fun w => .vorC (fieldBV w 9 5) (fieldBV w 14 10)⟩,
  ⟨[(4, 0, 12), (15, 15, 0)], fun w => .vxorC (fieldBV w 9 5) (fieldBV w 14 10)⟩,
  ⟨[(4, 0, 14), (15, 15, 0)], fun w => .vshlC (fieldBV w 9 5) (fieldBV w 14 10)⟩,
  ⟨[(4, 0, 16), (15, 15, 0)], fun w => .vshrC (fieldBV w 9 5) (fieldBV w 14 10)⟩,
  ⟨[(4, 0, 16), (15, 15, 1)], fun w => .vshrAC (fieldBV w 9 5) (fieldBV w 14 10)⟩,
  ⟨[(4, 0, 18), (15, 15, 0)], fun w => .faddC (fieldBV w 9 5) (fieldBV w 14 10)⟩,
  ⟨[(4, 0, 18), (15, 15, 1)], fun w => .hadd2Bf16C (fieldBV w 9 5) (fieldBV w 14 10)⟩,
  ⟨[(4, 0, 20), (15, 15, 0)], fun w => .fsubC (fieldBV w 9 5) (fieldBV w 14 10)⟩,
  ⟨[(4, 0, 20), (15, 15, 1)], fun w => .hsub2Bf16C (fieldBV w 9 5) (fieldBV w 14 10)⟩,
  ⟨[(4, 0, 22), (15, 15, 0)], fun w => .fmulC (fieldBV w 9 5) (fieldBV w 14 10)⟩,
  ⟨[(4, 0, 22), (15, 15, 1)], fun w => .hmul2Bf16C (fieldBV w 9 5) (fieldBV w 14 10)⟩,
  ⟨[(4, 0, 24), (15, 15, 0)], fun w => .vminC (fieldBV w 9 5) (fieldBV w 14 10)⟩,
  ⟨[(4, 0, 24), (15, 15, 1)], fun w => .vminUC (fieldBV w 9 5) (fieldBV w 14 10)⟩,
  ⟨[(4, 0, 26), (15, 15, 0)], fun w => .vmaxC (fieldBV w 9 5) (fieldBV w 14 10)⟩,
  ⟨[(4, 0, 26), (15, 15, 1)], fun w => .vmaxUC (fieldBV w 9 5) (fieldBV w 14 10)⟩,
  ⟨[(4, 0, 28), (15, 15, 0)], fun w => .fminC (fieldBV w 9 5) (fieldBV w 14 10)⟩,
  ⟨[(4, 0, 28), (15, 15, 1)], fun w => .hmin2Bf16C (fieldBV w 9 5) (fieldBV w 14 10)⟩,
  ⟨[(4, 0, 30), (15, 15, 0)], fun w => .fmaxC (fieldBV w 9 5) (fieldBV w 14 10)⟩,
  ⟨[(4, 0, 30), (15, 15, 1)], fun w => .hmax2Bf16C (fieldBV w 9 5) (fieldBV w 14 10)⟩]

/-- The reserved major opcodes (R218). -/
def reservedOpcodes : List Nat := [0x1F, 0x3D, 0x3E, 0x3F, 0x51, 0x55, 0x56, 0x57, 0x5F, 0x7D]

/-- The instruction whose bits are `w`, where `bits` is 16 or 32 (R209, R213). -/
def decodeWord (bits w : Nat) : Except DecodeError Instr :=
  if bits == 16 then
    match rows16.find? (·.fits w) with
    | some r => .ok (r.read w)
    | none => .error .reservedFunction
  else if reservedOpcodes.contains (fieldNat w 7 1) then .error .reservedOpcode
  else
    match rows32.find? (·.fits w) with
    | some r => if (r.read w).wellFormed then .ok (r.read w) else .error .reservedValue
    | none => .error .reservedFunction

/-- The length in bits of the instruction whose first byte is `b` (R209). -/
def lengthBits (b : Nat) : Nat := if b % 2 == 0 then 16 else 32

/-- The instruction at the front of a byte stream and the bytes after it (R5, R209). -/
def decode : List Byte → Except DecodeError (Instr × List Byte)
  | b0 :: b1 :: rest =>
    if lengthBits b0.toNat == 16 then
      (decodeWord 16 (b0.toNat + 2 ^ 8 * b1.toNat)).map (·, rest)
    else
      match rest with
      | b2 :: b3 :: rest' =>
        (decodeWord 32 (b0.toNat + 2 ^ 8 * b1.toNat + 2 ^ 16 * b2.toNat + 2 ^ 24 * b3.toNat)).map (·, rest')
      | _ => .error .truncated
  | _ => .error .truncated

/-- The bytes of a word of `n` bytes, the lowest first (R5). -/
def wordBytes : Nat → Nat → List Byte
  | 0, _ => []
  | n + 1, w => BitVec.ofNat 8 w :: wordBytes n (w / 2 ^ 8)

/-- What the decoder reads from an instruction whose bits are `w`, numbered as the opcode table numbers them.
The longest instruction has 4 bytes; the bits above `nbits` are zero. -/
def decodeTableWord (nbits w : Nat) : Option Instr :=
  match decode (wordBytes 4 (w % 2 ^ nbits)) with
  | .ok (i, _) => some i
  | .error _ => none

/-- The word whose fixed bits are `base` and whose fields stand at the given low bits. -/
def packed (nbits base : Nat) (fields : List (Nat × Nat)) : Option (Nat × Nat) :=
  some (nbits, fields.foldl (fun w f => w + f.1 * 2 ^ f.2) base)

/-- The number of bits and the word of an instruction; a step without an encoding has none. -/
def encode : Instr → Option (Nat × Nat)
  | .sadd d a b => packed 32 0x00000001 [(d.toNat, 8), (a.toNat, 14), (b.toNat, 20)]
  | .ssub d a b => packed 32 0x04000001 [(d.toNat, 8), (a.toNat, 14), (b.toNat, 20)]
  | .smul d a b => packed 32 0x08000001 [(d.toNat, 8), (a.toNat, 14), (b.toNat, 20)]
  | .smulh d a b => packed 32 0x0C000001 [(d.toNat, 8), (a.toNat, 14), (b.toNat, 20)]
  | .smulhu d a b => packed 32 0x10000001 [(d.toNat, 8), (a.toNat, 14), (b.toNat, 20)]
  | .sdiv d a b => packed 32 0x14000001 [(d.toNat, 8), (a.toNat, 14), (b.toNat, 20)]
  | .sdivu d a b => packed 32 0x18000001 [(d.toNat, 8), (a.toNat, 14), (b.toNat, 20)]
  | .srem d a b => packed 32 0x1C000001 [(d.toNat, 8), (a.toNat, 14), (b.toNat, 20)]
  | .sremu d a b => packed 32 0x20000001 [(d.toNat, 8), (a.toNat, 14), (b.toNat, 20)]
  | .sand d a b => packed 32 0x24000001 [(d.toNat, 8), (a.toNat, 14), (b.toNat, 20)]
  | .sor d a b => packed 32 0x28000001 [(d.toNat, 8), (a.toNat, 14), (b.toNat, 20)]
  | .sxor d a b => packed 32 0x2C000001 [(d.toNat, 8), (a.toNat, 14), (b.toNat, 20)]
  | .sshl d a b => packed 32 0x30000001 [(d.toNat, 8), (a.toNat, 14), (b.toNat, 20)]
  | .sshr d a b => packed 32 0x34000001 [(d.toNat, 8), (a.toNat, 14), (b.toNat, 20)]
  | .ssar d a b => packed 32 0x38000001 [(d.toNat, 8), (a.toNat, 14), (b.toNat, 20)]
  | .smin d a b => packed 32 0x3C000001 [(d.toNat, 8), (a.toNat, 14), (b.toNat, 20)]
  | .smax d a b => packed 32 0x40000001 [(d.toNat, 8), (a.toNat, 14), (b.toNat, 20)]
  | .sminu d a b => packed 32 0x44000001 [(d.toNat, 8), (a.toNat, 14), (b.toNat, 20)]
  | .smaxu d a b => packed 32 0x48000001 [(d.toNat, 8), (a.toNat, 14), (b.toNat, 20)]
  | .sslt d a b => packed 32 0x4C000001 [(d.toNat, 8), (a.toNat, 14), (b.toNat, 20)]
  | .ssltu d a b => packed 32 0x50000001 [(d.toNat, 8), (a.toNat, 14), (b.toNat, 20)]
  | .sseq d a b => packed 32 0x54000001 [(d.toNat, 8), (a.toNat, 14), (b.toNat, 20)]
  | .smov d a => packed 32 0x58000001 [(d.toNat, 8), (a.toNat, 14)]
  | .sclz d a => packed 32 0x5C000001 [(d.toNat, 8), (a.toNat, 14)]
  | .spopc d a => packed 32 0x60000001 [(d.toNat, 8), (a.toNat, 14)]
  | .saddi d a imm => packed 32 0x00000003 [(d.toNat, 8), (a.toNat, 14), (imm.toNat, 20)]
  | .sandi d a imm => packed 32 0x00000005 [(d.toNat, 8), (a.toNat, 14), (imm.toNat, 20)]
  | .sori d a imm => packed 32 0x00000007 [(d.toNat, 8), (a.toNat, 14), (imm.toNat, 20)]
  | .sxori d a imm => packed 32 0x00000009 [(d.toNat, 8), (a.toNat, 14), (imm.toNat, 20)]
  | .sshli d a k => packed 32 0x0000000B [(d.toNat, 8), (a.toNat, 14), (k.toNat, 20)]
  | .sshri d a k => packed 32 0x0000000D [(d.toNat, 8), (a.toNat, 14), (k.toNat, 20)]
  | .ssari d a k => packed 32 0x0000000F [(d.toNat, 8), (a.toNat, 14), (k.toNat, 20)]
  | .sslti d a imm => packed 32 0x00000017 [(d.toNat, 8), (a.toNat, 14), (imm.toNat, 20)]
  | .slui d imm => packed 32 0x00000011 [(d.toNat, 8), (imm.toNat, 14)]
  | .sluih d imm => packed 32 0x00000013 [(d.toNat, 8), (imm.toNat, 14)]
  | .slea d imm => packed 32 0x00000015 [(d.toNat, 8), (imm.toNat, 14)]
  | .sld d a off p sz => packed 32 0x00000019 [(d.toNat, 8), (a.toNat, 14), (off.toNat, 20), (p.toNat, 29), (sz.toNat, 30)]
  | .sst d a off p sz => packed 32 0x0000001B [(d.toNat, 8), (a.toNat, 14), (off.toNat, 20), (p.toNat, 29), (sz.toNat, 30)]
  | .sgets d n => packed 32 0x0000001D [(d.toNat, 8), (n.toNat, 20)]
  | .ssets a n => packed 32 0x0000001F [(a.toNat, 14), (n.toNat, 20)]
  | .bra off => packed 32 0x00000021 [(off.toNat, 8)]
  | .call off => packed 32 0x00000023 [(off.toNat, 8)]
  | .jmp a off => packed 32 0x00000025 [(a.toNat, 14), (off.toNat, 20)]
  | .jmpl d a off => packed 32 0x80000025 [(d.toNat, 8), (a.toNat, 14), (off.toNat, 20)]
  | .ret => packed 32 0x0000002B []
  | .bsz s off => packed 32 0x00000027 [(s.toNat, 8), (off.toNat, 15)]
  | .bsnz s off => packed 32 0x00004027 [(s.toNat, 8), (off.toNat, 15)]
  | .bany p off => packed 32 0x00000029 [(p.toNat, 8), (off.toNat, 14)]
  | .ball p off => packed 32 0x00001029 [(p.toNat, 8), (off.toNat, 14)]
  | .bnone p off => packed 32 0x00002029 [(p.toNat, 8), (off.toNat, 14)]
  | .ifp p => packed 32 0x0000002D [(p.toNat, 12)]
  | .ifpN p => packed 32 0x0000012D [(p.toNat, 12)]
  | .maskElse => packed 32 0x0000022D []
  | .endif => packed 32 0x0000032D []
  | .mset p => packed 32 0x0000042D [(p.toNat, 12)]
  | .mget p => packed 32 0x0000052D [(p.toNat, 12)]
  | .barArrive => packed 32 0x0000002F []
  | .barWait => packed 32 0x0000012F []
  | .barSync => packed 32 0x0000022F []
  | .exit => packed 32 0x00000031 []
  | .yield => packed 32 0x00000131 []
  | .nop => packed 32 0x00000231 []
  | .sleep n => packed 32 0x00000331 [(n.toNat, 12)]
  | .defer m => packed 32 0x00000033 [(m.toNat, 10)]
  | .fbpt n => packed 32 0x00000133 [(n.toNat, 20)]
  | .plot s => packed 32 0x00000035 [(s.toNat, 8)]
  | .rdv k => packed 32 0x00000037 [(k.toNat, 10)]
  | .give g => packed 32 0x00000137 [(g.toNat, 10)]
  | .take g => packed 32 0x00000237 [(g.toNat, 10)]
  | .fork d a => packed 32 0x00000039 [(d.toNat, 8), (a.toNat, 14)]
  | .join d a => packed 32 0x04000039 [(d.toNat, 8), (a.toNat, 14)]
  | .modeset e r => packed 32 0x0000003B [(e.toNat, 9), (r.toNat, 15)]
  | .modeclr e => packed 32 0x0000013B [(e.toNat, 9)]
  | .time d => packed 32 0x0000003D [(d.toNat, 8)]
  | .vadd d a b w => packed 32 0x00000041 [(d.toNat, 8), (a.toNat, 15), (b.toNat, 22), (w.toNat, 30)]
  | .vsub d a b w => packed 32 0x00000043 [(d.toNat, 8), (a.toNat, 15), (b.toNat, 22), (w.toNat, 30)]
  | .vmul d a b => packed 32 0x00000045 [(d.toNat, 8), (a.toNat, 15), (b.toNat, 22)]
  | .vmulHi d a b => packed 32 0x20000045 [(d.toNat, 8), (a.toNat, 15), (b.toNat, 22)]
  | .vmulHiu d a b => packed 32 0x40000045 [(d.toNat, 8), (a.toNat, 15), (b.toNat, 22)]
  | .vmad d a b => packed 32 0x00000047 [(d.toNat, 8), (a.toNat, 15), (b.toNat, 22)]
  | .vdiv d a b => packed 32 0x00000049 [(d.toNat, 8), (a.toNat, 15), (b.toNat, 22)]
  | .vdivU d a b => packed 32 0x20000049 [(d.toNat, 8), (a.toNat, 15), (b.toNat, 22)]
  | .vrem d a b => packed 32 0x0000004B [(d.toNat, 8), (a.toNat, 15), (b.toNat, 22)]
  | .vremU d a b => packed 32 0x2000004B [(d.toNat, 8), (a.toNat, 15), (b.toNat, 22)]
  | .vand d a b => packed 32 0x0000004D [(d.toNat, 8), (a.toNat, 15), (b.toNat, 22)]
  | .vor d a b => packed 32 0x0000004F [(d.toNat, 8), (a.toNat, 15), (b.toNat, 22)]
  | .vxor d a b => packed 32 0x00000051 [(d.toNat, 8), (a.toNat, 15), (b.toNat, 22)]
  | .vandn d a b => packed 32 0x00000053 [(d.toNat, 8), (a.toNat, 15), (b.toNat, 22)]
  | .vshl d a b => packed 32 0x00000055 [(d.toNat, 8), (a.toNat, 15), (b.toNat, 22)]
  | .vshr d a b => packed 32 0x00000057 [(d.toNat, 8), (a.toNat, 15), (b.toNat, 22)]
  | .vshrA d a b => packed 32 0x20000057 [(d.toNat, 8), (a.toNat, 15), (b.toNat, 22)]
  | .vmin d a b u w => packed 32 0x00000059 [(d.toNat, 8), (a.toNat, 15), (b.toNat, 22), (u.toNat, 29), (w.toNat, 30)]
  | .vmax d a b u w => packed 32 0x0000005B [(d.toNat, 8), (a.toNat, 15), (b.toNat, 22), (u.toNat, 29), (w.toNat, 30)]
  | .vabs d a => packed 32 0x0000005D [(d.toNat, 8), (a.toNat, 15)]
  | .vneg d a => packed 32 0x2000005D [(d.toNat, 8), (a.toNat, 15)]
  | .vclz d a => packed 32 0x0000005F [(d.toNat, 8), (a.toNat, 15)]
  | .vpopc d a => packed 32 0x2000005F [(d.toNat, 8), (a.toNat, 15)]
  | .vbrev d a => packed 32 0x4000005F [(d.toNat, 8), (a.toNat, 15)]
  | .vffs d a => packed 32 0x6000005F [(d.toNat, 8), (a.toNat, 15)]
  | .vbfx d a b => packed 32 0x00000061 [(d.toNat, 8), (a.toNat, 15), (b.toNat, 22)]
  | .vbfxS d a b => packed 32 0x20000061 [(d.toNat, 8), (a.toNat, 15), (b.toNat, 22)]
  | .vbfi d a b => packed 32 0x00000063 [(d.toNat, 8), (a.toNat, 15), (b.toNat, 22)]
  | .vsel d a b p => packed 32 0x00000065 [(d.toNat, 8), (a.toNat, 15), (b.toNat, 22), (p.toNat, 29)]
  | .vcmp p a b c => packed 32 0x00000067 [(p.toNat, 8), (a.toNat, 12), (b.toNat, 19), (c.toNat, 26)]
  | .vaddi d a imm => packed 32 0x00000069 [(d.toNat, 8), (a.toNat, 15), (imm.toNat, 22)]
  | .vandi d a imm => packed 32 0x0000006B [(d.toNat, 8), (a.toNat, 15), (imm.toNat, 22)]
  | .vori d a imm => packed 32 0x0000006D [(d.toNat, 8), (a.toNat, 15), (imm.toNat, 22)]
  | .vxori d a imm => packed 32 0x0000006F [(d.toNat, 8), (a.toNat, 15), (imm.toNat, 22)]
  | .vshli d a k => packed 32 0x00000071 [(d.toNat, 8), (a.toNat, 15), (k.toNat, 22)]
  | .vshri d a k => packed 32 0x40000071 [(d.toNat, 8), (a.toNat, 15), (k.toNat, 22)]
  | .vsari d a k => packed 32 0x80000071 [(d.toNat, 8), (a.toNat, 15), (k.toNat, 22)]
  | .vmovi d hi imm => packed 32 0x00000073 [(d.toNat, 8), (hi.toNat, 15), (imm.toNat, 22)]
  | .vmovs d s => packed 32 0x00200073 [(d.toNat, 8), (s.toNat, 15)]
  | .vmovsHi d s => packed 32 0x00600073 [(d.toNat, 8), (s.toNat, 15)]
  | .vlane d k => packed 32 0x00000075 [(d.toNat, 8), (k.toNat, 22)]
  | .vlea d a off hint => packed 32 0x00000077 [(d.toNat, 8), (a.toNat, 15), (off.toNat, 22), (hint.toNat, 30)]
  | .vmuli d a imm => packed 32 0x00000079 [(d.toNat, 8), (a.toNat, 15), (imm.toNat, 22)]
  | .fadd d a b r => packed 32 0x00000081 [(d.toNat, 8), (a.toNat, 15), (b.toNat, 22), (r.toNat, 29)]
  | .fsub d a b r => packed 32 0x00000083 [(d.toNat, 8), (a.toNat, 15), (b.toNat, 22), (r.toNat, 29)]
  | .fmul d a b r => packed 32 0x00000085 [(d.toNat, 8), (a.toNat, 15), (b.toNat, 22), (r.toNat, 29)]
  | .ffma d a b r => packed 32 0x00000087 [(d.toNat, 8), (a.toNat, 15), (b.toNat, 22), (r.toNat, 29)]
  | .ffms d a b r => packed 32 0x00000089 [(d.toNat, 8), (a.toNat, 15), (b.toNat, 22), (r.toNat, 29)]
  | .fdiv d a b r => packed 32 0x00000093 [(d.toNat, 8), (a.toNat, 15), (b.toNat, 22), (r.toNat, 29)]
  | .fsqrt d a r => packed 32 0x00000095 [(d.toNat, 8), (a.toNat, 15), (r.toNat, 29)]
  | .fmin d a b => packed 32 0x0000008B [(d.toNat, 8), (a.toNat, 15), (b.toNat, 22)]
  | .fmax d a b => packed 32 0x2000008B [(d.toNat, 8), (a.toNat, 15), (b.toNat, 22)]
  | .fabs d a => packed 32 0x0000008D [(d.toNat, 8), (a.toNat, 15)]
  | .fneg d a => packed 32 0x2000008D [(d.toNat, 8), (a.toNat, 15)]
  | .fcpsgn d a b => packed 32 0x4000008D [(d.toNat, 8), (a.toNat, 15), (b.toNat, 22)]
  | .fcmp p a b c => packed 32 0x0000008F [(p.toNat, 8), (a.toNat, 12), (b.toNat, 19), (c.toNat, 26)]
  | .fclass d a => packed 32 0x00000091 [(d.toNat, 8), (a.toNat, 15)]
  | .frcp d a => packed 32 0x00000097 [(d.toNat, 8), (a.toNat, 15)]
  | .frsq d a => packed 32 0x20000097 [(d.toNat, 8), (a.toNat, 15)]
  | .fex2 d a => packed 32 0x40000097 [(d.toNat, 8), (a.toNat, 15)]
  | .flg2 d a => packed 32 0x60000097 [(d.toNat, 8), (a.toNat, 15)]
  | .fsin d a => packed 32 0x80000097 [(d.toNat, 8), (a.toNat, 15)]
  | .fcos d a => packed 32 0xA0000097 [(d.toNat, 8), (a.toNat, 15)]
  | .ftanh d a => packed 32 0xC0000097 [(d.toNat, 8), (a.toNat, 15)]
  | .hadd2 d a b f r => packed 32 0x00000099 [(d.toNat, 8), (a.toNat, 15), (b.toNat, 22), (f.toNat, 28), (r.toNat, 29)]
  | .hsub2 d a b f r => packed 32 0x00200099 [(d.toNat, 8), (a.toNat, 15), (b.toNat, 22), (f.toNat, 28), (r.toNat, 29)]
  | .hmul2 d a b f r => packed 32 0x0000009B [(d.toNat, 8), (a.toNat, 15), (b.toNat, 22), (f.toNat, 28), (r.toNat, 29)]
  | .hfma2 d a b f r => packed 32 0x0000009D [(d.toNat, 8), (a.toNat, 15), (b.toNat, 22), (f.toNat, 28), (r.toNat, 29)]
  | .hfms2 d a b f r => packed 32 0x0020009D [(d.toNat, 8), (a.toNat, 15), (b.toNat, 22), (f.toNat, 28), (r.toNat, 29)]
  | .hmin2 d a b f => packed 32 0x0000009F [(d.toNat, 8), (a.toNat, 15), (b.toNat, 22), (f.toNat, 28)]
  | .hmax2 d a b f => packed 32 0x0020009F [(d.toNat, 8), (a.toNat, 15), (b.toNat, 22), (f.toNat, 28)]
  | .cvt d a t f r => packed 32 0x000000A1 [(d.toNat, 8), (a.toNat, 15), (t.toNat, 23), (f.toNat, 26), (r.toNat, 29)]
  | .rnd d => packed 32 0x000000A5 [(d.toNat, 8)]
  | .rndLog d => packed 32 0x200000A5 [(d.toNat, 8)]
  | .hrnd d a s => packed 32 0x000000A7 [(d.toNat, 8), (a.toNat, 15), (s.toNat, 22)]
  | .packH d a b => packed 32 0x000000A9 [(d.toNat, 8), (a.toNat, 15), (b.toNat, 22)]
  | .packB d a b => packed 32 0x200000A9 [(d.toNat, 8), (a.toNat, 15), (b.toNat, 22)]
  | .unpackH d a b => packed 32 0x800000A9 [(d.toNat, 8), (a.toNat, 15), (b.toNat, 22)]
  | .unpackB d a b => packed 32 0xA00000A9 [(d.toNat, 8), (a.toNat, 15), (b.toNat, 22)]
  | .shflIdx d a b => packed 32 0x000000B1 [(d.toNat, 8), (a.toNat, 15), (b.toNat, 22)]
  | .shflUp d a b => packed 32 0x200000B1 [(d.toNat, 8), (a.toNat, 15), (b.toNat, 22)]
  | .shflDown d a b => packed 32 0x400000B1 [(d.toNat, 8), (a.toNat, 15), (b.toNat, 22)]
  | .shflXor d a b => packed 32 0x600000B1 [(d.toNat, 8), (a.toNat, 15), (b.toNat, 22)]
  | .voteAny p q => packed 32 0x000000B3 [(p.toNat, 8), (q.toNat, 12)]
  | .voteAll p q => packed 32 0x040000B3 [(p.toNat, 8), (q.toNat, 12)]
  | .voteEq p a => packed 32 0x080000B3 [(p.toNat, 8), (a.toNat, 12)]
  | .vred d a op => packed 32 0x000000B5 [(d.toNat, 8), (a.toNat, 15), (op.toNat, 29)]
  | .vscan d a op => packed 32 0x000000B7 [(d.toNat, 8), (a.toNat, 15), (op.toNat, 29)]
  | .matchBits d a b => packed 32 0x000000B9 [(d.toNat, 8), (a.toNat, 15), (b.toNat, 22)]
  | .matchFloat d a b => packed 32 0x200000B9 [(d.toNat, 8), (a.toNat, 15), (b.toNat, 22)]
  | .bcast d a s => packed 32 0x000000BB [(d.toNat, 8), (a.toNat, 15), (s.toNat, 22)]
  | .sread d a b => packed 32 0x000000BD [(d.toNat, 8), (a.toNat, 15), (b.toNat, 22)]
  | .ldg d s x hint sz => packed 32 0x000000C1 [(d.toNat, 8), (s.toNat, 15), (x.toNat, 21), (hint.toNat, 28), (sz.toNat, 30)]
  | .stg d s x hint sz => packed 32 0x000000C3 [(d.toNat, 8), (s.toNat, 15), (x.toNat, 21), (hint.toNat, 28), (sz.toNat, 30)]
  | .ldp d s x sz => packed 32 0x000000C5 [(d.toNat, 8), (s.toNat, 15), (x.toNat, 21), (sz.toNat, 30)]
  | .stp d s x sz => packed 32 0x000000C7 [(d.toNat, 8), (s.toNat, 15), (x.toNat, 21), (sz.toNat, 30)]
  | .lda d s x c p sz => packed 32 0x000000C9 [(d.toNat, 8), (s.toNat, 15), (x.toNat, 21), (c.toNat, 28), (p.toNat, 30), (sz.toNat, 31)]
  | .stl d s x c p sz => packed 32 0x000000CB [(d.toNat, 8), (s.toNat, 15), (x.toNat, 21), (c.toNat, 28), (p.toNat, 30), (sz.toNat, 31)]
  | .fence c => packed 32 0x000000CD [(c.toNat, 28)]
  | .lcinv => packed 32 0x000001CD []
  | .pref s x => packed 32 0x000002CD [(s.toNat, 15), (x.toNat, 21)]
  | .atomFadd d s x r c p => packed 32 0x000000CF [(d.toNat, 8), (s.toNat, 15), (x.toNat, 21), (r.toNat, 27), (c.toNat, 28), (p.toNat, 30)]
  | .atomAdd d s x r c p sz => packed 32 0x000000D1 [(d.toNat, 8), (s.toNat, 15), (x.toNat, 21), (r.toNat, 27), (c.toNat, 28), (p.toNat, 30), (sz.toNat, 31)]
  | .atomMin d s x r c p sz => packed 32 0x000000D3 [(d.toNat, 8), (s.toNat, 15), (x.toNat, 21), (r.toNat, 27), (c.toNat, 28), (p.toNat, 30), (sz.toNat, 31)]
  | .atomMax d s x r c p sz => packed 32 0x000000D5 [(d.toNat, 8), (s.toNat, 15), (x.toNat, 21), (r.toNat, 27), (c.toNat, 28), (p.toNat, 30), (sz.toNat, 31)]
  | .atomAnd d s x r c p sz => packed 32 0x000000D7 [(d.toNat, 8), (s.toNat, 15), (x.toNat, 21), (r.toNat, 27), (c.toNat, 28), (p.toNat, 30), (sz.toNat, 31)]
  | .atomOr d s x r c p sz => packed 32 0x000000D9 [(d.toNat, 8), (s.toNat, 15), (x.toNat, 21), (r.toNat, 27), (c.toNat, 28), (p.toNat, 30), (sz.toNat, 31)]
  | .atomXor d s x r c p sz => packed 32 0x000000DB [(d.toNat, 8), (s.toNat, 15), (x.toNat, 21), (r.toNat, 27), (c.toNat, 28), (p.toNat, 30), (sz.toNat, 31)]
  | .atomXchg d s x c p sz => packed 32 0x080000DD [(d.toNat, 8), (s.toNat, 15), (x.toNat, 21), (c.toNat, 28), (p.toNat, 30), (sz.toNat, 31)]
  | .atomCas d s x c p sz => packed 32 0x080000DF [(d.toNat, 8), (s.toNat, 15), (x.toNat, 21), (c.toNat, 28), (p.toNat, 30), (sz.toNat, 31)]
  | .claim c a b p v => packed 32 0x000000E1 [(c.toNat, 8), (a.toNat, 14), (b.toNat, 20), (p.toNat, 26), (v.toNat, 27)]
  | .flow c a b all => packed 32 0x000000E3 [(c.toNat, 8), (a.toNat, 14), (b.toNat, 20), (all.toNat, 26)]
  | .unclaim c => packed 32 0x000000E5 [(c.toNat, 8)]
  | .clstat d c => packed 32 0x040000E5 [(d.toNat, 8), (c.toNat, 14)]
  | .acarm a b => packed 32 0x000000E7 [(a.toNat, 14), (b.toNat, 20)]
  | .acwait d a => packed 32 0x040000E7 [(d.toNat, 8), (a.toNat, 14)]
  | .acadd a b => packed 32 0x080000E7 [(a.toNat, 14), (b.toNat, 20)]
  | .acrst a => packed 32 0x0C0000E7 [(a.toNat, 14)]
  | .acread d a w => packed 32 0x100000E7 [(d.toNat, 8), (a.toNat, 14), (w.toNat, 20)]
  | .step => packed 32 0x000000E9 []
  | .stepq d k b => packed 32 0x040000E9 [(d.toNat, 8), (k.toNat, 14), (b.toNat, 20)]
  | .grdy => packed 32 0x000000EB []
  | .gsubmit d a => packed 32 0x040000EB [(d.toNat, 8), (a.toNat, 14)]
  | .coll n t a b op k => packed 32 0x000000ED [(n.toNat, 8), (t.toNat, 13), (a.toNat, 14), (b.toNat, 20), (op.toNat, 26), (k.toNat, 29)]
  | .a2av a b => packed 32 0x000000EF [(a.toNat, 14), (b.toNat, 20)]
  | .tld t a b m => packed 32 0x000000F1 [(t.toNat, 8), (a.toNat, 14), (b.toNat, 20), (m.toNat, 30)]
  | .tldD t a b m => packed 32 0x800000F1 [(t.toNat, 8), (a.toNat, 14), (b.toNat, 20), (m.toNat, 30)]
  | .tst t a b => packed 32 0x000000F3 [(t.toNat, 8), (a.toNat, 14), (b.toNat, 20)]
  | .tstD t a => packed 32 0x800000F3 [(t.toNat, 8), (a.toNat, 14)]
  | .mma c a b s f => packed 32 0x000000F5 [(c.toNat, 8), (a.toNat, 13), (b.toNat, 18), (s.toNat, 23), (f.toNat, 26)]
  | .aclr d => packed 32 0x000000F7 [(d.toNat, 8)]
  | .ascale d b r => packed 32 0x200000F7 [(d.toNat, 8), (b.toNat, 18), (r.toNat, 26)]
  | .abias d b r => packed 32 0x400000F7 [(d.toNat, 8), (b.toNat, 18), (r.toNat, 26)]
  | .amov d a r => packed 32 0x600000F7 [(d.toNat, 8), (a.toNat, 13), (r.toNat, 26)]
  | .amovQ d a b r => packed 32 0x800000F7 [(d.toNat, 8), (a.toNat, 13), (b.toNat, 18), (r.toNat, 26)]
  | .ttrn d a => packed 32 0xA00000F7 [(d.toNat, 8), (a.toNat, 13)]
  | .mlease n => packed 32 0x000000F9 [(n.toNat, 10)]
  | .mrels => packed 32 0x000001F9 []
  | .tzero t => packed 32 0x000002F9 [(t.toNat, 10)]
  | .eret => packed 32 0x000000FD []
  | .tlbinv a => packed 32 0x040000FD [(a.toNat, 14)]
  | .tlbinvAll => packed 32 0x080000FD []
  | .keyld a b => packed 32 0x0C0000FD [(a.toNat, 14), (b.toNat, 20)]
  | .keydel a => packed 32 0x100000FD [(a.toNat, 14)]
  | .pquota d a b => packed 32 0x140000FD [(d.toNat, 8), (a.toNat, 14), (b.toNat, 20)]
  | .csrr d a => packed 32 0x180000FD [(d.toNat, 8), (a.toNat, 14)]
  | .csrw a b => packed 32 0x1C0000FD [(a.toNat, 14), (b.toNat, 20)]
  | .halt => packed 32 0x200000FD []
  | .trap c => packed 32 0x000000FF [(c.toNat, 16)]
  | .brk c => packed 32 0x000001FF [(c.toNat, 16)]
  | .vmovC d s => packed 16 0x0000 [(d.toNat, 5), (s.toNat, 10)]
  | .vaddC d s => packed 16 0x0002 [(d.toNat, 5), (s.toNat, 10)]
  | .vsubC d s => packed 16 0x0004 [(d.toNat, 5), (s.toNat, 10)]
  | .vmulC d s => packed 16 0x0006 [(d.toNat, 5), (s.toNat, 10)]
  | .vandC d s => packed 16 0x0008 [(d.toNat, 5), (s.toNat, 10)]
  | .vorC d s => packed 16 0x000A [(d.toNat, 5), (s.toNat, 10)]
  | .vxorC d s => packed 16 0x000C [(d.toNat, 5), (s.toNat, 10)]
  | .vshlC d s => packed 16 0x000E [(d.toNat, 5), (s.toNat, 10)]
  | .vshrC d s => packed 16 0x0010 [(d.toNat, 5), (s.toNat, 10)]
  | .vshrAC d s => packed 16 0x8010 [(d.toNat, 5), (s.toNat, 10)]
  | .faddC d s => packed 16 0x0012 [(d.toNat, 5), (s.toNat, 10)]
  | .hadd2Bf16C d s => packed 16 0x8012 [(d.toNat, 5), (s.toNat, 10)]
  | .fsubC d s => packed 16 0x0014 [(d.toNat, 5), (s.toNat, 10)]
  | .hsub2Bf16C d s => packed 16 0x8014 [(d.toNat, 5), (s.toNat, 10)]
  | .fmulC d s => packed 16 0x0016 [(d.toNat, 5), (s.toNat, 10)]
  | .hmul2Bf16C d s => packed 16 0x8016 [(d.toNat, 5), (s.toNat, 10)]
  | .vminC d s => packed 16 0x0018 [(d.toNat, 5), (s.toNat, 10)]
  | .vminUC d s => packed 16 0x8018 [(d.toNat, 5), (s.toNat, 10)]
  | .vmaxC d s => packed 16 0x001A [(d.toNat, 5), (s.toNat, 10)]
  | .vmaxUC d s => packed 16 0x801A [(d.toNat, 5), (s.toNat, 10)]
  | .fminC d s => packed 16 0x001C [(d.toNat, 5), (s.toNat, 10)]
  | .hmin2Bf16C d s => packed 16 0x801C [(d.toNat, 5), (s.toNat, 10)]
  | .fmaxC d s => packed 16 0x001E [(d.toNat, 5), (s.toNat, 10)]
  | .hmax2Bf16C d s => packed 16 0x801E [(d.toNat, 5), (s.toNat, 10)]
  | .sleepExpiry _ => none
  | .claimHeld _ _ => none
  | .flowStart _ => none
  | .closureRun _ => none
  | .memoryRequestComplete _ _ => none
  | .bankServe _ _ _ => none
  | .walk _ => none
  | .basinRebuildDone _ _ => none
  | .migrateOnTouchCopyDone _ => none
  | .migrateOnTouchInvalAck _ => none
  | .migrationCommand _ => none
  | .optMigrationCopyDone _ => none
  | .optMigrationSwapDone _ => none
  | .optMigrationDrainAck _ => none
  | .keyRetire _ => none
  | .peerReservation _ _ _ _ => none
  | .flowChunkAccept _ _ => none
  | .promotionRequest _ => none
  | .promotionAnswer _ => none
  | .stepGrant _ _ _ _ _ => none
  | .stepPacket _ => none
  | .peerLoadRequest _ _ _ _ _ => none
  | .boundaryEndMessage _ _ _ _ => none
  | .enterBarrierDone _ _ => none
  | .commitDone _ _ => none
  | .commitBarrierDone _ _ => none
  | .reductionSlotGrant _ => none
  | .collectiveLand _ _ _ => none
  | .a2avCounts _ _ => none
  | .peerDown _ => none
  | .portStateChange _ _ _ _ => none
  | .lossNotice _ _ => none
  | .fabricFlitReceive _ _ _ _ => none
  | .congestionNotice _ => none
  | .congestionRecovery _ => none
  | .fabricLaunchPacket _ _ _ => none
  | .fabricLaunchRefusal _ _ _ => none
  | .tailLineSnoop _ _ => none
  | .submissionRead _ _ => none
  | .submission _ => none
  | .workgroupPlace _ _ => none
  | .copyNodeStart _ _ => none
  | .dequeStart _ _ => none
  | .dequeSteal _ _ => none
  | .sliceExpiry _ => none
  | .preemptSave _ => none
  | .teamResume _ _ => none
  | .trapEntry _ => none
  | .faultRecordWrite _ => none
  | .eventRecordWrite _ => none
  | .invcmdOnePage _ _ _ => none
  | .invcmdAsid _ _ => none
  | .invcmdVirtualDevice _ => none
  | .invalidationAcknowledge _ => none
  | .scrctlGo _ => none
  | .scrubBlock => none
  | .pwinWrite _ _ => none
  | .addressSpaceRootWrite _ _ _ => none
  | .vdstepWrite _ _ => none
  | .stepRegionWrite _ _ _ => none
  | .stepRegionEnableDone _ => none
  | .lqbaseWrite _ _ _ => none
  | .vdcmdResume _ _ => none
  | .vdcmdPreempt _ => none
  | .kcmdLoad _ _ => none
  | .kcmdDestroy _ _ => none
  | .vdfrespReissue _ _ => none
  | .vdfrespContinue _ _ => none
  | .vdfrespRetire _ _ => none
  | .peerUpSet _ => none
  | .routeWrite _ _ _ => none
  | .vdtbaseWrite _ _ => none
  | .registerWrite _ _ _ => none
  | .bootcmdRetry _ => none
  | .moduleStart _ => none
  | .attcmdWrite _ => none
  | .attestationComplete _ => none
  | .fwcmdWrite _ => none
  | .firmwareUpdateComplete _ _ => none
  | .unitStop _ _ => none
  | .millstoneOperationComplete _ => none

/-- The number of bits of an instruction (R209); 0 for a step without an encoding. -/
def Instr.nbits (i : Instr) : Nat := ((encode i).map (·.1)).getD 0

/-- The bits of an instruction, as `%tval` holds them (R213). -/
def Instr.bits (i : Instr) : Nat := ((encode i).map (·.2)).getD 0

/-- Bytes of an instruction (R209). -/
def Instr.len (i : Instr) : Nat := i.nbits / 8

end Sys2Proof
end

