-- ==== Sys2Proof/Config.lean ====
section
/-! DEFINITION. What the spec leaves open: the free values, constants without a body, so that no proof can see what
they are. Each is applied to the operands it depends on, or to a counter of the state. -/

namespace Sys2Proof.Config

/-- The bits that noise source draw number `k` delivers (R269, R44). Free: log 12. -/
opaque noise (k : Nat) : BitVec 32

/-- How many nanoseconds pass in the module's step number `k` (R2, R360). Free: log 11. -/
opaque ticks (k : Nat) : Nat

/-- The result bits of special function `f` on `x` where R265 leaves them to the device. Free: log 13. -/
opaque special (f : Nat) (x : Lane) : Lane

/-- What a Peer load number `k` returns from another module (R124). Free: log 14. -/
opaque remoteLoad (k : Nat) : Word

/-- Byte `off` of the identity area after `gen` firmware updates (R382, R384). Free: log 9. -/
opaque identity (gen off : Nat) : Byte

/-- The SHA-256 digest of firmware image `i` that the module came with (R383). Free: log 9. -/
opaque imageDigest (i : Nat) : BitVec 256

/-- Which firmware image an update replaces (R382). Free: log 106. -/
opaque imageIndex (image : List Byte) : Nat

/-- The secret seed and the public seed of the identity key after `gen` firmware updates (R383, R384). Free: log 9. -/
opaque identitySeeds (gen : Nat) : BitVec 512

/-- Is a SHA-256 digest one that is fused into the boot and security controller (R382)? Free: log 106. -/
opaque fused (digest : List Byte) : Bool

/-- The 64-byte public key that a firmware image names (R382). Free: log 106. -/
opaque imageKey (image : List Byte) : BitVec 512

/-- The security version that a firmware image carries (R382). Free: log 106. -/
opaque imageSecurity (image : List Byte) : BitVec 32

/-- The image version that a firmware image carries (R384). Free: log 106. -/
opaque imageNumber (image : List Byte) : BitVec 32

/-- The bits that a soft error leaves in a register or memory word that no code corrects. Free: log 15. -/
opaque upset (k : Nat) : Word

/-- The `%tval` of trap number `k` where the spec states none for its cause. Free: log 16. -/
opaque trapValue (k : Nat) : Word

/-- The `%fmask` of trap number `k` where the spec states none for its cause. Free: log 16. -/
opaque trapMask (k : Nat) : BitVec 1024

/-- The bits of the block that the smoothed values of `TLD.SM` make, as sign, mantissa and exponent, where one of them lies beyond
every FP32 value, for which R202 and R308 state no block. Free: log 17. -/
opaque hugeBlock (k : Nat) (ys : List (Bool × Nat × Int)) : BitVec 144

/-- A code that stands for a reserved one which a frame or a context region in memory names (R350, R359). Free: log 86. -/
opaque restored (code : Nat) : Nat

/-- The set of a lane cache in which a physical line lies (R41). Free: log 87. -/
opaque laneSet (host : Bool) (line : Nat) : Nat

/-- Which of the lines that may be replaced leaves a full lane cache at draw number `k` (R41). Free: log 87. -/
opaque laneVictim (k : Nat) : Nat

/-- The module at the far end of a port of another module of the pod (R376, R377). Free: log 97. -/
opaque farEnd (m port : Nat) : Nat

end Sys2Proof.Config
end

