-- ==== Sys2Proof/Machine/Map.lean ====
section
/-! DEFINITION. Sparse data by key: a list of key and value pairs in one canonical form, keys strictly rising and no
value equal to what an unlisted key reads as. Memory, register files and tables are held so. -/

namespace Sys2Proof.Machine

/-- Sparse data by key. -/
abbrev FMap (β : Type) := List (Nat × β)

/-- The value at `k`; an unlisted key reads as `dflt`. -/
def mapGet {β : Type} (dflt : β) : FMap β → Nat → β
  | [], _ => dflt
  | (k', v) :: m, k => if k' = k then v else mapGet dflt m k

/-- The map without the key `k`. -/
def mapErase {β : Type} (m : FMap β) (k : Nat) : FMap β := m.filter fun e => e.1 != k

/-- The map with `v` at `k`, the keys kept rising. -/
def mapInsert {β : Type} : FMap β → Nat → β → FMap β
  | [], k, v => [(k, v)]
  | (k', v') :: m, k, v =>
    if k < k' then (k, v) :: (k', v') :: m
    else if k = k' then (k, v) :: m
    else (k', v') :: mapInsert m k v

/-- The map with `v` at `k`; writing what an unlisted key reads as removes the entry. -/
def mapSet {β : Type} [DecidableEq β] (dflt : β) (m : FMap β) (k : Nat) (v : β) : FMap β :=
  if v = dflt then mapErase m k else mapInsert m k v

/-- Several writes, the first first. -/
def mapSetMany {β : Type} [DecidableEq β] (dflt : β) (m : FMap β) (ws : List (Nat × β)) : FMap β :=
  ws.foldl (fun m w => mapSet dflt m w.1 w.2) m

/-- The canonical form: keys above `lo` and strictly rising, no value equal to `dflt`. -/
def mapOrdered {β : Type} [DecidableEq β] (dflt : β) : Option Nat → FMap β → Bool
  | _, [] => true
  | lo, (k, v) :: m => (match lo with | none => true | some l => decide (l < k)) && v ≠ dflt && mapOrdered dflt (some k) m

/-- The canonical form of a whole map. -/
def mapWf {β : Type} [DecidableEq β] (dflt : β) (m : FMap β) : Bool := mapOrdered dflt none m

/-- The map with the keys from `lo` on, as many as there are values, replaced by those values. -/
def mapSplice {β : Type} [DecidableEq β] (dflt : β) (m : FMap β) (lo : Nat) (vs : List β) : FMap β :=
  m.filter (fun e => decide (e.1 < lo)) ++
  ((vs.zipIdx lo).filter fun e => decide (e.1 ≠ dflt)).map (fun e => (e.2, e.1)) ++
  m.filter (fun e => decide (lo + vs.length ≤ e.1))

/-- The map without the keys from `lo` to `hi - 1`. -/
def mapClear {β : Type} (m : FMap β) (lo hi : Nat) : FMap β :=
  m.filter fun e => decide (e.1 < lo) || decide (hi ≤ e.1)

/-- Bytes `a`, `a + 1`, … of a byte map. -/
def mapBytes (dflt : BitVec 8) (m : FMap (BitVec 8)) (a n : Nat) : List (BitVec 8) :=
  (List.range n).map fun i => mapGet dflt m (a + i)

/-- The little-endian value of bytes (R5). -/
def leNat : List (BitVec 8) → Nat
  | [] => 0
  | b :: bs => b.toNat + 256 * leNat bs

/-- The `n` little-endian bytes of a value (R5). -/
def leBytes : Nat → Nat → List (BitVec 8)
  | 0, _ => []
  | n + 1, v => BitVec.ofNat 8 v :: leBytes n (v / 256)

/-- Bits [hi:lo] of a number (R5). -/
def bitsOf (v hi lo : Nat) : Nat := v / 2 ^ lo % 2 ^ (hi + 1 - lo)

/-- One bit of a number. -/
def bitOf (v i : Nat) : Bool := v / 2 ^ i % 2 == 1

/-- Bits [hi:lo] of a 64-bit word. -/
def wbits (v : BitVec 64) (hi lo : Nat) : Nat := bitsOf v.toNat hi lo

/-- The word with bits [hi:lo] replaced by `x`. -/
def wput (v : BitVec 64) (hi lo x : Nat) : BitVec 64 :=
  BitVec.ofNat 64 (v.toNat - bitsOf v.toNat hi lo * 2 ^ lo + (x % 2 ^ (hi + 1 - lo)) * 2 ^ lo)

/-- A Boolean as a bit. -/
def b2n (b : Bool) : Nat := if b then 1 else 0

/-- `x` read as a signed number of `n` bits. -/
def signed (n x : Nat) : Int := if x % 2 ^ n < 2 ^ (n - 1) then (x % 2 ^ n : Nat) else (x % 2 ^ n : Nat) - (2 ^ n : Nat)

/-- A signed number as a 64-bit word. -/
def intWord (x : Int) : BitVec 64 := BitVec.ofInt 64 x

/-- The element of a list of records with the given identity, by the projection `f`. -/
def findBy {β : Type} (f : β → Nat) (l : List β) (k : Nat) : Option β := l.find? fun x => f x == k

/-- Every element with the given identity changed by `g`. -/
def updateBy {β : Type} (f : β → Nat) (l : List β) (k : Nat) (g : β → β) : List β :=
  l.map fun x => if f x == k then g x else x

/-- The list without the elements of the given identity. -/
def dropBy {β : Type} (f : β → Nat) (l : List β) (k : Nat) : List β := l.filter fun x => f x != k

end Sys2Proof.Machine
end

