-- ==== Sys2Proof/Machine/State.lean ====
section
/-! DEFINITION. The state of the module: every piece of state the spec gives it, as plain data, and the state after
reset. A team whose turn it is stands in `State.team`; every other team in `State.rest`. -/

namespace Sys2Proof.Machine

/-! ## Translation entries -/

/-- An entry of a lane TLB or a walk-ahead TLB (R58): a valid leaf with its tags. `size` is the level of the
leaf: 0 for 64 KiB, 1 for 2 MiB, 2 for 1 GiB. `stale` is 0, or names the invalidation after which no lookup finds the pinned
entry (R72). -/
structure TlbEntry where
  asid : Nat
  page : Nat
  size : Nat
  frame : Nat
  cls : Nat
  key : Nat
  r : Bool
  w : Bool
  x : Bool
  sup : Bool
  cow : Bool
  gt : Bool
  mig : Bool
  d : Bool
  gen : Nat
  stale : Nat
  deriving DecidableEq, Repr

/-- A line of a lane cache or an instruction cache (R40, R212): the physical line, in the Basin or behind the
host link, and its key index. -/
structure CacheLine where
  host : Bool
  line : Nat
  key : Nat
  keep : Bool
  data : List Byte
  deriving DecidableEq, Repr

/-! ## Requests in flight -/

/-- A register (R214). -/
inductive RegRef where
  /-- vector register -/
  | v (n : Nat)
  /-- uniform register -/
  | u (n : Nat)
  /-- predicate register -/
  | p (n : Nat)
  deriving DecidableEq, Repr

/-- Where a location lies (R33): a byte of a slice, or a byte behind the Basin's controllers or the host link,
with the key index and the ASID's key-0 bypass. -/
inductive Loc where
  /-- a byte of a Plain slice -/
  | plain (slice off : Nat)
  /-- a physical byte of class Basin, or of class Host or Capacity (`host`), in plain text when `bypass` -/
  | mem (host : Bool) (pa key : Nat) (bypass : Bool)
  /-- a Basin byte of another module, for a load of step number `step` (R124) -/
  | peer (module addr step : Nat)
  deriving DecidableEq, Repr

/-- The operation of an atomic (R291). -/
inductive AtomicOp where
  /-- FP32 add -/
  | fadd
  /-- integer add -/
  | add
  /-- signed minimum -/
  | min
  /-- signed maximum -/
  | max
  /-- bitwise and -/
  | and
  /-- bitwise or -/
  | or
  /-- bitwise exclusive or -/
  | xor
  /-- exchange -/
  | xchg
  /-- compare and swap -/
  | cas
  deriving DecidableEq, Repr

/-- A part of a load's span that a lane receives: the lane, its effective address, the byte offset in the span, the byte count. -/
structure LanePart where
  lane : Nat
  ea : Word
  skip : Nat
  size : Nat
  deriving DecidableEq, Repr

/-- What a request does at its location. -/
inductive ReqOp where
  /-- read for the lanes of a vector register (and the next register for 8 bytes) -/
  | load (reg : Nat) (parts : List LanePart)
  /-- read for a uniform register: the bytes from `skip` on, as many as `size` -/
  | uload (reg skip size : Nat)
  /-- write the bytes -/
  | store (bytes : List Byte)
  /-- read, modify and write for one lane -/
  | atomic (op : AtomicOp) (operand compare : Nat) (ret : Bool) (reg lane : Nat)
  /-- fill a lane-cache line, for no register (R289) -/
  | prefetch
  /-- a packet of step-region writes, to a region of that number (R132) -/
  | packet (region : Nat) (entry : StepEntry)
  deriving DecidableEq, Repr

/-- How far a request has come. -/
inductive Stage where
  /-- in the mill's egress -/
  | egress
  /-- in its bank queue -/
  | queued
  /-- waiting for the rebuild of its line (R52) -/
  | stalled
  /-- performed, and waiting for a promotion (R111); the data it read -/
  | promoting (promotion : Nat) (data : List Byte)
  /-- served; the data are on their way back -/
  | served (data : List Byte)
  deriving DecidableEq, Repr

/-- One request of an access (R34, R37). `n` is its length in bytes; `wheel` and `swath` say from where a port presents it. -/
structure Req where
  id : Nat
  access : Nat
  team : Nat
  mill : Nat
  wheel : Nat
  swath : Nat
  loc : Loc
  n : Nat
  op : ReqOp
  ea : Word
  stage : Stage
  release : Bool
  acquire : Bool
  fill : Bool
  keep : Bool
  deriving DecidableEq, Repr

/-- One memory instruction in flight, which holds a completion counter (R37): the requests it still awaits, and the registers that stay
pending until it completes. `acquire` keeps later accesses from performing until then (R104); `hold` keeps the team from issuing until
then; `atomic` says that it is not to be made again, an atomic or a FORK; `deferred` says that the head of the closure made it. `data` are
the data that have come, which land in the registers together when the access completes without a fault (R38, R39), and `poisoned` holds
the lanes that met poison, with their addresses. `uniform` is the active mask at a uniform access (R235), and `guest` the address and size
of a store or an atomic to a guest table (R68). `empties` says that it is an acquire at device scope, whose completion empties the lane
cache of its mill (R105) of all but the lines that it filled itself, which are `fills` (R42, R284). -/
structure Access where
  id : Nat
  team : Nat
  left : Nat
  dsts : List RegRef
  pc : Word
  acquire : Bool
  hold : Bool
  atomic : Bool
  deferred : Bool
  data : List (ReqOp × List Byte)
  poisoned : List (Nat × Word)
  uniform : Option Mask
  guest : Option (Word × Nat)
  empties : Bool
  fills : List (Bool × Nat × Nat)
  deriving DecidableEq, Repr

/-- The wheel port of a slice (R34): the wheel it served last, and the swath (access and number) that has entered in part. -/
structure Port where
  last : Nat
  swath : Option (Nat × Nat)
  deriving DecidableEq, Repr

/-- A pointer that a die's walker keeps (R59): the address space, the level of the table it points at, the virtual address above
what that table maps, and the table's address. -/
structure PtrEntry where
  die : Nat
  asid : Nat
  level : Nat
  path : Nat
  ptr : Nat
  deriving DecidableEq, Repr

/-- A promotion request of a slice (R110, R111): the mill it is sent to; once the mill has received it, the requests that mill
had presented before; the request that waits for the answer, and the 8-byte location whose tag entry is evicted, if one is. -/
structure Promotion where
  id : Nat
  slice : Nat
  mill : Nat
  received : Bool
  before : List Nat
  waiter : Nat
  evict : Option Nat
  deriving DecidableEq, Repr

/-- A walk that serves a prefetch (R59, R289); `fill` says that the line may still be found by a later access (R42). -/
structure WalkReq where
  id : Nat
  mill : Nat
  asid : Nat
  va : Nat
  team : Nat
  wheel : Nat
  fill : Bool
  deriving DecidableEq, Repr

/-! ## Captured instructions -/

/-- An integer operation of the uniform unit (R232 to R234). -/
inductive UOp where
  | add | sub | mul | mulh | mulhu | div | divu | rem | remu | and | or | xor | shl | shr | sar
  | min | max | minu | maxu | slt | sltu | seq | mov | clz | popc
  /-- SLUIH: the second operand replaces bits [63:46] of the first -/
  | insertHigh
  deriving DecidableEq, Repr

/-- An operand of a uniform instruction. -/
inductive USrc where
  /-- uniform register -/
  | reg (n : Nat)
  /-- a value formed when the instruction issued -/
  | imm (w : Word)
  deriving DecidableEq, Repr

/-- The width of the elements of a lane (R198). -/
inductive Width where
  | w32 | h2 | b4
  deriving DecidableEq, Repr

/-- A floating-point format (R194). -/
inductive FFmt where
  | fp32 | bf16 | fp16
  deriving DecidableEq, Repr

/-- An element type of CVT (R267). -/
inductive CvtType where
  | f32 | bf16 | fp16 | i32 | u32 | i16 | i8 | u8
  deriving DecidableEq, Repr

/-- A lane operation on up to three 32-bit operands: the sources in the order of the assembly line, the old
destination last where it is read (R257 to R268, R271). -/
inductive LOp where
  | add (w : Width) | sub (w : Width) | mul | mulHi | mulHiu | mad | div | divu | rem | remu
  | and | or | xor | andn | shl | shr | sar
  | min (w : Width) (unsigned : Bool) | max (w : Width) (unsigned : Bool)
  | abs | neg | clz | popc | brev | ffs | bfx | bfxs | bfi | sel | mov | lea (shift : Nat)
  | fadd | fsub | fmul | ffma | ffms | fdiv | fsqrt | fmin | fmax | fabs | fneg | fcpsgn | fclass
  | special (f : Nat)
  | hadd (f : FFmt) | hsub (f : FFmt) | hmul (f : FFmt) | hfma (f : FFmt) | hfms (f : FFmt)
  | hmin (f : FFmt) | hmax (f : FFmt)
  | cvt (src dst : CvtType)
  | packH | packB | unpackH | unpackB | hrnd
  deriving DecidableEq, Repr

/-- A lane comparison (R259, R263). -/
inductive LCmp where
  | eq | ne | lt | le | gt | ge | ltu | leu | gtu | geu
  | feq | fne | flt | fle | fgt | fge | unordered | ordered
  deriving DecidableEq, Repr

/-- A cross-lane operation (R273, R275 to R277). -/
inductive XOp where
  | shflIdx | shflUp | shflDown | shflXor
  | red (op : Nat) | scan (op : Nat)
  | matchBits | matchFloat | bcast
  deriving DecidableEq, Repr

/-- An operand of a lane instruction. -/
inductive VSrc where
  /-- vector register -/
  | v (n : Nat)
  /-- low or high 32 bits of a uniform register -/
  | u (n : Nat) (hi : Bool)
  /-- a value formed when the instruction issued -/
  | imm (w : Lane)
  /-- predicate bit of the lane -/
  | p (n : Nat)
  /-- lane index: in the team, in the swath, in the plot, or the swath's index (R260) -/
  | index (k : Nat)
  deriving DecidableEq, Repr

/-- A capturable instruction (R160) as data: what it reads, computes and writes. -/
inductive Cap where
  /-- uniform arithmetic -/
  | uni (op : UOp) (d : Nat) (a b : USrc)
  /-- SLD and SST (R235) -/
  | umem (load plain : Bool) (size : Nat) (off : Word) (a d : Nat)
  /-- a lane operation -/
  | lane (op : LOp) (d : Nat) (srcs : List VSrc)
  /-- a lane comparison into a predicate -/
  | lcmp (op : LCmp) (pd a b : Nat)
  /-- a cross-lane operation -/
  | cross (op : XOp) (d a : Nat) (b : VSrc)
  /-- SREAD (R277) -/
  | sread (d a b : Nat)
  /-- LDG, STG, LDP, STP (R279) -/
  | lmem (load plain : Bool) (size hint x s d : Nat)
  deriving DecidableEq, Repr

/-- A source copied into operand slots (R162); `poison` lists the poisoned lane pairs of a vector register, the poisoned 64-bit words
of a predicate register, or 0 for a poisoned uniform register (R51). -/
structure Frozen where
  reg : RegRef
  lanes : FMap Lane
  word : Word
  pred : Mask
  poison : List Nat
  deriving DecidableEq, Repr

/-- A captured instruction (R162). -/
structure Entry where
  cap : Cap
  pc : Word
  bits : Nat
  nbits : Nat
  mask : Mask
  rm : Nat
  plot : Nat
  frozen : List Frozen
  slots : Nat
  deriving DecidableEq, Repr

/-! ## Claims -/

/-- A tensor descriptor (R78, R79). -/
structure Desc where
  sspace : Bool
  dspace : Bool
  dpeer : Bool
  pmod : Nat
  esize : Nat
  src : Nat
  dst : Nat
  ext : List Nat
  sstr : List Nat
  dstr : List Nat
  deriving DecidableEq, Repr

/-- The state of a claim slot (R86). -/
inductive ClaimState where
  | free | claiming | held | flowing | pending | revoked
  deriving DecidableEq, Repr

/-- A claim slot (R86, R96): its word, and what the engine records of the claim. -/
structure Claim where
  state : ClaimState
  cause : Nat
  total : Nat
  desc : Desc
  die : Nat
  pins : List TlbEntry
  stale : Bool
  route : Option Word
  alternate : Option Word
  peerBase : Nat
  peerCount : Nat
  prior : ClaimState
  priorCause : Nat
  priorTotal : Nat
  deriving DecidableEq, Repr

/-! ## Teams -/

/-- What a byte of memory that nothing has written reads as (logs 2, 4 and 5). -/
abbrev unlistedByte : Byte := 0

/-- Memory by address: the bytes that differ from `unlistedByte`. -/
abbrev Memory := FMap Byte

/-- The one canonical form of memory: addresses strictly rising, no entry that reads as an unlisted address does. -/
def Memory.wf (m : Memory) : Bool := mapWf unlistedByte m

/-- The privilege level of a team (R348). -/
inductive Level where
  | user | supervisor
  deriving DecidableEq, Repr

/-- What a parked team waits for (R151). -/
inductive Park where
  /-- ACWAIT or JOIN on the counter at a slice's byte (R98, R157) -/
  | counter (slice off dest : Nat)
  /-- BAR (R246) -/
  | barrier
  /-- a blocked STEP for boundary `n` (R127) -/
  | step (n : Nat)
  /-- migrate-on-touch (R55) -/
  | migration (id : Nat)
  /-- a host-queue fault (R352) -/
  | fault
  /-- a guest-table event (R68): the address at which the main stream goes on if the team is pre-empted, or none where the head of the
  closure made the store (R70) -/
  | guest (again : Option Word)
  /-- SLEEP (R248): the module's time at issue, and the clocks it lasts -/
  | sleep (since clocks : Nat)
  /-- CLAIM before it is HELD (R83) -/
  | claim (slot : Nat)
  /-- FLOW that holds at issue (R92) -/
  | flow (slot off len : Nat) (ctr : Word)
  /-- MLEASE in the arbiter's queue (R180) -/
  | lease
  /-- KEYDEL until the index is RETIRED (R328) -/
  | keydel (index : Nat)
  /-- TLBINV until the acknowledgement (R72) -/
  | invalidation (id : Nat)
  /-- COLL or A2AV before the workgroup has arrived, or while it reserves (R319) -/
  | collective
  /-- a TLBINV under SHADOW = 1 until the host answers its event (R69) -/
  | shadow
  /-- the host has answered that the team retires, and its accesses or its flow are still under way (R248, R354) -/
  | retire
  deriving DecidableEq, Repr

/-- The state of a team (R151). ISSUING lasts within a step and is not a state between steps. -/
inductive Status where
  /-- no team is here -/
  | vacant
  | ready
  | parked (why : Park)
  /-- an instruction waits at issue for an empty closure, or for room for so many operand slots (R160, R162) -/
  | draining (need : Option Nat)
  | blocked
  /-- a trap waits for TRAP_ENTRY (R349) -/
  | trapping
  /-- a pre-emption request waits for PREEMPT_SAVE (R167) -/
  | preempting
  | preempted
  | retired
  deriving DecidableEq, Repr

/-- A trap (R346): its cause, what `%tval` and `%fmask` receive (`none`: the spec states no `%fmask` for it, and a free one is
drawn when it is reported, log 16), its report code, whether the instruction completed (DONE), whether it is an instruction
fetch, and what the record's EPC is. -/
structure Trap where
  code : Nat
  tval : Word
  fmask : Option Mask
  report : Nat
  done : Bool
  fetch : Bool
  epc : Word
  deriving DecidableEq, Repr

/-- A trap taken or to be taken: the trap, and whether a closure instruction raised it (R163). -/
structure TakenTrap where
  trap : Trap
  deferred : Bool
  deriving DecidableEq, Repr

/-- A team's fault record (R352): the trap, `%time` at the trap, and the record's SEQ once it is written. -/
structure FaultRecord where
  taken : TakenTrap
  time : Word
  seq : Option Nat
  deriving DecidableEq, Repr

/-- The latest flashback point (R164): RESUME, and the state it records (R167). -/
structure Point where
  resume : Word
  mode : Word
  plot : Nat
  defer : Nat
  stepNo : Nat
  deriving DecidableEq, Repr

/-- A 64-byte record of a recipe table (R165). -/
structure Recipe where
  resume : Word
  rebuild : Word
  vlive : Nat
  slive : Nat
  tlive : Nat
  alive : Nat
  plive : Nat
  deriving DecidableEq, Repr

/-- A team (R139 to R168). `shelved` is the closure that a closure-precise trap leaves in the eddy while the handler runs,
and `mainPc` the oldest instruction of the main stream not yet issued then (R163). -/
structure Team where
  /-- the model's own identity of the team (log 10) -/
  uid : Nat
  /-- the team's state (R151) -/
  status : Status
  /-- virtual device (R237) -/
  vd : Nat
  /-- address space (R30) -/
  asid : Nat
  /-- global mill (R142) -/
  mill : Nat
  /-- wheel of the mill (R142) -/
  wheel : Nat
  /-- slot of the wheel (R178) -/
  slot : Nat
  /-- its workgroup, by identity (R147) -/
  wg : Nat
  /-- TINDEX (R142) -/
  tindex : Nat
  /-- launch sequence number (R238) -/
  lseq : Nat
  /-- user or supervisor level (R348) -/
  level : Level
  /-- L, the lanes (R139) -/
  lanes : Nat
  /-- R, the vector registers held (R141) -/
  regs : Nat
  /-- program counter (R209) -/
  pc : Word
  /-- `s0` to `s63` (R214) -/
  uregs : FMap Word
  /-- `v0` to `v127`, by register and lane (R141) -/
  vregs : FMap Lane
  /-- `p0` to `p15`, a bit for each lane (R144) -/
  preds : FMap Mask
  /-- active mask (R143) -/
  mask : Mask
  /-- mask stack, top first (R244) -/
  stack : List Mask
  /-- `%mode` (R190) -/
  mode : Word
  /-- `%status` (R192) -/
  flags : Word
  /-- `%plot`.SIZE (R145) -/
  plot : Nat
  /-- `%defer`.MODE (R159) -/
  defer : Nat
  /-- residual closure, head first (R159, R162) -/
  closure : List Entry
  /-- closure that a closure-precise trap leaves in the eddy (R163) -/
  shelved : List Entry
  /-- oldest main-stream instruction not yet issued when the closure was shelved (R163) -/
  mainPc : Word
  /-- `%cause` (R347) -/
  cause : Word
  /-- `%epc` (R347) -/
  epc : Word
  /-- `%tval` (R347) -/
  tval : Word
  /-- `%fmask` parts 0 to 15 (R228, R347) -/
  fmask : Mask
  /-- `%save`.FRAME (R347, R355) -/
  frame : Nat
  /-- `%lease`.HELD (R179) -/
  leaseHeld : Bool
  /-- `%lease`.GRANT (R179) -/
  leaseGrant : Nat
  /-- `%lease`.REMAIN (R179) -/
  leaseRemain : Nat
  /-- a lease to be requested again at resumption (R181) -/
  releasing : Bool
  /-- step number (R125) -/
  stepNo : Nat
  /-- packets sent in the step (R132) -/
  packetSeq : Nat
  /-- executions of RND.LOG (R270) -/
  rndLog : Nat
  /-- claim slots `c0` to `c15` (R86, R96) -/
  claims : FMap Claim
  /-- latest flashback point (R164) -/
  point : Point
  /-- no point can be returned to (R164) -/
  unrewindable : Bool
  /-- recipe record under which the team was rewound (R167) -/
  rewound : Option Recipe
  /-- age of R178 -/
  age : Nat
  /-- generation of the outstanding barrier arrival (R246) -/
  arrival : Option Nat
  /-- requests of siblings that a GRDY covers: those issued before a BAR that this team has completed (R114) -/
  covered : List Nat
  /-- donation set joined (R152) -/
  donation : Option Nat
  /-- G of R356 -/
  maxG : Nat
  /-- NT of R356 -/
  maxT : Nat
  /-- NA of R356 -/
  maxA : Nat
  /-- tracked tiles (R356) -/
  tiles : List Nat
  /-- tracked accumulators (R356) -/
  accs : List Nat
  /-- slice of the save area (R355) -/
  saveSlice : Nat
  /-- byte of the slice where the save area begins (R355) -/
  saveOff : Nat
  /-- trap that waits for TRAP_ENTRY, which comes after the team's resumption if it is pre-empted first (R349) -/
  pendingTrap : Option TakenTrap
  /-- trap that waits for the closure to drain (R163) -/
  heldTrap : Option TakenTrap
  /-- trap of the user level that waits, while the handler of a closure fault runs, for the closure set aside (R163) -/
  shelvedTrap : Option TakenTrap
  /-- the rest of the closure runs before the main stream goes on (R163) -/
  drains : Bool
  /-- fault record the team is parked on (R352) -/
  fault : Option FaultRecord
  /-- sequence number of the guest-table event waited on (R68) -/
  guestSeq : Option Nat
  /-- poisoned 64-bit words of vector registers, by register and lane pair (R51) -/
  vpoison : List (Nat × Nat)
  /-- poisoned uniform registers (R51) -/
  upoison : List Nat
  /-- poisoned 64-bit words of predicate registers, by register and word (R51) -/
  ppoison : List (Nat × Nat)
  deriving DecidableEq, Repr

/-- A donation set of a workgroup (R152): its wheel and number, its pool in rows, the TAKE queue (team and
rows wanted). -/
structure Donation where
  wheel : Nat
  set : Nat
  pool : Nat
  queue : List (Nat × Nat)
  deriving DecidableEq, Repr

/-- An arrival of a team at COLL or A2AV (R319): the instruction's bits and the two uniform operands. -/
structure CollArrival where
  team : Nat
  tindex : Nat
  bits : Nat
  a : Word
  b : Word
  deriving DecidableEq, Repr

/-- A workgroup (R147 to R149). -/
structure Workgroup where
  /-- the model's own identity (log 10) -/
  uid : Nat
  /-- its launch; none for a forked workgroup -/
  launch : Option Nat
  /-- FORKED (R155) -/
  forked : Bool
  /-- virtual device -/
  vd : Nat
  /-- address space -/
  asid : Nat
  /-- mill (R147) -/
  mill : Nat
  /-- teams (R142) -/
  nteam : Nat
  /-- LINEAR, with the stage (R149) -/
  linear : Nat
  /-- its number in the grid (R148) -/
  coord : Nat
  /-- X (R149) -/
  x : Nat
  /-- Y (R149) -/
  y : Nat
  /-- Z (R149) -/
  z : Nat
  /-- stage (R149) -/
  stage : Nat
  /-- WPBASE, a Plain address (R142) -/
  wpBase : Nat
  /-- WPROWS (R142) -/
  wpRows : Nat
  /-- first row of the workgroup's Plain region in its slice (R176) -/
  wpRow : Nat
  /-- barrier generation G (R246) -/
  barGen : Nat
  /-- barrier arrivals A (R246) -/
  barCount : Nat
  /-- requests under way at an arrival, with the generation that was joined (R114) -/
  barReqs : List (Nat × Nat)
  /-- ready flag (R174) -/
  readyFlag : Bool
  /-- donation sets (R152) -/
  donations : List Donation
  /-- arrivals at a group instruction (R319) -/
  arrivals : List CollArrival
  /-- counter of a forked workgroup (R155) -/
  childCtr : Option Word
  /-- launch sequence number (R238) -/
  lseq : Nat
  /-- recipe table (R165) -/
  recipes : List Recipe
  deriving DecidableEq, Repr

/-- A kernel descriptor, or the child descriptor of a forked workgroup (R155, R170). -/
structure Kernel where
  entry : Word
  recipe : Word
  nrecipe : Nat
  swaths : Nat
  teams : Nat
  granules : Nat
  wpRows : Nat
  maxG : Nat
  nt : Nat
  na : Nat
  deriving DecidableEq, Repr

/-- A launch (R150, R172): `left` counts the workgroups of the last stage not yet retired; `node` names its graph
and node. -/
structure Launch where
  uid : Nat
  vd : Nat
  asid : Nat
  kernel : Kernel
  gx : Nat
  gy : Nat
  gz : Nat
  stages : Nat
  ctr : Word
  args : List Word
  lseq : Nat
  left : Nat
  node : Option (Nat × Nat)
  recipes : List Recipe
  deriving DecidableEq, Repr

/-- A workgroup that is launchable and not placed (R177). -/
structure Launchable where
  vd : Nat
  launch : Nat
  coord : Nat
  stage : Nat
  deriving DecidableEq, Repr

/-- The state of a graph node (R173). -/
inductive NodeState where
  | waiting | running | done | cancelled | failed
  deriving DecidableEq, Repr

/-- A node of a graph (R173), as decoded when the graph was accepted. -/
structure Node where
  copy : Bool
  state : NodeState
  work : Word
  counts : Word
  armctr : Word
  copyctr : Word
  succ : List Nat
  kernel : Kernel
  gx : Nat
  gy : Nat
  gz : Nat
  stages : Nat
  ctr : Word
  args : List Word
  recipes : List Recipe
  launch : Option Nat
  launched : List Nat
  lseq : Nat
  deriving DecidableEq, Repr

/-- A graph (R175). -/
structure Graph where
  uid : Nat
  vd : Nat
  asid : Nat
  sub : Word
  nodesAt : Word
  ctr : Word
  nodes : List Node
  finished : Bool
  deriving DecidableEq, Repr

/-- Something the distributor has still to do (R172 to R175). -/
inductive Job where
  /-- an event on a counter -/
  | counter (slice off : Nat)
  /-- is the tile launchable? -/
  | examine (graph node tile : Nat)
  /-- a predecessor's ready flag counts a tile down -/
  | decrement (graph node tile : Nat)
  /-- a copy node's end counts every tile down -/
  | decrementAll (graph node : Nat)
  /-- the node reaches a state, with the reason and report of a failure (R371) -/
  | reach (graph node : Nat) (state : NodeState) (reason report : Nat)
  /-- is the graph finished? -/
  | finish (graph : Nat)
  /-- 1 is added to a counter -/
  | addOne (vd : Nat) (ctr : Word)
  /-- a flow or a collective that was severed sets SEVERED and its cause in a counter (R93, R322) -/
  | sever (slice off code : Nat)
  deriving DecidableEq, Repr

/-- What R171 tests a shape against, as it stood when the submission was read: whether the window is enabled, rows of the window,
`PRES`, `PWGROW`, `VDSROWS`, and whether any mill works. -/
structure Room where
  enabled : Bool
  count : Nat
  res : Word
  grow : Word
  save : Word
  mills : Bool
  deriving DecidableEq, Repr

/-- A submission read and not yet checked, or in a device queue (R171, R299): its bytes, ASID and address. -/
structure Submitted where
  asid : Nat
  addr : Word
  bytes : List Byte
  deriving DecidableEq, Repr

/-- An entry of a mill's deque (R156, R158). -/
structure Child where
  vd : Nat
  asid : Nat
  kernel : Kernel
  ctr : Word
  args : List Word
  linear : Nat
  x : Nat
  y : Nat
  z : Nat
  stage : Nat
  lseq : Nat
  deriving DecidableEq, Repr

/-! ## Engines -/

/-- A running flow (R91 to R93): its claim, its range, the chunks not yet accepted and the status it gathers.
`team` is none for a copy node's flow, which `node` names and which holds the routes that its claim copied (R377). -/
structure Flow where
  id : Nat
  team : Option Nat
  slot : Nat
  mill : Nat
  vd : Nat
  asid : Nat
  desc : Desc
  off : Nat
  len : Nat
  chunks : List Nat
  ctrSlice : Nat
  ctrOff : Nat
  peer : Option Nat
  pins : List TlbEntry
  error : Bool
  node : Option (Nat × Nat)
  route : Option Word
  alternate : Option Word
  deriving DecidableEq, Repr

/-- A range of the Weir (R94): the mill, the flow, the space and ASID, the first and last byte, and whether it is
a destination range; `peer` names the other module in whose Plain it lies. -/
structure WeirEntry where
  mill : Nat
  flow : Nat
  peer : Option Nat
  plain : Bool
  asid : Nat
  lo : Nat
  hi : Nat
  dest : Bool
  deriving DecidableEq, Repr

/-- The kind of a collective (R316) or an exchange (R323). -/
inductive CollKind where
  | allReduce | reduceScatter | allGather | broadcast | reduce | exchange
  deriving DecidableEq, Repr

/-- How far a collective has come at this module (R321): it waits for members to join, it has asked for a reduction slot that is
not free, or its bytes land. -/
inductive CollPhase where
  | joining | asking | running
  deriving DecidableEq, Repr

/-- A started collective or exchange (R319 to R324). `left` holds the linear offsets of the chunks that have still to land,
`recvCounts` the counts of an exchange once they have arrived, and `gen` the counter's GEN at the start. -/
structure Coll where
  id : Nat
  kind : CollKind
  vd : Nat
  op : Nat
  etype : Nat
  alg : Nat
  domain : Nat
  tag : Nat
  members : List Nat
  rank : Nat
  bytes : Nat
  operand : List Byte
  esize : Nat
  sendCounts : List Nat
  recvCounts : Option (List Nat)
  slice : Nat
  dst : Nat
  dcap : Nat
  rcntSlice : Nat
  rcnt : Nat
  ctrSlice : Nat
  ctrOff : Nat
  gen : Nat
  phase : CollPhase
  slot : Bool
  left : List Nat
  deriving DecidableEq, Repr

/-- An operation of a Millstone that has still to write its tile or accumulator (R301): whether it is an accumulator, its number,
and whether the lease ends with the operation (R180). -/
structure StoneOp where
  acc : Bool
  n : Nat
  ends : Bool
  deriving DecidableEq, Repr

/-- A Millstone (R180, R301): the team that holds the lease, the queue of requests, and the operations under way, the oldest
first. -/
structure Millstone where
  holder : Option Nat
  queue : List (Nat × Nat)
  busy : List StoneOp
  deriving DecidableEq, Repr

/-! ## Migration, invalidation, supersteps -/

/-- How far a migration has come (R55, R56). -/
inductive MigState where
  | copying | switching | draining
  deriving DecidableEq, Repr

/-- A migration of a page (R55, R56): where the leaf's word 0 lies, what it held, the new frame. -/
structure Migration where
  id : Nat
  vd : Nat
  asid : Nat
  page : Nat
  onTouch : Bool
  state : MigState
  attempts : Nat
  leafAt : Nat
  word0 : Nat
  oldFrame : Nat
  capacity : Bool
  key : Nat
  newFrame : Nat
  marked : Bool
  deriving DecidableEq, Repr

/-- What an invalidation answers when it is acknowledged. -/
inductive InvOwner where
  /-- `INVCMD` of a virtual device (R71) -/
  | host (vd : Nat)
  /-- TLBINV of a team (R327) -/
  | team (uid : Nat)
  /-- a migration -/
  | migration (id : Nat)
  /-- a step region being enabled (R122) -/
  | region (g : Nat)
  deriving DecidableEq, Repr

/-- What an invalidation covers: pages of address spaces, or the frames of a step region (R122). -/
inductive InvScope where
  /-- the 64 KiB page of an ASID -/
  | page (asid va : Nat)
  /-- every page of the ASIDs -/
  | spaces (asids : List Nat)
  /-- every Basin frame of a range -/
  | frames (lo hi : Nat)
  deriving DecidableEq, Repr

/-- An invalidation not yet acknowledged (R72): what it covers, the requests and flows it drains, and the frames of the removed entries, whose
lane-cache lines are dropped then (behind the host link or not, first byte, byte after the last). `word` is what is reported. -/
structure Invalidation where
  id : Nat
  owner : InvOwner
  scope : InvScope
  requests : List Nat
  flows : List Nat
  frames : List (Bool × Nat × Nat)
  word : Word
  deriving DecidableEq, Repr

/-- The state of a boundary (R129). -/
inductive BoundaryState where
  | collecting | entered | applying | committed | done | failed
  deriving DecidableEq, Repr

/-- A boundary of a domain at this module (R129): arrivals, the lines each member announced, and the lines of the step
sent to each member and received from each; `lost` says that a member was lost while its commit was under way. -/
structure Boundary where
  vd : Nat
  n : Nat
  state : BoundaryState
  arrivals : Nat
  byStep : Bool
  enterDone : Bool
  ends : List (Nat × Nat)
  sent : List (Nat × Nat)
  got : List (Nat × Nat)
  lost : Bool
  deriving DecidableEq, Repr

/-- The bytes of a line of a step region that the commit of boundary n replaced (R124). -/
structure ImageLine where
  vd : Nat
  n : Nat
  line : Nat
  bytes : List Byte
  deriving DecidableEq, Repr

/-- The quota left towards a target for a step (R131). -/
structure Quota where
  vd : Nat
  target : Nat
  step : Nat
  slines : Nat
  mlines : Nat
  deriving DecidableEq, Repr

/-- Another module's Peer load held at this module until COMMITTED reaches its step (R124). This module's own wait among the
requests. -/
structure HeldLoad where
  vd : Nat
  step : Nat
  source : Nat
  load : Nat
  addr : Nat
  n : Nat
  deriving DecidableEq, Repr

/-- An event record not yet written (R370): `park` names the team that waits on it. -/
structure EventRecord where
  vd : Option Nat
  type : Nat
  report : Nat
  addr : Word
  data : Word
  park : Option Nat
  time : Word
  deriving DecidableEq, Repr

/-- A message to another module. -/
inductive Message where
  /-- a flow reservation (R84): address and bytes of each row -/
  | reserve (target vd : Nat) (rows : List (Nat × Nat))
  /-- the answer to another module's reservation (R84, R378) -/
  | reserveAnswer (target : Nat) (answer : PeerAnswer)
  /-- a chunk of a flow to a peer's Plain, and the counter there on which it counts (R91) -/
  | chunk (target addr : Nat) (bytes : List Byte) (poison : Bool) (ctr : Option Nat)
  /-- status bits for a counter in a peer's Plain: error, or severed with its cause (R93) -/
  | flowStatus (target ctr status : Nat)
  /-- a step-region packet (R132) -/
  | packet (target : Nat) (entry : StepEntry)
  /-- a load of class Peer (R124) -/
  | peerLoad (target load addr n step : Nat)
  /-- the answer to another module's load -/
  | peerData (target load : Nat) (bytes : List Byte)
  /-- END(n, lines) to a member (R129) -/
  | boundaryEnd (target vd n lines : Nat)
  /-- join enter barrier n, or commit barrier n (R129) -/
  | joinEnter (vd n : Nat)
  /-- join commit barrier n -/
  | joinCommit (vd n : Nat)
  /-- a grant of lines for a step (R129) -/
  | grant (target vd n slines mlines : Nat)
  /-- a member was lost (R129) -/
  | fail (vd : Nat)
  /-- a launch packet (R188) -/
  | launch (target entry : Nat) (args : List Word)
  /-- a refusal of a launch packet (R188) -/
  | launchRefused (target entry : Nat)
  /-- a congestion notice (R379) -/
  | congestion (target : Nat)
  /-- a collective joins (R319, R320), with its operand -/
  | collJoin (members : List Nat) (tag : Nat) (operand : List Byte)
  /-- the send count of an exchange for a member (R324) -/
  | counts (target tag count : Nat)
  /-- the segment of an exchange for a member -/
  | segment (target tag : Nat) (bytes : List Byte)
  deriving DecidableEq, Repr

/-- The start machine (R381). -/
inductive Boot where
  | starting | ready | minimal
  deriving DecidableEq, Repr

/-- The slice of a partition (R185): the virtual device that holds it, the slices it has left, and the time at which the current
one began. -/
structure Slice where
  vd : Option Nat
  left : Nat
  preemptAsked : Bool
  since : Nat
  deriving DecidableEq, Repr

/-- A spilled entry in a millpond (R131, R132): the virtual device, the step, and where its 128 bytes lie. -/
structure PondSlot where
  vd : Nat
  step : Nat
  addr : Nat
  deriving DecidableEq, Repr

/-- A firmware image that an update brought (R382 to R384): which image it replaces, its SHA-256 digest, its security version and its
image version. -/
structure ImageRecord where
  image : Nat
  digest : BitVec 256
  security : BitVec 32
  version : BitVec 32
  deriving DecidableEq, Repr

/-- The kind of a translated access (R61). -/
inductive Acc where
  | load | store | atomic | fetch | src | dst
  deriving DecidableEq, Repr

/-- Who moves next: the model's own field, since the agents of the module and of its outside move in no given
order (log 10). -/
inductive Turn where
  /-- a wheel of a mill issues an instruction (R178) -/
  | issue (mill wheel : Nat)
  /-- the same, and the team holds while an access it begins is under way, as it does for an error that the access will find (R51,
  R53, R294) -/
  | issueHeld (mill wheel : Nat)
  /-- the head of a team's closure runs, and an access it begins is held in the same way -/
  | closureHeld (team : Nat)
  /-- an event of the opcode table -/
  | event (i : Instr)
  /-- host software stores to host memory -/
  | hostStore (addr : Nat) (bytes : List Byte)
  /-- a soft error no code corrects hits a 64-bit word of a team's vector register (R51) -/
  | upsetVector (team reg pair : Nat)
  /-- a soft error no code corrects hits a uniform register (R51) -/
  | upsetUniform (team reg : Nat)
  /-- a soft error no code corrects hits a 64-bit word of a predicate register (R51) -/
  | upsetPredicate (team reg word : Nat)
  /-- a soft error no code corrects hits a 64-bit word of a mill's tiles (R51, R309) -/
  | upsetTile (mill word : Nat)
  /-- a soft error no code corrects is found in a 64-bit word of a Plain slice (R51) -/
  | upsetPlain (slice word : Nat)
  /-- an engine, a walker or a fetch finds an error that no code corrects in a Basin line, whose rebuild begins (R49, R52) -/
  | basinError (line key : Nat)
  /-- an error that the code corrects is read in a register or file of a mill (R51) -/
  | corrected (mill : Nat)
  /-- a line of a lane cache is replaced (R41) -/
  | replaceLine (mill : Nat) (host : Bool) (line key : Nat)
  /-- a die's walker keeps the pointers on the path to a virtual address (R59) -/
  | keepPointer (die asid va : Nat)
  /-- a die's walker drops the pointers it keeps for an address space (R59) -/
  | dropPointer (die asid : Nat)
  /-- a chunk of another module's flow reaches this module's Plain, and counts on a counter here if it names one; the status bits go
  into the counter with it (R91, R93) -/
  | peerChunk (source addr : Nat) (bytes : List Byte) (poison : Bool) (ctr : Option Nat) (status : Nat)
  /-- the host frees a page of class Capacity (R57) -/
  | freeCapacity (page : Nat)
  /-- the swap of A and D of a walk that an invalidation overtakes: it performs, and the access walks again (R73) -/
  | walkSwap (die asid va : Nat) (acc : Acc) (sup : Bool)
  /-- a loss notice tells that the route with those ports to a module is lost, which the table may hold no more (R377) -/
  | routeLost (target : Nat) (route : Word)
  /-- FAIL of another member of a step domain reaches this module (R129) -/
  | memberFail (vd : Nat)
  /-- another member answers that a load it held is lost with its domain (R129) -/
  | loadLost (request : Nat)
  deriving DecidableEq, Repr

/-- The state of the module. -/
structure State where
  /-- the team whose turn it is -/
  team : Team
  /-- every other team placed or saved -/
  rest : List Team
  /-- resident workgroups and those saved (R147) -/
  workgroups : List Workgroup
  /-- launches under way (R172) -/
  launches : List Launch
  /-- launchable queues, in order of becoming launchable (R177) -/
  launchables : List Launchable
  /-- graphs under way (R173) -/
  graphs : List Graph
  /-- what waits for the rebuild of a line (R52), or for the queued writes to a counter (R107) -/
  stalledJobs : List Job
  /-- the model's own note, within a turn, that what the distributor was to do must wait (R52, R107) -/
  distStall : Bool
  /-- child deque of each mill (R156) -/
  deques : FMap (List Child)
  /-- device queue of each virtual device (R299) -/
  deviceQueues : FMap (List Submitted)
  /-- submissions read and not yet checked: the virtual device, the submission, and the room there was when it was read (R171) -/
  readQueue : List (Nat × Submitted × Room)
  /-- fabric launches accepted, before their turn (R188) -/
  fabricQueue : FMap (List (Nat × Submitted))
  /-- launch queue whose turn it is, for each virtual device (R171) -/
  queueTurn : FMap Nat
  /-- fault records of teams that retired with their slice, not yet written (R389) -/
  lostRecords : List (Nat × Nat × List Byte)
  /-- launch sequence counter of each virtual device (R238) -/
  lseqs : FMap Nat
  /-- slice of each partition (R185) -/
  slices : FMap Slice
  /-- slot that issued last on each wheel (R178) -/
  lastSlot : FMap Nat
  /-- one more than the partition whose window last held each row of the Plain, 0 for none (R19, R147) -/
  rowOwner : FMap Nat
  /-- registers of BAR 0 by offset (R31) -/
  regs : FMap Word
  /-- DREF of each virtual device (R360) -/
  drefs : FMap Word
  /-- running-time count of each virtual device (R360) -/
  runTime : FMap Word
  /-- `KMAT` (R374) -/
  kmat : Nat
  /-- index that the host's destroy command waits for (R374) -/
  hostDestroy : Option Nat
  /-- key materials in use, by number (R44) -/
  materials : FMap (BitVec 512)
  /-- material installed for each key index (R45); at reset none: log 6 -/
  keyMaterial : FMap Nat
  /-- the model's own next material number (log 10) -/
  nextMaterial : Nat
  /-- Plain bytes by slice and byte (R13) -/
  plain : Memory
  /-- poisoned 64-bit words of the Plain (R51) -/
  plainPoison : List (Nat × Nat)
  /-- release-tag tables (R110) -/
  tags : List (Nat × Nat × Nat)
  /-- promotions in flight (R110, R111) -/
  promotions : List Promotion
  /-- Basin bytes, as plain text of their line's material (R44) -/
  basin : Memory
  /-- material each Basin line is encrypted under; unlisted: zeroed state (R44, R49) -/
  basinSeal : FMap Nat
  /-- poisoned Basin lines (R53) -/
  basinPoison : List Nat
  /-- Basin lines under rebuild, each with the key index under which the error was found (R49, R52) -/
  rebuilding : List (Nat × Nat)
  /-- scrub bitmap (R48) -/
  scrubMarks : List Nat
  /-- clean-copy table (R57) -/
  cleanCopies : List (Nat × Nat)
  /-- corrected-with-delay counter of each stack (R52) -/
  delayed : FMap Nat
  /-- poisoned-write counter (R54) -/
  poisonedWrites : Nat
  /-- host memory bytes (R28) -/
  hostMem : Memory
  /-- poisoned lines behind the host link (R53) -/
  hostPoison : List Nat
  /-- material each host line is encrypted under (R44) -/
  hostSeal : FMap Nat
  /-- lane TLB of each mill (R58) -/
  laneTlb : FMap (List TlbEntry)
  /-- walk-ahead TLB of each die (R60) -/
  walkAhead : FMap (List TlbEntry)
  /-- walks of prefetches (R289) -/
  walks : List WalkReq
  /-- pointers that the walkers keep (R59) -/
  ptrCache : List PtrEntry
  /-- lane cache of each mill (R40) -/
  laneCache : FMap (List CacheLine)
  /-- instruction cache of each mill (R212) -/
  icache : FMap (List CacheLine)
  /-- requests in egress, in bank queues, performed and on their way back (R33 to R38) -/
  requests : List Req
  /-- accesses that hold a completion counter (R37) -/
  accesses : List Access
  /-- wheel port of each slice (R34) -/
  ports : FMap Port
  /-- flows under way (R91) -/
  flows : List Flow
  /-- Weir entries (R94) -/
  weir : List WeirEntry
  /-- claims of die 0's pool for copy nodes (R175) -/
  copyClaims : List Nat
  /-- copy nodes that wait for a peer's reservation (R84) -/
  copyWaits : List (Nat × Claim)
  /-- copy nodes whose counter is armed and whose claim waits for a page of the migration ring (R55, R175) -/
  copyTouched : List (Nat × Desc)
  /-- tiles of each mill, by byte (R301); 0 at reset: log 8 -/
  tiles : FMap Byte
  /-- poisoned 64-bit words of tiles (R309) -/
  tilePoison : List Nat
  /-- accumulators of each mill, by word (R314); 0 at reset: log 8 -/
  accs : FMap Lane
  /-- `%tshape` of each mill (R303) -/
  tshape : FMap Word
  /-- holder, lease queue and operations of each Millstone (R180, R301) -/
  millstones : FMap Millstone
  /-- collectives and exchanges under way (R319, R324) -/
  colls : List Coll
  /-- round-robin pointer of the reduction slots (R321) -/
  slotPointer : Nat
  /-- step boundaries (R129) -/
  boundaries : List Boundary
  /-- what the commits of boundaries replaced (R124) -/
  images : List ImageLine
  /-- virtual device and step number of each team that retired (R127) -/
  exits : List (Nat × Nat)
  /-- sluice entries (R132) -/
  sluice : List StepEntry
  /-- millpond entries (R131) -/
  millpond : List PondSlot
  /-- quota left towards each target (R131) -/
  quotas : List Quota
  /-- loads of other modules held here (R124) -/
  heldLoads : List HeldLoad
  /-- migrations under way (R55, R56) -/
  migrations : List Migration
  /-- invalidations not yet acknowledged (R71) -/
  invalidations : List Invalidation
  /-- step regions being enabled (R122) -/
  enabling : List Nat
  /-- event records not yet written (R370) -/
  events : List EventRecord
  /-- messages sent to other modules (log 10) -/
  outbox : List Message
  /-- tail of each launch queue as last read (R171) -/
  tails : FMap Nat
  /-- injection rate towards each module (R379) -/
  rates : FMap Nat
  /-- flits queued for each port (R379) -/
  portQueues : FMap Nat
  /-- time from which a further congestion notice may go to a source module (R379) -/
  notices : FMap Nat
  /-- time from which the injection rate towards a module may double again (R379) -/
  recoverAt : FMap Nat
  /-- refusal counter of the fabric block (R188) -/
  launchRefusals : Nat
  /-- start machine (R381) -/
  boot : Boot
  /-- highest security version of the updates in effect (R382) -/
  imageVersion : Nat
  /-- starts at which updates took effect (R382) -/
  imageGen : Nat
  /-- security version of the update stored last for the next start (R382) -/
  storedUpdate : Option Nat
  /-- images stored for the next start, newest first (R382) -/
  storedImages : List ImageRecord
  /-- images that updates put in effect, newest first (R382 to R384) -/
  updatedImages : List ImageRecord
  /-- an attestation runs (R383) -/
  attesting : Bool
  /-- a firmware update runs (R382) -/
  updating : Bool
  /-- Basin stacks stopped (R381) -/
  stoppedStacks : List Nat
  /-- mills whose reduction unit is stopped (R387) -/
  stoppedAlus : List Nat
  /-- module number (R133). DESIGN CHOICE: log 19 -/
  module : Nat
  /-- D, nanoseconds since the start (R360) -/
  time : Nat
  /-- who moves next (log 10) -/
  agenda : List Turn
  /-- the instruction that issues holds its team while its accesses are under way (log 75) -/
  heed : Bool
  /-- counter that names the free values (log 10) -/
  draws : Nat
  /-- next identity of a record (log 10) -/
  nextId : Nat
  /-- steps made, which name the ticks of %time (log 11) -/
  steps : Nat
  deriving DecidableEq, Repr

/-! ## Why a step can stop -/

/-- The reasons a step stops with a fault. The module itself never stops: each names a turn that the outside
asked for and that cannot take place in the state. Safe: nothing is claimed of such a turn. -/
inductive Fault where
  /-- raised by the meaning of an event that the state does not enable (no such request, team, walk, flow, …);
  safe: the hardware makes no such step (log 52) -/
  | notEnabled
  /-- raised by the meaning of an event whose argument names no unit of the module (R3); safe, as above -/
  | noSuchUnit
  deriving DecidableEq, Repr

/-- The reasons a step is refused. -/
inductive Refusal where
  /-- raised by the dispatch for an instruction without a meaning yet; safe -/
  | notModelled (mnemonic : String)
  deriving DecidableEq, Repr

/-! ## Reset -/

/-- The empty descriptor of a free slot. -/
def Desc.empty : Desc := ⟨false, false, false, 0, 0, 0, 0, [], [], []⟩

/-- A FREE claim slot (R86). -/
def Claim.free : Claim := ⟨.free, 0, 0, Desc.empty, 0, [], false, none, none, 0, 0, .free, 0, 0⟩

/-- The team in an empty place: every register at its reset value, zero where the spec gives none (log 1). -/
def Team.vacant : Team where
  uid := 0
  status := .vacant
  vd := 0
  asid := 0
  mill := 0
  wheel := 0
  slot := 0
  wg := 0
  tindex := 0
  lseq := 0
  level := .user
  lanes := 32
  regs := 8
  pc := 0
  uregs := []
  vregs := []
  preds := []
  mask := 0
  stack := []
  mode := 1
  flags := 0
  plot := 5
  defer := 0
  closure := []
  shelved := []
  mainPc := 0
  cause := 0
  epc := 0
  tval := 0
  fmask := 0
  frame := 0
  leaseHeld := false
  leaseGrant := 0
  leaseRemain := 0
  releasing := false
  stepNo := 0
  packetSeq := 0
  rndLog := 0
  claims := []
  point := ⟨0, 1, 5, 0, 0⟩
  unrewindable := false
  rewound := none
  age := 0
  arrival := none
  covered := []
  donation := none
  maxG := 0
  maxT := 0
  maxA := 0
  tiles := []
  accs := []
  saveSlice := 0
  saveOff := 0
  pendingTrap := none
  heldTrap := none
  shelvedTrap := none
  drains := false
  fault := none
  guestSeq := none
  vpoison := []
  upoison := []
  ppoison := []

/-- A Millstone that nobody holds. -/
def Millstone.idle : Millstone := ⟨none, [], []⟩

/-- The module right after reset: STARTING (R381), no team, every register at its reset value (an unlisted entry
of a map reads its reset value), key index 0 LOADED (R328). The round-robin pointer of the reduction slots, for which R321 states no
reset value, is 0. DESIGN CHOICE: log 3. -/
def State.reset : State where
  team := Team.vacant
  rest := []
  workgroups := []
  launches := []
  launchables := []
  graphs := []
  stalledJobs := []
  distStall := false
  deques := []
  deviceQueues := []
  readQueue := []
  fabricQueue := []
  queueTurn := []
  lostRecords := []
  lseqs := []
  slices := []
  lastSlot := []
  rowOwner := []
  regs := []
  drefs := []
  runTime := []
  kmat := 0
  hostDestroy := none
  materials := []
  keyMaterial := []
  nextMaterial := 1
  plain := []
  plainPoison := []
  tags := []
  promotions := []
  basin := []
  basinSeal := []
  basinPoison := []
  rebuilding := []
  scrubMarks := []
  cleanCopies := []
  delayed := []
  poisonedWrites := 0
  hostMem := []
  hostPoison := []
  hostSeal := []
  laneTlb := []
  walkAhead := []
  walks := []
  ptrCache := []
  laneCache := []
  icache := []
  requests := []
  accesses := []
  ports := []
  flows := []
  weir := []
  copyClaims := []
  copyWaits := []
  copyTouched := []
  tiles := []
  tilePoison := []
  accs := []
  tshape := []
  millstones := []
  colls := []
  slotPointer := 0
  boundaries := []
  images := []
  exits := []
  sluice := []
  millpond := []
  quotas := []
  heldLoads := []
  migrations := []
  invalidations := []
  enabling := []
  events := []
  outbox := []
  tails := []
  rates := []
  portQueues := []
  notices := []
  recoverAt := []
  launchRefusals := 0
  boot := .starting
  imageVersion := 0
  imageGen := 0
  storedUpdate := none
  storedImages := []
  updatedImages := []
  attesting := false
  updating := false
  stoppedStacks := []
  stoppedAlus := []
  module := 0
  time := 0
  agenda := []
  heed := false
  draws := 0
  nextId := 1
  steps := 0

end Sys2Proof.Machine
end

