-- ==== Sys2Proof/Machine/Flags.lean ====
section
/-! DEFINITION. Number formats, rounding and every flag computation (R190 to R208): the helpers `Round`, `RoundInt`,
`Div` and `Quantise`, on exact values. -/

namespace Sys2Proof.Machine

/-! ## Flags (R192): one bit each, laid out as in `%status` -/

/-- inexact -/
def fNX : Nat := 1
/-- underflow -/
def fUF : Nat := 2
/-- overflow -/
def fOF : Nat := 4
/-- finite nonzero divided by zero -/
def fFDZ : Nat := 8
/-- invalid -/
def fNV : Nat := 16
/-- integer division by zero or overflow -/
def fIDZ : Nat := 32

/-- The enabled flags among those that were set: `%mode` [12:7] enables `%status` [5:0] (R190, R193). -/
def enabledFlags (mode : Word) (flags : Nat) : Nat := flags &&& wbits mode 12 7

/-- The cause of a trap on enabled flags: integer divide before floating-point exception (R193). -/
def flagCause (enabled : Nat) : Nat := if bitOf enabled 5 then 0x13 else 0x14

/-! ## Formats (R194) -/

/-- Precision P. -/
def FFmt.prec : FFmt → Nat
  | .fp32 => 24
  | .bf16 => 8
  | .fp16 => 11

/-- EMIN. -/
def FFmt.emin : FFmt → Int
  | .fp32 => -126
  | .bf16 => -126
  | .fp16 => -14

/-- Width of the exponent field. -/
def FFmt.expBits : FFmt → Nat
  | .fp32 => 8
  | .bf16 => 8
  | .fp16 => 5

/-- Width in bits. -/
def FFmt.width : FFmt → Nat
  | .fp32 => 32
  | .bf16 => 16
  | .fp16 => 16

/-- Width of the fraction field. -/
def FFmt.fracBits (f : FFmt) : Nat := f.prec - 1

/-- The sign bit's weight. -/
def FFmt.signBit (f : FFmt) : Nat := 2 ^ (f.width - 1)

/-- Bits of +∞. -/
def FFmt.infBits (f : FFmt) : Nat := (2 ^ f.expBits - 1) * 2 ^ f.fracBits

/-- The default NaN (R194). -/
def FFmt.nanBits (f : FFmt) : Nat := f.infBits + 2 ^ (f.fracBits - 1)

/-- Bits of the largest finite value. -/
def FFmt.maxBits (f : FFmt) : Nat := f.infBits - 1

/-- A decoded value: a NaN (signalling or not), an infinity, or the exact number ± m × 2^e, a zero keeping its
sign. -/
inductive FVal where
  | nan (signalling : Bool)
  | inf (neg : Bool)
  | num (neg : Bool) (m : Nat) (e : Int)
  deriving DecidableEq, Repr

/-- The value of a bit pattern (R194). -/
def decodeFloat (f : FFmt) (bits : Nat) : FVal :=
  let neg := bitOf bits (f.width - 1)
  let ex := bits / 2 ^ f.fracBits % 2 ^ f.expBits
  let fr := bits % 2 ^ f.fracBits
  if ex = 2 ^ f.expBits - 1 then
    if fr = 0 then .inf neg else .nan (!bitOf fr (f.fracBits - 1))
  else if ex = 0 then .num neg fr (f.emin - f.fracBits)
  else .num neg (fr + 2 ^ f.fracBits) (f.emin - f.fracBits + (ex - 1 : Nat))

/-- The sign as a bit of the format. -/
def FFmt.sign (f : FFmt) (neg : Bool) : Nat := if neg then f.signBit else 0

/-! ## Rounding (R191, R195) -/

/-- `RoundInt` of the magnitude n / d of a number of the given sign, under mode code `rm` (R191). -/
def roundMag (n d : Nat) (neg : Bool) (rm : Nat) : Nat :=
  let q := n / d
  let r := n % d
  if r = 0 then q
  else match rm with
    | 2 => q
    | 3 => if neg then q else q + 1
    | 4 => if neg then q + 1 else q
    | 5 => if 2 * r < d then q else q + 1
    | _ => if 2 * r < d then q else if d < 2 * r then q + 1 else q + q % 2

/-- floor(log2 (n / d)) of a positive fraction. -/
def log2Frac (n d : Nat) : Int :=
  let e : Int := (n.log2 : Int) - (d.log2 : Int)
  let small := if 0 ≤ e then n < d * 2 ^ e.toNat else n * 2 ^ (-e).toNat < d
  if small then e - 1 else e

/-- The fraction (n / d) / 2^k as numerator and denominator. -/
def scaleFrac (n d : Nat) (k : Int) : Nat × Nat :=
  if 0 ≤ k then (n, d * 2 ^ k.toNat) else (n * 2 ^ (-k).toNat, d)

/-- `Round` of the exact number ± n / d, n ≠ 0, into format `f`: the bits and the flags (R195). -/
def roundFrac (f : FFmt) (rm : Nat) (neg : Bool) (n d : Nat) : Nat × Nat :=
  let e := max (log2Frac n d) f.emin
  let k := e - f.prec + 1
  let (n', d') := scaleFrac n d k
  let m := roundMag n' d' neg rm
  let inexact := n' % d' != 0
  let tiny := m < 2 ^ (f.prec - 1)
  -- a magnitude that rounds up to 2^P lies one binade higher
  let (m1, e1) := if m = 2 ^ f.prec then (2 ^ (f.prec - 1), e + 1) else (m, e)
  let biased : Int := if tiny then 0 else e1 - f.emin + 1
  if biased ≥ ((2 ^ f.expBits - 1 : Nat) : Int) then
    let toInf := match rm with
      | 2 => false
      | 3 => !neg
      | 4 => neg
      | _ => true
    (f.sign neg + (if toInf then f.infBits else f.maxBits), fOF ||| fNX)
  else
    let frac := if tiny then m1 else m1 - 2 ^ (f.prec - 1)
    (f.sign neg + biased.toNat * 2 ^ f.fracBits + frac,
      (if inexact then fNX else 0) ||| (if inexact && tiny then fUF else 0))

/-- The numerator and denominator of m × 2^e. -/
def dyadic (m : Nat) (e : Int) : Nat × Nat := if 0 ≤ e then (m * 2 ^ e.toNat, 1) else (m, 2 ^ (-e).toNat)

/-- `Round` of a value; a zero keeps its sign, a NaN gives the default NaN (R195). -/
def roundVal (f : FFmt) (rm : Nat) : FVal → Nat × Nat
  | .nan _ => (f.nanBits, 0)
  | .inf neg => (f.sign neg + f.infBits, 0)
  | .num neg m e =>
    if m = 0 then (f.sign neg, 0)
    else let (n, d) := dyadic m e; roundFrac f rm neg n d

/-! ## Sums, products, quotients (R196) -/

/-- NV for a signalling NaN. -/
def nanFlag : FVal → Nat
  | .nan true => fNV
  | _ => 0

/-- Is the value a NaN? -/
def FVal.isNan : FVal → Bool
  | .nan _ => true
  | _ => false

/-- Is the value an infinity of the given sign? -/
def FVal.isInf (neg : Bool) : FVal → Bool
  | .inf s => s == neg
  | _ => false

/-- A value with its sign inverted; a NaN stays. -/
def FVal.negate : FVal → FVal
  | .nan s => .nan s
  | .inf s => .inf !s
  | .num s m e => .num (!s) m e

/-- Is the value a zero of sign minus? -/
def FVal.isNegZero : FVal → Bool
  | .num true 0 _ => true
  | _ => false

/-- The exact product and its flags: 0 × ∞ is invalid (R196). -/
def mulVal (a b : FVal) : FVal × Nat :=
  match a, b with
  | .nan s, y => (.nan false, nanFlag (.nan s) ||| nanFlag y)
  | x, .nan s => (.nan false, nanFlag x ||| nanFlag (.nan s))
  | .inf s, .inf t => (.inf (s != t), 0)
  | .inf s, .num t m _ => if m = 0 then (.nan false, fNV) else (.inf (s != t), 0)
  | .num t m _, .inf s => if m = 0 then (.nan false, fNV) else (.inf (s != t), 0)
  | .num s m e, .num t n k => (.num (s != t) (m * n) (e + k), 0)

/-- The exact signed sum of numbers as an integer times a power of two; other values count nothing. -/
def sumNums : List FVal → Int × Int
  | [] => (0, 0)
  | x :: xs =>
    let (s, k) := sumNums xs
    match x with
    | .num neg m e =>
      if m = 0 then (s, k)
      else
        let v : Int := if neg then -(m : Int) else m
        if s = 0 then (v, e)
        else if e ≤ k then (v + s * ((2 ^ (k - e).toNat : Nat) : Int), e)
        else (v * ((2 ^ (e - k).toNat : Nat) : Int) + s, k)
    | _ => (s, k)

/-- The exact sum of values, and the flags of an invalid sum: a NaN term gives NaN, infinities of both signs are
invalid, an exact zero takes the sign R196 gives it under mode `rm`. -/
def sumVal (rm : Nat) (xs : List FVal) : FVal × Nat :=
  let fl := xs.foldl (fun f x => f ||| nanFlag x) 0
  if xs.any FVal.isNan then (.nan false, fl)
  else if xs.any (FVal.isInf false) && xs.any (FVal.isInf true) then (.nan false, fNV)
  else if xs.any (FVal.isInf false) then (.inf false, 0)
  else if xs.any (FVal.isInf true) then (.inf true, 0)
  else
    let (s, k) := sumNums xs
    if s = 0 then (.num (xs.all FVal.isNegZero || rm == 4) 0 0, 0)
    else (.num (s < 0) s.natAbs k, 0)

/-- A value rounded, with flags already gathered. -/
def roundWith (f : FFmt) (rm : Nat) (v : FVal × Nat) : Nat × Nat :=
  let (b, fl) := roundVal f rm v.1
  (b, fl ||| v.2)

/-- A sum of values rounded once (R195, R196). -/
def fsum (f : FFmt) (rm : Nat) (xs : List FVal) : Nat × Nat := roundWith f rm (sumVal rm xs)

/-- x + y, rounded once. -/
def fadd (f : FFmt) (rm x y : Nat) : Nat × Nat := fsum f rm [decodeFloat f x, decodeFloat f y]

/-- x − y, rounded once. -/
def fsub (f : FFmt) (rm x y : Nat) : Nat × Nat := fsum f rm [decodeFloat f x, (decodeFloat f y).negate]

/-- x × y, rounded once. -/
def fmul (f : FFmt) (rm x y : Nat) : Nat × Nat := roundWith f rm (mulVal (decodeFloat f x) (decodeFloat f y))

/-- x × y + z, rounded once (R261). -/
def ffma (f : FFmt) (rm x y z : Nat) : Nat × Nat :=
  let (p, fl) := mulVal (decodeFloat f x) (decodeFloat f y)
  let (s, fl') := sumVal rm [p, decodeFloat f z]
  roundWith f rm (s, fl ||| fl')

/-- z − x × y, rounded once (R261). -/
def ffms (f : FFmt) (rm x y z : Nat) : Nat × Nat :=
  let (p, fl) := mulVal (decodeFloat f x) (decodeFloat f y)
  let (s, fl') := sumVal rm [p.negate, decodeFloat f z]
  roundWith f rm (s, fl ||| fl')

/-- x / y of values, rounded once (R196). -/
def divVal (f : FFmt) (rm : Nat) (a b : FVal) : Nat × Nat :=
  match a, b with
  | .nan s, y => (f.nanBits, nanFlag (.nan s) ||| nanFlag y)
  | x, .nan s => (f.nanBits, nanFlag x ||| nanFlag (.nan s))
  | .inf _, .inf _ => (f.nanBits, fNV)
  | .inf s, .num t _ _ => (f.sign (s != t) + f.infBits, 0)
  | .num s _ _, .inf t => (f.sign (s != t), 0)
  | .num s m e, .num t n k =>
    if n = 0 then
      if m = 0 then (f.nanBits, fNV) else (f.sign (s != t) + f.infBits, fFDZ)
    else if m = 0 then (f.sign (s != t), 0)
    else
      let (a1, b1) := dyadic m (e - k)
      roundFrac f rm (s != t) a1 (b1 * n)

/-- x / y, rounded once. -/
def fdiv (f : FFmt) (rm x y : Nat) : Nat × Nat := divVal f rm (decodeFloat f x) (decodeFloat f y)

/-- Integer square root by bits, from bit `i` down: the largest r with r² ≤ x. -/
def isqrtFrom (x : Nat) : Nat → Nat → Nat
  | 0, r => r
  | i + 1, r => if (r + 2 ^ i) * (r + 2 ^ i) ≤ x then isqrtFrom x i (r + 2 ^ i) else isqrtFrom x i r

/-- The square root of a positive m × 2^e as a fraction that rounds to the same value in any format of at most
24 digits: 40 binary digits of it, and a last digit that says whether digits were lost. -/
def sqrtFrac (m : Nat) (e : Int) : Nat × Nat :=
  let (m', e') := if e % 2 = 0 then (m, e) else (2 * m, e - 1)
  let x := m' * 2 ^ 80
  let r := isqrtFrom x 64 0
  let (n, d) := dyadic (2 * r + b2n (r * r != x)) (e' / 2)
  (n, d * 2 ^ 41)

/-- The square root, rounded once (R196, R261). -/
def fsqrt (f : FFmt) (rm x : Nat) : Nat × Nat :=
  match decodeFloat f x with
  | .nan s => (f.nanBits, nanFlag (.nan s))
  | .inf neg => if neg then (f.nanBits, fNV) else (f.infBits, 0)
  | .num neg m e =>
    if m = 0 then (f.sign neg, 0)
    else if neg then (f.nanBits, fNV)
    else let (n, d) := sqrtFrac m e; roundFrac f rm false n d

/-! ## Order and class (R197, R263, R264) -/

/-- A key that orders the bits of values that are no NaN, −0 below +0 (R197). -/
def orderKey (f : FFmt) (x : Nat) : Int :=
  let mag : Int := (x % f.signBit : Nat)
  if bitOf x (f.width - 1) then -mag - 1 else mag

/-- A key that orders them with −0 equal to +0 (R263). -/
def compareKey (f : FFmt) (x : Nat) : Int :=
  let mag : Int := (x % f.signBit : Nat)
  if bitOf x (f.width - 1) then -mag else mag

/-- FMIN, or FMAX when `wantMax` (R197). -/
def fminmax (f : FFmt) (wantMax : Bool) (x y : Nat) : Nat × Nat :=
  let a := decodeFloat f x
  let b := decodeFloat f y
  let fl := nanFlag a ||| nanFlag b
  if a.isNan && b.isNan then (f.nanBits, fl)
  else if a.isNan then (y, fl)
  else if b.isNan then (x, fl)
  else if wantMax then (if orderKey f x < orderKey f y then y else x, fl)
  else (if orderKey f y < orderKey f x then y else x, fl)

/-- A lane comparison and its flags (R259, R263). -/
def LCmp.eval (c : LCmp) (x y : Lane) : Bool × Nat :=
  let a := decodeFloat .fp32 x.toNat
  let b := decodeFloat .fp32 y.toNat
  let un := a.isNan || b.isNan
  let sig := nanFlag a ||| nanFlag b
  let anyNv := if un then fNV else 0
  let kx := compareKey .fp32 x.toNat
  let ky := compareKey .fp32 y.toNat
  match c with
  | .eq => (x == y, 0)
  | .ne => (x != y, 0)
  | .lt => (x.slt y, 0)
  | .le => (x.sle y, 0)
  | .gt => (y.slt x, 0)
  | .ge => (y.sle x, 0)
  | .ltu => (x.ult y, 0)
  | .leu => (x.ule y, 0)
  | .gtu => (y.ult x, 0)
  | .geu => (y.ule x, 0)
  | .feq => (!un && kx == ky, sig)
  | .fne => (un || kx != ky, sig)
  | .flt => (!un && kx < ky, anyNv)
  | .fle => (!un && kx ≤ ky, anyNv)
  | .fgt => (!un && ky < kx, anyNv)
  | .fge => (!un && ky ≤ kx, anyNv)
  | .unordered => (un, sig)
  | .ordered => (!un, sig)

/-- The class bit of an FP32 value (R264). -/
def fclass (x : Nat) : Nat :=
  match decodeFloat .fp32 x with
  | .nan s => if s then 2 ^ 8 else 2 ^ 9
  | .inf neg => if neg then 1 else 2 ^ 7
  | .num neg m _ =>
    if m = 0 then (if neg then 2 ^ 3 else 2 ^ 4)
    else if m < 2 ^ 23 then (if neg then 2 ^ 2 else 2 ^ 5)
    else (if neg then 2 else 2 ^ 6)

/-! ## Integers (R198, R199) -/

/-- `Div` (R199) on operands of w bits: quotient, remainder, flags. -/
def divHelper (w : Nat) (sgn : Bool) (a b : Nat) : Nat × Nat × Nat :=
  if b = 0 then (2 ^ w - 1, a, fIDZ)
  else if sgn then
    if a = 2 ^ (w - 1) && b = 2 ^ w - 1 then (a, 0, fIDZ)
    else
      let x := signed w a
      let y := signed w b
      let q := Int.tdiv x y
      ((q % (2 ^ w : Nat)).toNat, ((x - q * y) % (2 ^ w : Nat)).toNat, 0)
  else (a / b, a % b, 0)

/-! ## Conversions (R204, R267) -/

/-- `RoundInt` of a value into the integers from `lo` to `hi`, with flags (R204). Whether a value is beyond the range is judged of the
rounded integer. DESIGN CHOICE: log 118. -/
def toInteger (rm : Nat) (lo hi : Int) : FVal → Int × Nat
  | .nan _ => (0, fNV)
  | .inf neg => (if neg then lo else hi, fNV)
  | .num neg m e =>
    let (n, d) := dyadic m e
    let mag : Int := roundMag n d neg rm
    let v := if neg then -mag else mag
    if v < lo then (lo, fNV)
    else if hi < v then (hi, fNV)
    else (v, if n % d = 0 then 0 else fNX)

/-- An integer as an exact value; zero is +0. -/
def intVal (x : Int) : FVal := .num (x < 0) x.natAbs 0

/-- The float format of a conversion type, if it is one. -/
def CvtType.float? : CvtType → Option FFmt
  | .f32 => some .fp32
  | .bf16 => some .bf16
  | .fp16 => some .fp16
  | _ => none

/-- Bits of one element of a type, its count in a lane, and whether it is unsigned (R267). -/
def CvtType.shape : CvtType → Nat × Nat × Bool
  | .f32 => (32, 1, false)
  | .bf16 => (16, 2, false)
  | .fp16 => (16, 2, false)
  | .i32 => (32, 1, false)
  | .u32 => (32, 1, true)
  | .i16 => (16, 2, false)
  | .i8 => (8, 4, false)
  | .u8 => (8, 4, true)

/-- The integer an element of an integer type holds. -/
def CvtType.toInt (t : CvtType) (x : Nat) : Int :=
  let (w, _, uns) := t.shape
  if uns then ((x % 2 ^ w : Nat) : Int) else signed w x

/-- `Convert` of one element (R204, R267). -/
def convert (src dst : CvtType) (rm x : Nat) : Nat × Nat :=
  let (w, _, uns) := dst.shape
  match src.float?, dst.float? with
  | some f, some g =>
    let v := decodeFloat f x
    roundWith g rm (v, nanFlag v)
  | some f, none =>
    let (lo, hi) : Int × Int :=
      if uns then (0, (2 ^ w - 1 : Nat)) else (-(2 ^ (w - 1) : Nat), (2 ^ (w - 1) - 1 : Nat))
    let (v, fl) := toInteger rm lo hi (decodeFloat f x)
    ((v % (2 ^ w : Nat)).toNat, fl)
  | none, some g => roundVal g rm (intVal (src.toInt x))
  | none, none => ((src.toInt x % (2 ^ w : Nat)).toNat, 0)

/-! ## Block formats (R200 to R202) -/

/-- Bytes of an MBk block. -/
def blockBytes (k : Nat) : Nat := (16 + 16 * (k + 1)) / 8

/-- Element i of the block whose bits are `b` (R201). -/
def blockElem (k b i : Nat) : FVal :=
  let e := bitsOf b 7 0
  if e = 0xFF then .nan false
  else
    let u := bitsOf b (8 + i / 2) (8 + i / 2)
    let p := 16 + (k + 1) * i
    .num (bitOf b (p + k)) (bitsOf b (p + k - 1) p) ((e : Int) - 127 - u - (k - 1 : Nat))

/-- |a| ≤ |b| for numbers m × 2^e. -/
def magLe (a b : Nat × Int) : Bool :=
  if a.2 ≤ b.2 then a.1 ≤ b.1 * 2 ^ (b.2 - a.2).toNat else a.1 * 2 ^ (a.2 - b.2).toNat ≤ b.1

/-- The larger magnitude. -/
def magMax (a b : Nat × Int) : Nat × Int := if magLe a b then b else a

/-- Sign and magnitude of a number; a NaN or infinity counts as zero. -/
def FVal.parts : FVal → Bool × Nat × Int
  | .num s m e => (s, m, e)
  | .nan _ => (false, 0, 0)
  | .inf s => (s, 0, 0)

/-- Is the value a number? -/
def FVal.isNum : FVal → Bool
  | .num _ _ _ => true
  | _ => false

/-- The block whose shared exponent is `e`, from its pair bits and its elements' signs and mantissas. -/
def blockBits (k e : Nat) (us : List Nat) (els : List (Bool × Nat)) : Nat :=
  let u := us.foldr (fun b a => b + 2 * a) 0
  let m := els.foldr (fun x a => x.2 + 2 ^ k * b2n x.1 + 2 ^ (k + 1) * a) 0
  e + 2 ^ 8 * u + 2 ^ 16 * m

/-- The block of shared exponent `e`, steps 4 to 6 of R202. -/
def quantiseAt (k rm e : Nat) (ys : List FVal) : Nat × Nat :=
  let mag := fun (y : FVal) => (y.parts.2.1, y.parts.2.2)
  let pairU := fun (j : Nat) =>
    let b := magMax (mag (ys.getD (2 * j) (.inf false))) (mag (ys.getD (2 * j + 1) (.inf false)))
    if magLe (1, (e : Int) - 127) b then 0 else 1
  let us := (List.range 8).map pairU
  let els := (List.range 16).map fun i =>
    let (s, m, x) := (ys.getD i (.inf false)).parts
    let scale : Int := (e : Int) - 127 - us.getD (i / 2) 0 - (k - 1 : Nat)
    let (n, d) := dyadic m (x - scale)
    let r := min (roundMag n d s rm) (2 ^ k - 1)
    ((s, r), n != r * d)
  (blockBits k e us (els.map (·.1)), if els.any (·.2) then fNX else 0)

/-- `Quantise` of 16 FP32 values into an MBk block: its bits and the flags (R202). The smoothed values of `TLD.SM` are exact
products; where one lies beyond FP32 the block is free (log 17). -/
def quantise (k rm : Nat) (ys : List FVal) : Nat × Nat :=
  if !(ys.all FVal.isNum) then (0xFF, fNV)
  else
    let a := ys.foldl (fun m y => magMax m (y.parts.2.1, y.parts.2.2)) (0, 0)
    if a.1 = 0 then (blockBits k 0 (List.replicate 8 0) (ys.map fun y => (y.parts.1, 0)), 0)
    else
      let e : Nat := (max 0 ((a.1.log2 : Int) + a.2 + 127)).toNat
      if 254 < e then ((Config.hugeBlock k (ys.map FVal.parts)).toNat % 2 ^ (8 * blockBytes k), fNX)
      else quantiseAt k rm e ys

/-! ## Element formats (R205, R304) -/

/-- k of a block format code, 0 for the others. -/
def blockK : Nat → Nat
  | 4 => 7
  | 5 => 4
  | 6 => 2
  | _ => 0

/-- The float format of an element format code. -/
def elemFloat? : Nat → Option FFmt
  | 0 => some .fp32
  | 1 => some .bf16
  | 2 => some .fp16
  | _ => none

/-- The k of an element format in an MMA (R205). -/
def elemK : Nat → Nat
  | 1 => 32
  | 2 => 32
  | 3 => 64
  | 4 => 64
  | 5 => 64
  | 6 => 128
  | _ => 0

/-! ## MMA (R207, R208) -/

/-- A term of the sum: a product, or for min-plus and max-plus a sum, whose zero has the sign of R196. -/
def mmaTerm (sem rm : Nat) (a b : FVal) : FVal := (if sem = 1 || sem = 2 then sumVal rm [a, b] else mulVal a b).1

/-- A term of integers, exact (R208). -/
def mmaIntTerm (sem : Nat) (p : Int × Int) : Int := if sem = 1 || sem = 2 then p.1 + p.2 else p.1 * p.2

/-- x before y in the order that puts −∞ least, +∞ greatest and −0 below +0 (R208). -/
def FVal.before : FVal → FVal → Bool
  | .inf true, .inf true => false
  | .inf true, _ => true
  | _, .inf true => false
  | .inf false, _ => false
  | .num _ _ _, .inf false => true
  | .num s m e, .num t n k =>
    if m = 0 && n = 0 then s && !t
    else if s && !t then true
    else if !s && t then false
    else if s then !magLe (m, e) (n, k)
    else !magLe (n, k) (m, e)
  | .nan _, _ => false
  | .num _ _ _, .nan _ => false

/-- The least, or the greatest when `wantMax`, of a value and others. -/
def extreme (wantMax : Bool) (c : FVal) (ts : List FVal) : FVal :=
  ts.foldl (fun a t => if wantMax then (if a.before t then t else a) else (if t.before a then t else a)) c

/-- New C of one element with FP32 accumulation, from its terms (R208): the bits and the flags. -/
def mmaFloat (sem rm : Nat) (c : FVal) (ts : List FVal) : Nat × Nat :=
  if c.isNan || ts.any (·.isNan) then (FFmt.fp32.nanBits, fNV)
  else
    match sem with
    | 0 => fsum .fp32 rm (c :: ts)
    | 1 => roundVal .fp32 rm (extreme false c ts)
    | _ => roundVal .fp32 rm (extreme true c ts)

/-- New C of one element with INT32 accumulation (R208), modulo 2^32. -/
def mmaInt (sem : Nat) (c : Int) (pairs : List (Int × Int)) : Int :=
  let terms := pairs.map (mmaIntTerm sem)
  match sem with
  | 0 => terms.foldl (· + ·) c
  | 1 => terms.foldl min c
  | 4 => if c != 0 || pairs.any (fun p => p.1 != 0 && p.2 != 0) then 1 else 0
  | _ => terms.foldl max c

/-- `Add`, `Min` and `Max` of R135 on FP32 values, and ATOM.FADD of R291: no flags raised. -/
def fp32Add (x y : Nat) : Nat := (fadd .fp32 1 x y).1
/-- Minimum under R197. -/
def fp32Min (x y : Nat) : Nat := (fminmax .fp32 false x y).1
/-- Maximum under R197. -/
def fp32Max (x y : Nat) : Nat := (fminmax .fp32 true x y).1

end Sys2Proof.Machine
end

