-- ==== Sys2Proof/Machine/Crypto.lean ====
section
/-! DEFINITION. The published algorithms that the spec names: SHA-256 (R271, R383), SHA-512, which
SLH-DSA-SHA2-256s uses (R382), and AES-256-XTS with data units of 64 bytes (R44). -/

namespace Sys2Proof.Machine

/-! ## SHA-256 and SHA-512 -/

variable {w : Nat}

/-- The largest number with a property, of `n` bits beyond those of `x`, where the property holds below some bound and not above. -/
def largestWith (ok : Nat → Bool) : Nat → Nat → Nat
  | 0, x => x
  | n + 1, x => largestWith ok n (if ok (x + 2 ^ n) then x + 2 ^ n else x)

/-- The first 80 primes. -/
def shaPrimes : List Nat :=
  (List.range 410).filter fun n => 2 ≤ n && (List.range 21).all fun d => d < 2 || d == n || n % d != 0

/-- What sets the two hashes apart, beside the `w` bits of a word: the number of rounds, and the three amounts of each of the four
mixing functions, the two of the message schedule (whose third amount shifts) before the two of a round. -/
structure Sha (w : Nat) where
  rounds : Nat
  early : Nat × Nat × Nat
  late : Nat × Nat × Nat
  left : Nat × Nat × Nat
  right : Nat × Nat × Nat

/-- SHA-256. -/
def shape256 : Sha 32 := ⟨64, (7, 18, 3), (17, 19, 10), (2, 13, 22), (6, 11, 25)⟩

/-- SHA-512. -/
def shape512 : Sha 64 := ⟨80, (1, 8, 7), (19, 61, 6), (28, 34, 39), (14, 18, 41)⟩

/-- The round constants: the first `w` bits of the fractional parts of the primes' cube roots. -/
def shaK (w : Nat) : List (BitVec w) :=
  shaPrimes.map fun p => BitVec.ofNat w (largestWith (fun x => x * x * x ≤ p * 2 ^ (3 * w)) (w + 3) 0)

/-- The initial hash words: the first `w` bits of the fractional parts of the square roots of the first eight primes. -/
def shaInit (w : Nat) : List (BitVec w) :=
  (shaPrimes.take 8).map fun p => BitVec.ofNat w (largestWith (fun x => x * x ≤ p * 2 ^ (2 * w)) (w + 3) 0)

/-- The message padded to whole blocks of `2 * w` bytes. -/
def shaPad (w : Nat) (msg : List Byte) : List Byte :=
  let n := msg.length
  let z := (4 * w - 1 - w / 4 - n % (2 * w)) % (2 * w)
  msg ++ [0x80] ++ List.replicate z 0 ++ (leBytes (w / 4) (8 * n)).reverse

/-- The `n` words of a block, big-endian. -/
def shaWords (w : Nat) : Nat → List Byte → List (BitVec w)
  | 0, _ => []
  | n + 1, bs => BitVec.ofNat w (leNat (bs.take (w / 8)).reverse) :: shaWords w n (bs.drop (w / 8))

/-- A word rotated right by two amounts and shifted right by a third, mixed. -/
def shaEarly (r : Nat × Nat × Nat) (x : BitVec w) : BitVec w := x.rotateRight r.1 ^^^ x.rotateRight r.2.1 ^^^ (x >>> r.2.2)

/-- A word rotated right by three amounts, mixed. -/
def shaMix (r : Nat × Nat × Nat) (x : BitVec w) : BitVec w := x.rotateRight r.1 ^^^ x.rotateRight r.2.1 ^^^ x.rotateRight r.2.2

/-- The next message-schedule word, from the last 16, newest first. -/
def shaNext (h : Sha w) (ws : List (BitVec w)) : BitVec w :=
  let g := fun i => ws.getD i 0
  g 15 + shaEarly h.early (g 14) + g 6 + shaEarly h.late (g 1)

/-- The message schedule, newest word first. -/
def shaSchedule (h : Sha w) : Nat → List (BitVec w) → List (BitVec w)
  | 0, ws => ws
  | n + 1, ws => shaSchedule h n (shaNext h ws :: ws)

/-- One round on the eight working words. -/
def shaRound (sh : Sha w) (v : List (BitVec w)) (kw : BitVec w × BitVec w) : List (BitVec w) :=
  match v with
  | [a, b, c, d, e, f, g, h] =>
    let t1 := h + shaMix sh.right e + ((e &&& f) ^^^ (~~~e &&& g)) + kw.1 + kw.2
    let t2 := shaMix sh.left a + ((a &&& b) ^^^ (a &&& c) ^^^ (b &&& c))
    [t1 + t2, a, b, c, d + t1, e, f, g]
  | _ => v

/-- The hash words after one block. -/
def shaBlock (h : Sha w) (ks hs : List (BitVec w)) (block : List Byte) : List (BitVec w) :=
  let ws := (shaSchedule h (h.rounds - 16) (shaWords w 16 block).reverse).reverse
  List.zipWith (· + ·) hs ((ks.zip ws).foldl (shaRound h) hs)

/-- The hash words after `n` blocks. -/
def shaBlocks (h : Sha w) (ks : List (BitVec w)) : Nat → List (BitVec w) → List Byte → List (BitVec w)
  | 0, hs, _ => hs
  | n + 1, hs, m => shaBlocks h ks n (shaBlock h ks hs (m.take (2 * w))) (m.drop (2 * w))

/-- The digest of a message: `w` bytes. -/
def shaDigest (h : Sha w) (ks init : List (BitVec w)) (msg : List Byte) : List Byte :=
  let p := shaPad w msg
  (shaBlocks h ks (p.length / (2 * w)) init p).flatMap fun x => (leBytes (w / 8) x.toNat).reverse

/-- The constants of SHA-256: those of the rounds and the initial words. -/
def constants256 : List (BitVec 32) × List (BitVec 32) := (shaK 32, shaInit 32)

/-- The constants of SHA-512. -/
def constants512 : List (BitVec 64) × List (BitVec 64) := (shaK 64, shaInit 64)

/-- The SHA-256 digest: 32 bytes. -/
def sha256 (msg : List Byte) : List Byte := shaDigest shape256 constants256.1 constants256.2 msg

/-- The SHA-512 digest: 64 bytes. -/
def sha512 (msg : List Byte) : List Byte := shaDigest shape512 constants512.1 constants512.2 msg

/-! ## AES-256 -/

/-- Multiplication by x in the field of AES. -/
def aesXtime (a : Nat) : Nat := (2 * a % 256) ^^^ (if 128 ≤ a then 0x1B else 0)

/-- Multiplication in the field of AES, by the bits of `b`. -/
def aesMul : Nat → Nat → Nat → Nat
  | 0, _, _ => 0
  | n + 1, a, b => (if b % 2 = 1 then a else 0) ^^^ aesMul n (aesXtime a) (b / 2)

/-- The power a^254, the inverse of a (0 for 0). -/
def aesInv (a : Nat) : Nat :=
  let m := aesMul 8
  let a2 := m a a
  let a3 := m a2 a
  let a6 := m a3 a3
  let a7 := m a6 a
  let a14 := m a7 a7
  let a15 := m a14 a
  let a30 := m a15 a15
  let a31 := m a30 a
  let a62 := m a31 a31
  let a63 := m a62 a
  let a126 := m a63 a63
  let a127 := m a126 a
  m a127 a127

/-- A byte rotated left by n. -/
def rotByte (a n : Nat) : Nat := (a * 2 ^ n) % 256 + a / 2 ^ (8 - n)

/-- The S-box of one byte. -/
def aesSbox (a : Nat) : Nat :=
  let b := aesInv a
  b ^^^ rotByte b 1 ^^^ rotByte b 2 ^^^ rotByte b 3 ^^^ rotByte b 4 ^^^ 0x63

/-- The inverse S-box of one byte. -/
def aesInvSbox (a : Nat) : Nat := aesInv (rotByte a 1 ^^^ rotByte a 3 ^^^ rotByte a 6 ^^^ 5)

/-- Bytewise exclusive or. -/
def xorBytes (a b : List Nat) : List Nat := List.zipWith (· ^^^ ·) a b

/-- Key expansion: words of four bytes, newest first; `i` counts them. -/
def aesExpand : Nat → Nat → Nat → List (List Nat) → List (List Nat)
  | 0, _, _, ws => ws
  | n + 1, i, rcon, ws =>
    let prev := ws.headD []
    let old := ws.getD 7 []
    let t := if i % 8 = 0 then
        let r := (prev.drop 1 ++ prev.take 1).map aesSbox
        xorBytes r [rcon, 0, 0, 0]
      else if i % 8 = 4 then prev.map aesSbox
      else prev
    aesExpand n (i + 1) (if i % 8 = 0 then aesXtime rcon else rcon) (xorBytes old t :: ws)

/-- Groups of four. -/
def groups4 : List Nat → List (List Nat)
  | a :: b :: c :: d :: rest => [a, b, c, d] :: groups4 rest
  | _ => []

/-- The fifteen round keys of a 32-byte key, the first first, each of 16 bytes. -/
def aesRoundKeys (key : List Nat) : List (List Nat) :=
  let ws := (aesExpand 52 8 1 (groups4 key).reverse).reverse
  (List.range 15).map fun r => ((ws.drop (4 * r)).take 4).flatten

/-- ShiftRows, or its inverse: byte 4c + r comes from column c + r, or c − r. -/
def aesShift (inverse : Bool) (s : List Nat) : List Nat :=
  (List.range 16).map fun i =>
    let r := i % 4
    let c := i / 4
    s.getD (4 * ((if inverse then c + 4 - r else c + r) % 4) + r) 0

/-- One column times the circulant matrix of `k`. -/
def aesMixCol (k : List Nat) (c : List Nat) : List Nat :=
  (List.range 4).map fun r =>
    (List.range 4).foldl (fun a j => a ^^^ aesMul 8 (c.getD j 0) (k.getD ((j + 4 - r) % 4) 0)) 0

/-- MixColumns, or its inverse. -/
def aesMix (inverse : Bool) (s : List Nat) : List Nat :=
  ((groups4 s).map (aesMixCol (if inverse then [14, 11, 13, 9] else [2, 3, 1, 1]))).flatten

/-- The AES-256 cipher on 16 bytes. -/
def aesEncrypt (key block : List Nat) : List Nat :=
  let ks := aesRoundKeys key
  let s := (List.range 13).foldl
    (fun s r => xorBytes (aesMix false (aesShift false (s.map aesSbox))) (ks.getD (r + 1) []))
    (xorBytes block (ks.getD 0 []))
  xorBytes (aesShift false (s.map aesSbox)) (ks.getD 14 [])

/-- The inverse cipher on 16 bytes. -/
def aesDecrypt (key block : List Nat) : List Nat :=
  let ks := aesRoundKeys key
  let s := (List.range 13).foldl
    (fun s r => aesMix true (xorBytes ((aesShift true s).map aesInvSbox) (ks.getD (13 - r) [])))
    (xorBytes block (ks.getD 14 []))
  xorBytes ((aesShift true s).map aesInvSbox) (ks.getD 0 [])

/-! ## XTS over a line of 64 bytes (R44) -/

/-- The tweak of the next block: multiplied by x in GF(2^128), little-endian. -/
def xtsNext (t : Nat) : Nat := (2 * t % 2 ^ 128) ^^^ (if 2 ^ 127 ≤ t then 0x87 else 0)

/-- The four blocks of a line, encrypted or decrypted, from the tweak `t` on. -/
def xtsBlocks (enc : Bool) (key1 : List Nat) : Nat → Nat → List Nat → List Nat
  | 0, _, _ => []
  | n + 1, t, bs =>
    let tb := (leBytes 16 t).map BitVec.toNat
    let x := xorBytes (bs.take 16) tb
    let y := if enc then aesEncrypt key1 x else aesDecrypt key1 x
    xorBytes y tb ++ xtsBlocks enc key1 n (xtsNext t) (bs.drop 16)

/-- A line of 64 bytes under 512-bit material (the data key in its low half, the tweak key in its high half) at
physical line number `line` = pa[51:6]. -/
def xtsLine (enc : Bool) (material : BitVec 512) (line : Nat) (bs : List Byte) : List Byte :=
  let k := (leBytes 64 material.toNat).map BitVec.toNat
  let t := aesEncrypt (k.drop 32) ((leBytes 16 line).map BitVec.toNat)
  let t0 := t.foldr (fun b a => b + 256 * a) 0
  (xtsBlocks enc (k.take 32) 4 t0 (bs.map BitVec.toNat)).map (BitVec.ofNat 8)

end Sys2Proof.Machine
end

