-- ==== Sys2Proof/Machine/Ops.lean ====
section
/-! DEFINITION. The named operations over registers and memory, the records in the host's rings, and the taking of a
trap with the return from one. -/

namespace Sys2Proof.Machine

/-! ## Registers of a team (R141, R144, R214) -/

/-- `s`n. -/
def Team.u (t : Team) (n : Nat) : Word := mapGet 0 t.uregs n

/-- `s`n := w; a write clears the register's poison (R51). -/
def Team.setU (t : Team) (n : Nat) (w : Word) : Team :=
  { t with uregs := mapSet 0 t.uregs n w, upoison := t.upoison.filter (· != n) }

/-- The key of lane l of `v`r. -/
def vkey (r l : Nat) : Nat := r * 1024 + l

/-- Lane l of `v`r. -/
def Team.v (t : Team) (r l : Nat) : Lane := mapGet 0 t.vregs (vkey r l)

/-- Is there a write to that lane? DEDUCED: log 69. -/
def writesLane (ws : List (Nat × Lane)) (l : Nat) : Bool := ws.any fun w => w.1 == l

/-- Lanes of `v`r written; a write of both lanes of a 64-bit word clears its poison (R51). DEDUCED: log 69. -/
def Team.setV (t : Team) (r : Nat) (ws : List (Nat × Lane)) : Team :=
  { t with
    vregs := mapSetMany 0 t.vregs (ws.map fun w => (vkey r w.1, w.2))
    vpoison := t.vpoison.filter fun p =>
      !(p.1 == r && writesLane ws (2 * p.2) && writesLane ws (2 * p.2 + 1)) }

/-- `p`n, one bit for each lane. -/
def Team.p (t : Team) (n : Nat) : Mask := mapGet 0 t.preds n

/-- `p`n := m. -/
def Team.setP (t : Team) (n : Nat) (m : Mask) : Team := { t with preds := mapSet 0 t.preds n m }

/-- `p`n after a write of some lanes: a 64-bit word of which every lane below L is written is sound again (R51). DESIGN CHOICE:
log 109. -/
def Team.soundP (t : Team) (n : Nat) (lanes : List Nat) : Team :=
  { t with ppoison := t.ppoison.filter fun w =>
      !(w.1 == n && (List.range 64).all fun i => t.lanes ≤ 64 * w.2 + i || lanes.contains (64 * w.2 + i)) }

/-- The lanes of a mask below L, in swath order and ascending (R9). -/
def lanesOf (lanes : Nat) (m : Mask) : List Nat := (List.range lanes).filter fun l => m.getLsbD l

/-- The active lanes (R143). -/
def Team.active (t : Team) : List Nat := lanesOf t.lanes t.mask

/-- The mask of a list of lanes. -/
def maskOf (ls : List Nat) : Mask := ls.foldl (fun m l => m ||| BitVec.ofNat 1024 (2 ^ l)) 0

/-- Every lane below L (R10). -/
def allLanes (lanes : Nat) : Mask := BitVec.ofNat 1024 (2 ^ lanes - 1)

/-- Swaths of the team (R139). -/
def Team.swaths (t : Team) : Nat := t.lanes / 32

/-- `%mode`.RM (R190). -/
def Team.rm (t : Team) : Nat := wbits t.mode 2 0

/-- Flags ORed into `%status` (R192). -/
def Team.orFlags (t : Team) (f : Nat) : Team := { t with flags := t.flags ||| BitVec.ofNat 64 f }

/-- The partition of the team's virtual device (R182). -/
def Team.part (t : Team) : Nat := t.vd / 8

/-- Is the team at supervisor level? -/
def Team.sup (t : Team) : Bool := t.level == .supervisor

/-- Claim slot `c`n. -/
def Team.claim (t : Team) (n : Nat) : Claim := mapGet Claim.free t.claims n

/-- Claim slot `c`n := c. -/
def Team.setClaim (t : Team) (n : Nat) (c : Claim) : Team := { t with claims := mapSet Claim.free t.claims n c }

/-! ## Teams of the module -/

/-- Every team. -/
def State.teams (s : State) : List Team := s.team :: s.rest

/-- Is the place of a team empty? -/
def Team.isVacant (t : Team) : Bool := t.status == .vacant || t.status == .retired

/-- The team of that identity. -/
def State.teamOf (s : State) (uid : Nat) : Option Team := s.teams.find? fun t => t.uid == uid && !t.isVacant

/-- The state in which that team's turn it is. -/
def State.focus (s : State) (uid : Nat) : Option State :=
  if s.team.uid == uid && !s.team.isVacant then some s
  else
    match s.rest.find? (fun t => t.uid == uid && !t.isVacant) with
    | none => none
    | some t =>
      let others := s.rest.filter fun x => x.uid != uid
      some { s with team := t, rest := if s.team.isVacant then others else s.team :: others }

/-- The team whose turn it is, changed. -/
def State.mapTeam (s : State) (f : Team → Team) : State := { s with team := f s.team }

/-- Every team changed. -/
def State.mapTeams (s : State) (f : Team → Team) : State := { s with team := f s.team, rest := s.rest.map f }

/-- The team of that identity changed. -/
def State.updTeam (s : State) (uid : Nat) (f : Team → Team) : State :=
  s.mapTeams fun t => if t.uid == uid && !t.isVacant then f t else t

/-- The workgroup of that identity. -/
def State.wgOf (s : State) (uid : Nat) : Option Workgroup := findBy Workgroup.uid s.workgroups uid

/-- The workgroup of that identity changed. -/
def State.updWg (s : State) (uid : Nat) (f : Workgroup → Workgroup) : State :=
  { s with workgroups := updateBy Workgroup.uid s.workgroups uid f }

/-- A fresh identity. -/
def State.fresh (s : State) : Nat × State := (s.nextId, { s with nextId := s.nextId + 1 })

/-- 32 bits from a noise source (R269). -/
def State.draw (s : State) : Lane × State := (Config.noise s.draws, { s with draws := s.draws + 1 })

/-- `n` draws. -/
def State.drawMany : Nat → State → List Lane × State
  | 0, s => ([], s)
  | n + 1, s =>
    let (x, s1) := s.draw
    let (xs, s2) := State.drawMany n s1
    (x :: xs, s2)

/-! ## Registers of BAR 0 (R31): offsets -/

/-- Partition entry p. -/
def partReg (p off : Nat) : Nat := 0x100000 + p * 0x1000 + off
/-- Virtual-device entry v. -/
def vdReg (v off : Nat) : Nat := 0x200000 + v * 0x1000 + off
/-- Address-space root a, word 0. -/
def rootReg (a : Nat) : Nat := 0x300000 + 16 * a
/-- KSTAT of a key index (R328). -/
def kstatReg (i : Nat) : Nat := 0x400000 + 8 * i
/-- KCMD (R374). -/
def kcmdReg : Nat := 0x480000
/-- FPORT of port p (R376). -/
def fportReg (p : Nat) : Nat := 0x600000 + 64 * p
/-- CTHRESH (R379). -/
def cthreshReg : Nat := 0x600400
/-- Route of module m, primary or alternate (R377). -/
def routeReg (m : Nat) (alt : Bool) : Nat := 0x610000 + 16 * m + (if alt then 8 else 0)
/-- Word w of fabric launch entry i (R187). -/
def launchReg (i w : Nat) : Nat := 0x680000 + 32 * i + 8 * w
/-- Flow permit of module m (R378). -/
def permitReg (m : Nat) : Nat := 0x6A0000 + 8 * m
/-- Peer entry of module m (R74). -/
def peerReg (m : Nat) : Nat := 0x700000 + 8 * m
/-- Word w of step region g (R120). -/
def regionReg (g w : Nat) : Nat := 0x780000 + 32 * g + 8 * w
/-- SCRBASE, SCRLEN, SCRCTL (R47). -/
def scrReg (i : Nat) : Nat := 0x800000 + 8 * i
/-- Mill status of mill m (R386). -/
def millReg (m : Nat) : Nat := 0x900000 + 256 * m

/-- The offset within a virtual-device entry, if `off` lies in one. -/
def vdOffset? (off : Nat) : Option (Nat × Nat) :=
  if 0x200000 ≤ off && off < 0x300000 then some ((off - 0x200000) / 0x1000, off % 0x1000) else none

/-- What an unwritten register reads as: its reset value. DESIGN CHOICE where the spec states none: log 3. -/
def resetOf (off : Nat) : Word :=
  if off = kstatReg 0 then 1
  else if off = cthreshReg then 0x100
  else match vdOffset? off with
    | some (_, o) =>
      if o = 0x090 then 0x08000C00
      else if o = 0x0C0 then 0x10000
      else if 0x100 ≤ o && o < 0x180 then 1
      else 0
    | none => 0

/-- A register of BAR 0. -/
def State.reg (s : State) (off : Nat) : Word :=
  match s.regs.find? (fun e => e.1 == off) with
  | some e => e.2
  | none => resetOf off

/-- A register of BAR 0 := w. -/
def State.setReg (s : State) (off : Nat) (w : Word) : State :=
  { s with regs := if w = resetOf off then mapErase s.regs off else mapInsert s.regs off w }

/-- A register of BAR 0 changed. -/
def State.updReg (s : State) (off : Nat) (f : Word → Word) : State := s.setReg off (f (s.reg off))

/-- One bit of a register. -/
def State.regBit (s : State) (off i : Nat) : Bool := (s.reg off).getLsbD i

/-- Bits [hi:lo] of a register. -/
def State.regBits (s : State) (off hi lo : Nat) : Nat := wbits (s.reg off) hi lo

/-- The Plain window of a partition: EN, BASE, COUNT (R18). -/
def State.window (s : State) (p : Nat) : Bool × Nat × Nat :=
  let w := s.reg (partReg p 0)
  (w.getLsbD 31, wbits w 8 0, wbits w 25 16)

/-- Has the mill been stopped (R17, R386)? -/
def State.sliceStopped (s : State) (m : Nat) : Bool := s.regBit (millReg m) 63

/-- The room that a virtual device has for a workgroup, as its registers stand (R171). -/
def State.room (s : State) (vd : Nat) : Room :=
  let (en, _, count) := s.window (vd / 8)
  { enabled := en, count := count, res := s.reg (partReg (vd / 8) 0x008), grow := s.reg (partReg (vd / 8) 0x010)
    save := s.reg (vdReg vd 0x080), mills := (List.range 512).any fun m => !s.sliceStopped m }

/-- The virtual device that owns an address space, if its root is enabled (R30). -/
def State.asidVd (s : State) (a : Nat) : Option Nat :=
  if s.regBit (rootReg a) 63 then some (s.regBits (rootReg a + 8) 7 0) else none

/-- The key-0 bypass of an address space (R30, R367). -/
def State.bypass (s : State) (a : Nat) : Bool :=
  match s.asidVd a with
  | some v => s.regBit (vdReg v 0) 63
  | none => false

/-! ## Keys (R29, R45, R328) -/

/-- The state code of a key index: 0 EMPTY, 1 LOADED, 2 DESTROYING, 3 RETIRED. -/
def State.keyState (s : State) (i : Nat) : Nat := s.regBits (kstatReg i) 1 0

/-- Is the index LOADED? -/
def State.keyLoaded (s : State) (i : Nat) : Bool := s.keyState i == 1

/-- The partition that owns a key index, if it was ever loaded (R29). -/
def State.keyOwner (s : State) (i : Nat) : Option Nat :=
  if s.keyState i == 0 then none else some (s.regBits (kstatReg i) 12 8)

/-- The identity of the material installed for an index. -/
def State.keyMat (s : State) (i : Nat) : Nat := mapGet 0 s.keyMaterial i

/-- The 512 bits of a material. -/
def State.material (s : State) (id : Nat) : BitVec 512 := mapGet 0 s.materials id

/-- Are two materials the same bits? -/
def State.sameMaterial (s : State) (a b : Nat) : Bool := a == b || s.material a == s.material b

/-! ## The Plain (R13, R14, R51, R54) -/

/-- The key of a byte of a slice. -/
def plainKey (slice off : Nat) : Nat := slice * 0x200000 + off

/-- `n` bytes of a slice. -/
def State.plainRead (s : State) (slice off n : Nat) : List Byte := mapBytes 0 s.plain (plainKey slice off) n

/-- Does a poisoned 64-bit word meet the bytes? -/
def State.plainPoisoned (s : State) (slice off n : Nat) : Bool :=
  s.plainPoison.any fun w => w.1 == slice && off / 8 ≤ w.2 && w.2 ≤ (off + n - 1) / 8

/-- Bytes written where no poison lies. -/
def State.plainPut (s : State) (slice off : Nat) (bs : List Byte) : State :=
  { s with plain := mapSplice 0 s.plain (plainKey slice off) bs }

/-- The bytes split at 64-bit words: offset and bytes of each piece. -/
def wordPieces : Nat → Nat → List Byte → List (Nat × List Byte)
  | 0, _, _ => []
  | _, _, [] => []
  | f + 1, off, bs => (off, bs.take (8 - off % 8)) :: wordPieces f (off + (8 - off % 8)) (bs.drop (8 - off % 8))

/-- One piece written: a whole word clears poison, a part over poison is discarded and counted (R54). A store is the request of
one lane: lanes that cover a word together are judged each alone. DESIGN CHOICE: log 88. -/
def State.plainPiece (s : State) (slice off : Nat) (bs : List Byte) : State :=
  if s.plainPoisoned slice off bs.length then
    if bs.length = 8 then
      { s.plainPut slice off bs with plainPoison := s.plainPoison.filter (· != (slice, off / 8)) }
    else { s with poisonedWrites := s.poisonedWrites + 1 }
  else s.plainPut slice off bs

/-- A store of bytes to a slice (R54). -/
def State.plainWrite (s : State) (slice off : Nat) (bs : List Byte) : State :=
  if s.plainPoisoned slice off bs.length then
    (wordPieces bs.length off bs).foldl (fun s p => s.plainPiece slice p.1 p.2) s
  else s.plainPut slice off bs

/-- A 64-bit word of a slice poisoned. -/
def State.poisonWord (s : State) (slice w : Nat) : State :=
  if s.plainPoison.contains (slice, w) then s else { s with plainPoison := (slice, w) :: s.plainPoison }

/-- The check of R14 on an access: the slice and the physical byte, or the cause and whether a stopped slice was
the reason. That a window with EN = 0 is found after a misalignment is the model's. DESIGN CHOICE: log 89. -/
def State.plainPhys (s : State) (ea : Word) (n part al : Nat) : Except (Nat × Bool) (Nat × Nat) :=
  let a := ea.toNat
  let (en, base, count) := s.window part
  let m := bitsOf a 29 21
  let off := bitsOf a 20 0
  if a / 2 ^ 30 != 0 then .error (0x07, false)
  else if a % al != 0 then .error (0x06, false)
  else if !en then .error (0x07, false)
  else if count * 4096 < off + n then .error (0x07, false)
  else if s.sliceStopped m then .error (0x07, true)
  else .ok (m, base * 4096 + off)

/-! ## The Basin (R44, R46, R49, R50, R54) -/

/-- How a line read ended. -/
inductive ReadStatus where
  | ok | keyAbsent | poisoned
  deriving DecidableEq, Repr

/-- 64 zero bytes. -/
def zero64 : List Byte := List.replicate 64 0

/-- The plain-text bytes kept for a Basin line. -/
def State.basinBytes (s : State) (line : Nat) : List Byte := mapBytes 0 s.basin line 64

/-- A line as an engine with material `id` sees it: its bytes if it lies under the same material, else the
ciphertext decrypted under other material (R44). -/
def State.underMaterial (s : State) (under id line : Nat) (bytes : List Byte) : List Byte :=
  if s.sameMaterial under id then bytes
  else xtsLine false (s.material id) (line / 64) (xtsLine true (s.material under) (line / 64) bytes)

/-- Is the line's stack stopped (R43, R386)? -/
def State.stackStopped (s : State) (pa : Nat) : Bool := s.stoppedStacks.contains (bitsOf pa 10 8)

/-- `BasinRead` of a line whose data and error correction are sound (R49). -/
def State.basinRead (s : State) (line key : Nat) : List Byte × ReadStatus :=
  if s.scrubMarks.contains (line / 4096) then (zero64, .ok)
  else if !s.keyLoaded key then (zero64, .keyAbsent)
  else if s.stackStopped line then (zero64, .poisoned)
  else
    match mapGet 0 (s.basinSeal.map fun e => (e.1, e.2 + 1)) line with
    | 0 => (zero64, .ok)
    | id + 1 =>
      if s.basinPoison.contains line then (zero64, .poisoned)
      else (s.underMaterial id (s.keyMat key) line (s.basinBytes line), .ok)

/-- A 4 KiB block put in the zeroed state, its bit cleared (R48, R50). -/
def State.scrubBlock (s : State) (blk : Nat) : State :=
  { s with
    basin := mapClear s.basin (blk * 4096) (blk * 4096 + 4096)
    basinSeal := mapClear s.basinSeal (blk * 4096) (blk * 4096 + 4096)
    basinPoison := s.basinPoison.filter fun l => l / 4096 != blk
    scrubMarks := s.scrubMarks.filter (· != blk) }

/-- The bytes with `bs` at `off`. -/
def overlay (line : List Byte) (off : Nat) (bs : List Byte) : List Byte :=
  line.take off ++ bs ++ line.drop (off + bs.length)

/-- A line's plain text and material set. -/
def State.basinPut (s : State) (line id : Nat) (bytes : List Byte) : State :=
  { s with
    basin := mapSplice 0 s.basin line bytes
    basinSeal := mapInsert s.basinSeal line id
    basinPoison := s.basinPoison.filter (· != line) }

/-- A write within one line of the Basin: the state, and whether it performed, was discarded for want of a key,
or was discarded over poison (R46, R50, R54). -/
def State.basinWrite (s : State) (pa key : Nat) (bs : List Byte) : State × ReadStatus :=
  let line := pa / 64 * 64
  let s := if s.scrubMarks.contains (line / 4096) then s.scrubBlock (line / 4096) else s
  if !s.keyLoaded key then (s, .keyAbsent)
  else
    let (old, st) := s.basinRead line key
    if st == .poisoned && (bs.length != 64 || s.stackStopped line) then
      ({ s with poisonedWrites := s.poisonedWrites + 1 }, .poisoned)
    else (s.basinPut line (s.keyMat key) (overlay old (pa % 64) bs), .ok)

/-- A Basin line poisoned; a block still marked is scrubbed first (R50, R53). -/
def State.poisonLine (s : State) (line : Nat) : State :=
  let s := if s.scrubMarks.contains (line / 4096) then s.scrubBlock (line / 4096) else s
  { s with
    basinSeal := if s.basinSeal.any (fun e => e.1 == line) then s.basinSeal else mapInsert s.basinSeal line 0
    basinPoison := if s.basinPoison.contains line then s.basinPoison else line :: s.basinPoison }

/-! ## Host memory (R28, R44, R115) -/

/-- The bytes kept for a host line: plain text if it is encrypted, as they stand otherwise. -/
def State.hostBytes (s : State) (line : Nat) : List Byte := mapBytes 0 s.hostMem line 64

/-- The material a host line is encrypted under. -/
def State.hostSealOf (s : State) (line : Nat) : Option Nat :=
  (s.hostSeal.find? fun e => e.1 == line).map (·.2)

/-- A host line as host memory holds it. -/
def State.hostRaw (s : State) (line : Nat) : List Byte :=
  match s.hostSealOf line with
  | none => s.hostBytes line
  | some id => xtsLine true (s.material id) (line / 64) (s.hostBytes line)

/-- A host line as the host-link engine reads it: in plain text under the bypass, else decrypted (R28, R44). -/
def State.hostView (s : State) (line key : Nat) (bypass : Bool) : List Byte :=
  if bypass then s.hostRaw line
  else
    match s.hostSealOf line with
    | some id => s.underMaterial id (s.keyMat key) line (s.hostBytes line)
    | none => xtsLine false (s.material (s.keyMat key)) (line / 64) (s.hostBytes line)

/-- A host line set, in plain text or under a material. -/
def State.hostPut (s : State) (line : Nat) (under : Option Nat) (bytes : List Byte) : State :=
  { s with
    hostMem := mapSplice 0 s.hostMem line bytes
    hostSeal := match under with
      | none => mapErase s.hostSeal line
      | some id => mapInsert s.hostSeal line id }

/-- A write within one host line by the host-link engine. -/
def State.hostWrite (s : State) (pa key : Nat) (bypass : Bool) (bs : List Byte) : State :=
  let line := pa / 64 * 64
  let under := if bypass then none else some (s.keyMat key)
  s.hostPut line under (overlay (s.hostView line key bypass) (pa % 64) bs)

/-- Bytes of host memory in plain text, as the Pass die reads rings and tail lines. -/
def State.hostRead (s : State) (pa n : Nat) : List Byte :=
  (List.range n).map fun i => (s.hostRaw ((pa + i) / 64 * 64)).getD ((pa + i) % 64) 0

/-- Bytes cut at 64-byte lines: the address and the bytes of each piece. -/
def linePieces : Nat → Nat → List Byte → List (Nat × List Byte)
  | 0, _, _ => []
  | _, _, [] => []
  | f + 1, a, bs => (a, bs.take (64 - a % 64)) :: linePieces f (a + (64 - a % 64)) (bs.drop (64 - a % 64))

/-- A line behind the host link poisoned (R53). -/
def State.poisonHost (s : State) (line : Nat) : State :=
  if s.hostPoison.contains line then s else { s with hostPoison := line :: s.hostPoison }

/-- The poison of a line behind the host link cleared. -/
def State.cleanHost (s : State) (line : Nat) : State := { s with hostPoison := s.hostPoison.filter (· != line) }

/-- Bytes of host memory written in plain text, by the Pass die into a ring or by host software, which leaves no poison in the
lines it stores to. DESIGN CHOICE: log 90. -/
def State.hostStore (s : State) (pa : Nat) (bs : List Byte) : State :=
  (linePieces (bs.length + 1) pa bs).foldl (fun s p => (s.hostWrite p.1 0 true p.2).cleanHost (p.1 / 64 * 64)) s

/-! ## Time (R360, R361) -/

/-- The running count D of a virtual device. DESIGN CHOICE: log 83. -/
def State.clockOf (s : State) (vd : Nat) : Nat :=
  if s.regBit (vdReg vd 0x0C0) 63 then (mapGet 0 s.runTime vd).toNat else s.time

/-- `%time` of a virtual device, which becomes LAST. The sum is taken modulo 2^64, and one below 0 as 0. DESIGN CHOICE: log 141. -/
def State.readTime (s : State) (vd : Nat) : Word × State :=
  let rate := s.regBits (vdReg vd 0x0C0) 31 0
  let rate := if rate = 0 then 0x10000 else rate
  let dref := (mapGet 0 s.drefs vd).toNat
  let t : Int := (s.reg (vdReg vd 0x0B8)).toNat + ((s.clockOf vd : Int) - dref) * rate / 65536
  let v := max (s.reg (vdReg vd 0x0C8)).toNat (t.toNat % 2 ^ 64)
  (BitVec.ofNat 64 v, s.setReg (vdReg vd 0x0C8) (BitVec.ofNat 64 v))

/-! ## Rings and event records (R352, R370, R371) -/

/-- The offsets of a queue's three registers: the virtual device's, or the module's. -/
def eventRing (vd : Option Nat) : Nat × Nat × Nat :=
  match vd with
  | some v => (vdReg v 0x0D0, vdReg v 0x0D8, vdReg v 0x0E0)
  | none => (0x500000, 0x500008, 0x500010)

/-- May a record enter a ring now: EN is set and HEAD − TAIL is below COUNT? A ring in which it is above COUNT is full as well.
DESIGN CHOICE: log 140. -/
def State.ringRoom (s : State) (ring : Nat × Nat × Nat) : Bool :=
  let count := max 1 (s.regBits ring.1 11 0)
  let head := s.regBits ring.2.1 31 0
  let tail := s.regBits ring.2.2 31 0
  s.regBit ring.1 63 && (head + 2 ^ 32 - tail) % 2 ^ 32 < count

/-- A 64-byte record written at HEAD, which is then incremented; its number. -/
def State.ringPush (s : State) (ring : Nat × Nat × Nat) (record : Nat → List Byte) : Nat × State :=
  let count := max 1 (s.regBits ring.1 11 0)
  let head := s.regBits ring.2.1 31 0
  let base := s.regBits ring.1 51 12 * 4096
  let s := s.hostStore (base + 64 * (head % count)) (record head)
  (head, s.updReg ring.2.1 fun w => wput w 31 0 (head + 1))

/-- The bytes of an event record (R371). -/
def EventRecord.bytes (e : EventRecord) (seq : Nat) : List Byte :=
  leBytes 2 e.type ++ leBytes 1 (e.vd.getD 0) ++ leBytes 1 e.report ++ leBytes 4 0 ++ leBytes 8 e.addr.toNat ++
  leBytes 8 e.data.toNat ++ leBytes 4 seq ++ leBytes 4 0 ++ leBytes 8 e.time.toNat ++ List.replicate 24 0

/-- An event posted: written at once if there is room; else it waits if it parks a team, and is dropped and
counted in LOST if it does not (R370). TIME is `%time` or D at the event (R371). -/
def State.post (s : State) (vd : Option Nat) (type report : Nat) (addr data : Word) (park : Option Nat) : State :=
  let (time, s) := match vd with
    | some v => s.readTime v
    | none => (BitVec.ofNat 64 s.time, s)
  let e : EventRecord := ⟨vd, type, report, addr, data, park, time⟩
  let ring := eventRing vd
  if s.ringRoom ring && (park.isNone || s.events.all fun x => x.vd != vd) then
    let (seq, s) := s.ringPush ring e.bytes
    match park with
    | some uid => s.updTeam uid fun t => { t with guestSeq := some seq }
    | none => s
  else if park.isSome then { s with events := s.events ++ [e] }
  else s.updReg ring.2.1 fun w => wput w 63 32 (wbits w 63 32 + 1)

/-- The key-absent event of R46. -/
def State.postKeyAbsent (s : State) (vd line key : Nat) : State :=
  s.post (some vd) 0x04 0x05 (BitVec.ofNat 64 line) (BitVec.ofNat 64 key) none

/-! ## Reading and writing a location behind a controller (R44, R46) -/

/-- Is the line under rebuild, so that a request to it stalls (R52)? -/
def State.stalls (s : State) (host : Bool) (pa : Nat) : Bool := !host && s.rebuilding.any fun x => x.1 == pa / 64 * 64

/-- The cause code that stands for no cause: the access finds its line under rebuild and stalls until it is rebuilt (R52). -/
abbrev stallCode : Nat := 0

/-- `n` bytes within one line: their values and how the read ended. -/
def State.memRead (s : State) (host : Bool) (pa key : Nat) (bypass : Bool) (n : Nat) : List Byte × ReadStatus :=
  let line := pa / 64 * 64
  if host then
    if !bypass && !s.keyLoaded key then (List.replicate n 0, .keyAbsent)
    else if s.hostPoison.contains line then (List.replicate n 0, .poisoned)
    else (((s.hostView line key bypass).drop (pa % 64)).take n, .ok)
  else
    let (bs, st) := s.basinRead line key
    ((bs.drop (pa % 64)).take n, st)

/-- With no marked block left, BUSY clears and the end of the scrub is reported (R48). -/
def State.scrubEnd (s : State) : State :=
  if s.scrubMarks.isEmpty then (s.updReg (scrReg 2) fun w => wput w 1 1 0).post none 0x20 0 0 0 none else s

/-- Bytes written within one line, and how the write ended; a write over poison is reported (R54, R371), and one that takes the
last marked block ends the scrub (R50). -/
def State.memWrite (s : State) (host : Bool) (pa key : Nat) (bypass : Bool) (bs : List Byte) : State × ReadStatus :=
  if host then
    if !bypass && !s.keyLoaded key then (s, .keyAbsent)
    else if s.hostPoison.contains (pa / 64 * 64) && bs.length != 64 then
      ({ s with poisonedWrites := s.poisonedWrites + 1 }, .poisoned)
    else ((s.hostWrite pa key bypass bs).cleanHost (pa / 64 * 64), .ok)
  else
    let (s1, st) := s.basinWrite pa key bs
    let s1 := if s.scrubMarks.isEmpty then s1 else s1.scrubEnd
    if st == .poisoned then
      (s1.post none 0x22 0 (BitVec.ofNat 64 (pa / 64 * 64)) (BitVec.ofNat 64 (bitsOf pa 10 8)) none, st)
    else (s1, st)

/-- A line of the Basin poisoned; one that takes the last marked block ends the scrub (R50). -/
def State.poisonBasin (s : State) (line : Nat) : State :=
  if s.scrubMarks.isEmpty then s.poisonLine line else (s.poisonLine line).scrubEnd

/-- A write whose data are poisoned: under a key that is LOADED the whole line is poisoned, else the write is discarded (R46, R50,
R53). -/
def State.memPoison (s : State) (host : Bool) (pa key : Nat) (bypass : Bool) : State × ReadStatus :=
  if !(host && bypass) && !s.keyLoaded key then (s, .keyAbsent)
  else if host then (s.poisonHost (pa / 64 * 64), .ok)
  else (s.poisonBasin (pa / 64 * 64), .ok)

/-- A 64-bit word of the Basin under key index 0, as the walker reads tables (R21). A poisoned line reads as zero, without a
report. DESIGN CHOICE: log 91. -/
def State.tableWord (s : State) (pa : Nat) : Nat := leNat (s.memRead false pa 0 false 8).1

/-- A 64-bit word of the Basin under key index 0 written. -/
def State.setTableWord (s : State) (pa v : Nat) : State := (s.memWrite false pa 0 false (leBytes 8 v)).1

/-! ## Caches (R40 to R42, R212) -/

/-- The lane cache of a mill emptied; what issued before fills no line that a later access finds (R42). -/
def State.dropLaneCache (s : State) (mill : Nat) : State :=
  { s with
    laneCache := mapErase s.laneCache mill
    requests := s.requests.map fun r => if r.mill == mill then { r with fill := false } else r
    walks := s.walks.map fun w => if w.mill == mill then { w with fill := false } else w }

/-- Every lane cache and instruction cache emptied (a key destroyed: R42, R212). -/
def State.dropAllCaches (s : State) : State :=
  { s with
    laneCache := []
    icache := []
    requests := s.requests.map fun r => { r with fill := false }
    walks := s.walks.map fun w => { w with fill := false } }

/-- The instruction cache of a mill emptied. -/
def State.dropICache (s : State) (mill : Nat) : State := { s with icache := mapErase s.icache mill }

/-! ## Slices (R185) -/

/-- No virtual device holds the partition. -/
def Slice.idle : Slice := ⟨none, 0, false, 0⟩

/-- The slice of a partition. -/
def State.slice (s : State) (p : Nat) : Slice := mapGet Slice.idle s.slices p

/-- The slice of a partition set. -/
def State.setSlice (s : State) (p : Nat) (x : Slice) : State := { s with slices := mapSet Slice.idle s.slices p x }

/-- Does the virtual device hold its partition's slice, and no switch is under way? -/
def State.holdsSlice (s : State) (vd : Nat) : Bool :=
  (s.slice (vd / 8)).vd == some vd && !(s.slice (vd / 8)).preemptAsked

/-! ## Accesses in flight (R37, R102, R160) -/

/-- The accesses of a team. -/
def State.accessesOf (s : State) (uid : Nat) : List Access := s.accesses.filter fun a => a.team == uid

/-- The registers of a team that are pending (R160). -/
def State.pending (s : State) (uid : Nat) : List RegRef := (s.accessesOf uid).flatMap (·.dsts)

/-- Is the request done at its location, a load's value bound (R102)? -/
def Stage.bound : Stage → Bool
  | .served _ => true
  | .promoting _ _ => true
  | _ => false

/-- Has the acquire or the relaxed load performed: not before the answer to its promotion (R111)? -/
def Stage.answered : Stage → Bool
  | .served _ => true
  | _ => false

/-- Is a request performed at device scope, or at mill scope (R102)? A request that is gone is. -/
def Req.performed (r : Req) (device : Bool) : Bool :=
  match r.op with
  | .store _ =>
    match r.loc with
    | .plain slice _ => r.stage != .egress || (!device && slice != r.mill)
    | .mem _ _ _ _ => !device
    | .peer _ _ _ => true
  | .atomic _ _ _ _ _ _ => r.stage.bound
  | .load _ _ => r.stage.answered
  | .uload _ _ _ => r.stage.answered
  | .prefetch => true
  | .packet _ _ => true

/-- Is every access of the team performed at device scope, or at mill scope? -/
def State.performedAll (s : State) (uid : Nat) (device : Bool) : Bool :=
  s.requests.all fun r => r.team != uid || r.performed device

/-! ## Counters of the Plain (R97, R98) -/

/-- Words 0 to 3 of an arrival counter at a slice's byte. -/
def State.ctrWord (s : State) (slice off w : Nat) : Nat := leNat (s.plainRead slice (off + 4 * w) 4)

/-- A word of a counter written. -/
def State.setCtrWord (s : State) (slice off w v : Nat) : State := s.plainWrite slice (off + 4 * w) (leBytes 4 v)

/-- `CounterPhys` (R98). -/
def State.counterPhys (s : State) (ca : Word) (part : Nat) : Except (Nat × Bool) (Nat × Nat) :=
  if ca.toNat / 2 ^ 30 != 0 then .error (0x07, false)
  else if ca.toNat % 16 != 0 then .error (0x18, false)
  else s.plainPhys ca 16 part 1

/-! ## Traps (R346 to R354) -/

/-- A trap with an ordinary report code. -/
def Trap.plain (code : Nat) (tval : Word) (fmask : Mask) : Trap := ⟨code, tval, some fmask, 0, false, false, 0⟩

/-- A trap for whose cause the spec states no `%fmask` (log 16). -/
def Trap.bare (code : Nat) (tval : Word) : Trap := ⟨code, tval, none, 0, false, false, 0⟩

/-- The failing lanes of a trap that is reported. -/
def Trap.mask (x : Trap) : Mask := x.fmask.getD 0

/-- A trap as it is reported: a `%fmask` that the spec does not state is drawn (log 16). DEDUCED: log 82. -/
def State.settle (s : State) (x : TakenTrap) : TakenTrap × State :=
  match x.trap.fmask with
  | some _ => (x, s)
  | none => ({ x with trap := { x.trap with fmask := some (Config.trapMask s.draws) } }, { s with draws := s.draws + 1 })

/-- Is the trap handled in the team's lanes (R348)? TRAP asks with code 0x1B; BRK is told apart by `queue`. -/
def State.lanesRoute (s : State) (t : Team) (x : Trap) : Bool :=
  t.level == .user && s.regBit (vdReg t.vd 0x040) 0 && s.regBit (vdReg t.vd 0x090) x.code &&
  !x.fetch && x.report != 0x03 && x.report != 0x0A

/-- TEAM of R132. -/
def State.teamWord (s : State) (t : Team) : Nat :=
  match s.wgOf t.wg with
  | some g => g.linear % 2 ^ 24 + t.tindex * 2 ^ 24
  | none => t.tindex * 2 ^ 24

/-- `%cause` [7:0] of a trap (R347). -/
def TakenTrap.causeByte (x : TakenTrap) : Nat := x.trap.code + b2n x.deferred * 64 + b2n x.trap.done * 128

/-- The lowest lane of a mask; 0xFFFF_FFFF when none (R353). -/
def lowestLane (lanes : Nat) (m : Mask) : Nat := (lanesOf lanes m).headD 0xFFFFFFFF

/-- The summary word of a mask (R143). -/
def summaryWord (m : Mask) : Nat :=
  ((List.range 32).filter fun w => m.toNat / 2 ^ (32 * w) % 2 ^ 32 != 0).foldl (fun a w => a + 2 ^ w) 0

/-- The bytes of a fault record (R353). -/
def faultBytes (s : State) (t : Team) (x : TakenTrap) (time : Word) (seq : Nat) : List Byte :=
  leBytes 1 x.causeByte ++ leBytes 1 x.trap.report ++ leBytes 1 t.vd ++
  leBytes 1 (b2n (t.level == .supervisor) + 2 * b2n x.trap.fetch) ++
  leBytes 4 (t.wheel * 16 + t.slot + t.mill * 64) ++ leBytes 8 x.trap.epc.toNat ++ leBytes 8 x.trap.tval.toNat ++
  leBytes 4 (summaryWord x.trap.mask) ++ leBytes 4 (lowestLane t.lanes x.trap.mask) ++
  leBytes 4 (s.teamWord t) ++ leBytes 4 seq ++ leBytes 8 time.toNat ++ List.replicate 16 0

/-- The fault ring of a virtual device (R352). -/
def faultRing (vd : Nat) : Nat × Nat × Nat := (vdReg vd 0x098, vdReg vd 0x0A0, vdReg vd 0x0A8)

/-- The record of the team whose turn it is, written once there is room (R352). -/
def State.writeFault (s : State) : State :=
  match s.team.fault with
  | some r =>
    if r.seq.isNone && s.ringRoom (faultRing s.team.vd) then
      let (seq, s) := s.ringPush (faultRing s.team.vd) (faultBytes s s.team r.taken r.time)
      s.mapTeam fun t => { t with fault := some { r with seq := some seq } }
    else s
  | none => s

/-- A trap sent to the fault queue: the team parks on its record (R348, R351, R352). -/
def State.toQueue (s : State) (x : TakenTrap) : State :=
  let (x, s) := s.settle x
  let (time, s) := s.readTime s.team.vd
  (s.mapTeam fun t => { t with status := .parked .fault, fault := some ⟨x, time, none⟩, pendingTrap := none }).writeFault

/-! ### The frame (R349, R357) -/

/-- Bits [63:0] of part i of a mask: mask words of swaths 2i and 2i + 1 (R228). -/
def maskPart (m : Mask) (i : Nat) : Word := BitVec.ofNat 64 (m.toNat / 2 ^ (64 * i))

/-- `%defer` (R159): MODE with the slots in use. DEDUCED: log 67. -/
def Team.deferWord (t : Team) : Word :=
  let held := t.closure ++ t.shelved
  BitVec.ofNat 64 (t.defer + 2 ^ 8 * held.length + 2 ^ 16 * (held.map (·.slots)).sum)

/-- The HDR of a region (R357). -/
def Team.hdr (t : Team) (full : Bool) (depth : Nat) : Nat :=
  b2n full + 2 ^ 8 * depth + 2 ^ 16 * (t.swaths - 1) + 2 ^ 24 * (t.regs / 8)

/-- The 128 bytes of a mask. -/
def maskBytes (m : Mask) : List Byte := leBytes 128 m.toNat

/-- The bytes of granule g: register 8g + j of lane l at 32l + 4j (R357). -/
def Team.granuleBytes (t : Team) (g : Nat) : List Byte :=
  (List.range t.lanes).flatMap fun l => (List.range 8).flatMap fun j => leBytes 4 (t.v (8 * g + j) l).toNat

/-- The mask-stack block: 4,096 bytes, the bottom entry first. -/
def Team.stackBytes (t : Team) : List Byte :=
  t.stack.reverse.flatMap maskBytes ++ List.replicate (4096 - 128 * t.stack.length) 0

/-- The UNIFORM and PRED blocks. -/
def Team.scalarBytes (t : Team) : List Byte :=
  ((List.range 64).flatMap fun i => leBytes 8 (t.u i).toNat) ++ ((List.range 16).flatMap fun i => maskBytes (t.p i))

/-- The frame region (R357): HDR, POINT, MODES, MASK, STACK, UNIFORM, PRED and granule 0; other fields zero. -/
def Team.frameBytes (t : Team) : List Byte :=
  leBytes 8 (t.hdr false t.stack.length) ++ leBytes 8 0 ++ leBytes 8 t.point.resume.toNat ++
  leBytes 8 t.mode.toNat ++ leBytes 8 t.flags.toNat ++ leBytes 8 t.plot ++ leBytes 8 t.deferWord.toNat ++
  List.replicate 0xC8 0 ++ maskBytes t.mask ++ List.replicate 0x280 0 ++ t.scalarBytes ++ t.stackBytes ++
  List.replicate 0x200 0 ++ t.granuleBytes 0

/-- The size F of a frame region (R356). -/
def frameSize (lanes : Nat) : Nat := 0x2000 + 32 * lanes

/-- Entry to the handler (R349), once no register is pending and, for a main-stream trap, the closure is empty:
the frame is written, the trap registers are set, the level becomes supervisor and the pc HVEC; a closure that a
closure-precise trap leaves is put by, with the trap that is held for its end (R163). A frame write that fails sends the trap to the fault queue. -/
def State.trapEntry (s : State) (x : TakenTrap) : State :=
  let (x, s) := s.settle x
  let t := s.team
  match s.plainPhys (BitVec.ofNat 64 t.frame) (frameSize t.lanes) t.part 1 with
  | .error (_, stopped) =>
    s.toQueue { x with trap := { x.trap with report := if stopped then 0x0A else x.trap.report } }
  | .ok (slice, off) =>
    let s := s.plainWrite slice off t.frameBytes
    s.mapTeam fun t => { t with
      cause := BitVec.ofNat 64 x.causeByte
      epc := x.trap.epc
      tval := x.trap.tval
      fmask := x.trap.mask
      level := .supervisor
      mask := allLanes t.lanes
      stack := []
      plot := 5
      defer := 0
      mode := wput t.mode 12 7 0
      closure := []
      shelved := t.closure
      heldTrap := none
      shelvedTrap := t.heldTrap
      mainPc := t.pc
      pc := BitVec.ofNat 64 (s.regBits (vdReg t.vd 0x040) 55 8 * 256)
      status := .ready
      age := 0
      pendingTrap := none }

/-- Does the request read its location? -/
def ReqOp.reads : ReqOp → Bool
  | .store _ => false
  | .load _ _ => true
  | .uload _ _ _ => true
  | .atomic _ _ _ _ _ _ => true
  | .prefetch => true
  | .packet _ _ => false

/-- Does the request write its location? -/
def ReqOp.writes : ReqOp → Bool
  | .store _ => true
  | .atomic _ _ _ _ _ _ => true
  | .load _ _ => false
  | .uload _ _ _ => false
  | .prefetch => false
  | .packet _ _ => false

/-- Does the request write 8-byte words of a slice in which those bytes lie? -/
def Req.writesPlain (r : Req) (slice off n : Nat) : Bool :=
  match r.loc with
  | .plain sl o => sl == slice && r.op.writes && o / 8 ≤ (off + n - 1) / 8 && off / 8 ≤ (o + r.n - 1) / 8
  | .mem _ _ _ _ => false
  | .peer _ _ _ => false

/-- Does the request go to that slice? -/
def Req.toSlice (r : Req) (slice : Nat) : Bool :=
  match r.loc with
  | .plain sl _ => sl == slice
  | .mem _ _ _ _ => false
  | .peer _ _ _ => false

/-- Does a write to those bytes of a slice stand in a bank queue? An engine's access to them is served behind it (R36, R102, R107).
DEDUCED: log 70. -/
def State.bankBusy (s : State) (slice off n : Nat) : Bool :=
  s.requests.any fun r => r.stage == .queued && r.writesPlain slice off n

/-- Does a request of the team itself to that slice wait to be served, a write of its mill to those bytes in another slice leave the
mill, or a write of another stand in the banks? An engine's access to the bytes for the team is served behind it (R36, R102, R105 to R107, R109).
DEDUCED: log 70. -/
def State.plainBusy (s : State) (slice off n : Nat) : Bool :=
  s.bankBusy slice off n || s.requests.any fun r =>
    (r.team == s.team.uid && r.toSlice slice && (r.stage == .egress || r.stage == .queued)) ||
      (r.mill == s.team.mill && r.mill != slice && r.stage == .egress && r.writesPlain slice off n)

/-- May the frame of the team whose turn it is be written: no register is pending and no store to the frame is under way? -/
def State.frameFree (s : State) : Bool :=
  (s.pending s.team.uid).isEmpty &&
  match s.plainPhys (BitVec.ofNat 64 s.team.frame) (frameSize s.team.lanes) s.team.part 1 with
  | .ok (slice, off) => !s.plainBusy slice off (frameSize s.team.lanes)
  | .error _ => true

/-- A trap taken by the team whose turn it is (R163, R348, R349): in the lanes at once when nothing holds it,
after TRAP_ENTRY when loads are pending, else through the queue. -/
def State.takeTrap (s : State) (x : TakenTrap) : State :=
  if s.lanesRoute s.team x.trap then
    if s.frameFree then s.trapEntry x
    else s.mapTeam fun t => { t with status := .trapping, pendingTrap := some x }
  else s.toQueue x

/-- The mask-stack entries of a STACK block for a team of L lanes, top first: no bit at or beyond L is set (R143). -/
def stackOf (lanes : Nat) (bytes : List Byte) (depth : Nat) : List Mask :=
  ((List.range depth).map fun j => BitVec.ofNat 1024 (leNat ((bytes.drop (128 * j)).take 128)) &&& allLanes lanes).reverse

/-- A code read from memory, if it is one of `lo` to `hi`; for a reserved one the spec states none, and a free one of them stands.
DESIGN CHOICE: log 86. -/
def legalCode (lo hi code : Nat) : Nat :=
  if lo ≤ code && code ≤ hi then code else lo + Config.restored code % (hi + 1 - lo)

/-- The team with `%mode`, `%status`, `%plot`.SIZE and `%defer`.MODE as memory names them, reserved bits zero (R8, R145, R159, R190,
R192). DESIGN CHOICE: log 86. -/
def Team.restoreModes (t : Team) (mode status plot defer : Nat) : Team :=
  { t with
    mode := BitVec.ofNat 64 (bitsOf mode 12 7 * 2 ^ 7 + legalCode 1 5 (bitsOf mode 2 0))
    flags := BitVec.ofNat 64 (bitsOf status 5 0)
    plot := legalCode 1 5 (bitsOf plot 2 0)
    defer := legalCode 0 2 (bitsOf defer 1 0) }

/-- The team as a frame restores it (R350): uniform registers, predicates, granule 0, the mask and its stack,
`%mode`, `%status`, `%plot`, MODE and the latest point. Predicate registers have the lanes below L alone (R357). What the frame holds is
sound: a poisoned register went into it as its bits stood. DESIGN CHOICE: log 129. -/
def Team.restoreFrame (t : Team) (b : List Byte) : Team :=
  let w := fun off => leNat ((b.drop off).take 8)
  { t.restoreModes (w 0x18) (w 0x20) (w 0x28) (w 0x30) with
    uregs := mapSetMany 0 [] ((List.range 64).map fun i => (i, BitVec.ofNat 64 (w (0x400 + 8 * i))))
    preds := mapSetMany 0 []
      ((List.range 16).map fun i => (i, BitVec.ofNat 1024 (leNat ((b.drop (0x600 + 128 * i)).take 128)) &&& allLanes t.lanes))
    vregs := mapSetMany 0 t.vregs ((List.range t.lanes).flatMap fun l => (List.range 8).map fun j =>
      (vkey j l, BitVec.ofNat 32 (leNat ((b.drop (0x2000 + 32 * l + 4 * j)).take 4))))
    mask := BitVec.ofNat 1024 (leNat ((b.drop 0x100).take 128)) &&& allLanes t.lanes
    stack := stackOf t.lanes (b.drop 0xE00) (min 32 (bitsOf (w 0) 13 8))
    point := { t.point with resume := BitVec.ofNat 64 (w 0x10) }
    upoison := []
    ppoison := []
    vpoison := t.vpoison.filter fun p => 8 ≤ p.1
    level := .user }

/-- The length in bytes of the instruction whose first halfword is `h` (R209). -/
def lengthOf (h : Nat) : Nat := if h % 2 = 0 then 2 else 4

end Sys2Proof.Machine
end

