-- ==== Sys2Proof/Machine/Special.lean ====
section
/-! DEFINITION. The special functions (R265): the exact values as close as their bounds need, and the device's own bits kept within
the bounds. -/

namespace Sys2Proof.Machine

/-! ## Reciprocal, reciprocal square root, exact cases -/

/-- |c − 1/x| is at most one unit in the last place of 1/x, for the exact numbers c and x = ± m × 2^e: both
multiplied by |x|. -/
def withinRcp (c : FVal) (neg : Bool) (m : Nat) (e : Int) : Bool :=
  match c with
  | .num s n k =>
    let (xn, xd) := dyadic m e
    let ulp : Int := max (log2Frac xd xn) (-126) - 23
    let (cn, cd) := dyadic n k
    let (un, ud) := scaleFrac 1 1 (-ulp)
    -- | cn/cd − xd/xn | ≤ un/ud
    let l := cn * xn
    let r := xd * cd
    let diff := if l ≤ r then r - l else l - r
    (s == neg || n == 0) && diff * ud ≤ un * (cd * xn)
  | _ => false

/-- |c − 1/√x| is at most one unit in the last place of 1/√x, for x = m × 2^e > 0: compared by squares. -/
def withinRsq (c : FVal) (m : Nat) (e : Int) : Bool :=
  match c with
  | .num false n k =>
    let (xn, xd) := dyadic m e
    -- floor(log2 (1/√x)) = floor(log2 (1/x) / 2)
    let ulp : Int := (log2Frac xd xn) / 2 - 23
    let base := min k ulp
    let cn := n * 2 ^ (k - base).toNat
    let un := 2 ^ (ulp - base).toNat
    -- with unit 2^base: (cn − un)² x ≤ 1 ≤ (cn + un)² x
    let (qn, qd) := scaleFrac xn xd (-2 * base)
    let hi := (cn + un) * (cn + un) * qn
    (qd ≤ hi) && (cn ≤ un || (cn - un) * (cn - un) * qn ≤ qd)
  | _ => false

/-- 2^x for an integer x from −149 to 127, as bits. -/
def exp2Int (x : Int) : Nat := (roundVal .fp32 1 (.num false 1 x)).1

/-- The exact integer of a value, if it is one. -/
def FVal.toInt? : FVal → Option Int
  | .num s m e =>
    let (n, d) := dyadic m e
    if n % d = 0 then some (if s then -((n / d : Nat) : Int) else ((n / d : Nat) : Int)) else none
  | _ => none

/-! ## Exact values, as integers in units of 2^−800 -/

/-- A unit is 2^−800: finer than any difference by which an exact result of R265 can pass a bound on an FP32 value.
DESIGN CHOICE: log 13. -/
abbrev fixPoint : Nat := 800

/-- ln 2. -/
def ln2Fix : Int := 
  0xb17217f7d1cf79abc9e3b39803f2f6af40f343267298b62d8a0d175b8baafa2be7b876206debac98559552fb4afa1b10ed2eae35c138214427573b291169b8253e96ca16224ae8c51acbda11317c387eb9ea9bc3b136603b256fa0ec7657f74b72ce87b1

/-- 2π. -/
def twoPiFix : Int := 
  0x6487ed5110b4611a62633145c06e0e68948127044533e63a0105df531d89cd9128a5043cc71a026ef7ca8cd9e69d218d98158536f92f8a1ba7f09ab6b6a8e122f242dabb312f3f637a262174d31bf6b585ffae5b7a035bf6f71c35fdad44cfd2d74f9208b

/-- m × 2^e. -/
def fixOf (m : Nat) (e : Int) : Int :=
  if -fixPoint ≤ e then m * 2 ^ (e + fixPoint).toNat else (m / 2 ^ (-(e + fixPoint)).toNat : Nat)

/-- The product of two such numbers. -/
def fixMul (a b : Int) : Int := a * b / 2 ^ fixPoint

/-- The terms y^i / i! and those after, as many as the fuel; `t` is the first. -/
def expSeries (y : Int) : Nat → Nat → Int → Int
  | 0, _, _ => 0
  | n + 1, i, t => t + expSeries y n (i + 1) (fixMul t y / (i + 1))

/-- 2^x; one unit for an x far below every FP32 exponent, as 2^x is above zero. -/
def exp2Fix (x : Int) : Int :=
  if x < -(400 * 2 ^ fixPoint) then 1
  else
    let k := x / 2 ^ fixPoint
    let s := expSeries (fixMul (x - k * 2 ^ fixPoint) ln2Fix) 160 0 (2 ^ fixPoint)
    if 0 ≤ k then s * 2 ^ k.toNat else s / 2 ^ (-k).toNat

/-- The terms of a sine or cosine series from the i-th power on; `t` is the first, `r2` the square of the angle. -/
def trigSeries (r2 : Int) : Nat → Nat → Int → Int
  | 0, _, _ => 0
  | n + 1, i, t => t + trigSeries r2 n (i + 2) (-(fixMul t r2 / ((i + 1) * (i + 2))))

/-- sin x, or cos x. -/
def trigFix (cosine : Bool) (x : Int) : Int :=
  let r := x % twoPiFix
  if cosine then trigSeries (fixMul r r) 130 0 (2 ^ fixPoint) else trigSeries (fixMul r r) 130 1 r

/-- The first bits, as many as the fuel, of log2 f for f from 1 to 2. -/
def log2Bits : Nat → Int → Int → Int
  | 0, _, acc => acc
  | n + 1, f, acc =>
    let g := fixMul f f
    if 2 ^ (fixPoint + 1) ≤ g then log2Bits n (g / 2) (2 * acc + 1) else log2Bits n g (2 * acc)

/-- log2 (m × 2^e). -/
def log2Fix (m : Nat) (e : Int) : Int :=
  ((m.log2 : Int) + e) * 2 ^ fixPoint + log2Bits 256 (fixOf m (-(m.log2 : Int))) 0 * 2 ^ (fixPoint - 256)

/-- tanh x for x ≥ 0; one unit below 1 for a large x, as tanh x is below 1. -/
def tanhFix (x : Int) : Int :=
  if 128 * 2 ^ fixPoint ≤ x then 2 ^ fixPoint - 1
  else
    let g := exp2Fix (2 * x * 2 ^ fixPoint / ln2Fix)
    (g - 2 ^ fixPoint) * 2 ^ fixPoint / (g + 2 ^ fixPoint)

/-- A unit in the last place of an exact value in FP32 (R265). -/
def ulpFix (v : Int) : Int := 2 ^ (max ((v.natAbs.log2 : Int) - fixPoint) (-126) - 23 + fixPoint).toNat

/-! ## The functions -/

/-- The device's own bits where they lie within the bound of the exact value, else the value rounded to nearest. -/
def keepWithin (own : Nat) (v bound : Int) : Nat :=
  let rounded := (roundFrac .fp32 1 (decide (v < 0)) v.natAbs (2 ^ fixPoint)).1
  match decodeFloat .fp32 own with
  | .num s n k =>
    let c := if s then -fixOf n k else fixOf n k
    if (c - v).natAbs ≤ bound.natAbs then own else rounded
  | _ => rounded

/-- The bits of an FP32 value that lies in [−1, 1]; of any other, those of 1.0. -/
def clampUnit (bits : Nat) : Nat := if bits % 2 ^ 31 ≤ 0x3F800000 then bits else 0x3F800000

/-- The device's bits for ± m × 2^e, m ≠ 0, where a bound is all that R265 says. -/
def ownWithin (f own : Nat) (neg : Bool) (m : Nat) (e : Int) : Nat :=
  let x := if neg then -fixOf m e else fixOf m e
  match f with
  | 2 =>
    let v := exp2Fix x
    keepWithin own v (2 * ulpFix v)
  | 3 =>
    let v := log2Fix m e
    keepWithin own v (if 2 ^ (fixPoint - 1) ≤ x && x ≤ 2 ^ (fixPoint + 1) then 2 ^ (fixPoint - 22) else 2 * ulpFix v)
  | 6 =>
    let v := tanhFix (fixOf m e)
    keepWithin own (if neg then -v else v) (2 * ulpFix v)
  | _ => if fixOf m e ≤ 2 ^ (fixPoint + 20) then keepWithin own (trigFix (f == 5) x) (2 ^ (fixPoint - 21)) else clampUnit own

/-- Special function `f` of R265 on `x`: bits and flags. Where R265 leaves the bits to the device they are the
free value `Config.special`, kept within the stated bound (log 13). -/
def specialFn (f : Nat) (x : Nat) : Nat × Nat :=
  let own := (Config.special f (BitVec.ofNat 32 x)).toNat
  match decodeFloat .fp32 x with
  | .nan s => (FFmt.fp32.nanBits, nanFlag (.nan s))
  | .inf neg =>
    match f with
    | 0 => (FFmt.fp32.sign neg, 0)
    | 1 => if neg then (FFmt.fp32.nanBits, fNV) else (0, 0)
    | 2 => if neg then (0, 0) else (FFmt.fp32.infBits, 0)
    | 3 => if neg then (FFmt.fp32.nanBits, fNV) else (FFmt.fp32.infBits, 0)
    | 6 => (FFmt.fp32.sign neg + 0x3F800000, 0)
    | _ => (FFmt.fp32.nanBits, fNV)
  | .num neg m e =>
    if m = 0 then
      match f with
      | 0 => (FFmt.fp32.sign neg + FFmt.fp32.infBits, fFDZ)
      | 1 => (FFmt.fp32.sign neg + FFmt.fp32.infBits, fFDZ)
      | 2 => (0x3F800000, 0)
      | 3 => (FFmt.fp32.signBit + FFmt.fp32.infBits, fFDZ)
      | 5 => (0x3F800000, 0)
      | _ => (x, 0)
    else
      match f with
      | 0 =>
        let (n, d) := dyadic m e
        (if 128 ≤ log2Frac d n then FFmt.fp32.sign neg + FFmt.fp32.infBits
          else if withinRcp (decodeFloat .fp32 own) neg m e then own else (roundFrac .fp32 1 neg d n).1, 0)
      | 1 =>
        if neg then (FFmt.fp32.nanBits, fNV)
        else
          let (n, d) := sqrtFrac m e
          (if withinRsq (decodeFloat .fp32 own) m e then own else (roundFrac .fp32 1 false d n).1, 0)
      | 2 =>
        match (FVal.num neg m e).toInt? with
        | some k =>
          if 128 ≤ k then (FFmt.fp32.infBits, 0)
          else if -149 ≤ k then (exp2Int k, 0)
          else (ownWithin f own neg m e, 0)
        | none =>
          (if compareKey .fp32 0x43000000 ≤ compareKey .fp32 x then FFmt.fp32.infBits else ownWithin f own neg m e, 0)
      | 3 =>
        if neg then (FFmt.fp32.nanBits, fNV)
        else if m = 2 ^ m.log2 then ((roundVal .fp32 1 (intVal ((m.log2 : Int) + e))).1, 0)
        else (ownWithin f own neg m e, 0)
      | _ => (ownWithin f own neg m e, 0)

end Sys2Proof.Machine
end

