-- ==== Sys2Proof/Machine/Operands.lean ====
section
/-! DEFINITION. The operand forms and the operations of the uniform unit and of the lanes: what a captured instruction
reads and writes, where its operands come from, and what each operation computes. -/

namespace Sys2Proof.Machine

/-! ## Uniform operations (R232 to R234) -/

/-- The number of leading zero bits of a number of `n` bits. -/
def leadingZeros (n x : Nat) : Nat := if x = 0 then n else n - 1 - x.log2

/-- The number of one bits among the lowest `n`. -/
def popCount : Nat → Nat → Nat
  | 0, _ => 0
  | n + 1, x => x % 2 + popCount n (x / 2)

/-- The smaller of two by an order, or the larger. -/
def pick {β : Type} (less : β → β → Bool) (wantMax : Bool) (a b : β) : β :=
  if wantMax then (if less a b then b else a) else (if less b a then b else a)

/-- The result and the flags of a uniform operation. -/
def UOp.eval (op : UOp) (a b : Word) : Word × Nat :=
  match op with
  | .add => (a + b, 0)
  | .sub => (a - b, 0)
  | .mul => (a * b, 0)
  | .mulh => (BitVec.ofInt 64 (a.toInt * b.toInt / 2 ^ 64), 0)
  | .mulhu => (BitVec.ofNat 64 (a.toNat * b.toNat / 2 ^ 64), 0)
  | .div => let (q, _, f) := divHelper 64 true a.toNat b.toNat; (BitVec.ofNat 64 q, f)
  | .divu => let (q, _, f) := divHelper 64 false a.toNat b.toNat; (BitVec.ofNat 64 q, f)
  | .rem => let (_, r, f) := divHelper 64 true a.toNat b.toNat; (BitVec.ofNat 64 r, f)
  | .remu => let (_, r, f) := divHelper 64 false a.toNat b.toNat; (BitVec.ofNat 64 r, f)
  | .and => (a &&& b, 0)
  | .or => (a ||| b, 0)
  | .xor => (a ^^^ b, 0)
  | .shl => (a <<< (b.toNat % 64), 0)
  | .shr => (a >>> (b.toNat % 64), 0)
  | .sar => (a.sshiftRight (b.toNat % 64), 0)
  | .min => (pick BitVec.slt false a b, 0)
  | .max => (pick BitVec.slt true a b, 0)
  | .minu => (pick BitVec.ult false a b, 0)
  | .maxu => (pick BitVec.ult true a b, 0)
  | .slt => (if a.slt b then 1 else 0, 0)
  | .sltu => (if a.ult b then 1 else 0, 0)
  | .seq => (if a == b then 1 else 0, 0)
  | .mov => (a, 0)
  | .clz => (BitVec.ofNat 64 (leadingZeros 64 a.toNat), 0)
  | .popc => (BitVec.ofNat 64 (popCount 64 a.toNat), 0)
  | .insertHigh => (b.extractLsb' 0 18 ++ a.extractLsb' 0 46, 0)

/-! ## Elements of a lane (R198) -/

/-- Element j of a lane whose elements have w bits. -/
def elem (w j : Nat) (x : Lane) : BitVec w := x.extractLsb' (w * j) w

/-- A lane made of elements of w bits, element 0 lowest. -/
def fromElems (w : Nat) (xs : List Nat) : Lane :=
  BitVec.ofNat 32 (xs.foldr (fun x acc => x % 2 ^ w + 2 ^ w * acc) 0)

/-- Bits of an element. -/
def Width.bits : Width → Nat
  | .w32 => 32
  | .h2 => 16
  | .b4 => 8

/-- An operation applied to each element of two lanes. -/
def Width.zip (w : Width) (f : BitVec w.bits → BitVec w.bits → BitVec w.bits) (a b : Lane) : Lane :=
  match w, f with
  | .w32, f => f a b
  | .h2, f => f (elem 16 1 a) (elem 16 1 b) ++ f (elem 16 0 a) (elem 16 0 b)
  | .b4, f =>
    (f (elem 8 3 a) (elem 8 3 b) ++ f (elem 8 2 a) (elem 8 2 b)) ++
    (f (elem 8 1 a) (elem 8 1 b) ++ f (elem 8 0 a) (elem 8 0 b))

/-- A floating-point operation applied to both elements, their flags united (R194, R266). -/
def halves (f : Nat → Nat → Nat → Nat × Nat) (a b c : Lane) : Lane × Nat :=
  let r := fun j => f (elem 16 j a).toNat (elem 16 j b).toNat (elem 16 j c).toNat
  (fromElems 16 [(r 0).1, (r 1).1], (r 0).2 ||| (r 1).2)

/-- A result of Nat bits as a lane. -/
def laneOf (r : Nat × Nat) : Lane × Nat := (BitVec.ofNat 32 r.1, r.2)

/-- The index of the lowest one bit, 32 when there is none (R258). -/
def lowestOne : Nat → Nat → Nat
  | 0, _ => 32
  | n + 1, x => if x % 2 = 1 then 32 - (n + 1) else lowestOne n (x / 2)

/-- Bit i moved to bit 31 − i (R258). -/
def reverseBits : Nat → Nat → Nat
  | 0, _ => 0
  | n + 1, x => x % 2 * 2 ^ n + reverseBits n (x / 2)

/-- Position and length of the field that a control operand names (R258). -/
def fieldOf (c : Lane) : Nat × Nat := (c.toNat % 32, min (bitsOf c.toNat 13 8) (32 - c.toNat % 32))

/-- The field of A, its top bit copied upward when `sx` (R258). -/
def extractField (sx : Bool) (a c : Lane) : Lane :=
  let (pos, len) := fieldOf c
  let x := a.toNat / 2 ^ pos % 2 ^ len
  if sx && len != 0 then BitVec.ofInt 32 (signed len x) else BitVec.ofNat 32 x

/-- The old destination with its field replaced (R258). -/
def insertField (a c old : Lane) : Lane :=
  let (pos, len) := fieldOf c
  let m := (2 ^ len - 1) * 2 ^ pos
  BitVec.ofNat 32 (old.toNat - (old.toNat &&& m) + a.toNat % 2 ^ len * 2 ^ pos)

/-- `HRND` of a seed and an index (R271): low and high words of the seed, then the index. -/
def hashBits (lo hi index : Lane) : Lane :=
  BitVec.ofNat 32 (leNat ((sha256 (leBytes 4 lo.toNat ++ leBytes 4 hi.toNat ++ leBytes 4 index.toNat)).take 4))

/-- The result and the flags of a lane operation on its sources a, b, c (R257 to R268, R271). -/
def LOp.eval (op : LOp) (rm : Nat) (a b c : Lane) : Lane × Nat :=
  match op with
  | .add w => (w.zip (fun x y => x + y) a b, 0)
  | .sub w => (w.zip (fun x y => x - y) a b, 0)
  | .mul => (a * b, 0)
  | .mulHi => (BitVec.ofInt 32 (a.toInt * b.toInt / 2 ^ 32), 0)
  | .mulHiu => (BitVec.ofNat 32 (a.toNat * b.toNat / 2 ^ 32), 0)
  | .mad => (a * b + c, 0)
  | .div => let (q, _, f) := divHelper 32 true a.toNat b.toNat; (BitVec.ofNat 32 q, f)
  | .divu => let (q, _, f) := divHelper 32 false a.toNat b.toNat; (BitVec.ofNat 32 q, f)
  | .rem => let (_, r, f) := divHelper 32 true a.toNat b.toNat; (BitVec.ofNat 32 r, f)
  | .remu => let (_, r, f) := divHelper 32 false a.toNat b.toNat; (BitVec.ofNat 32 r, f)
  | .and => (a &&& b, 0)
  | .or => (a ||| b, 0)
  | .xor => (a ^^^ b, 0)
  | .andn => (a &&& ~~~b, 0)
  | .shl => (a <<< (b.toNat % 32), 0)
  | .shr => (a >>> (b.toNat % 32), 0)
  | .sar => (a.sshiftRight (b.toNat % 32), 0)
  | .min w u => (w.zip (pick (if u then BitVec.ult else BitVec.slt) false) a b, 0)
  | .max w u => (w.zip (pick (if u then BitVec.ult else BitVec.slt) true) a b, 0)
  | .abs => (if a.msb then -a else a, 0)
  | .neg => (-a, 0)
  | .clz => (BitVec.ofNat 32 (leadingZeros 32 a.toNat), 0)
  | .popc => (BitVec.ofNat 32 (popCount 32 a.toNat), 0)
  | .brev => (BitVec.ofNat 32 (reverseBits 32 a.toNat), 0)
  | .ffs => (BitVec.ofNat 32 (lowestOne 32 a.toNat), 0)
  | .bfx => (extractField false a b, 0)
  | .bfxs => (extractField true a b, 0)
  | .bfi => (insertField a b c, 0)
  | .sel => (if c = 1 then a else b, 0)
  | .mov => (a, 0)
  | .lea sh => (a <<< sh + b, 0)
  | .fadd => laneOf (Machine.fadd .fp32 rm a.toNat b.toNat)
  | .fsub => laneOf (Machine.fsub .fp32 rm a.toNat b.toNat)
  | .fmul => laneOf (Machine.fmul .fp32 rm a.toNat b.toNat)
  | .ffma => laneOf (Machine.ffma .fp32 rm a.toNat b.toNat c.toNat)
  | .ffms => laneOf (Machine.ffms .fp32 rm a.toNat b.toNat c.toNat)
  | .fdiv => laneOf (Machine.fdiv .fp32 rm a.toNat b.toNat)
  | .fsqrt => laneOf (Machine.fsqrt .fp32 rm a.toNat)
  | .fmin => laneOf (fminmax .fp32 false a.toNat b.toNat)
  | .fmax => laneOf (fminmax .fp32 true a.toNat b.toNat)
  | .fabs => (a &&& 0x7FFFFFFF, 0)
  | .fneg => (a ^^^ 0x80000000, 0)
  | .fcpsgn => ((a &&& 0x7FFFFFFF) ||| (b &&& 0x80000000), 0)
  | .fclass => (BitVec.ofNat 32 (Machine.fclass a.toNat), 0)
  | .special f => laneOf (specialFn f a.toNat)
  | .hadd f => halves (fun x y _ => Machine.fadd f rm x y) a b c
  | .hsub f => halves (fun x y _ => Machine.fsub f rm x y) a b c
  | .hmul f => halves (fun x y _ => Machine.fmul f rm x y) a b c
  | .hfma f => halves (Machine.ffma f rm) a b c
  | .hfms f => halves (Machine.ffms f rm) a b c
  | .hmin f => halves (fun x y _ => fminmax f false x y) a b c
  | .hmax f => halves (fun x y _ => fminmax f true x y) a b c
  | .cvt src dst =>
    let (ws, cs, _) := src.shape
    let (wd, cd, _) := dst.shape
    let rs := (List.range (Nat.min cs cd)).map fun j => convert src dst rm (a.toNat / 2 ^ (ws * j) % 2 ^ ws)
    (fromElems wd (rs.map (·.1)), rs.foldl (fun f r => f ||| r.2) 0)
  | .packH => (elem 16 0 b ++ elem 16 0 a, 0)
  | .packB => ((elem 8 2 b ++ elem 8 0 b) ++ (elem 8 2 a ++ elem 8 0 a), 0)
  | .unpackH => ((elem 16 (b.toNat % 2) a).signExtend 32, 0)
  | .unpackB =>
    let j := b.toNat % 2
    ((elem 8 (2 * j + 1) a).signExtend 16 ++ (elem 8 (2 * j) a).signExtend 16, 0)
  | .hrnd => (hashBits a b c, 0)

/-! ## Sources and destinations (R160, R214) -/

/-- The register a uniform source reads. -/
def USrc.regs : USrc → List RegRef
  | .reg n => [.u n]
  | .imm _ => []

/-- The register a lane source reads. -/
def VSrc.regs : VSrc → List RegRef
  | .v n => [.v n]
  | .u n _ => [.u n]
  | .p n => [.p n]
  | .imm _ => []
  | .index _ => []

/-- The vector registers of a group of 8-byte data. -/
def pairRegs (size d : Nat) : List RegRef := if size = 8 then [.v d, .v (d + 1)] else [.v d]

/-- The registers a capturable instruction reads. -/
def Cap.srcs : Cap → List RegRef
  | .uni _ _ a b => a.regs ++ b.regs
  | .umem load _ _ _ a d => if load then [.u a] else [.u a, .u d]
  | .lane _ _ xs => xs.flatMap VSrc.regs
  | .lcmp _ _ a b => [.v a, .v b]
  | .cross _ _ a b => .v a :: b.regs
  | .sread _ a b => [.v a, .u b]
  | .lmem load _ size _ x s d => [.u s, .v x] ++ (if load then [] else pairRegs size d)

/-- The registers a capturable instruction writes. -/
def Cap.dsts : Cap → List RegRef
  | .uni _ d _ _ => [.u d]
  | .umem load _ _ _ _ d => if load then [.u d] else []
  | .lane _ d _ => [.v d]
  | .lcmp _ pd _ _ => [.p pd]
  | .cross _ d _ _ => [.v d]
  | .sread d _ _ => [.u d]
  | .lmem load _ size _ _ _ d => if load then pairRegs size d else []

/-- Is the instruction a load? -/
def Cap.isLoad : Cap → Bool
  | .umem load _ _ _ _ _ => load
  | .lmem load _ _ _ _ _ _ => load
  | _ => false

/-- Is the instruction a store? -/
def Cap.isStore : Cap → Bool
  | .umem load _ _ _ _ _ => !load
  | .lmem load _ _ _ _ _ _ => !load
  | _ => false

/-- The space and the address registers of a memory instruction. -/
def Cap.addr : Cap → Option (Bool × List RegRef)
  | .umem _ plain _ _ a _ => some (plain, [.u a])
  | .lmem _ plain _ _ x s _ => some (plain, [.u s, .v x])
  | _ => none

/-! ## Operand values -/

/-- Where an instruction's operands come from: the team, and the sources copied when it was captured. -/
structure Reader where
  team : Team
  frozen : List Frozen
  deriving DecidableEq, Repr

/-- A copied source. -/
def Reader.copy (r : Reader) (reg : RegRef) : Option Frozen := r.frozen.find? fun f => f.reg == reg

/-- `s`n. -/
def Reader.u (r : Reader) (n : Nat) : Word :=
  match r.copy (.u n) with
  | some f => f.word
  | none => r.team.u n

/-- Lane l of `v`n. -/
def Reader.v (r : Reader) (n l : Nat) : Lane :=
  match r.copy (.v n) with
  | some f => mapGet 0 f.lanes l
  | none => r.team.v n l

/-- `p`n. -/
def Reader.p (r : Reader) (n : Nat) : Mask :=
  match r.copy (.p n) with
  | some f => f.pred
  | none => r.team.p n

/-- The value of a uniform source. -/
def Reader.usrc (r : Reader) : USrc → Word
  | .reg n => r.u n
  | .imm w => w

/-- Lanes of a plot (R145). -/
def plotSize (code : Nat) : Nat := 2 ^ code

/-- Lane index forms (R260): lane in the team, in the swath, in the plot, and the swath's index. -/
def laneIndex (plot k l : Nat) : Nat :=
  match k with
  | 0 => l
  | 1 => l % 32
  | 2 => l % 32 % plotSize plot
  | _ => l / 32

/-- The value of a lane source. -/
def Reader.vsrc (r : Reader) (plot l : Nat) : VSrc → Lane
  | .v n => r.v n l
  | .u n hi => if hi then (r.u n).extractLsb' 32 32 else (r.u n).extractLsb' 0 32
  | .imm w => w
  | .p n => if (r.p n).getLsbD l then 1 else 0
  | .index k => BitVec.ofNat 32 (laneIndex plot k l)

/-- Source k of a lane operation; 0 where it has fewer. -/
def Reader.nth (r : Reader) (plot : Nat) (xs : List VSrc) (k l : Nat) : Lane :=
  match xs[k]? with
  | some x => r.vsrc plot l x
  | none => 0

/-- The number that the second source of a cross-lane operation gives a lane: all 64 bits of a uniform register. -/
def Reader.position (r : Reader) (plot : Nat) (b : VSrc) (l : Nat) : Nat :=
  match b with
  | .u n _ => (r.u n).toNat
  | x => (r.vsrc plot l x).toNat

/-- A copy of a register as it stands (R162). -/
def Team.freeze (t : Team) (reg : RegRef) : Frozen :=
  match reg with
  | .u n => ⟨reg, [], t.u n, 0, if t.upoison.contains n then [0] else []⟩
  | .v n =>
    ⟨reg, mapSetMany 0 [] ((List.range t.lanes).map fun l => (l, t.v n l)), 0, 0,
      (t.vpoison.filter fun p => p.1 == n).map (·.2)⟩
  | .p n => ⟨reg, [], 0, t.p n, (t.ppoison.filter fun w => w.1 == n).map (·.2)⟩

/-! ## Cross-lane operations (R272 to R277) -/

/-- The lanes of l's plot. -/
def plotLanes (n l : Nat) : List Nat := (List.range n).map fun q => l - l % 32 % n + q

/-- `Peer` (R272): x of the lane at position q of l's plot, 0 when it is inactive or outside the plot. -/
def peerLane (act : List Nat) (n : Nat) (x : Nat → Lane) (l : Nat) (q : Int) : Lane :=
  if 0 ≤ q && q < n then
    let k := l - l % 32 % n + q.toNat
    if act.contains k then x k else 0
  else 0

/-- The sum of the lanes of a plot (R275): terms of both infinities are invalid, whatever the others are. -/
def sumLanes (rm : Nat) (vs : List FVal) : Nat × Nat :=
  if vs.any (FVal.isInf false) && vs.any (FVal.isInf true) then (FFmt.fp32.nanBits, fNV) else fsum .fp32 rm vs

/-- The combination of values by a reduction (R275), with flags. The first value is also combined with itself, so that a NaN alone
becomes the default NaN (R196). -/
def combine (op rm : Nat) (xs : List Lane) : Lane × Nat :=
  let fold := fun (f : Lane → Lane → Lane) => (xs.tail.foldl f (xs.headD 0), 0)
  let ffold := fun (wantMax : Bool) =>
    xs.foldl
      (fun (a : Lane × Nat) x => let (r, f) := fminmax .fp32 wantMax a.1.toNat x.toNat; (BitVec.ofNat 32 r, a.2 ||| f))
      (xs.headD 0, 0)
  match op with
  | 0 => fold (· + ·)
  | 1 => fold (pick BitVec.slt false)
  | 2 => fold (pick BitVec.slt true)
  | 3 => fold (pick BitVec.ult false)
  | 4 => fold (pick BitVec.ult true)
  | 5 => laneOf (sumLanes rm (xs.map fun x => decodeFloat .fp32 x.toNat))
  | 6 => ffold false
  | _ => ffold true

/-- A mask of plot positions. -/
def positionMask (n : Nat) (holds : Nat → Bool) : Lane :=
  BitVec.ofNat 32 (((List.range n).filter holds).foldl (fun a q => a + 2 ^ q) 0)

/-- The result of a cross-lane operation in lane l: `x` and `y` are the operands, `act` the active lanes, `n` the plot
size. -/
def XOp.eval (op : XOp) (rm n : Nat) (act : List Nat) (x : Nat → Lane) (y : Nat → Nat) (l : Nat) : Lane × Nat :=
  let q := l % 32 % n
  let start := l - q
  let mine := (plotLanes n l).filter act.contains
  match op with
  | .shflIdx => (peerLane act n x l (y l), 0)
  | .shflUp => (peerLane act n x l ((q : Int) - y l), 0)
  | .shflDown => (peerLane act n x l ((q : Int) + y l), 0)
  | .shflXor => (peerLane act n x l ((q ^^^ y l : Nat) : Int), 0)
  | .red o => combine o rm (mine.map x)
  | .scan o => combine o rm ((mine.filter (· ≤ l)).map x)
  | .matchBits => (positionMask n fun k => act.contains (start + k) && x (start + k) == x l, 0)
  | .matchFloat =>
    (positionMask n fun k => act.contains (start + k) && (LCmp.eval .feq (x (start + k)) (x l)).1, 0)
  | .bcast => (peerLane act n x l (y l), 0)

end Sys2Proof.Machine
end

