-- ==== Sys2Proof/Machine/Translate.lean ====
section
/-! DEFINITION. Translation (R20 to R30, R58 to R63, R74, R75), the Weir's check (R94) and the fetch of an instruction's
bytes (R209 to R212). -/

namespace Sys2Proof.Machine

/-- Does the access write? -/
def Acc.writes : Acc → Bool
  | .store => true
  | .atomic => true
  | .dst => true
  | .load => false
  | .fetch => false
  | .src => false

/-- What a translation answers. -/
inductive Walked where
  /-- the leaf -/
  | leaf (e : TlbEntry)
  /-- a valid leaf with MOT = 1, where it lies, and its word 0 with A and D set (R55, R61) -/
  | touch (e : TlbEntry) (leafAt word0 : Nat)
  /-- a cause and a report code (R63) -/
  | fault (code report : Nat)
  deriving DecidableEq, Repr

/-- The number of offset bits of a page of that size code (R21). -/
def pageShift (size : Nat) : Nat := if size = 0 then 16 else if size = 1 then 21 else 30

/-- The index of a virtual address at a level (R21). -/
def levelIndex (va lvl : Nat) : Nat :=
  match lvl with
  | 0 => bitsOf va 20 16
  | 1 => bitsOf va 29 21
  | 2 => bitsOf va 42 30
  | _ => bitsOf va 55 43

/-- The walk from a table down (R61): the level of the leaf reached, where it lies and its two words, or a fault; a read of a line
under rebuild stalls. The reserved bits of a valid table pointer are not looked at, and a NEXT that is not aligned to the next
table's size is used as it stands. DESIGN CHOICE: log 92. -/
def State.walkDown (s : State) (va : Nat) : Nat → Nat → Except (Nat × Nat) (Nat × Nat × Nat × Nat)
  | lvl, ptr =>
    let a := ptr + 16 * levelIndex va lvl
    if 2 ^ 39 ≤ ptr then .error (0x08, 0x03)
    else if s.stalls false a then .error (stallCode, 0)
    else
      let w0 := s.tableWord a
      if bitsOf w0 3 1 != 0 then .ok (lvl, a, w0, s.tableWord (a + 8))
      else if !bitOf w0 0 then .error (0x08, 0x00)
      else
        match lvl with
        | 0 => .error (0x08, 0x03)
        | l + 1 => s.walkDown va l (bitsOf w0 51 9 * 512)

/-- The step regions whose number and word satisfy a condition: number, first byte, byte after the last (R120). -/
def State.regionsWith (s : State) (holds : Nat → Word → Bool) : List (Nat × Nat × Nat) :=
  (s.regs.filterMap fun e =>
      if regionReg 0 0 ≤ e.1 && e.1 < regionReg 256 0 && (e.1 - regionReg 0 0) % 32 == 0 then
        some ((e.1 - regionReg 0 0) / 32, e.2)
      else none).filterMap fun (g, w) =>
    if holds g w then some (g, wbits w 38 16 * 65536, (wbits w 38 16 + wbits w 15 0) * 65536) else none

/-- The enabled step regions (R121). -/
def State.regions (s : State) : List (Nat × Nat × Nat) := s.regionsWith fun _ w => w.getLsbD 63

/-- The step regions that are enabled or whose EN is being set (R122). -/
def State.boundRegions (s : State) : List (Nat × Nat × Nat) :=
  s.regionsWith fun g w => w.getLsbD 63 || s.enabling.contains g

/-- Does a range of the Basin overlap a region that is enabled or being enabled (R122)? -/
def State.overlapsRegion (s : State) (lo hi : Nat) : Bool := s.boundRegions.any fun r => r.2.1 < hi && lo < r.2.2

/-! ### The pointers that a walker keeps (R59) -/

/-- The number of address bits that a table of a level maps (R21). -/
def tableShift (lvl : Nat) : Nat :=
  match lvl with
  | 0 => 21
  | 1 => 30
  | 2 => 43
  | _ => 56

/-- The table of a level on the way to an address that the walker of a die keeps. -/
def State.keptTable (s : State) (die asid va lvl : Nat) : Option (Nat × Nat) :=
  (s.ptrCache.find? fun p => p.die == die && p.asid == asid && p.level == lvl && p.path == va / 2 ^ tableShift lvl).map fun p =>
    (lvl, p.ptr)

/-- Where a walk begins: the lowest table on its way that the walker keeps, else the root's (R30, R59). DESIGN CHOICE: log 7. -/
def State.walkStart (s : State) (die asid va : Nat) : Nat × Nat :=
  ((s.keptTable die asid va 0 <|> s.keptTable die asid va 1) <|> s.keptTable die asid va 2).getD
    (3, s.regBits (rootReg asid) 51 17 * 2 ^ 17)

/-- The tables that valid pointers name on the way from a table down, up to a line under rebuild: level and address. -/
def State.tablesBelow (s : State) (va : Nat) : Nat → Nat → List (Nat × Nat)
  | 0, _ => []
  | l + 1, ptr =>
    let a := ptr + 16 * levelIndex va (l + 1)
    let w0 := s.tableWord a
    let next := bitsOf w0 51 9 * 512
    if s.stalls false a || bitsOf w0 3 1 != 0 || !bitOf w0 0 || 2 ^ 39 ≤ next then [] else (l, next) :: s.tablesBelow va l next

/-- The walker of a die keeps the pointers on the way to an address of an enabled address space (R59). DESIGN CHOICE: log 7. -/
def State.keepPointer (s : State) (die asid va : Nat) : State :=
  if !s.regBit (rootReg asid) 63 || 2 ^ 56 ≤ va then s
  else
    let (lvl, ptr) := s.walkStart die asid va
    { s with ptrCache := (s.tablesBelow va lvl ptr).map (fun t =>
        PtrEntry.mk die asid t.1 (va / 2 ^ tableShift t.1) t.2) ++ s.ptrCache }

/-- The walker of a die drops the pointers of an address space (R59). -/
def State.dropPointer (s : State) (die asid : Nat) : State :=
  { s with ptrCache := s.ptrCache.filter fun p => !(p.die == die && p.asid == asid) }

/-- Every die drops the pointers of an address space (R59, R72). -/
def State.dropPointers (s : State) (asid : Nat) : State :=
  { s with ptrCache := s.ptrCache.filter fun p => p.asid != asid }

/-- Is the leaf malformed (R25, R28, R122)? -/
def State.malformed (s : State) (lvl w0 w1 : Nat) : Bool :=
  let size := 2 ^ pageShift lvl
  let frame := bitsOf w0 51 16 * 65536
  let cls := bitsOf w0 7 5
  lvl == 3 || bitsOf w0 63 52 != 0 || bitsOf w0 9 8 != 0 || bitsOf w1 31 16 != 0 || frame % size != 0 ||
  3 < cls || (bitOf w0 13 && cls != 1) || (bitOf w0 12 && bitOf w0 2) || (bitsOf w1 15 0 != 0 && cls == 3) ||
  (cls == 0 && (2 ^ 39 ≤ frame || s.overlapsRegion frame (frame + size))) ||
  (cls == 1 && 2 ^ 44 ≤ frame) || (cls == 3 && bitOf frame 39)

/-- UP and GEN of a peer entry (R74). -/
def State.peer (s : State) (m : Nat) : Bool × Nat := (s.regBit (peerReg m) 63, s.regBits (peerReg m) 15 0)

/-- The entry a leaf makes (R58); of class Peer it records the generation. -/
def State.entryOf (s : State) (va asid lvl w0 w1 : Nat) : TlbEntry :=
  let frame := bitsOf w0 51 16 * 65536
  let cls := bitsOf w0 7 5
  { asid := asid
    page := va / 2 ^ pageShift lvl * 2 ^ pageShift lvl
    size := lvl
    frame := frame
    cls := cls
    key := bitsOf w1 15 0
    r := bitOf w0 1
    w := bitOf w0 2
    x := bitOf w0 3
    sup := bitOf w0 4
    cow := bitOf w0 12
    gt := bitOf w0 15
    mig := bitOf w0 14
    d := bitOf w0 11
    gen := if cls = 3 then (s.peer (frame / 2 ^ 40)).2 else 0
    stale := 0 }

/-- The check of R26 (and of R68 for a descriptor destination): the cause of the failure, if any. SUP is tested first: a user's
store that both SUP and COW would fail reports permission. DESIGN CHOICE: log 93. -/
def TlbEntry.refuses (e : TlbEntry) (acc : Acc) (sup : Bool) : Option Nat :=
  if e.sup && !sup then some 0x09
  else
    match acc with
    | .load => if e.r then none else some 0x09
    | .src => if e.r then none else some 0x09
    | .fetch => if e.x then none else some 0x09
    | .atomic => if e.r && e.w then none else if e.cow then some 0x0A else some 0x09
    | .store => if e.w then none else if e.cow then some 0x0A else some 0x09
    | .dst => if e.w then (if e.gt then some 0x09 else none) else if e.cow then some 0x0A else some 0x09

/-- What setting D brings about: the dirty filter marks a page under migration (R56), and the clean copies of the
leaf's frames are dropped (R57). -/
def State.dirtied (s : State) (e : TlbEntry) (leafAt : Nat) : State :=
  { s with
    migrations := s.migrations.map fun m => if e.mig && m.leafAt == leafAt && !m.onTouch then { m with marked := true } else m
    cleanCopies := s.cleanCopies.filter fun c => !(e.cls == 0 && e.frame ≤ c.1 && c.1 < e.frame + 2 ^ pageShift e.size) }

/-- `Walk` (R61) of one page by the walker of a die: A, and D for a write, are set with it (R27). -/
def State.walk (s : State) (die va asid : Nat) (acc : Acc) (sup : Bool) : State × Walked :=
  if 2 ^ 56 ≤ va then (s, .fault 0x08 0x01)
  else if !s.regBit (rootReg asid) 63 then (s, .fault 0x08 0x02)
  else
    match s.walkDown va (s.walkStart die asid va).1 (s.walkStart die asid va).2 with
    | .error (c, r) => (s, .fault c r)
    | .ok (lvl, a, w0, w1) =>
      if s.malformed lvl w0 w1 then (s, .fault 0x08 0x03)
      else if !bitOf w0 0 then (s, .fault 0x0B 0x00)
      else
        let e := s.entryOf va asid lvl w0 w1
        if e.key != 0 && s.keyOwner e.key != (s.asidVd asid).map (· / 8) then (s, .fault 0x09 0x04)
        else
          match e.refuses acc sup with
          | some c => (s, .fault c 0x00)
          | none =>
            let d := acc.writes
            let new := w0 ||| 2 ^ 10 ||| (if d then 2 ^ 11 else 0)
            let marked := if new = w0 then s else s.setTableWord a new
            let marked := if d && !e.d then marked.dirtied e a else marked
            if bitOf w0 13 then (marked, .touch { e with d := e.d || d } a new) else (marked, .leaf { e with d := e.d || d })

/-- A lane TLB of a mill, or the walk-ahead TLB of a die. -/
inductive TlbRef where
  | lane (mill : Nat)
  | ahead (die : Nat)
  deriving DecidableEq, Repr

/-- The die of a TLB (R60). -/
def TlbRef.die : TlbRef → Nat
  | .lane m => m / 128
  | .ahead d => d

/-- The entries of a TLB, the newest first. -/
def State.tlb (s : State) : TlbRef → List TlbEntry
  | .lane m => mapGet [] s.laneTlb m
  | .ahead d => mapGet [] s.walkAhead d

/-- The entries of a TLB set. -/
def State.setTlb (s : State) (r : TlbRef) (es : List TlbEntry) : State :=
  match r with
  | .lane m => { s with laneTlb := mapSet [] s.laneTlb m es }
  | .ahead d => { s with walkAhead := mapSet [] s.walkAhead d es }

/-- Entries of a TLB (R58, R60). -/
def TlbRef.capacity : TlbRef → Nat
  | .lane _ => 512
  | .ahead _ => 4096

/-- Does the entry cover the page of the address? -/
def TlbEntry.covers (e : TlbEntry) (asid va : Nat) : Bool :=
  e.asid == asid && e.page ≤ va && va < e.page + 2 ^ pageShift e.size

/-- Is it the entry of the same page? -/
def TlbEntry.same (e x : TlbEntry) : Bool :=
  e.asid == x.asid && e.page == x.page && e.size == x.size && e.stale == x.stale

/-- The entries pinned on a die (R60). -/
def State.pinned (s : State) (die : Nat) : List TlbEntry :=
  (s.teams.flatMap fun t => t.claims.flatMap fun c => if c.2.die == die then c.2.pins else []) ++
  (if die = 0 then (s.flows.flatMap fun f => if f.team.isNone then f.pins else []) ++ s.copyWaits.flatMap fun w => w.2.pins
    else [])

/-- The entries pinned on a die, each once; one that an invalidation took from the lookups counts beside a newer one of its page
(R72). -/
def State.heldPins (s : State) (die : Nat) : List TlbEntry :=
  (s.pinned die).foldl (fun acc e => if acc.any e.same then acc else e :: acc) []

/-- An entry pinned after `pins`, of which `fresh` are pinned by nobody of `held`: none where too many would be (R60). -/
def pinMore (held pins : List TlbEntry) (fresh : Nat) (e : TlbEntry) : Option (List TlbEntry × Nat) :=
  if pins.any e.same then some (pins, fresh)
  else if held.any e.same then some (pins ++ [e], fresh)
  else if 3584 ≤ held.length + fresh then none
  else some (pins ++ [e], fresh + 1)

/-- The entry put first; the oldest that is not pinned, by a claim or by `spare`, leaves a full TLB (R60). -/
def State.installSparing (s : State) (r : TlbRef) (spare : List TlbEntry) (e : TlbEntry) : State :=
  let es := e :: (s.tlb r).filter fun x => !e.same x
  if es.length ≤ r.capacity then s.setTlb r es
  else
    let pins := match r with
      | .lane _ => []
      | .ahead d => spare ++ s.pinned d
    match es.reverse.find? fun x => !pins.any x.same with
    | some old => s.setTlb r (es.erase old)
    | none => s.setTlb r es

/-- The entry put first into a TLB. -/
def State.install (s : State) (r : TlbRef) (e : TlbEntry) : State := s.installSparing r [] e

/-- The pins of a claim that its own later walks have pushed out of the walk-ahead TLB stand in it again, in place of entries that
nothing pins (R60). -/
def State.keepPins (s : State) (die : Nat) (pins : List TlbEntry) : State :=
  if (s.tlb (.ahead die)).length < (TlbRef.ahead die).capacity then s
  else (pins.filter fun p => !(s.tlb (.ahead die)).any p.same).foldl (fun s p => s.installSparing (.ahead die) pins p) s

/-- A walk whose leaf is installed; a MOT leaf is not. -/
def State.walkInstall (s : State) (r : TlbRef) (va asid : Nat) (acc : Acc) (sup : Bool) : State × Walked :=
  match s.walk r.die va asid acc sup with
  | (s, .leaf e) => (s.install r e, .leaf e)
  | (s, w) => (s, w)

/-- The use of an entry of class Peer (R75). -/
def State.usePeer (s : State) (r : TlbRef) (va asid : Nat) (acc : Acc) (sup : Bool) (e : TlbEntry) : State × Walked :=
  if e.cls != 3 then (s, .leaf e)
  else
    let (up, gen) := s.peer (e.frame / 2 ^ 40)
    if up && gen != e.gen then (s.setTlb r ((s.tlb r).erase e)).walkInstall r va asid acc sup
    else if !up && acc == .load then (s, .fault 0x11 0x09)
    else (s, .leaf e)

/-- `Translate`: the TLB, a walk on a miss, a walk again when an entry fails its check or its D is 0 (R27, R62). -/
def State.translate (s : State) (r : TlbRef) (va asid : Nat) (acc : Acc) (sup : Bool) : State × Walked :=
  let fresh := fun (s : State) =>
    match s.walkInstall r va asid acc sup with
    | (s, .leaf e) => s.usePeer r va asid acc sup e
    | (s, w) => (s, w)
  if 2 ^ 56 ≤ va then (s, .fault 0x08 0x01)
  else
    match (s.tlb r).find? (·.covers asid va) with
    | none => fresh s
    | some e =>
      if (e.refuses acc sup).isNone && (e.d || !acc.writes) then s.usePeer r va asid acc sup e
      else fresh (s.setTlb r ((s.tlb r).erase e))

/-- The physical address of a virtual one under an entry. -/
def TlbEntry.pa (e : TlbEntry) (va : Nat) : Nat := e.frame + (va - e.page)

/-- The location behind an entry that is not of class Peer (R28, R30). -/
def State.locOf (s : State) (e : TlbEntry) (va : Nat) : Loc :=
  .mem (e.cls != 0) (e.pa va) e.key (e.cls == 2 && e.key == 0 && s.bypass e.asid)

/-! ## The Weir (R94) -/

/-- Does an access to bytes `lo` to `lo + n - 1` meet a range of the mill's Weir? -/
def State.weirHit (s : State) (mill : Nat) (plain : Bool) (asid lo n : Nat) (write : Bool) : Bool :=
  s.weir.any fun w =>
    w.mill == mill && w.peer.isNone && w.plain == plain && (plain || w.asid == asid) && lo ≤ w.hi && w.lo < lo + n && (w.dest || write)

/-! ## Fetch (R209 to R212) -/

/-- A line of the instruction cache. -/
def State.iline (s : State) (mill : Nat) (host : Bool) (line key : Nat) : Option CacheLine :=
  (mapGet [] s.icache mill).find? fun c => c.host == host && c.line == line && c.key == key

/-- The halfword behind a leaf, through the instruction cache of the team's mill (R212), or a cause and report (DEDUCED: log 70). The
zeros read under a key that is not LOADED are not kept (DESIGN CHOICE: log 136), and a poisoned line is a fault of the fetch with cause
0x12. DESIGN CHOICE: log 137. -/
def State.fetchThrough (s : State) (e : TlbEntry) (va : Nat) : State × Except (Nat × Nat) Nat :=
  let mill := s.team.mill
  let host := e.cls != 0
  let line := e.pa va / 64 * 64
  let half := fun (bs : List Byte) => leNat ((bs.drop (e.pa va % 64)).take 2)
  if e.cls = 3 then (s, .error (0x10, 0x00))
  else if (s.iline mill host line e.key).isNone && s.stalls host line then (s, .error (stallCode, 0))
  else
    match s.iline mill host line e.key with
    | some c => (s, .ok (half c.data))
    | none =>
      match s.memRead host line e.key (e.cls == 2 && e.key == 0 && s.bypass e.asid) 64 with
      | (_, .poisoned) => (s, .error (0x12, 0x00))
      | (bs, .keyAbsent) => (s.postKeyAbsent s.team.vd line e.key, .ok (half bs))
      | (bs, .ok) =>
        ({ s with icache := mapSet [] s.icache mill (⟨host, line, e.key, false, bs⟩ :: mapGet [] s.icache mill) },
          .ok (half bs))

/-- The halfword at an even virtual address, or the cause and report of the fetch's fault. -/
def State.fetchHalf (s : State) (va : Nat) : State × Except (Nat × Nat) Nat :=
  let t := s.team
  match s.translate (.lane t.mill) va t.asid .fetch (t.level == .supervisor) with
  | (s, .fault c r) => (s, .error (c, r))
  | (s, .touch e _ _) => s.fetchThrough e va
  | (s, .leaf e) => s.fetchThrough e va

/-- What a fetch brings: the bits of an instruction, or a fault with the address of the halfword that failed. -/
inductive Fetched where
  | word (nbits bits : Nat)
  | fault (code report : Nat) (tval : Word)
  deriving DecidableEq, Repr

/-- The fetch of the instruction at an address (R209, R211); from an odd one, which a recipe may name, no halfword is fetched (R210).
DEDUCED: log 103. -/
def State.fetch (s : State) (pc : Word) : State × Fetched :=
  if pc.getLsbD 0 then (s, .fault 0x06 0 pc)
  else
  match s.fetchHalf pc.toNat with
  | (s, .error (c, r)) => (s, .fault c r pc)
  | (s, .ok h) =>
    if lengthOf h = 2 then (s, .word 16 h)
    else
      match s.fetchHalf (pc + 2).toNat with
      | (s, .error (c, r)) => (s, .fault c r (pc + 2))
      | (s, .ok h2) => (s, .word 32 (h + 65536 * h2))

end Sys2Proof.Machine
end

