-- ==== Sys2Proof/Machine/Access.lean ====
section
/-! DEFINITION. Accesses to memory as teams make them: the checks of every lane (R14, R16, R61, R94, R123), the requests they
send (R34 to R40), the packets of step-region writes (R130 to R132), and the completion of an access (R37). -/

namespace Sys2Proof.Machine

/-! ## Results of an instruction -/

/-- How an instruction's issue ends: it completes; it completes and the pc goes elsewhere; the head of the closure is not yet
done; it raises a trap; or it waits at issue. -/
inductive Res where
  | ok (s : State)
  | goto (pc : Word) (s : State)
  | held (s : State)
  | trap (x : Trap) (s : State)
  | wait (s : State)
  deriving DecidableEq, Repr

/-! ## Step regions at the source (R120 to R123) -/

/-- What a Peer access is, for R123. -/
inductive PeerUse where
  | load
  | store
  | atomic (op : AtomicOp)
  /-- an access that R123 does not allow -/
  | other
  deriving DecidableEq, Repr

/-- The number of bytes of an element of that ETYPE (R120). -/
def etypeBytes (e : Nat) : Nat := if e = 0 then 1 else if e = 2 then 8 else 4

/-- The KIND of R132 of a write. -/
def AtomicOp.kind : AtomicOp → Nat
  | .add => 1
  | .fadd => 2
  | .min => 3
  | .max => 4
  | .or => 5
  | .and => 0
  | .xor => 0
  | .xchg => 0
  | .cas => 0

/-- Does a combining atomic match the region's rule, element type and size (R123)? -/
def atomicMatches (op : AtomicOp) (rule etype n : Nat) : Bool :=
  n == etypeBytes etype &&
  match op with
  | .add => rule == 0 && (etype == 1 || etype == 2)
  | .fadd => rule == 0 && etype == 3
  | .min => rule == 1 && etype != 0
  | .max => rule == 2 && etype != 0
  | .or => rule == 3 && etype != 0
  | .and => false
  | .xor => false
  | .xchg => false
  | .cas => false

/-- The enabled region of a virtual device that holds a Basin byte (R121). -/
def State.regionAt (s : State) (vd addr : Nat) : Option Nat :=
  (s.regions.find? fun r => r.2.1 ≤ addr && addr < r.2.2 && s.regBits (regionReg r.1 1) 7 0 == vd).map (·.1)

/-- Is a Peer access allowed (R121, R123, R156)? -/
def State.peerAllowed (s : State) (t : Team) (use : PeerUse) (addr n : Nat) : Bool :=
  match s.regionAt t.vd addr with
  | none => false
  | some g =>
    let rule := s.regBits (regionReg g 0) 60 58
    let etype := s.regBits (regionReg g 0) 57 56
    let forked := (s.wgOf t.wg).any (·.forked)
    match use with
    | .load => true
    | .store => !forked && (etype == 0 || n == etypeBytes etype)
    | .atomic op => !forked && atomicMatches op rule etype n
    | .other => false

/-! ## The checks of a lane -/

/-- What the checks of one lane answer. -/
inductive LaneOut where
  /-- the location, and whether the leaf is a guest table (R68) -/
  | at (loc : Loc) (guest : Bool)
  /-- a Basin byte of a module's step regions, whether the module is up, and whether the leaf is a guest table (R68) -/
  | peer (module addr : Nat) (up guest : Bool)
  /-- a page to be migrated first (R55) -/
  | touch (e : TlbEntry) (leafAt word0 : Nat)
  /-- a cause and a report code -/
  | fail (code report : Nat)
  deriving DecidableEq, Repr

/-- An access of one lane, checked. -/
structure LaneAcc where
  lane : Nat
  ea : Word
  out : LaneOut
  deriving DecidableEq, Repr

/-- What an access is, for its checks. -/
structure AccessKind where
  plain : Bool
  acc : Acc
  n : Nat
  peer : PeerUse
  deriving DecidableEq, Repr

/-- `VDSTEP`.FAIL (R117). -/
def State.stepFail (s : State) (vd : Nat) : Bool := s.regBit (vdReg vd 0x050) 61

/-- COMMITTED and COMPLETE of a virtual device (R118). -/
def State.committed (s : State) (vd : Nat) : Nat := s.regBits (vdReg vd 0x068) 31 0
/-- COMPLETE. -/
def State.complete (s : State) (vd : Nat) : Nat := s.regBits (vdReg vd 0x068) 63 32

/-- The checks of one lane in order (R14, R279, R94, R123). A load of this module's image that would be held after the domain has
failed is lost (R129). -/
def State.checkLane (s : State) (k : AccessKind) (ea : Word) : State × LaneOut :=
  let t := s.team
  if k.plain then
    match s.plainPhys ea k.n t.part k.n with
    | .error (c, stopped) => (s, .fail c (if stopped then 0x0A else 0))
    | .ok (slice, off) =>
      if s.weirHit t.mill true 0 ea.toNat k.n k.acc.writes then (s, .fail 0x0C 0) else (s, .at (.plain slice off) false)
  else if ea.toNat % k.n != 0 then (s, .fail 0x06 0)
  else
    match s.translate (.lane t.mill) ea.toNat t.asid k.acc (t.level == .supervisor) with
    | (s, .fault c r) => (s, .fail c r)
    | (s, .touch e a w) => (s, .touch e a w)
    | (s, .leaf e) =>
      if s.weirHit t.mill false t.asid ea.toNat k.n k.acc.writes then (s, .fail 0x0C 0)
      else if e.cls = 3 then
        let pa := e.pa ea.toNat
        let lost := k.peer == .load && pa / 2 ^ 40 == s.module && s.stepFail t.vd && s.committed t.vd < t.stepNo
        if !s.peerAllowed t k.peer (pa % 2 ^ 39) k.n then (s, .fail 0x10 0)
        else if lost then (s, .fail 0x11 0)
        else (s, .peer (pa / 2 ^ 40) (pa % 2 ^ 39) (s.peer (pa / 2 ^ 40)).1 (e.gt && k.acc.writes))
      else (s, .at (s.locOf e ea.toNat) (e.gt && k.acc.writes))

/-- The checks of every lane, in swath order. -/
def State.checkLanes (k : AccessKind) : State → List (Nat × Word) → State × List LaneAcc
  | s, [] => (s, [])
  | s, (l, ea) :: rest =>
    let (s, o) := s.checkLane k ea
    let (s, os) := State.checkLanes k s rest
    (s, ⟨l, ea, o⟩ :: os)

/-- The lowest cause among the lanes that failed, with the lanes that failed with it (R16). -/
def lowestCause (ls : List LaneAcc) : Option (Nat × List LaneAcc) :=
  let codes := ls.filterMap fun a => match a.out with
    | .fail c _ => some c
    | _ => none
  match codes with
  | [] => none
  | c :: cs =>
    let low := cs.foldl min c
    some (low, ls.filter fun a => match a.out with
      | .fail c _ => c == low
      | _ => false)

/-- The trap of R16: of a lane access, or of a uniform access, whose `%fmask` is the active mask (R235). Where lanes fail with one
cause and differ in their report, the lowest lane's report is the trap's. DESIGN CHOICE: log 94. -/
def accessTrap (uniform : Option Mask) (code : Nat) (failing : List LaneAcc) : Trap :=
  let first := failing.head?
  let report := match first with
    | some ⟨_, _, .fail _ r⟩ => r
    | _ => 0
  { code := code
    tval := (first.map (·.ea)).getD 0
    fmask := some <| uniform.getD (maskOf (failing.map (·.lane)))
    report := report
    done := false
    fetch := false
    epc := 0 }

/-- The first lane that reached a page to be migrated (R55). -/
def firstTouch (ls : List LaneAcc) : Option (TlbEntry × Nat × Nat) :=
  ls.findSome? fun a => match a.out with
    | .touch e l w => some (e, l, w)
    | _ => none

/-! ## Migrate-on-touch (R55) -/

/-- Entry number `cons` of a virtual device's migration frame ring (R372). -/
def State.ringFrame (s : State) (vd cons : Nat) : Nat :=
  let ring := s.reg (vdReg vd 0x0E8)
  leNat (s.hostRead (wbits ring 51 12 * 4096 + 8 * (cons % max 1 (wbits ring 11 0))) 8)

/-- The next frame of a virtual device's migration frame ring (R372): an entry with a bit outside [38:16] is skipped and
reported (its ADDR is not stated, and free). `fuel` bounds the entries looked at; there are at most 65,535. -/
def State.takeFrame (vd : Nat) : Nat → State → State × Option Nat
  | 0, s => (s, none)
  | fuel + 1, s =>
    let ring := s.reg (vdReg vd 0x0E8)
    let idx := s.reg (vdReg vd 0x0F8)
    let cons := wbits idx 47 32
    if !ring.getLsbD 63 || cons == wbits idx 63 48 then (s, none)
    else
      let e := s.ringFrame vd cons
      let s := s.setReg (vdReg vd 0x0F8) (wput idx 47 32 (cons + 1))
      if e == bitsOf e 38 16 * 65536 then (s, some e)
      else State.takeFrame vd fuel ({ s with draws := s.draws + 1 }.post (some vd) 0x07 0 (Config.trapValue s.draws) 0 none)

/-- Does the ring hold a frame? -/
def State.frameReady (s : State) (vd : Nat) : Bool :=
  let idx := s.reg (vdReg vd 0x0F8)
  let cons := wbits idx 47 32
  s.regBit (vdReg vd 0x0E8) 63 &&
  (List.range ((wbits idx 63 48 + 65536 - cons) % 65536)).any fun i =>
    let e := s.ringFrame vd ((cons + i) % 65536)
    e == bitsOf e 38 16 * 65536

/-- Does a lane reach a page to be migrated, of which no migration is under way and for which the ring holds no frame (R55)? -/
def State.touchFails (s : State) (a : LaneAcc) : Bool :=
  match a.out with
  | .touch _ _ _ =>
    !(s.migrations.any fun m => m.onTouch && m.asid == s.team.asid && m.page == a.ea.toNat / 65536 * 65536) &&
    !s.frameReady s.team.vd
  | _ => false

/-- The lanes with those that find the frame ring empty failed (R16, R55); the entries that are no frames leave the ring (R372). -/
def State.emptyRing (s : State) (ls : List LaneAcc) : State × List LaneAcc :=
  if ls.any s.touchFails then
    ((State.takeFrame s.team.vd 65536 s).1, ls.map fun a => if s.touchFails a then { a with out := .fail 0x08 0x08 } else a)
  else (s, ls)

/-! ## Poison at issue (R51, R53) -/

/-- Would a read of the location find poison? -/
def State.poisonedAt (s : State) (loc : Loc) (n : Nat) : Bool :=
  match loc with
  | .plain slice off => s.plainPoisoned slice off n
  | .mem host pa key bypass => (s.memRead host pa key bypass n).2 == .poisoned
  | .peer _ _ _ => false

/-- Is poison kept at the location, which a read under another key state would find? -/
def State.keepsPoison (s : State) : Loc → Bool
  | .plain _ _ => false
  | .mem host pa _ _ => if host then s.hostPoison.contains (pa / 64 * 64) else s.basinPoison.contains (pa / 64 * 64)
  | .peer _ _ _ => true

/-- Does the team of a request hold until its access completes? -/
def State.heldReq (s : State) (r : Req) : Bool := (findBy Access.id s.accesses r.access).any (·.hold)

/-- Has the request still to be performed, and does it read for registers? -/
def Req.awaitsData (r : Req) : Bool :=
  (r.stage == .egress || r.stage == .queued || r.stage == .stalled) && match r.op with
    | .load _ _ => true
    | .uload _ _ _ => true
    | .atomic _ _ _ _ _ _ => true
    | .store _ => false
    | .prefetch => false
    | .packet _ _ => false

/-- May poison come into a 64-bit word of a slice now: does the team of every read of it that is under way hold, so that it traps
precisely (R51, R294)? Other reads are served first. DEDUCED: log 75. -/
def State.calmPlain (s : State) (slice word : Nat) : Bool :=
  s.requests.all fun r => match r.loc with
    | .plain sl o =>
      !(sl == slice && r.awaitsData && o / 8 ≤ word && word ≤ (o + r.n - 1) / 8) || s.heldReq r
    | .mem _ _ _ _ => true
    | .peer _ _ _ => true

/-- The same of a line behind a controller or the host link (R53, R294). DEDUCED: log 75. -/
def State.calmLine (s : State) (host : Bool) (line : Nat) : Bool :=
  s.requests.all fun r => match r.loc with
    | .mem h pa _ _ => !(h == host && r.awaitsData && pa / 64 * 64 == line) || s.heldReq r
    | .plain _ _ => true
    | .peer _ _ _ => true

/-- Do two locations share a 64-bit word of the Plain, or a line? -/
def Loc.near (a b : Loc) : Bool :=
  match a, b with
  | .plain s1 o1, .plain s2 o2 => s1 == s2 && o1 / 8 == o2 / 8
  | .mem h1 p1 _ _, .mem h2 p2 _ _ => h1 == h2 && p1 / 64 == p2 / 64
  | _, _ => false

/-- Has a store or an atomic to there still to be performed, behind which a read that the team makes now would be served: one of the
team's own, one of its mill, one in the bank's queue or one that stalls at the controller (R36, R52, R102)? -/
def State.writeAhead (s : State) (t : Team) (loc : Loc) : Bool :=
  s.requests.any fun r => r.op.writes && r.loc.near loc &&
    match r.stage with
    | .egress => r.team == t.uid || r.mill == t.mill
    | .queued => true
    | .stalled => true
    | .promoting _ _ => false
    | .served _ => false

/-! ## Requests -/

/-- A location moved by some bytes. -/
def Loc.down (loc : Loc) (by' : Nat) : Loc :=
  match loc with
  | .plain s o => .plain s (o - by')
  | .mem h p k b => .mem h (p - by') k b
  | .peer m a st => .peer m (a - by') st

/-- The byte number of a location. -/
def Loc.byte : Loc → Nat
  | .plain _ o => o
  | .mem _ p _ _ => p
  | .peer _ a _ => a

/-- A new request of an access. -/
def State.send (s : State) (r : Req) : State :=
  { s with requests := s.requests ++ [{ r with id := s.nextId }], nextId := s.nextId + 1 }

/-- Requests sent, the first first. -/
def State.sendAll (s : State) (rs : List Req) : State := rs.foldl State.send s

/-- An access begun: it holds a completion counter and awaits its requests (R37). -/
def State.begin (s : State) (a : Access) (rs : List Req) : State :=
  if rs.isEmpty then s
  else
    let id := s.nextId
    State.sendAll
      { s with accesses := s.accesses ++ [{ a with id := id, left := rs.length }], nextId := id + 1 }
      (rs.map fun r => { r with access := id })

/-- The access of an instruction of a team that awaits no data. -/
def plainAccess (t : Team) (guest : Option (Word × Nat)) : Access :=
  { id := 0, team := t.uid, left := 0, dsts := [], pc := t.pc, acquire := false, hold := false, atomic := false
    deferred := false, data := [], poisoned := [], uniform := none, guest := guest, empties := false, fills := [] }

/-- The address of the instruction that makes an access: the head of the closure's where that runs, else the main stream's (R163). -/
def Team.issuingPc (t : Team) (deferred : Bool) : Word := if deferred then (t.closure.head?.map (·.pc)).getD t.pc else t.pc

/-- A request of a team. -/
def Team.req (t : Team) (lane : Nat) (ea : Word) (loc : Loc) (n : Nat) (op : ReqOp) : Req :=
  { id := 0, access := 0, team := t.uid, mill := t.mill, wheel := t.wheel, swath := lane / 32, loc := loc, n := n, op := op
    ea := ea, stage := .egress, release := false, acquire := false, fill := false, keep := false }

/-- Fills of a line that a store or an atomic of the mill overtakes are not made (R106). -/
def State.dropFills (s : State) (mill : Nat) (host : Bool) (line : Nat) : State :=
  { s with requests := s.requests.map fun r =>
      match r.loc with
      | .mem h p _ _ => if r.mill == mill && h == host && p / 64 * 64 == line then { r with fill := false } else r
      | _ => r }

/-- A line present in a mill's lane cache (R40). -/
def State.laneLine (s : State) (mill : Nat) (host : Bool) (line key : Nat) : Option CacheLine :=
  (mapGet [] s.laneCache mill).find? fun c => c.host == host && c.line == line && c.key == key

/-- A store updates a line it finds present (R40). -/
def State.writeThrough (s : State) (mill : Nat) (loc : Loc) (bs : List Byte) : State :=
  match loc with
  | .mem host pa key _ =>
    let line := pa / 64 * 64
    let s := s.dropFills mill host line
    { s with laneCache := mapSet [] s.laneCache mill ((mapGet [] s.laneCache mill).map fun c =>
        if c.host == host && c.line == line && c.key == key then { c with data := overlay c.data (pa % 64) bs } else c) }
  | _ => s

/-- A present line is replaced only after those without keep, from an access with hint 10 or a prefetch on (R41). -/
def State.keepLine (s : State) (mill : Nat) (loc : Loc) : State :=
  match loc with
  | .mem host pa key _ =>
    { s with laneCache := mapSet [] s.laneCache mill ((mapGet [] s.laneCache mill).map fun c =>
        if c.host == host && c.line == pa / 64 * 64 && c.key == key then { c with keep := true } else c) }
  | _ => s

/-- An atomic removes the line from the mill's lane cache (R40). -/
def State.removeLine (s : State) (mill : Nat) (loc : Loc) : State :=
  match loc with
  | .mem host pa _ _ =>
    let line := pa / 64 * 64
    let s := s.dropFills mill host line
    { s with laneCache := mapSet [] s.laneCache mill ((mapGet [] s.laneCache mill).filter fun c =>
        !(c.host == host && c.line == line)) }
  | _ => s

/-- What the lanes of a load receive from the bytes of its span: the register and lane, and the value (R279, R280). -/
def partWrites (reg : Nat) (data : List Byte) (parts : List LanePart) : List (Nat × Nat × Lane) :=
  parts.flatMap fun p =>
    let bs := (data.drop p.skip).take p.size
    if p.size = 8 then
      [(reg, p.lane, BitVec.ofNat 32 (leNat (bs.take 4))), (reg + 1, p.lane, BitVec.ofNat 32 (leNat (bs.drop 4)))]
    else [(reg, p.lane, BitVec.ofNat 32 (leNat bs))]

/-- Lanes of registers written. -/
def Team.writeParts (t : Team) (ws : List (Nat × Nat × Lane)) : Team := ws.foldl (fun t w => t.setV w.1 [(w.2.1, w.2.2)]) t

/-- What a load or an atomic writes when its data land (R37, R292). DEDUCED: log 69. -/
def Team.land (t : Team) (op : ReqOp) (data : List Byte) : Team :=
  match op with
  | .load reg parts => t.writeParts (partWrites reg data parts)
  | .uload reg skip size => t.setU reg (BitVec.ofNat 64 (leNat ((data.drop skip).take size)))
  | .atomic _ _ _ ret reg lane => if ret then t.writeParts (partWrites reg data [⟨lane, 0, 0, data.length⟩]) else t
  | _ => t

/-- Data that land together. -/
def Team.landAll (t : Team) (ds : List (ReqOp × List Byte)) : Team := ds.foldl (fun t d => t.land d.1 d.2) t

/-- The span of a load: the 4-byte word that holds it, or its 8 bytes (R35). -/
def spanOf (n : Nat) (loc : Loc) : Nat × Loc := let skip := if n = 8 then 0 else loc.byte % 4
  (skip, loc.down skip)

/-- Reads that share a span share a request (R35): the spans in the order of their first lane, each with its lanes. -/
def groupSpans (n : Nat) (ls : List (Nat × Word × Loc)) : List (Loc × List LanePart) :=
  ls.foldl (fun acc (l, ea, loc) =>
    let (skip, base) := spanOf n loc
    if acc.any (fun g => g.1 == base) then
      acc.map fun g => if g.1 == base then (g.1, g.2 ++ [⟨l, ea, skip, n⟩]) else g
    else acc ++ [(base, [⟨l, ea, skip, n⟩])]) []

/-- The number of accesses of a team that hold a completion counter (R37). -/
def State.countersHeld (s : State) (uid : Nat) : Nat := (s.accessesOf uid).length

/-- Is an acquire of the team under way, so that no later access may perform (R104)? -/
def State.acquiring (s : State) (uid : Nat) : Bool := (s.accessesOf uid).any (·.acquire)

/-- May the team begin an access: a counter is free, and no acquire is under way (R37, R104)? -/
def State.mayAccess (s : State) (uid : Nat) : Bool := s.countersHeld uid < 16 && !s.acquiring uid

/-- The effect of an instruction that accesses memory through an engine: it waits for the acquires of its team (R104). -/
def State.afterAcquires (f : State → Res) (s : State) : Res := if s.acquiring s.team.uid then .wait s else f s

/-! ## Requests of a load (R38, R40, R41) -/

/-- How a load treats the lane cache, which an acquire at device scope (`drop`) empties as it issues and as it completes, and the order
of accesses. -/
structure LoadMode where
  hint : Nat
  acquire : Bool
  promote : Bool
  drop : Bool
  deriving DecidableEq, Repr

/-- Is it a byte of a Plain slice? -/
def Loc.isPlain : Loc → Bool
  | .plain _ _ => true
  | .mem _ _ _ _ => false
  | .peer _ _ _ => false

/-- Is it a byte that a lane cache may hold (R40)? -/
def Loc.isMem : Loc → Bool
  | .plain _ _ => false
  | .mem _ _ _ _ => true
  | .peer _ _ _ => false

/-- The first lane of a read. -/
def ReqOp.lane : ReqOp → Nat
  | .load _ parts => (parts.head?.map (·.lane)).getD 0
  | .atomic _ _ _ _ _ lane => lane
  | _ => 0

/-- A request that reads a span. -/
def loadReq (t : Team) (md : LoadMode) (ea : Word) (loc : Loc) (n : Nat) (op : ReqOp) : Req :=
  { t.req op.lane ea loc n op with
    acquire := md.promote && loc.isPlain
    fill := loc.isMem && (md.hint == 0 || md.hint == 2)
    keep := md.hint == 2 }

/-- The bytes of a span that the lane cache holds, if the load may use them (R41). -/
def State.cached (s : State) (mill hint : Nat) (loc : Loc) (n : Nat) : Option (List Byte) :=
  match loc with
  | .mem host pa key _ =>
    if hint = 3 then none
    else (s.laneLine mill host (pa / 64 * 64) key).map fun c => (c.data.drop (pa % 64)).take n
  | _ => none

/-- The bytes of the image committed at a boundary of a virtual device's domain, at this module: what a later commit replaced is
what it kept (R124). Peer leaves are read under key index 0. -/
def State.imageRead (s : State) (vd k addr n : Nat) : List Byte :=
  let later := s.images.filter fun i => i.vd == vd && k < i.n && i.line == addr / 64 * 64
  match later.foldl (fun (b : Option ImageLine) i => if b.any (·.n ≤ i.n) then b else some i) none with
  | some i => (i.bytes.drop (addr % 64)).take n
  | none => (s.memRead false addr 0 false n).1

/-- May a load of step k read this module's image at an address now: it is committed, and its line is sound (R52, R53, R124)? -/
def State.imageReady (s : State) (vd k addr n : Nat) : Bool :=
  k ≤ s.committed vd && !s.stalls false addr && (s.memRead false addr 0 false n).2 != .poisoned

/-- A load of the spans given: those the lane cache holds and those of a committed image of this module need no request, and one is
sent for each other. With none sent all land at once, else together at the end (R38, R39). Whether the team holds meanwhile is
answered: it does behind a load that a peer may lose or that may find an error. -/
def State.sendLoad (s : State) (dsts : List RegRef) (md : LoadMode) (deferred : Bool) (uniform : Option Mask)
    (spans : List (Loc × Nat × Word × ReqOp)) : State × Bool :=
  let t := s.team
  let now := fun (x : Loc × Nat × Word × ReqOp) => match x.1 with
    | .peer m addr st =>
      if m == s.module && s.imageReady t.vd st addr x.2.1 then some (s.imageRead t.vd st addr x.2.1) else none
    | loc => s.cached t.mill md.hint loc x.2.1
  let ready := spans.filterMap fun x => (now x).map fun d => (x.2.2.2, d)
  let later := spans.filter fun x => (now x).isNone
  let s := if md.hint = 2 then spans.foldl (fun s x => s.keepLine t.mill x.1) s else s
  if later.isEmpty then (s.mapTeam fun t => t.landAll ready, false)
  else
    let acc := s.nextId
    let hold := s.heed || later.any fun x => s.keepsPoison x.1
    let a : Access := { plainAccess t none with
      pc := t.issuingPc deferred, dsts := dsts, acquire := md.acquire, hold := hold, deferred := deferred && hold, data := ready, uniform := uniform
      empties := md.drop }
    let s := s.begin a (later.map fun x => loadReq t md x.2.2.1 x.1 x.2.1 x.2.2.2)
    let msgs := later.filterMap fun x => match x.1 with
      | .peer m addr st => if m == s.module then none else some (Message.peerLoad m acc addr x.2.1 st)
      | _ => none
    ({ s with outbox := s.outbox ++ msgs }, hold)

/-! ## Requests of a store (R35, R40, R102) -/

/-- The requests of a store: one for each lane, in swath order; a present line of the lane cache is updated at once (R40). -/
def State.storeReqs (s : State) (mode : Bool) (writes : List (Nat × Loc × Word × List Byte)) : State × List Req :=
  (writes.foldl (fun s w => s.writeThrough s.team.mill w.2.1 w.2.2.2) s,
    writes.map fun w => { s.team.req w.1 w.2.2.1 w.2.1 w.2.2.2.length (.store w.2.2.2) with
      release := mode && w.2.1.isPlain })

/-- Stores of an instruction that no lane makes: lane, location, address and bytes of each. -/
def State.sendStore (s : State) (writes : List (Nat × Loc × Word × List Byte)) : State :=
  let (s, reqs) := s.storeReqs false writes
  s.begin (plainAccess s.team none) reqs

/-! ## Packets (R130 to R132) -/

/-- The boundary record of a virtual device's boundary n. -/
def State.boundaryOf (s : State) (vd n : Nat) : Boundary :=
  (s.boundaries.find? fun b => b.vd == vd && b.n == n).getD ⟨vd, n, .collecting, 0, false, false, [], [], [], false⟩

/-- The boundary record set. -/
def State.setBoundary (s : State) (b : Boundary) : State :=
  { s with boundaries := (s.boundaries.filter fun x => !(x.vd == b.vd && x.n == b.n)) ++ [b] }

/-- A count kept by module, raised. -/
def addCount (l : List (Nat × Nat)) (m k : Nat) : List (Nat × Nat) :=
  if l.any (fun e => e.1 == m) then l.map fun e => if e.1 == m then (m, e.2 + k) else e else l ++ [(m, k)]

/-- A count kept by module. -/
def countFor (l : List (Nat × Nat)) (m : Nat) : Nat := ((l.find? fun e => e.1 == m).map (·.2)).getD 0

/-- The 128 bytes of an entry (R132). -/
def entryBytes (e : StepEntry) : List Byte :=
  e.data ++ leBytes 8 e.mask.toNat ++ leBytes 8 e.line ++ leBytes 2 e.src ++ leBytes 1 e.region ++
  leBytes 1 (b2n e.spill * 128 + e.kind) ++ leBytes 4 e.step ++ leBytes 2 e.lseq ++ leBytes 2 0 ++ leBytes 4 e.team ++
  leBytes 4 e.seq ++ List.replicate 28 0

/-- The entry that 128 bytes hold. -/
def entryOfBytes (b : List Byte) : StepEntry :=
  let f := fun off n => leNat ((b.drop off).take n)
  { data := b.take 64, mask := BitVec.ofNat 64 (f 0x40 8), line := f 0x48 8 % 2 ^ 39 / 64 * 64, src := f 0x50 2 % 4096
    region := f 0x52 1, kind := f 0x53 1 % 16, spill := bitOf (f 0x53 1) 7, step := f 0x54 4, lseq := f 0x58 2
    team := f 0x5C 4, seq := f 0x60 4 }

/-- Is the module a member (`VDSMEM`)? -/
def State.isMember (s : State) (vd m : Nat) : Bool := m < 4096 && s.regBit (vdReg vd (0x200 + 8 * (m / 64))) (m % 64)
/-- The members, in ascending order. -/
def State.stepMembers (s : State) (vd : Nat) : List Nat := (List.range 4096).filter fun m => s.isMember vd m

/-- Where entry j of a source of step n lies in the millpond (R366). -/
def State.pondAt (s : State) (vd n source j : Nat) : Nat :=
  let members := s.stepMembers vd
  let lines := s.regBits (vdReg vd 0x058) 15 0
  s.regBits (vdReg vd 0x060) 38 16 * 65536 +
    (n % 2 * members.length + (members.filter (· < source)).length) * lines * 128 + j * 128

/-- The virtual device that owns a region (R120). -/
def State.regionVd (s : State) (g : Nat) : Nat := s.regBits (regionReg g 1) 7 0

/-- Where the next spilled entry of a packet's source and step goes in the millpond (R366). -/
def State.pondNext (s : State) (e : StepEntry) : Nat :=
  let vd := s.regionVd e.region
  let first := s.pondAt vd e.step e.src 0
  let used := (s.millpond.filter fun p => p.vd == vd && p.step == e.step && first ≤ p.addr &&
    p.addr < first + s.regBits (vdReg vd 0x058) 15 0 * 128).length
  s.pondAt vd e.step e.src used

/-- Does a spilled packet wait at the millpond for a line under rebuild (R52)? -/
def State.packetStalls (s : State) (e : StepEntry) : Bool :=
  e.spill && s.regBit (regionReg e.region 0) 63 && (s.stalls false (s.pondNext e) || s.stalls false (s.pondNext e + 64))

/-- A packet received (R121, R131, R132): discarded with ERR when it names no enabled region's range; kept in the sluice, or
in the millpond of the region's virtual device when it is a spill. -/
def State.receivePacket (s : State) (e : StepEntry) : State :=
  let r := s.reg (regionReg e.region 0)
  let vd := s.regionVd e.region
  let b := s.boundaryOf vd e.step
  let s := s.setBoundary { b with got := addCount b.got e.src 1 }
  if !r.getLsbD 63 then s
  else if !(wbits r 38 16 * 65536 ≤ e.line && e.line < (wbits r 38 16 + wbits r 15 0) * 65536) then
    s.updReg (regionReg e.region 0) fun w => wput w 62 62 1
  else if !e.spill then { s with sluice := s.sluice ++ [e] }
  else
    let addr := s.pondNext e
    let bs := entryBytes e
    let s := (s.memWrite false addr 0 false (bs.take 64)).1
    let s := (s.memWrite false (addr + 64) 0 false (bs.drop 64)).1
    { s with millpond := s.millpond ++ [⟨vd, e.step, addr⟩] }

/-- Has every member's END arrived, with all its lines? -/
def State.linesIn (s : State) (b : Boundary) : Bool :=
  (s.stepMembers b.vd).all fun m => match b.ends.find? fun e => e.1 == m with
    | some e => e.2 ≤ countFor b.got m
    | none => false

/-- ENTERED goes to APPLYING once the barrier is done and every line is in (R129). -/
def State.tryApply (s : State) (vd n : Nat) : State :=
  let b := s.boundaryOf vd n
  if b.state == .entered && b.enterDone && s.linesIn b then s.setBoundary { b with state := .applying } else s

/-- A write of one lane to a step region: target, Basin address, operand bytes. -/
structure PeerWrite where
  lane : Nat
  ea : Word
  target : Nat
  addr : Nat
  bytes : List Byte
  up : Bool
  deriving DecidableEq, Repr

/-- The combination of two elements by a rule on an element type (R130, R134, R135). -/
def combineElems (rule etype : Nat) (a b : List Byte) : List Byte :=
  let x := leNat a
  let y := leNat b
  let w := 8 * a.length
  if rule = 3 then leBytes a.length (x ||| y)
  else if etype = 3 then
    leBytes 4 (if rule = 0 then fp32Add x y else if rule = 1 then fp32Min x y else fp32Max x y)
  else if rule = 0 then leBytes a.length (x + y)
  else if rule = 1 then (if signed w y < signed w x then b else a)
  else (if signed w x < signed w y then b else a)

/-- A packet being formed: the address of its first lane, its target, line, bytes and byte mask. -/
structure Forming where
  ea : Word
  target : Nat
  line : Nat
  data : List Byte
  mask : Nat
  deriving DecidableEq, Repr

/-- The mask of bytes `off` to `off + n - 1`. -/
def byteMask (off n : Nat) : Nat := (2 ^ n - 1) * 2 ^ off

/-- A lane's write put into the packets (R130): stores overlay, atomics combine, and colliding FADD lanes take the next packet
of the line. -/
def addWrite (kind rule etype : Nat) (ps : List Forming) (w : PeerWrite) : List Forming :=
  let line := w.addr / 64 * 64
  let off := w.addr % 64
  let n := w.bytes.length
  let m := byteMask off n
  let here := fun (p : Forming) => p.target == w.target && p.line == line
  let fits := fun (p : Forming) => here p && (kind != 2 || p.mask &&& m == 0)
  match ps.findIdx? fits with
  | none => ps ++ [⟨w.ea, w.target, line, overlay zero64 off w.bytes, m⟩]
  | some i =>
    ps.modify i fun p =>
      let old := (p.data.drop off).take n
      let new := if kind = 0 || p.mask &&& m == 0 then w.bytes else combineElems rule etype old w.bytes
      { p with data := overlay p.data off new, mask := p.mask ||| m }

/-- Quota left towards a target for a step (R131). -/
def State.quotaOf (s : State) (vd target step : Nat) : Nat × Nat :=
  match s.quotas.find? fun q => q.vd == vd && q.target == target && q.step == step with
  | some q => (q.slines, q.mlines)
  | none => (0, 0)

/-- One line of quota spent; whether it was a millpond line. -/
def State.spendQuota (s : State) (vd target step : Nat) : State × Bool :=
  let (sl, _) := s.quotaOf vd target step
  let upd := fun (q : Quota) => if q.vd == vd && q.target == target && q.step == step then
      (if sl = 0 then { q with mlines := q.mlines - 1 } else { q with slines := q.slines - 1 })
    else q
  ({ s with quotas := s.quotas.map upd }, sl == 0)

/-- The request of a packet, with quota of its own (R131, R132): it stands in the mill's egress until the fabric takes it (R136). -/
def State.sendPacket (s : State) (kind region : Nat) (p : Forming) : State × Req :=
  let t := s.team
  let step := t.stepNo + 1
  let (s, spill) := s.spendQuota t.vd p.target step
  let e : StepEntry :=
    { data := p.data, mask := BitVec.ofNat 64 p.mask, line := p.line, src := s.module, region := region, kind := kind
      spill := spill, step := step, lseq := t.lseq % 65536, team := s.teamWord t, seq := t.packetSeq }
  let s := s.mapTeam fun t => { t with packetSeq := t.packetSeq + 1 }
  let b := s.boundaryOf t.vd step
  (s.setBoundary { b with sent := addCount b.sent p.target 1 },
    t.req 0 p.ea (.peer p.target p.line step) 64 (.packet region e))

/-- The requests of packets. -/
def State.sendPackets (kind : Nat) : State → List (Nat × Forming) → State × List Req
  | s, [] => (s, [])
  | s, p :: ps =>
    let (s, r) := s.sendPacket kind p.1 p.2
    let (s, rs) := State.sendPackets kind s ps
    (s, r :: rs)

/-- The targets of packets that their quota does not cover. -/
def State.exhausted (s : State) (ps : List Forming) : List Nat :=
  let t := s.team
  (ps.map (·.target)).eraseDups.filter fun m =>
    let (sl, ml) := s.quotaOf t.vd m (t.stepNo + 1)
    sl + ml < (ps.filter fun p => p.target == m).length

/-- The packets of writes, region by region (the lanes of an instruction may name several), each region's in the order of their first
lanes: in this order they take SEQ and sluice lines. DESIGN CHOICE: log 134. -/
def State.formPackets (s : State) (kind : Nat) (ws : List PeerWrite) : List (Nat × Forming) :=
  let t := s.team
  let gs := (ws.filterMap fun w => s.regionAt t.vd w.addr).eraseDups
  gs.flatMap fun g =>
    let rule := s.regBits (regionReg g 0) 60 58
    let etype := s.regBits (regionReg g 0) 57 56
    ((ws.filter fun w => s.regionAt t.vd w.addr == some g).foldl (addWrite kind rule etype) []).map fun p => (g, p)

/-- The step-region writes of an instruction (R75, R130, R131): those to a lost peer set LOST, the others make packets, or step
quota is raised and nothing is sent. -/
def State.peerWrites (s : State) (kind : Nat) (uniform : Option Mask) (ws : List PeerWrite) :
    Except Trap (State × List Req) :=
  let t := s.team
  let live := ws.filter (·.up)
  let ps := s.formPackets kind live
  let out := s.exhausted (ps.map (·.2))
  if out.isEmpty then
    let s := (ws.filter fun w => !w.up).foldl (fun s w => match s.regionAt t.vd w.addr with
      | some g => s.updReg (regionReg g 0) fun r => wput r 61 61 1
      | none => s) s
    .ok (State.sendPackets kind s ps)
  else
    let bad := live.filter fun w => out.contains w.target
    .error
      { code := 0x0F, tval := (bad.head?.map (·.ea)).getD 0
        fmask := some <| uniform.getD (maskOf (bad.map (·.lane))), report := 0, done := false, fetch := false, epc := 0 }

/-! ## Flashback points (R164) -/

/-- The latest point set at an address, unless the team is at supervisor level (R349). DEDUCED: log 65. -/
def Team.setPoint (t : Team) (resume : Word) : Team :=
  if t.level == .supervisor then t
  else { t with point := ⟨resume, t.mode, t.plot, t.defer, t.stepNo⟩, unrewindable := false }

/-- The point a step-region write sets: after itself in the main stream; from the closure the team becomes unrewindable. -/
def Team.regionPoint (t : Team) (deferred : Bool) : Team :=
  if deferred then { t with unrewindable := true } else t.setPoint (t.pc + 4)

/-! ## Lane and uniform accesses (R235, R279) -/

/-- The migration of a touched page (R55): it is joined, or begins with a frame of the ring; none with an empty ring. Its steps are
MIGRATE_ON_TOUCH_COPY_DONE and _INVAL_ACK. Of a larger leaf the touched 64 KiB are copied and the leaf's frame is swapped as it
stands. DESIGN CHOICE: log 95. -/
def State.joinMigration (s : State) (vd asid : Nat) (e : TlbEntry) (leafAt word0 page : Nat) : State × Option Nat :=
  match s.migrations.find? fun m => m.onTouch && m.asid == asid && m.page == page with
  | some m => (s, some m.id)
  | none =>
    match State.takeFrame vd 65536 s with
    | (s, none) => (s, none)
    | (s, some frame) =>
      let id := s.nextId
      let m : Migration :=
        { id := id, vd := vd, asid := asid, page := page, onTouch := true, state := .copying, attempts := 1
          leafAt := leafAt, word0 := word0, oldFrame := e.pa page, capacity := true, key := e.key, newFrame := frame
          marked := false }
      ({ s with migrations := s.migrations ++ [m], nextId := id + 1 }, some id)

/-- The park of R55; with an empty frame ring the access raises page not present. A team that drains its closure, or is to be
pre-empted, stays so, and the head of its closure tries again (R151, R163). -/
def State.touchPage (s : State) (e : TlbEntry) (leafAt word0 : Nat) (ea : Word) (fmask : Option Mask) : Res :=
  match s.joinMigration s.team.vd s.team.asid e leafAt word0 (ea.toNat / 65536 * 65536) with
  | (s, none) =>
    .trap { code := 0x08, tval := ea, fmask := fmask, report := 0x08, done := false, fetch := false, epc := 0 } s
  | (s, some id) => .wait (if s.team.status == .ready then s.mapTeam fun t => { t with status := .parked (.migration id) } else s)

/-- The event of R68, once the store or atomic of a team to a guest table has performed: it parks the team until it is answered, unless
the team is to be pre-empted (R70). DEDUCED: log 68. -/
def State.guestEvent (s : State) (uid : Nat) (guest : Option (Word × Nat)) : State :=
  match guest, s.teamOf uid with
  | some (ea, n), some t =>
    s.post (some t.vd) 0x05 0x06 ea (BitVec.ofNat 64 n) (some (match t.status with
      | .parked (.guest _) => uid
      | _ => 0))
  | _, _ => s

/-- The park of R68, until the store or atomic has performed and its event is answered; `now` says that packets alone make the store, so
that it has performed. A store of the closure's head stays there, and that of a team whose closure drains before it is saved is to be
made again on resumption (R70). DEDUCED: log 68. -/
def State.guestPark (s : State) (guest : Option (Word × Nat)) (now : Bool) (again : Option Word) : Res :=
  let posted := fun (s : State) => if now then s.guestEvent s.team.uid guest else s
  if guest.isNone then .ok s
  else if s.team.status == .preempting then .held (posted (s.mapTeam fun t => { t with drains := true }))
  else
    let s := posted (s.mapTeam fun t => { t with status := .parked (.guest again) })
    if again.isNone then .held s else .ok s

/-- The address and size of the first lane that stores through the leaf of a guest table (R68); a store to a lost peer is none (R75). -/
def guestOf (n : Nat) (ls : List LaneAcc) : Option (Word × Nat) :=
  (ls.find? fun a => match a.out with
    | .at _ g => g
    | .peer _ _ up g => up && g
    | _ => false).map fun a => (a.ea, n)

/-- Would a lane's read find poison? Not where its lane-cache line is present and the hint uses it (R41). -/
def State.laneFindsPoison (s : State) (hint n : Nat) (a : LaneAcc) : Bool :=
  match a.out with
  | .at loc _ => s.poisonedAt loc n && (s.cached s.team.mill hint loc n).isNone
  | _ => false

/-- What the checks of an access decide: a trap, a park, a wait for writes over poison that are served before it, or go on. `reads` is the
hint of a load, none for an access that reads nothing now. Where one lane reaches a page to be migrated and another fails, the trap
comes and no migration begins. DESIGN CHOICE: log 96. -/
def State.accessVerdict (s : State) (uniform : Option Mask) (n : Nat) (reads : Option Nat) (ls : List LaneAcc) : Option Res :=
  let (s, ls) := s.emptyRing ls
  match lowestCause ls with
  | some (c, failing) => some (.trap (accessTrap uniform c failing) s)
  | none =>
    match firstTouch ls with
    | some (e, a, w) =>
      let first := ls.find? fun x => match x.out with
        | .touch _ _ _ => true
        | _ => false
      some (s.touchPage e a w ((first.map (·.ea)).getD 0) (some <| uniform.getD (maskOf ((first.map (·.lane)).toList))))
    | none =>
      let bad := ls.filter fun a => reads.any fun hint => s.laneFindsPoison hint n a
      if bad.isEmpty then none
      else if bad.any fun a => match a.out with
          | .at loc _ => s.writeAhead s.team loc
          | _ => false then some (.wait s)
      else
        some (.trap { accessTrap uniform 0x12 bad with report := 0 } s)

/-- The location a checked load reads. -/
def LaneAcc.loadLoc (a : LaneAcc) (step : Nat) : Option Loc :=
  match a.out with
  | .at loc _ => some loc
  | .peer m addr _ _ => some (.peer m addr step)
  | _ => none

/-- A lane load of n bytes for the register d (R279 to R281, R283, R284). -/
def State.laneLoad (s : State) (k : AccessKind) (md : LoadMode) (deferred : Bool) (d : Nat)
    (eas : List (Nat × Word)) : Res :=
  if eas.isEmpty then .ok s
  else if !s.mayAccess s.team.uid then .wait s
  else
    let (s, ls) := State.checkLanes k s eas
    match s.accessVerdict none k.n (some (if md.drop then 3 else md.hint)) ls with
    | some r => r
    | none =>
      let locs := ls.filterMap fun a => (a.loadLoc s.team.stepNo).map fun l => (a.lane, a.ea, l)
      let spans := (groupSpans k.n locs).map fun (loc, parts) =>
        (loc, max 4 k.n, (parts.head?.map (·.ea)).getD 0, ReqOp.load d parts)
      let s := if md.drop then s.dropLaneCache s.team.mill else s
      let (s, hold) := s.sendLoad (pairRegs k.n d) md deferred none spans
      if hold then .held s else .ok s

/-- A uniform load of n bytes for `s`d (R235). -/
def State.uniformLoad (s : State) (k : AccessKind) (deferred : Bool) (mask : Mask) (d : Nat) (ea : Word) : Res :=
  if !s.mayAccess s.team.uid then .wait s
  else
    let (s, ls) := State.checkLanes k s [(0, ea)]
    match s.accessVerdict (some mask) k.n (some 0) ls with
    | some r => r
    | none =>
      let spans := ls.filterMap fun a => (a.loadLoc s.team.stepNo).map fun loc =>
        let (skip, base) := spanOf k.n loc
        (base, max 4 k.n, ea, ReqOp.uload d skip k.n)
      let (s, hold) := s.sendLoad [.u d] ⟨0, false, false, false⟩ deferred (some mask) spans
      if hold then .held s else .ok s

/-- A store from lanes, or from the uniform unit (R235, R279 to R281, R285): `data` are the bytes of each lane. -/
def State.storeAll (s : State) (k : AccessKind) (mill deferred : Bool) (uniform : Option Mask)
    (data : List (Nat × Word × List Byte)) : Res :=
  if data.isEmpty then .ok s
  else if !s.mayAccess s.team.uid then .wait s
  else
    let (s, ls) := State.checkLanes k s (data.map fun w => (w.1, w.2.1))
    match s.accessVerdict uniform k.n none ls with
    | some r => r
    | none =>
      let both := ls.zip (data.map fun w => w.2.2)
      let near := both.filterMap fun (a, bs) => match a.out with
        | .at loc _ => some (a.lane, loc, a.ea, bs)
        | _ => none
      let peers := both.filterMap fun (a, bs) => match a.out with
        | .peer m addr up _ => some (PeerWrite.mk a.lane a.ea m addr bs up)
        | _ => none
      match s.peerWrites 0 uniform peers with
      | .error x => .trap x s
      | .ok (s, packets) =>
        let s := if peers.isEmpty then s else s.mapTeam fun t => t.regionPoint deferred
        let (s, reqs) := s.storeReqs mill near
        let guest := guestOf k.n ls
        ((s.begin (plainAccess s.team guest) reqs).sendAll packets).guestPark guest reqs.isEmpty
          (if deferred then none else some s.team.pc)

/-! ## Completion (R37, R39) -/

/-- Sources of closure instructions that have landed and that nothing before them produces are copied, so that no later
instruction of the main stream changes them (R162). -/
def refreezeFrom (t : Team) (pending : List RegRef) : List RegRef → List Entry → List Entry
  | _, [] => []
  | made, e :: es =>
    let new := e.cap.srcs.filter fun r =>
      !(pending.contains r || made.contains r || e.frozen.any fun f => f.reg == r)
    { e with frozen := e.frozen ++ (new.eraseDups.map t.freeze) } :: refreezeFrom t pending (made ++ e.cap.dsts) es

/-- The closure with its landed sources copied. DEDUCED: log 66. -/
def State.refreeze (s : State) (uid : Nat) : State :=
  s.updTeam uid fun t => { t with closure := refreezeFrom t (s.pending uid) [] t.closure }

end Sys2Proof.Machine
end

