-- ==== Sys2Proof/Machine/Issue.lean ====
section
/-! DEFINITION. How an instruction of a team issues (R139, R160 to R163, R213): the checks before its effect, the three classes of
R160, the capture of an instruction into the closure, and the run of a capturable instruction. -/

namespace Sys2Proof.Machine

/-- The outcome of a turn. -/
abbrev Out := Host.Outcome State Fault Refusal

/-! ## The group scheduler's record (R178) -/

/-- The key of a wheel. -/
def wheelKey (mill wheel : Nat) : Nat := 4 * mill + wheel

/-- Is it a team of the wheel that may issue? -/
def Team.readyOn (t : Team) (mill wheel : Nat) : Bool := t.status == .ready && t.mill == mill && t.wheel == wheel

/-- Does the team grow older on the wheel: it is READY there, or has a closure to run there? DESIGN CHOICE: log 107. -/
def Team.agesOn (t : Team) (mill wheel : Nat) : Bool :=
  t.mill == mill && t.wheel == wheel && (t.status == .ready || !t.closure.isEmpty)

/-- A clock in which the team does not issue. -/
def Team.older (t : Team) : Team := { t with age := min 255 (t.age + 1) }

/-- A team issues: it is young again, its slot is the last to issue, and the others of the wheel grow older by a clock. -/
def State.age (s : State) (t : Team) : State :=
  let s := s.mapTeams fun x =>
    if x.uid == t.uid then { x with age := 0 } else if x.agesOn t.mill t.wheel then x.older else x
  { s with lastSlot := mapSet 15 s.lastSlot (wheelKey t.mill t.wheel) t.slot }

/-! ## How an instruction ends -/

/-- The pc moved on. -/
def State.advance (s : State) (n : Nat) : State := s.mapTeam fun t => { t with pc := t.pc + BitVec.ofNat 64 n }

/-- A trap of a main-stream instruction of `n` bytes (R163, R193): one that completed moves the pc on first; the closure drains
before the trap is reported. -/
def State.mainTrap (s : State) (x : Trap) (n : Nat) : State :=
  let x : TakenTrap := ⟨{ x with epc := s.team.pc }, false⟩
  let s := if x.trap.done then s.advance n else s
  if s.team.closure.isEmpty then s.takeTrap x
  else s.mapTeam fun t => { t with status := .draining none, heldTrap := some x }

/-- How an instruction of `n` bytes leaves the state; an access that finds its line under rebuild waits (R52). -/
def Res.finish (n : Nat) : Res → Out
  | .ok s => .next (s.advance n)
  | .held s => .next (s.advance n)
  | .goto pc s => .next (s.mapTeam fun t => { t with pc := pc })
  | .wait s => .next s
  | .trap x s => if x.code = stallCode then .next s else .next (s.mainTrap x n)

/-- The trap of R213: illegal or privileged instruction, `%tval` holding the instruction's bits. -/
def bitsTrap (i : Instr) (code : Nat) : Trap := .bare code (BitVec.ofNat 64 i.bits)

/-- A `%tval` that the spec does not state, free (log 16). DESIGN CHOICE: log 41. -/
def State.openTval (s : State) : Word × State := (Config.trapValue s.draws, { s with draws := s.draws + 1 })

/-- A trap whose `%tval` the spec does not state. -/
def State.openTrap (s : State) (code : Nat) (fmask : Option Mask) : Res :=
  let (v, s) := s.openTval
  .trap { Trap.bare code v with fmask := fmask } s

/-- What is checked of an instruction before its effect: privilege, its own condition for an illegal instruction, and the
registers it names. -/
structure Issue where
  priv : Bool
  illegal : Bool
  srcs : List RegRef
  dsts : List RegRef
  deriving DecidableEq, Repr

/-- Does the team hold the register (R141)? -/
def Team.holds (t : Team) : RegRef → Bool
  | .v n => n < t.regs
  | .u _ => true
  | .p _ => true

/-- Steps 2 to 5 of R213. -/
def State.rejects (s : State) (i : Instr) (c : Issue) : Option Nat :=
  if !i.wellFormed then some 0x01
  else if c.priv && s.team.level == .user then some 0x02
  else if c.illegal || !((c.srcs ++ c.dsts).all s.team.holds) then some 0x01
  else none

/-- The active lanes of a mask that read a poisoned word of one of the registers (R51), and whether a poisoned uniform register or a
predicate register with a poisoned word is among them. DESIGN CHOICE: log 109. -/
def Team.poisonRead (t : Team) (srcs : List RegRef) : List Nat × Bool :=
  (t.active.filter fun l => t.vpoison.any (fun p => srcs.contains (.v p.1) && l / 2 == p.2) ||
      t.ppoison.any fun p => srcs.contains (.p p.1) && l / 64 == p.2,
    t.upoison.any (fun n => srcs.contains (.u n)) || t.ppoison.any fun p => srcs.contains (.p p.1))

/-- Poisoned data on the read of a poisoned register (R51). -/
def State.poisonTrap (s : State) (srcs : List RegRef) : Option Trap :=
  let (ls, u) := s.team.poisonRead srcs
  if ls.isEmpty then (if u then some (.bare 0x12 0) else none) else some (.plain 0x12 0 (maskOf ls))

/-- The effect of an instruction that reads registers: the poison check, then the effect, whose own checks come after it.
DESIGN CHOICE: log 109. -/
def State.perform (s : State) (i : Instr) (srcs : List RegRef) (f : State → Res) : Out :=
  match s.poisonTrap srcs with
  | some x => .next (s.mainTrap x i.len)
  | none => (f s).finish i.len

/-- The registers that are deferred (R160). -/
def Team.deferred (t : Team) : List RegRef := t.closure.flatMap fun e => e.cap.dsts

/-- Is a register pending or deferred (R160)? -/
def State.unready (s : State) (r : RegRef) : Bool :=
  (s.pending s.team.uid).contains r || s.team.deferred.contains r

/-- The team waits for its closure (R160). -/
def State.drain (s : State) : State := s.mapTeam fun t => { t with status := .draining none }

/-- An instruction of the closing class (R160): it ends deferral, then waits for what it reads or writes. -/
def execClosing (i : Instr) (c : Issue) (f : State → Res) (s : State) : Out :=
  if s.team.status != .ready then .fault .notEnabled
  else
    match s.rejects i c with
    | some code => .next (s.mainTrap (bitsTrap i code) i.len)
    | none =>
      if !s.team.closure.isEmpty then .next s.drain
      else if (c.srcs ++ c.dsts).any s.unready then .next s
      else s.perform i c.srcs f

/-- Must a control instruction wait (R160, R231): it reads a pending or deferred register, or writes a uniform register that is
one; with MODE = 00 also when it writes a pending predicate? -/
def State.controlWaits (s : State) (c : Issue) : Bool :=
  c.srcs.any s.unready || c.dsts.any fun r => s.unready r && (s.team.defer == 0 || match r with
    | .u _ => true
    | .v _ => false
    | .p _ => false)

/-- An instruction of the control class (R160, R231): it ends deferral when it reads a pending or deferred register, or writes such a
uniform register. -/
def execControl (i : Instr) (c : Issue) (f : State → Res) (s : State) : Out :=
  if s.team.status != .ready then .fault .notEnabled
  else
    match s.rejects i c with
    | some code => .next (s.mainTrap (bitsTrap i code) i.len)
    | none =>
      if s.controlWaits c then
        if s.team.closure.isEmpty then .next s else .next s.drain
      else s.perform i c.srcs f

/-! ## The run of a capturable instruction -/

/-- The flags of an instruction gathered, and the trap of those enabled (R192, R193, R255). -/
def State.flagged (s : State) (lanes : List (Nat × Nat)) (uniform : Bool) : Res :=
  let all := lanes.foldl (fun f l => f ||| l.2) 0
  let en := enabledFlags s.team.mode all
  let s := s.mapTeam fun t => t.orFlags all
  if en = 0 then .ok s
  else
    let bad := (lanes.filter fun l => enabledFlags s.team.mode l.2 != 0).map (·.1)
    .trap { code := flagCause en, tval := BitVec.ofNat 64 en, fmask := some (if uniform then 0 else maskOf bad), report := 0
            done := true, fetch := false, epc := 0 } s

/-- The bytes an instruction stores from a lane: those of the register, then of the next (R279). -/
def storeBytes (n : Nat) (lo hi : Lane) : List Byte :=
  if n = 8 then leBytes 4 lo.toNat ++ leBytes 4 hi.toNat else leBytes n lo.toNat

/-- The addresses of a memory instruction (R12, R235). -/
def Cap.eas (c : Cap) (rd : Reader) (mask : Mask) : List (Nat × Word) :=
  match c with
  | .umem _ _ _ off a _ => [(0, rd.u a + off)]
  | .lmem _ _ _ _ x b _ =>
    (lanesOf rd.team.lanes mask).map fun l => (l, rd.u b + (rd.v x l).setWidth 64)
  | _ => []

/-- A capturable instruction run under a mask, a rounding mode and a plot (R140, R162). -/
def State.runCap (s : State) (c : Cap) (frozen : List Frozen) (mask : Mask) (rm plot : Nat) (deferred : Bool) : Res :=
  let rd : Reader := ⟨s.team, frozen⟩
  let act := lanesOf s.team.lanes mask
  match c with
  | .uni op d a b =>
    let (w, f) := op.eval (rd.usrc a) (rd.usrc b)
    (s.mapTeam fun t => t.setU d w).flagged [(0, f)] true
  | .lane op d xs =>
    let src := rd.nth plot xs
    let rs := act.map fun l => (l, op.eval rm (src 0 l) (src 1 l) (src 2 l))
    (s.mapTeam fun t => t.setV d (rs.map fun r => (r.1, r.2.1))).flagged (rs.map fun r => (r.1, r.2.2)) false
  | .lcmp op pd a b =>
    let rs := act.map fun l => (l, op.eval (rd.v a l) (rd.v b l))
    let yes := maskOf ((rs.filter fun r => r.2.1).map (·.1))
    (s.mapTeam fun t => (t.setP pd ((t.p pd &&& ~~~(maskOf act)) ||| yes)).soundP pd act).flagged (rs.map fun r => (r.1, r.2.2)) false
  | .cross op d a b =>
    let rs := act.map fun l => (l, op.eval rm (plotSize plot) act (rd.v a) (rd.position plot b) l)
    (s.mapTeam fun t => t.setV d (rs.map fun r => (r.1, r.2.1))).flagged (rs.map fun r => (r.1, r.2.2)) false
  | .sread d a b =>
    let l := (rd.u b).toNat
    .ok (s.mapTeam fun t => t.setU d (if act.contains l then (rd.v a l).setWidth 64 else 0))
  | .umem load plain n _ _ d =>
    let ea := ((c.eas rd mask).headD (0, 0)).2
    if load then s.uniformLoad ⟨plain, .load, n, .load⟩ deferred mask d ea
    else s.storeAll ⟨plain, .store, n, .store⟩ false deferred (some mask) [(0, ea, leBytes n (rd.u d).toNat)]
  | .lmem load plain n hint _ _ d =>
    let eas := c.eas rd mask
    if load then s.laneLoad ⟨plain, .load, n, .load⟩ ⟨hint, false, false, false⟩ deferred d eas
    else s.storeAll ⟨plain, .store, n, .store⟩ false deferred none
      (eas.map fun e => (e.1, e.2, storeBytes n (rd.v d e.1) (rd.v (d + 1) e.1)))

/-! ## Capture (R161, R162) -/

/-- The 32-byte granules of an access (R161). -/
def granules (plain : Bool) (n : Nat) (eas : List (Nat × Word)) : List Nat :=
  let g := fun (ea : Word) => if plain then wbits ea 29 5 else wbits ea 15 5
  eas.flatMap fun e => [g e.2, g (e.2 + BitVec.ofNat 64 (n - 1))]

/-- Bytes of a memory instruction's access. -/
def Cap.bytes : Cap → Nat
  | .umem _ _ n _ _ _ => n
  | .lmem _ _ n _ _ _ _ => n
  | _ => 0

/-- The lanes that a read or an atomic under way brings data for. -/
def ReqOp.lanes : ReqOp → Mask
  | .load _ parts => maskOf (parts.map (·.lane))
  | .atomic _ _ _ _ _ lane => maskOf [lane]
  | _ => 0

/-- The lanes that an access awaits or has data for. -/
def State.accessLanes (s : State) (a : Access) : Mask :=
  (((s.requests.filter fun r => r.access == a.id).map (·.op)) ++ a.data.map (·.1)).foldl (fun m op => m ||| op.lanes) 0

/-- The lanes of a register that are pending, or deferred behind captured instructions (R160, R161): every lane of a uniform
register. -/
def State.openLanes (s : State) (before : List Entry) (r : RegRef) : Mask :=
  let producers := before.filter fun e => e.cap.dsts.contains r
  match r with
  | .v _ =>
    let mine := (s.accessesOf s.team.uid).filter fun a => a.dsts.contains r
    mine.foldl (fun m a => m ||| s.accessLanes a) (producers.foldl (fun m e => m ||| e.mask) 0)
  | _ => if (s.pending s.team.uid).contains r || !producers.isEmpty then allLanes 1024 else 0

/-- Must a load wait behind this captured store, which stands behind `before` in the closure (R161)? -/
def State.behind (s : State) (c : Cap) (before : List Entry) (e : Entry) : Bool :=
  match c.addr, e.cap.addr with
  | some (pl, _), some (pl', regs) =>
    let mask := match e.cap with
      | .lmem _ _ _ _ _ _ _ => e.mask
      | _ => allLanes 1024
    let open' := regs.any fun r => !(e.frozen.any fun f => f.reg == r) && s.openLanes before r &&& mask != 0
    e.cap.isStore && pl == pl' &&
    (open' ||
      (granules pl e.cap.bytes (e.cap.eas ⟨s.team, e.frozen⟩ e.mask)).any fun g =>
        (granules pl c.bytes (c.eas ⟨s.team, []⟩ s.team.mask)).contains g)
  | _, _ => false

/-- Must a load wait behind a captured store of the rest of the closure? -/
def State.behindAny (s : State) (c : Cap) : List Entry → List Entry → Bool
  | _, [] => false
  | before, e :: es => s.behind c before e || s.behindAny c (before ++ [e]) es

/-- Is the instruction captured under R161? A later store is while a captured store still stands in the closure. DESIGN CHOICE: log 135. -/
def State.mustCapture (s : State) (c : Cap) : Bool :=
  (c.isStore && s.team.closure.any fun e => e.cap.isStore) || (c.isLoad && s.behindAny c [] s.team.closure)

/-- Swaths with a nonzero mask word (R162). -/
def passes (lanes : Nat) (m : Mask) : Nat :=
  ((List.range (lanes / 32)).filter fun w => m.toNat / 2 ^ (32 * w) % 2 ^ 32 != 0).length

/-- Operand slots of the sources that are ready (R162). DEDUCED: log 66. -/
def State.slotsFor (s : State) (c : Cap) : Nat :=
  ((c.srcs.filter fun r => !s.unready r).eraseDups.map fun r => match r with
    | .v _ => passes s.team.lanes s.team.mask
    | _ => 1).sum

/-- Does the team's share of the eddy have room (R159)? -/
def Team.eddyRoom (t : Team) (slots : Nat) : Bool :=
  let held := t.closure ++ t.shelved
  held.length < 32 && (held.map (·.slots)).sum + slots ≤ 128

/-- The capture of an instruction, or what happens when the closure lacks room (R162). DEDUCED: log 66. -/
def State.capture (s : State) (i : Instr) (c : Cap) (rm : Nat) : Out :=
  let t := s.team
  let slots := s.slotsFor c
  let e : Entry :=
    { cap := c, pc := t.pc, bits := i.bits, nbits := i.nbits, mask := t.mask, rm := rm, plot := t.plot
      frozen := ((c.srcs.filter fun r => !s.unready r).eraseDups.map t.freeze), slots := slots }
  if t.eddyRoom slots then .next ((s.mapTeam fun t => { t with closure := t.closure ++ [e] }).advance i.len)
  else if t.defer = 1 then .next (s.mapTeam fun t => { t with status := .draining (some slots) })
  else (s.openTrap 0x15 none).finish i.len

/-- An instruction of the capturable class (R160 to R162). `r` is its rounding field, 0 for the dynamic mode. -/
def execCapturable (i : Instr) (illegal : Bool) (r : Nat) (c : Cap) (s : State) : Out :=
  if s.team.status != .ready then .fault .notEnabled
  else
    match s.rejects i ⟨false, illegal, c.srcs, c.dsts⟩ with
    | some code => .next (s.mainTrap (bitsTrap i code) i.len)
    | none =>
      let t := s.team
      let rm := if r = 0 then t.rm else r
      let touches := (c.srcs ++ c.dsts).any s.unready
      let waits := c.isLoad && c.dsts.any fun d => (s.pending t.uid).contains d && !t.deferred.contains d
      if waits || (t.defer = 0 && touches) then .next s
      else
        s.poisonTrap (c.srcs.filter fun r => !s.unready r) |>.elim
          (if t.defer != 0 && (touches || s.mustCapture c) then s.capture i c rm
            else (s.runCap c [] t.mask rm t.plot false).finish i.len)
          (fun x => .next (s.mainTrap x i.len))

/-! ## The closure (R162, R163) -/

/-- What a waiting team does when its closure has changed (R151, R163): a held trap is reported once the closure is empty. -/
def State.afterClosure (s : State) : State :=
  let t := s.team
  match t.status with
  | .draining need =>
    if t.closure.isEmpty then
      match t.heldTrap with
      | some x => (s.mapTeam fun t => { t with heldTrap := none, drains := false, status := .ready }).takeTrap x
      | none => s.mapTeam fun t => { t with drains := false, status := .ready, age := 0 }
    else
      match need with
      | some n => if t.eddyRoom n then s.mapTeam fun t => { t with status := .ready, age := 0 } else s
      | none => s
  | _ => s

/-- How a team goes on after a wait (R151, R163): a trap found before it was saved is still to be taken; its closure drains first when
a trap is held for it, or a handler has returned to it. -/
def Team.onward (t : Team) : Status :=
  if t.pendingTrap.isSome then .trapping else if t.heldTrap.isSome || t.drains then .draining none else .ready

/-- The head of the closure leaves it. -/
def State.popClosure (s : State) : State :=
  ((s.mapTeam fun t => { t with closure := t.closure.tail }).refreeze s.team.uid).afterClosure

/-- A trap of the head of the closure (R163); a main-stream trap that waited and had not completed is dropped. -/
def State.closureTrap (s : State) (x : Trap) (pc : Word) : State :=
  let s := s.mapTeam fun t => { t with
    heldTrap := t.heldTrap.filter fun h => h.trap.done
    drains := false
    status := .ready }
  s.takeTrap ⟨{ x with epc := pc }, true⟩

/-- May the head run: its sources have landed and its destinations are not pending? -/
def State.headReady (s : State) (e : Entry) : Bool :=
  let pend := s.pending s.team.uid
  (e.cap.srcs.all fun r => e.frozen.any (fun f => f.reg == r) || !pend.contains r) &&
  e.cap.dsts.all fun r => !pend.contains r

/-- The poison that the head of the closure reads, in its copies and in the registers (R51): the lanes of its mask, and whether a
uniform or predicate register is among them. DESIGN CHOICE: log 109. -/
def Team.entryPoison (t : Team) (e : Entry) : List Nat × Bool :=
  let words := fun (r : RegRef) => ((e.frozen.find? fun f => f.reg == r).getD (t.freeze r)).poison
  ((lanesOf t.lanes e.mask).filter fun l => e.cap.srcs.any fun r => match r with
      | .v _ => (words r).contains (l / 2)
      | .p _ => (words r).contains (l / 64)
      | .u _ => false,
    e.cap.srcs.any fun r => match r with
      | .v _ => false
      | .p _ => !(words r).isEmpty
      | .u _ => !(words r).isEmpty)

/-- The trap of a poisoned source of the head of the closure. -/
def Team.entryTrap (t : Team) (e : Entry) : Option Trap :=
  let (ls, u) := t.entryPoison e
  if ls.isEmpty then (if u then some (.bare 0x12 0) else none) else some (.plain 0x12 0 (maskOf ls))

/-- Is a team's access under way that keeps it from issuing? -/
def State.holding (s : State) (uid : Nat) : Bool := (s.accessesOf uid).any (·.hold)

/-- Bits set among the low `n` bits of a number. -/
def bitCount (n x : Nat) : Nat := ((List.range n).filter fun i => bitOf x i).length

/-- The record to which a team is rewound on pre-emption (R167, R356): that of its latest point, unless the team is
unrewindable or at supervisor level, or the record lists more tiles or accumulators than its save area holds. -/
def State.rewindTo (s : State) (t : Team) : Option Recipe :=
  if t.unrewindable || t.level == .supervisor then none
  else
    ((s.wgOf t.wg).bind fun g => g.recipes.find? fun r => r.resume == t.point.resume).filter fun r =>
      bitCount 32 r.tlive ≤ t.maxT && bitCount 16 r.alive ≤ t.maxA

/-- Is the team one whose closure drains before it is saved whole (R167)? Not where the head of the closure waits for an answer and
is to run again on resumption (R70, R354). -/
def State.savesWhole (s : State) (t : Team) : Bool :=
  t.status == .preempting && (s.rewindTo t).isNone && t.fault.isNone && !t.drains

/-- A fault of the head of the closure: of a team that is to be pre-empted the closure is discarded and the fault is not reported
(R151). DEDUCED: log 31. -/
def State.closureFault (s : State) (x : Trap) (pc : Word) : State :=
  if x.code = stallCode then s
  else if s.team.status == .preempting then s.mapTeam fun t => { t with closure := [] }
  else s.closureTrap x pc

/-- CLOSURE_RUN: the head of a team's closure issues (R162, R178), of a handler's own closure as of a user's. A head that waits has not
issued, and its team grows older. -/
def execClosureRun (team : Nat) (s : State) : Out :=
  match s.focus team with
  | none => .fault .notEnabled
  | some s =>
    let t := s.team
    let runs := (t.status == .ready || match t.status with
      | .draining _ => true
      | _ => s.savesWhole t) && t.pendingTrap.isNone && !s.holding t.uid
    match t.closure with
    | [] => .fault .notEnabled
    | e :: _ =>
      if !runs || !s.headReady e then .fault .notEnabled
      else
        match t.entryTrap e with
        | some x => .next ((s.age t).closureFault x e.pc)
        | none =>
          match s.runCap e.cap e.frozen e.mask e.rm e.plot true with
          | .ok s => .next (s.age t).popClosure
          | .goto _ s => .next (s.age t).popClosure
          | .held s => .next (s.age t)
          | .wait s => .next (if s.team.status == t.status then s else s.age t)
          | .trap x s => .next (if x.code = stallCode then s else (s.age t).closureFault x e.pc)

end Sys2Proof.Machine
end

