-- ==== Sys2Proof/Machine/Progress.lean ====
section
/-! DEFINITION. What follows from an event on an arrival counter, from a ready flag and from the end of a launch (R97, R98, R172 to
R175): waiters are released, tiles become launchable, nodes and graphs end. -/

namespace Sys2Proof.Machine

/-! ## Memory as the engines and the distributor read and write it (R26, R46, R53, R171) -/

/-- How an engine's access to translated memory ends. -/
inductive EngineOut where
  | data (bytes : List Byte)
  /-- a cause and a report code -/
  | fault (code report : Nat)
  /-- a page to be migrated first (R55) -/
  | touch (e : TlbEntry) (leafAt word0 : Nat)
  deriving DecidableEq, Repr

/-- `n` bytes behind a leaf, line by line; a line under rebuild stalls the read (R52). -/
def State.linesRead (s : State) (vd : Nat) (e : TlbEntry) (bypass : Bool) : List (Nat × Nat) → State × EngineOut
  | [] => (s, .data [])
  | (pa, n) :: rest =>
    if s.stalls (e.cls != 0) pa then (s, .fault stallCode 0)
    else
    match s.memRead (e.cls != 0) pa e.key bypass n with
    | (_, .poisoned) => (s, .fault 0x12 0)
    | (bs, st) =>
      let s := if st == .keyAbsent then s.postKeyAbsent vd (pa / 64 * 64) e.key else s
      match s.linesRead vd e bypass rest with
      | (s, .data more) => (s, .data (bs ++ more))
      | r => r

/-- The pieces of a range cut at lines: address and length. -/
def lineRanges : Nat → Nat → Nat → List (Nat × Nat)
  | 0, _, _ => []
  | f + 1, a, n =>
    if n = 0 then [] else (a, min n (64 - a % 64)) :: lineRanges f (a + min n (64 - a % 64)) (n - min n (64 - a % 64))

/-- The bytes behind a leaf; class Peer is not read so (R123). -/
def State.throughLeaf (s : State) (asid : Nat) (e : TlbEntry) (va n : Nat) : State × EngineOut :=
  if e.cls = 3 then (s, .fault 0x10 0)
  else s.linesRead ((s.asidVd asid).getD 0) e (e.cls == 2 && e.key == 0 && s.bypass asid) (lineRanges n (e.pa va) n)

/-- The same for the team whose turn it is, behind the stores of its own and of its mill that are still to be performed (R105, R106). -/
def State.teamThroughLeaf (s : State) (e : TlbEntry) (va n : Nat) : State × EngineOut :=
  if (lineRanges n (e.pa va) n).any fun l => s.writeAhead s.team (.mem (e.cls != 0) l.1 e.key false) then (s, .fault stallCode 0)
  else s.throughLeaf s.team.asid e va n

/-- The walk-ahead TLB of the team's die. -/
def Team.die (t : Team) : Nat := t.mill / 128

/-- `n` bytes of one page read by the descriptor engine for the team whose turn it is. -/
def State.teamRead (s : State) (va n : Nat) : State × EngineOut :=
  match s.translate (.ahead s.team.die) va s.team.asid .load s.team.sup with
  | (s, .fault c r) => (s, .fault c r)
  | (s, .touch e a w) => (s, .touch e a w)
  | (s, .leaf e) => s.teamThroughLeaf e va n

/-- `n` bytes of one page read by an engine of a die. -/
def State.engineRead (s : State) (die asid va n : Nat) (acc : Acc) (sup : Bool) : State × EngineOut :=
  match s.translate (.ahead die) va asid acc sup with
  | (s, .fault c r) => (s, .fault c r)
  | (s, .touch e a w) => (s, .touch e a w)
  | (s, .leaf e) => s.throughLeaf asid e va n

/-- An access of the distributor that meets a line under rebuild says so in the state: what it belongs to is not done now (R52). -/
def State.markStall (s : State) (code : Nat) : State := if code = stallCode then { s with distStall := true } else s

/-- `n` bytes read by the distributor at user level (R171); a page marked migrate-on-touch is read where it lies.
DEDUCED: log 70. -/
def State.distRead (s : State) (asid va n : Nat) : State × EngineOut :=
  let x := match s.engineRead 0 asid va n .load false with
    | (s, .touch e _ _) => s.throughLeaf asid e va n
    | r => r
  match x.2 with
  | .fault c _ => (x.1.markStall c, x.2)
  | _ => x

/-- Bytes of one page written by the distributor at user level; nothing is written on a fault, which is answered. -/
def State.distWrite (s : State) (asid va : Nat) (bs : List Byte) : State × Option (Nat × Nat) :=
  let put := fun (s : State) (e : TlbEntry) =>
    if e.cls = 3 then (s, some (0x10, 0))
    else if s.stalls (e.cls != 0) (e.pa va) then (s.markStall stallCode, some (stallCode, 0))
    else
      let (s, st) := s.memWrite (e.cls != 0) (e.pa va) e.key (e.cls == 2 && e.key == 0 && s.bypass asid) bs
      (if st == .keyAbsent then s.postKeyAbsent ((s.asidVd asid).getD 0) (e.pa va / 64 * 64) e.key else s, none)
  match s.translate (.ahead 0) va asid .store false with
  | (s, .fault c r) => (s.markStall c, some (c, r))
  | (s, .touch e _ _) => put s e
  | (s, .leaf e) => put s e

/-! ## Counters (R97, R98) -/

/-- The condition of a waiter: ARRIVED ≥ EXPECTED or word 2 nonzero. -/
def State.ctrDone (s : State) (slice off : Nat) : Bool :=
  s.ctrWord slice off 1 ≤ s.ctrWord slice off 0 || s.ctrWord slice off 2 != 0

/-- What ACWAIT returns. -/
def State.ctrResult (s : State) (slice off : Nat) : Word :=
  BitVec.ofNat 64 (s.ctrWord slice off 0 + 2 ^ 32 * (s.ctrWord slice off 2 % 256))

/-- An add of n under R97. -/
def State.ctrAdd (s : State) (slice off n : Nat) : State :=
  let sum := s.ctrWord slice off 0 + n
  let s := s.setCtrWord slice off 0 (min sum 0xFFFFFFFF)
  if 0xFFFFFFFF < sum then s.setCtrWord slice off 2 (s.ctrWord slice off 2 ||| 1) else s

/-- A waiter of the counter released, which acquires at device scope (R98, R103, R104). -/
def State.releaseTeam (s : State) (slice off : Nat) (t : Team) : Team :=
  match t.status with
  | .parked (.counter sl o dest) =>
    if sl == slice && o == off then
      { t.setU dest (s.ctrResult slice off) with status := .ready, pc := t.pc + 4, age := 0 }
    else t
  | _ => t

/-- Is the team a waiter of the counter? -/
def Team.waitsOn (t : Team) (slice off : Nat) : Bool :=
  match t.status with
  | .parked (.counter sl o _) => sl == slice && o == off
  | _ => false

/-- Every waiter of a counter whose condition holds is released. -/
def State.releaseWaiters (s : State) (slice off : Nat) : State :=
  if s.ctrDone slice off then
    let mills := ((s.teams.filter fun t => t.waitsOn slice off).map (·.mill)).eraseDups
    (mills.foldl State.dropLaneCache s).mapTeams (s.releaseTeam slice off)
  else s

/-! ## Graphs (R173 to R175) -/

/-- Node n of a graph. -/
def State.node (s : State) (g n : Nat) : Option (Graph × Node) :=
  (findBy Graph.uid s.graphs g).bind fun gr => (gr.nodes[n]?).map fun nd => (gr, nd)

/-- Node n of a graph changed. -/
def State.updNode (s : State) (g n : Nat) (f : Node → Node) : State :=
  { s with graphs := updateBy Graph.uid s.graphs g fun gr => { gr with nodes := gr.nodes.modify n f } }

/-- Has the node ended? -/
def NodeState.ended : NodeState → Bool
  | .waiting => false
  | .running => false
  | .done => true
  | .cancelled => true
  | .failed => true

/-- The STATE byte (R173). -/
def NodeState.code : NodeState → Nat
  | .waiting => 0
  | .running => 1
  | .done => 2
  | .cancelled => 3
  | .failed => 4

/-- Tiles of a node. -/
def Node.tiles (n : Node) : Nat := if n.copy then 1 else n.gx * n.gy * n.gz

/-- The virtual address of a node. -/
def Graph.nodeAt (g : Graph) (n : Nat) : Nat := g.nodesAt.toNat + 64 * n

/-- The claim of a copy node returns to the pool of die 0 (R175): under a running flow, which only severing ends early (R77), once that
has ended. -/
def State.dropCopy (s : State) (g n : Nat) : State :=
  { s with
    copyClaims := if s.flows.any fun f => f.node == some (g, n) then s.copyClaims
      else s.copyClaims.filter (· != g * 65536 + n)
    copyWaits := s.copyWaits.filter fun w => w.1 != g * 65536 + n
    copyTouched := s.copyTouched.filter fun w => w.1 != g * 65536 + n }

/-- The node reaches a state: STATE is written, a failure reported, and what follows for its successors (R174, R175); with DONE the CTR
of a launch node's submission gets 1. Of a node that is
cancelled or fails, workgroups that are launchable already are placed and run. DESIGN CHOICE: log 111. -/
def State.reachNode (s : State) (g n : Nat) (st : NodeState) (reason report : Nat) : State × List Job :=
  match s.node g n with
  | none => (s, [])
  | some (gr, nd) =>
    if nd.state.ended then (s, [])
    else
      let s := s.updNode g n fun nd => { nd with state := st }
      let (s, _) := s.distWrite gr.asid (gr.nodeAt n + 1) [BitVec.ofNat 8 st.code]
      let s := if st == .failed then
          s.post (some gr.vd) 0x0D report (BitVec.ofNat 64 (gr.nodeAt n)) (BitVec.ofNat 64 reason) none
        else s
      let s := if nd.copy && st.ended then s.dropCopy g n else s
      let succ := nd.succ.filter (· < gr.nodes.length)
      let more :=
        if st == .cancelled || st == .failed then
          (succ.filter fun k => ((gr.nodes[k]?).map (·.state)) == some .waiting).map fun k => Job.reach g k .cancelled 0 0
        else if st != .done then []
        else if nd.copy then succ.map fun k => Job.decrementAll g k
        else if nd.ctr = 0 then []
        else [.addOne gr.vd nd.ctr]
      (s, more ++ (if st.ended then [.finish g] else []))

/-- A 16-bit count read (R173). -/
def State.countOf (s : State) (gr : Graph) (nd : Node) (tile : Nat) : State × EngineOut :=
  s.distRead gr.asid ((nd.counts + BitVec.ofNat 64 (2 * tile)).toNat) 2

/-- How a node stands with its ARMCTR: armed and satisfied, not yet, or cancelled. -/
inductive Armed where
  | yes | no | cancelled
  deriving DecidableEq, Repr

/-- The state of a node's ARMCTR (R175); an address of no counter is never satisfied. DEDUCED: log 71. -/
def State.armed (s : State) (gr : Graph) (nd : Node) : Armed :=
  if nd.armctr = 0 then .yes
  else
    match s.counterPhys nd.armctr (gr.vd / 8) with
    | .error _ => .no
    | .ok (slice, off) =>
      if s.ctrWord slice off 2 != 0 then .cancelled
      else if s.ctrWord slice off 1 ≤ s.ctrWord slice off 0 then .yes
      else .no

/-- The launch that a launch node's tiles share, made with its first tile. -/
def State.nodeLaunch (s : State) (g n : Nat) (gr : Graph) (nd : Node) : Nat × State :=
  match nd.launch with
  | some l => (l, s)
  | none =>
    let uid := s.nextId
    let l : Launch :=
      { uid := uid, vd := gr.vd, asid := gr.asid, kernel := nd.kernel, gx := nd.gx, gy := nd.gy, gz := nd.gz
        stages := nd.stages, ctr := nd.ctr, args := nd.args, lseq := nd.lseq, left := nd.tiles, node := some (g, n)
        recipes := nd.recipes }
    (uid, { s with launches := s.launches ++ [l], nextId := uid + 1 }.updNode g n fun nd => { nd with launch := some uid })

/-- The tile is launchable: its workgroup is queued for placement, or the copy is to be started (COPY_NODE_START). -/
def State.launchTile (s : State) (g n tile : Nat) (gr : Graph) (nd : Node) : State × List Job :=
  let s := s.updNode g n fun nd => { nd with launched := nd.launched ++ [tile] }
  let (s, more) := if nd.state == .waiting then s.reachNode g n .running 0 0 else (s, [])
  if nd.copy then (s, more)
  else
    let (l, s) := s.nodeLaunch g n gr nd
    ({ s with launchables := s.launchables ++ [⟨gr.vd, l, tile, 0⟩] }, more)

/-- Is a tile launchable: its count is 0 and its node armed (R175)? DEDUCED: log 71. DESIGN CHOICE: log 112. -/
def State.examineTile (s : State) (g n tile : Nat) : State × List Job :=
  match s.node g n with
  | none => (s, [])
  | some (gr, nd) =>
    if nd.state.ended || nd.launched.contains tile then (s, [])
    else
      match s.countOf gr nd tile with
      | (s, .data bs) =>
        if leNat bs != 0 then (s, [])
        else
          match s.armed gr nd with
          | .yes => s.launchTile g n tile gr nd
          | .no => (s, [])
          | .cancelled => (s, [.reach g n .cancelled 0 0])
      | (s, _) => (s, [.reach g n .failed 1 0])

/-- A count decremented with a 16-bit atomic; below 0, or with no such tile, the node fails (R174). A count that can no longer be read
or written makes the node malformed. DESIGN CHOICE: log 112. -/
def State.decrementTile (s : State) (g n tile : Nat) : State × List Job :=
  match s.node g n with
  | none => (s, [])
  | some (gr, nd) =>
    let tile := if nd.copy then 0 else tile
    if nd.tiles ≤ tile then (s, [.reach g n .failed 3 0])
    else
      match s.countOf gr nd tile with
      | (s, .data bs) =>
        if leNat bs = 0 then (s, [.reach g n .failed 2 0])
        else
          match s.distWrite gr.asid ((nd.counts + BitVec.ofNat 64 (2 * tile)).toNat) (leBytes 2 (leNat bs - 1)) with
          | (s, none) => (s, if leNat bs = 1 then [.examine g n tile] else [])
          | (s, some _) => (s, [.reach g n .failed 1 0])
      | (s, _) => (s, [.reach g n .failed 1 0])

/-- The graph is finished when every node has ended: CTR gets 1 and the record "graph complete" is posted (R175). -/
def State.finishGraph (s : State) (g : Nat) : State × List Job :=
  match findBy Graph.uid s.graphs g with
  | none => (s, [])
  | some gr =>
    if gr.finished || gr.nodes.any fun n => !n.state.ended then (s, [])
    else
      let s := { s with graphs := updateBy Graph.uid s.graphs g fun gr => { gr with finished := true } }
      (s.post (some gr.vd) 0x02 0 gr.sub 0 none, if gr.ctr = 0 then [] else [.addOne gr.vd gr.ctr])

/-- What an event on a counter brings about for a node: armed tiles are examined again, a copy ends (R175). -/
def State.counterNode (s : State) (slice off : Nat) (gr : Graph) (n : Nat) (nd : Node) : List Job :=
  let same := fun (ctr : Word) => match s.counterPhys ctr (gr.vd / 8) with
    | .ok p => p == (slice, off)
    | .error _ => false
  let arm := if !nd.state.ended && nd.armctr != 0 && same nd.armctr then
      if s.ctrWord slice off 2 != 0 then [Job.reach gr.uid n .cancelled 0 0]
      else (List.range nd.tiles).map fun c => Job.examine gr.uid n c
    else []
  let copy := if nd.copy && nd.state == .running && s.copyClaims.contains (gr.uid * 65536 + n) &&
      same nd.copyctr then
      if s.ctrWord slice off 2 != 0 then [Job.reach gr.uid n .failed 5 0]
      else if s.ctrWord slice off 1 ≤ s.ctrWord slice off 0 then [Job.reach gr.uid n .done 0 0]
      else []
    else []
  copy ++ arm

/-- An event on a counter. -/
def State.counterJobs (s : State) (slice off : Nat) : State × List Job :=
  let s := s.releaseWaiters slice off
  (s, (s.graphs.filter fun g => !g.finished).flatMap fun g =>
    (g.nodes.zipIdx).flatMap fun nd => s.counterNode slice off g nd.2 nd.1)

/-- What the distributor or a flow's end has to do waits. -/
def State.waitingJob (s : State) : State × List Job := ({ s with distStall := true }, [])

/-- Word 2 of a counter with SEVERED and the cause of the end (R93, R322). -/
def severedWord (w code : Nat) : Nat := (w ||| 4) - bitsOf w 7 4 * 16 + code * 16

/-- One job tried, and what it leads to. What writes a counter waits for the writes to it that its bank has queued (R102, R107: log 70).
A CTR that is no counter of the partition gets nothing. DESIGN CHOICE: log 113. -/
def State.tryJob (s : State) : Job → State × List Job
  | .counter slice off => s.counterJobs slice off
  | .examine g n c => s.examineTile g n c
  | .decrement g n c => s.decrementTile g n c
  | .decrementAll g n =>
    (s, (List.range (((s.node g n).map fun x => x.2.tiles).getD 0)).map fun c => .decrement g n c)
  | .reach g n st r p => s.reachNode g n st r p
  | .finish g => s.finishGraph g
  | .addOne vd ctr =>
    match s.counterPhys ctr (vd / 8) with
    | .ok (slice, off) => if s.bankBusy slice off 16 then s.waitingJob else (s.ctrAdd slice off 1, [.counter slice off])
    | .error _ => (s, [])
  | .sever slice off code =>
    if s.bankBusy slice off 16 then s.waitingJob
    else (s.setCtrWord slice off 2 (severedWord (s.ctrWord slice off 2) code), [.counter slice off])

/-- One job done, and what it leads to; one that meets a line under rebuild is done when a rebuild has ended (R52), and one whose counter
has writes queued once they are served. -/
def State.runJob (s : State) (j : Job) : State × List Job :=
  let r := s.tryJob j
  if r.1.distStall then ({ s with stalledJobs := s.stalledJobs ++ [j] }, []) else r

/-- Jobs done in order, each before the next. The fuel is more than the jobs there can be: 65,535 nodes of 2^24 tiles. -/
def State.runJobs : Nat → List Job → State → State
  | 0, _, s => s
  | _, [], s => s
  | f + 1, j :: js, s =>
    let (s, more) := s.runJob j
    State.runJobs f (more ++ js) s

/-- Jobs done. -/
def State.doJobs (s : State) (js : List Job) : State := State.runJobs 0x10000000000000000 js s

/-- The jobs that wait tried again, in order. -/
def State.resumeJobs (s : State) : State :=
  if s.stalledJobs.isEmpty then s else { s with stalledJobs := [] }.doJobs s.stalledJobs

/-- An add of n to a counter, with all that follows. DEDUCED: log 71. -/
def State.addCounter (s : State) (slice off n : Nat) : State := (s.ctrAdd slice off n).doJobs [.counter slice off]

/-- The counters that something waits for: those of parked teams and of graphs. -/
def State.watched (s : State) : List (Nat × Nat) :=
  (s.teams.filterMap fun t => match t.status with
    | .parked (.counter slice off _) => some (slice, off)
    | _ => none) ++
  (s.graphs.filter fun g => !g.finished).flatMap fun g => g.nodes.flatMap fun n =>
    let arm := [n.armctr].filter (· != 0)
    let copy := [n.copyctr].filter fun _ => n.copy
    (arm ++ copy).filterMap fun c => match s.counterPhys c (g.vd / 8) with
      | .ok p => some p
      | .error _ => none

/-- What follows when bytes of a slice have been written: a waiter is released in the clock in which its condition becomes true
(R98). -/
def State.afterPlain (s : State) (slice off n : Nat) : State :=
  s.doJobs ((s.watched.filter fun c => c.1 == slice && c.2 < off + n && off < c.2 + 16).eraseDups.map fun c =>
    .counter c.1 c.2)

/-- A Plain write of an engine, with what follows. -/
def State.plainStore (s : State) (slice off : Nat) (bs : List Byte) : State :=
  (s.plainWrite slice off bs).afterPlain slice off bs.length

/-! ## Launches (R150, R172, R174) -/

/-- The launch of that identity. -/
def State.launchOf (s : State) (uid : Nat) : Option Launch := findBy Launch.uid s.launches uid

/-- The ready flag of a workgroup's tile set: the next stage becomes launchable, or the node's successors are counted down
(R174). -/
def State.setReady (s : State) (g : Workgroup) : State :=
  if g.readyFlag || g.forked then s
  else
    let s := s.updWg g.uid fun g => { g with readyFlag := true }
    match g.launch.bind s.launchOf with
    | none => s
    | some l =>
      if g.stage + 1 < l.stages then { s with launchables := s.launchables ++ [⟨l.vd, l.uid, g.coord, g.stage + 1⟩] }
      else
        match l.node.bind fun nd => s.node nd.1 nd.2 with
        | none => s
        | some (gr, nd) => s.doJobs ((nd.succ.filter (· < gr.nodes.length)).map fun k => .decrement gr.uid k g.coord)

/-- The last team of a workgroup has retired: its flag is set, and the launch may end (R150, R156, R172, R174): a running node is DONE
before its CTR gets 1, so that what the add brings about no longer cancels it (R175). -/
def State.endWorkgroup (s : State) (g : Workgroup) : State :=
  let s := s.setReady g
  let s := { s with workgroups := dropBy Workgroup.uid s.workgroups g.uid }
  if g.forked then s.doJobs [.addOne g.vd (g.childCtr.getD 0)]
  else
    match g.launch.bind s.launchOf with
    | none => s
    | some l =>
      if g.stage + 1 < l.stages then s
      else if 1 < l.left then
        { s with launches := updateBy Launch.uid s.launches l.uid fun l => { l with left := l.left - 1 } }
      else
        let s := { s with launches := dropBy Launch.uid s.launches l.uid }
        match l.node.toList.filter fun nd => (s.node nd.1 nd.2).map (·.2.state) == some .running with
        | [] => s.doJobs (if l.ctr = 0 then [] else [.addOne l.vd l.ctr])
        | nd :: _ => s.doJobs [.reach nd.1 nd.2 .done 0 0]

end Sys2Proof.Machine
end

