-- ==== Sys2Proof/Machine/MemoryEvents.lean ====
section
/-! DEFINITION. The steps by which requests reach the banks and the controllers, are served and complete (R34 to R40, R46, R51 to
R54, R110, R111, R291 to R294), and the rebuild of a line. -/

namespace Sys2Proof.Machine

/-! ## Completion (R37) -/

/-- The trap of an access that failed in some lanes after its issue: the address of the lowest of them, and the lanes, or the active
mask of a uniform access (R16, R235). -/
def Access.laneTrap (a : Access) (code report : Nat) (lanes : List (Nat × Word)) : Trap :=
  let low := lanes.foldl (fun (b : Nat × Word) p => if p.1 < b.1 then p else b) (lanes.headD (0, 0))
  { code := code, tval := low.2, fmask := some (a.uniform.getD (maskOf (lanes.map (·.1)))), report := report, done := a.atomic
    fetch := false, epc := a.pc }

/-- The trap of an access that met poison (R51, R53, R294). -/
def Access.poisonTrap (a : Access) : Trap := a.laneTrap 0x12 0 a.poisoned

/-- A trap of an access found after its issue. Its team has held since then, so the trap is precise; the team stands at the access
again, unless it was an atomic, which completed (R294). A team that is to be pre-empted or is parked reports no trap now: an access that
did not complete is made again, and the trap of a completed one is held (R163, R167). DEDUCED: log 75. -/
def State.lateTrap (s : State) (a : Access) (trap : Trap) : State :=
  match s.focus a.team with
  | none => s
  | some s =>
    if a.deferred then s.closureFault trap a.pc
    else
      let s := if a.atomic then s else s.mapTeam fun t => { t with pc := a.pc }
      let x : TakenTrap := ⟨trap, false⟩
      match s.team.status with
      | .ready =>
        if s.team.closure.isEmpty then s.takeTrap x
        else s.mapTeam fun t => { t with status := .draining none, heldTrap := some x }
      | .draining _ => s.mapTeam fun t => { t with heldTrap := some (t.heldTrap.getD x) }
      | _ => if trap.done then s.mapTeam fun t => { t with heldTrap := some (t.heldTrap.getD x) } else s

/-- A mill's lane cache emptied of all but some lines, which are named by side, address and key; no fill is under way then that a later
access could find (R42). -/
def State.keepFills (s : State) (mill : Nat) (fills : List (Bool × Nat × Nat)) : State :=
  { s.dropLaneCache mill with laneCache := mapSet [] s.laneCache mill ((mapGet [] s.laneCache mill).filter fun c =>
      fills.contains (c.host, c.line, c.key)) }

/-- An access whose last request has completed: its counter is free, its data land unless it ends with a fault, its registers stop
being pending, and what waited in the closure for them is copied (R37 to R39). The lanes of an atomic that met no poison have
performed (R294). An acquire at device scope empties the lane cache of all but its own fills: a line that was filled before it is found
by no later access (R42, R105, R284), nor one that another team filled since it issued. DEDUCED: log 138. -/
def State.finishAccess (s : State) (a : Access) : State :=
  let s := { s with accesses := dropBy Access.id s.accesses a.id }
  let s := if a.poisoned.isEmpty || a.atomic then s.updTeam a.team fun t => t.landAll a.data else s
  let s := if a.empties then (s.teamOf a.team).elim s fun t => s.keepFills t.mill a.fills else s
  let s := (s.refreeze a.team).guestEvent a.team a.guest
  if !a.poisoned.isEmpty then s.lateTrap a a.poisonTrap
  else if a.deferred then (s.focus a.team).elim s State.popClosure
  else s

/-- One request of an access completes. -/
def State.countDown (s : State) (acc : Nat) : State :=
  match findBy Access.id s.accesses acc with
  | none => s
  | some a =>
    if a.left ≤ 1 then s.finishAccess a
    else { s with accesses := updateBy Access.id s.accesses acc fun a => { a with left := a.left - 1 } }

/-- A request gone. -/
def State.dropReq (s : State) (id : Nat) : State := { s with requests := dropBy Req.id s.requests id }

/-- A request changed. -/
def State.updReq (s : State) (id : Nat) (f : Req → Req) : State := { s with requests := updateBy Req.id s.requests id f }

/-- A request that completes and is gone. -/
def State.retireReq (s : State) (r : Req) : State := (s.dropReq r.id).countDown r.access

/-- The lanes of a read with their addresses (R16); of a uniform access its own address. -/
def Req.laneEas (r : Req) : List (Nat × Word) :=
  match r.op with
  | .load _ parts => parts.map fun p => (p.lane, p.ea)
  | .atomic _ _ _ _ _ lane => [(lane, r.ea)]
  | .uload _ _ _ => [(0, r.ea)]
  | .store _ => []
  | .prefetch => []
  | .packet _ _ => []

/-- The lanes of a request met poison. -/
def State.markPoison (s : State) (r : Req) : State :=
  { s with accesses := updateBy Access.id s.accesses r.access fun a => { a with poisoned := a.poisoned ++ r.laneEas } }

/-- The data of a load or the old value of an atomic have come (R37, R292). -/
def State.landReq (s : State) (r : Req) (data : List Byte) : State :=
  ({ s with accesses := updateBy Access.id s.accesses r.access fun a => { a with data := a.data ++ [(r.op, data)] } }).retireReq r

/-! ## Atomics (R291) -/

/-- The new value of an atomic on `n` bytes. -/
def AtomicOp.apply (op : AtomicOp) (n m operand compare : Nat) : Nat :=
  let w := 8 * n
  match op with
  | .fadd => fp32Add m operand
  | .add => (m + operand) % 2 ^ w
  | .min => if signed w operand < signed w m then operand else m
  | .max => if signed w m < signed w operand then operand else m
  | .and => m &&& operand
  | .or => m ||| operand
  | .xor => m ^^^ operand
  | .xchg => operand
  | .cas => if m = compare then operand else m

/-! ## Lines of the lane cache (R40, R41) -/

/-- The lines of a lane cache of 256 KiB (R3). -/
def laneLines : Nat := 4096

/-- The lines of a list that may be replaced: those without keep before any with it (R41). -/
def looseLines (cs : List CacheLine) : List CacheLine :=
  let loose := cs.filter fun c => !c.keep
  if loose.isEmpty then cs else loose

/-- The lines of a mill's lane cache in the set of a line. -/
def State.setLines (s : State) (mill : Nat) (host : Bool) (line : Nat) : List CacheLine :=
  (mapGet [] s.laneCache mill).filter fun c => Config.laneSet c.host c.line == Config.laneSet host line

/-- A line put into a mill's lane cache; one of its set leaves a full cache (R3, R40, R41). DESIGN CHOICE: log 87. -/
def State.fillLine (s : State) (mill : Nat) (c : CacheLine) : State :=
  let others := (mapGet [] s.laneCache mill).filter fun x => !(x.host == c.host && x.line == c.line && x.key == c.key)
  if others.length < laneLines then { s with laneCache := mapSet [] s.laneCache mill (c :: others) }
  else
    let set := others.filter fun x => Config.laneSet x.host x.line == Config.laneSet c.host c.line
    let pool := looseLines (if set.isEmpty then others else set)
    match pool[Config.laneVictim s.draws % pool.length]? with
    | some v => { s with draws := s.draws + 1, laneCache := mapSet [] s.laneCache mill (c :: others.erase v) }
    | none => s

/-- A line of a mill's lane cache is replaced: one with keep only when its set has none without (R41). DESIGN CHOICE: log 87. -/
def State.replaceLine (s : State) (mill : Nat) (host : Bool) (line key : Nat) : Out :=
  match s.laneLine mill host line key with
  | none => .fault .notEnabled
  | some c =>
    if !(looseLines (s.setLines mill host line)).contains c then .fault .notEnabled
    else .next { s with laneCache := mapSet [] s.laneCache mill ((mapGet [] s.laneCache mill).erase c) }

/-- The fill of a load, if it may still be made; its access keeps note of it. -/
def State.fillFor (s : State) (r : Req) : State :=
  match r.loc with
  | .mem host pa key bypass =>
    if !r.fill then s
    else
      match s.memRead host (pa / 64 * 64) key bypass 64 with
      | (bs, .ok) =>
        { s.fillLine r.mill ⟨host, pa / 64 * 64, key, r.keep, bs⟩ with
          accesses := updateBy Access.id s.accesses r.access fun a => { a with fills := a.fills ++ [(host, pa / 64 * 64, key)] } }
      | _ => s
  | _ => s

/-! ## Requests at a controller or the host link -/

/-- The virtual device of a request's team. -/
def State.reqVd (s : State) (r : Req) : Nat := ((s.teamOf r.team).map (·.vd)).getD 0

/-- A request performed behind a controller, its data sound (R40, R46, R53, R54, R293, R294). An atomic reads and writes in one step, so
no host write to its line is lost. DESIGN CHOICE: log 121. -/
def State.performMem (s : State) (r : Req) (host : Bool) (pa key : Nat) (bypass : Bool) : State :=
  let line := pa / 64 * 64
  let absent := fun (s : State) => s.postKeyAbsent (s.reqVd r) line key
  match r.op with
  | .store bs =>
    let (s, st) := s.memWrite host pa key bypass bs
    (if st == .keyAbsent then absent s else s).retireReq r
  | .atomic op operand compare _ _ _ =>
    let (old, st) := s.memRead host pa key bypass r.n
    match st with
    | .poisoned => (s.markPoison r).retireReq r
    | .keyAbsent => (absent s).landReq r old
    | .ok =>
      let (s, st) := s.memWrite host pa key bypass (leBytes r.n (op.apply r.n (leNat old) operand compare))
      (if st == .keyAbsent then absent s else s).landReq r old
  | .prefetch =>
    (if (s.memRead host line key bypass 64).2 == .keyAbsent then absent s else s.fillFor r).dropReq r.id
  | .packet _ _ => s.dropReq r.id
  | .load _ _ =>
    let (data, st) := s.memRead host pa key bypass r.n
    match st with
    | .poisoned => (s.markPoison r).retireReq r
    | .keyAbsent => (absent s).landReq r data
    | .ok => (s.fillFor r).landReq r data
  | .uload _ _ _ =>
    let (data, st) := s.memRead host pa key bypass r.n
    match st with
    | .poisoned => (s.markPoison r).retireReq r
    | .keyAbsent => (absent s).landReq r data
    | .ok => (s.fillFor r).landReq r data

/-- Do two requests keep the order in which their mill presented them (R36, R102)? -/
def Req.sameRoute (a b : Req) : Bool :=
  a.mill == b.mill &&
  match a.loc, b.loc with
  | .plain s1 _, .plain s2 _ => s1 == s2
  | .mem h1 p1 _ _, .mem h2 p2 _ _ => h1 == h2 && (h1 || bitsOf p1 10 8 == bitsOf p2 10 8)
  | _, _ => false

/-- Is the request the first in egress on its route? -/
def State.firstOnRoute (s : State) (r : Req) : Bool :=
  ((s.requests.find? fun x => x.stage == .egress && x.sameRoute r).map (·.id)) == some r.id

/-- Does the read of a Basin line reach its cells (R49)? -/
def State.readsCells (s : State) (line key : Nat) : Bool :=
  !s.scrubMarks.contains (line / 4096) && s.keyLoaded key && !s.stackStopped line && !s.basinPoison.contains line &&
  s.basinSeal.any fun e => e.1 == line

/-- A read of a Basin line finds an error that no code corrects: its rebuild begins (R49, R52). -/
def State.beginRebuild (s : State) (line key : Nat) : State := { s with rebuilding := (line, key) :: s.rebuilding }

/-- A request that the controller takes up: it stalls behind a rebuild or starts one (R52), or is performed. -/
def State.takeUp (s : State) (r : Req) (host : Bool) (pa key : Nat) (bypass : Bool) (ecc : Ecc) : State :=
  let line := pa / 64 * 64
  if s.stalls host line then s.updReq r.id fun r => { r with stage := .stalled }
  else if !host && ecc == .double && s.readsCells line key then
    (s.beginRebuild line key).updReq r.id fun r => { r with stage := .stalled }
  else s.performMem r host pa key bypass

/-! ## Bank queues (R34 to R36) -/

/-- The banks of an access of `n` bytes at a byte of a slice (R35). -/
def banksOf (off n : Nat) : List Nat :=
  if off / 4 = (off + n - 1) / 4 then [off / 4 % 32] else [off / 4 % 32, (off / 4 + 1) % 32]

/-- The banks of a slice in whose queues the request stands. -/
def Req.banks (r : Req) (slice : Nat) : List Nat :=
  match r.loc, r.stage with
  | .plain sl off, .queued => if sl = slice then banksOf off r.n else []
  | _, _ => []

/-- The request at the head of a bank queue. -/
def State.bankHead (s : State) (slice bank : Nat) : Option Req := s.requests.find? fun r => (r.banks slice).contains bank

/-- Has every bank queue that the request needs a free entry: it enters all or none (R34, R35)? -/
def State.bankRoom (s : State) (r : Req) : Bool :=
  match r.loc with
  | .plain slice off =>
    (banksOf off r.n).all fun b => (s.requests.filter fun x => (x.banks slice).contains b).length < 8
  | .mem _ _ _ _ => false
  | .peer _ _ _ => false

/-- A Plain request enters its bank queue behind those there; a store completes (R34, R37). -/
def State.enterBank (s : State) (r : Req) : State :=
  let s := { s.dropReq r.id with requests := (s.dropReq r.id).requests ++ [{ r with stage := .queued }] }
  match r.op with
  | .store _ => s.countDown r.access
  | _ => s

/-- Does the request wait at the wheel port of its own slice (R34)? -/
def Req.atPort (r : Req) (mill : Nat) : Bool :=
  r.mill == mill && r.stage == .egress && match r.loc with
    | .plain slice _ => slice == mill
    | .mem _ _ _ _ => false
    | .peer _ _ _ => false

/-- The wheel port of a mill (R34). DESIGN CHOICE at reset: log 3. -/
def State.port (s : State) (mill : Nat) : Port := mapGet ⟨3, none⟩ s.ports mill

/-- The swath that has entered in part and holds the wheel port, while a request of it still waits there (R34). -/
def State.heldSwath (s : State) (mill : Nat) : Option (Nat × Nat) :=
  (s.port mill).swath.filter fun x => s.requests.any fun r => r.atPort mill && (r.access, r.swath) == x

/-- The swath that the wheel port presents: the one that holds it, else the oldest of the wheel whose turn it is (R34). -/
def State.presented (s : State) (mill : Nat) : Option (Nat × Nat) :=
  (s.heldSwath mill).orElse fun _ =>
    ((List.range 4).findSome? fun k =>
      s.requests.find? fun r => r.atPort mill && r.wheel == ((s.port mill).last + 1 + k) % 4).map fun r => (r.access, r.swath)

/-- A swath presented: every request with room enters in one clock, and the port is held until the rest have (R34). -/
def State.present (s : State) (r : Req) : State :=
  let mine := fun (x : Req) => x.atPort r.mill && x.access == r.access && x.swath == r.swath
  let s := (s.requests.filter mine).foldl (fun s x => if s.bankRoom x then s.enterBank x else s) s
  let port : Port := ⟨r.wheel, if s.requests.any mine then some (r.access, r.swath) else none⟩
  { s with ports := mapSet ⟨3, none⟩ s.ports r.mill port }

/-- A load of this module's image served: it finds poison, or its data land (R53, R124). -/
def State.servePeer (s : State) (r : Req) (addr st : Nat) : State :=
  if (s.memRead false addr 0 false r.n).2 == .poisoned then (s.markPoison r).retireReq r
  else s.landReq r (s.imageRead (s.reqVd r) st addr r.n)

/-- A packet leaves the mill's egress: to its target, or into this module's own sluice (R132). -/
def State.takePacket (s : State) (r : Req) (target : Nat) (e : StepEntry) : State :=
  if target == s.module then ((s.dropReq r.id).receivePacket e).tryApply (s.regionVd e.region) e.step
  else { s.dropReq r.id with outbox := s.outbox ++ [.packet target e] }

/-- MEMORY_REQUEST_COMPLETE: a request enters its bank queue, is performed at its controller, or brings its data back
(R37, R102). -/
def execMemoryRequestComplete (request : Nat) (ecc : Ecc) (s : State) : Out :=
  match findBy Req.id s.requests request with
  | none => .fault .notEnabled
  | some r =>
    match r.stage, r.loc with
    | .served data, _ => .next (s.landReq r data)
    | .egress, .plain slice _ =>
      if !s.bankRoom r then .fault .notEnabled
      else if slice == r.mill then
        if s.presented r.mill == some (r.access, r.swath) then .next (s.present r) else .fault .notEnabled
      else if s.firstOnRoute r then .next (s.enterBank r) else .fault .notEnabled
    | .egress, .mem host pa key bypass =>
      if s.firstOnRoute r then .next (s.takeUp r host pa key bypass ecc) else .fault .notEnabled
    | .egress, .peer m addr st =>
      match r.op with
      | .packet _ e =>
        if m == s.module && s.packetStalls e then .fault .notEnabled else .next (s.takePacket r m e)
      | _ =>
      if m == s.module then
        if st ≤ s.committed (s.reqVd r) && !s.stalls false addr then .next (s.servePeer r addr st) else .fault .notEnabled
      else
        .next ({ s with draws := s.draws + 1 }.landReq r (leBytes r.n (Config.remoteLoad s.draws).toNat))
    | _, _ => .fault .notEnabled

/-! ## Service at a bank (R34 to R36, R51) -/

/-- The release-tag entry of an 8-byte location: the mill it names (R110). -/
def State.tagOf (s : State) (slice w : Nat) : Option Nat :=
  (s.tags.find? fun e => e.1 == slice && e.2.1 == w).map (·.2.2)

/-- A tag entry written; a promotion of the entry it replaces takes nothing from the table any more (R110). -/
def State.setTag (s : State) (slice w mill : Nat) : State :=
  { s with
    tags := (slice, w, mill) :: s.tags.filter fun e => !(e.1 == slice && e.2.1 == w)
    promotions := s.promotions.map fun p => if p.slice == slice && p.evict == some w then { p with evict := none } else p }

/-- Has a release at mill scope its place in the tag table? If not, an entry is evicted and promoted first (R110).
DEDUCED: log 74. -/
def State.tagRoom (s : State) (slice w : Nat) : Bool :=
  (s.tagOf slice w).isSome || (s.tags.filter fun e => e.1 == slice).length < 4096

/-- The promotion of the oldest entry of a full table. -/
def State.evictTag (s : State) (slice : Nat) (r : Req) : State :=
  match (s.tags.filter fun e => e.1 == slice).getLast? with
  | none => s
  | some e =>
    { s with
      promotions := s.promotions ++ [Promotion.mk s.nextId slice e.2.2 false [] r.id (some e.2.1)]
      nextId := s.nextId + 1 }

/-- The data of a request that was served: an acquire with promotion waits for the mill its tag names (R111). -/
def State.serveData (s : State) (r : Req) (slice off : Nat) (data : List Byte) : State :=
  match if r.acquire then s.tagOf slice (off / 8) else none with
  | some m =>
    if m = r.mill then s.updReq r.id fun r => { r with stage := .served data }
    else
      { s with
        promotions := s.promotions ++ [Promotion.mk s.nextId slice m false [] r.id none]
        nextId := s.nextId + 1 }.updReq r.id fun r => { r with stage := .promoting s.nextId data }
  | none => s.updReq r.id fun r => { r with stage := .served data }

/-- A request served at its bank (R35, R51, R54, R110, R292 to R294). -/
def State.serveBank (s : State) (r : Req) (slice off : Nat) : State :=
  let s := if r.release then s.setTag slice (off / 8) r.mill else s
  match r.op with
  | .store bs => (s.plainStore slice off bs).dropReq r.id
  | .atomic op operand compare _ _ _ =>
    if s.plainPoisoned slice off r.n then (s.markPoison r).retireReq r
    else
      let old := s.plainRead slice off r.n
      (s.plainStore slice off (leBytes r.n (op.apply r.n (leNat old) operand compare))).serveData r slice off old
  | .prefetch => s.dropReq r.id
  | .packet _ _ => s.dropReq r.id
  | .load _ _ =>
    if s.plainPoisoned slice off r.n then (s.markPoison r).retireReq r
    else s.serveData r slice off (s.plainRead slice off r.n)
  | .uload _ _ _ =>
    if s.plainPoisoned slice off r.n then (s.markPoison r).retireReq r
    else s.serveData r slice off (s.plainRead slice off r.n)

/-- What error correction does to the 64-bit word a bank reads: a single error is corrected and counted, a double error
poisons it (R51, R386). DEDUCED: log 63. -/
def State.plainEcc (s : State) (slice off : Nat) (ecc : Ecc) : State :=
  match ecc with
  | .ok => s
  | .single => s.updReg (millReg slice) fun w => wput w 31 0 (wbits w 31 0 + 1)
  | .double => s.poisonWord slice (off / 8)

/-- BANK_SERVE: the bank serves the request at the head of its queue; an 8-byte request is served when it heads both of its
queues (R34, R35). -/
def execBankServe (slice bank : Nat) (ecc : Ecc) (s : State) : Out :=
  if 512 ≤ slice || 32 ≤ bank then .fault .noSuchUnit
  else
    match s.bankHead slice bank with
    | none => .fault .notEnabled
    | some r =>
      match r.loc with
      | .plain _ off =>
        let heads := (banksOf off r.n).all fun b => (s.bankHead slice b).map (·.id) == some r.id
        if !heads || s.promotions.any (fun p => p.waiter == r.id) then .fault .notEnabled
        else if ecc == .double && r.op.reads && !s.calmPlain slice (off / 8) then .fault .notEnabled
        else if r.release && !s.tagRoom slice (off / 8) then .next (s.evictTag slice r)
        else .next ((if r.op.reads then s.plainEcc slice off ecc else s).serveBank r slice off)
      | _ => .fault .notEnabled

/-! ## Promotion (R111) -/

/-- PROMOTION_REQUEST: the mill receives the request and notes what it had presented before. -/
def execPromotionRequest (promotion : Nat) (s : State) : Out :=
  match findBy Promotion.id s.promotions promotion with
  | none => .fault .notEnabled
  | some p =>
    if p.received then .fault .notEnabled
    else
      let before := (s.requests.filter fun r => r.mill == p.mill && r.op.writes && !r.performed true).map (·.id)
      .next { s with promotions := updateBy Promotion.id s.promotions promotion fun p =>
        { p with received := true, before := before } }

/-- PROMOTION_ANSWER: the answer completes the acquire that waits, or lets the release that evicted an entry be served.
DEDUCED: log 74. -/
def execPromotionAnswer (promotion : Nat) (s : State) : Out :=
  match findBy Promotion.id s.promotions promotion with
  | none => .fault .notEnabled
  | some p =>
    let done := p.before.all fun id => (findBy Req.id s.requests id).elim true (·.performed true)
    if !p.received || !done then .fault .notEnabled
    else
      let s := { s with
        promotions := dropBy Promotion.id s.promotions promotion
        tags := match p.evict with
          | some w => s.tags.filter fun e => !(e.1 == p.slice && e.2.1 == w)
          | none => s.tags }
      .next (s.updReq p.waiter fun r => match r.stage with
        | .promoting _ data => { r with stage := .served data }
        | _ => r)

/-! ## Rebuilds (R49, R52, R57) -/

/-- The line of the capacity page that a Basin line was copied from, decrypted under the key (R57). DEDUCED: log 79. -/
def State.cleanCopy (s : State) (line key : Nat) : Option (List Byte) :=
  (s.cleanCopies.find? fun c => c.1 == line / 65536 * 65536).map fun c =>
    s.hostView (c.2 + line % 65536) key false

/-- The corrected-with-delay count and event of a stack (R52, R371). -/
def State.correctedWithDelay (s : State) (line : Nat) : State :=
  let k := bitsOf line 10 8
  { s with delayed := mapSet 0 s.delayed k (mapGet 0 s.delayed k + 1) }.post none 0x21 0 (BitVec.ofNat 64 line)
    (BitVec.ofNat 64 k) none

/-- The line as the rebuild leaves it: rebuilt from parity, else from a clean copy, else poisoned (R49). DEDUCED: log 79. -/
def State.rebuildLine (s : State) (line key : Nat) (parity : Bool) : State :=
  if parity then s.correctedWithDelay line
  else
    match s.cleanCopy line key with
    | some d => (s.basinPut line (s.keyMat key) d).correctedWithDelay line
    | none => s.poisonBasin line

/-- The loads of other modules held here that may be answered now: their step is committed, and their line is not under rebuild (R52,
R124). -/
def State.answerHeld (s : State) : State :=
  let now := fun (h : HeldLoad) => h.step ≤ s.committed h.vd && !s.stalls false h.addr
  let due := s.heldLoads.filter now
  { s with
    outbox := s.outbox ++ due.map fun h => Message.peerData h.source h.load (s.imageRead h.vd h.step h.addr h.n)
    heldLoads := s.heldLoads.filter fun h => !now h }

/-- BASIN_REBUILD_DONE: the rebuild ends, every request that stalled on the line is performed in order, other modules' loads of it are
answered, and the distributor goes on (R52). -/
def execBasinRebuildDone (line : Nat) (parity : Bool) (s : State) : Out :=
  match s.rebuilding.find? fun x => x.1 == line with
  | none => .fault .notEnabled
  | some (_, key) =>
    if !parity && (s.cleanCopy line key).isNone && !s.calmLine false line then .fault .notEnabled
    else
    let waiting := s.requests.filter fun r => r.stage == .stalled && match r.loc with
      | .mem false pa _ _ => pa / 64 * 64 == line
      | _ => false
    let s := { s with rebuilding := s.rebuilding.filter fun x => x.1 != line }.rebuildLine line key parity
    let s := (waiting.foldl (fun s r => match r.loc with
      | .mem host pa k b => s.performMem r host pa k b
      | _ => s) s).answerHeld
    .next ({ s with stalledJobs := [] }.doJobs s.stalledJobs)

/-- SCRUB_BLOCK: the scrubber puts the lowest marked block in the zeroed state (R48, R50); with none left BUSY clears and the end
is reported. -/
def execScrubBlock (s : State) : Out :=
  match s.scrubMarks with
  | [] => .fault .notEnabled
  | b :: bs =>
    .next (s.scrubBlock (bs.foldl min b)).scrubEnd

end Sys2Proof.Machine
end

