-- ==== Sys2Proof/Machine/Teams.lean ====
section
/-! DEFINITION. What the teams of a workgroup and of a mill share: the barrier (R148, R246, R247), donation sets (R152 to R154) and the
Millstone's leases (R180, R181). -/

namespace Sys2Proof.Machine

/-- An action of another team, after which the turn is this team's again. -/
def State.withTeam (s : State) (uid : Nat) (f : State → State) : State :=
  match s.focus uid with
  | none => s
  | some t => let r := f t
    (r.focus s.team.uid).getD r

/-- The teams of a workgroup that have not retired. -/
def State.members (s : State) (wg : Nat) : List Team := s.teams.filter fun t => t.wg == wg && !t.isVacant

/-- A team whose wait ends with its instruction: READY, at the next instruction (R151). -/
def Team.resume (t : Team) : Team := { t with status := .ready, pc := t.pc + 4, age := 0 }

/-! ## The barrier -/

/-- The requests that were under way at the arrivals of a generation (R114). -/
def Workgroup.joined (g : Workgroup) (gen : Nat) : List Nat := (g.barReqs.filter fun x => x.1 == gen).map (·.2)

/-- A generation is completed for a team: its arrival is cleared, and a GRDY covers what was under way at the others' arrivals
(R114, R246). -/
def Team.completes (t : Team) (joined : List Nat) : Team := { t with arrival := none, covered := t.covered ++ joined }

/-- A team waiting for a completed generation goes on, and a point is set after the instruction (R246, R247). -/
def Team.passBarrier (t : Team) (joined : List Nat) : Team := ((t.completes joined).setPoint (t.pc + 4)).resume

/-- A generation that every team not retired has joined completes (R246). -/
def State.checkBarrier (s : State) (wg : Nat) : State :=
  match s.wgOf wg with
  | none => s
  | some g =>
    if g.barCount = 0 || g.barCount < (s.members wg).length then s
    else
      (s.updWg wg fun g => { g with barGen := g.barGen + 1, barCount := 0 }).mapTeams fun t =>
        if t.wg == wg && t.status == .parked .barrier && t.arrival == some g.barGen then
          t.passBarrier (g.joined g.barGen) else t

/-- An arrival withdrawn (R154, R247). -/
def State.withdrawArrival (s : State) (t : Team) : State :=
  match t.arrival, s.wgOf t.wg with
  | some gen, some g =>
    let mine := fun (x : Nat × Nat) => x.1 == gen && (findBy Req.id s.requests x.2).any fun r => r.team == t.uid
    let s := if gen = g.barGen then
        s.updWg t.wg fun g => { g with barCount := g.barCount - 1, barReqs := g.barReqs.filter fun x => !mine x }
      else s
    s.updTeam t.uid fun t => { t with arrival := none }
  | _, _ => s

/-! ## Donation -/

/-- A donation set of a workgroup: its wheel and number (R152). -/
def Workgroup.donation (g : Workgroup) (wheel k : Nat) : Donation :=
  (g.donations.find? fun d => d.wheel == wheel && d.set == k).getD ⟨wheel, k, 0, []⟩

/-- A donation set changed. -/
def State.setDonation (s : State) (wg : Nat) (d : Donation) : State :=
  s.updWg wg fun g => { g with donations := d :: g.donations.filter fun x => !(x.wheel == d.wheel && x.set == d.set) }

/-- The registers from `lo` to `hi - 1` read zero. -/
def Team.clearRegs (t : Team) (lo hi : Nat) : Team :=
  { t with
    vregs := mapClear t.vregs (vkey lo 0) (vkey hi 0)
    vpoison := t.vpoison.filter fun p => p.1 < lo || hi ≤ p.1 }

/-- A TAKE granted: the registers are the team's and read zero, and a point is set after it (R153, R251). -/
def Team.granted (t : Team) (rows : Nat) : Team :=
  let n := rows / t.swaths
  (({ t.clearRegs t.regs (t.regs + n) with regs := t.regs + n }).setPoint (t.pc + 4)).resume

/-- The head of a set's queue is granted its rows as far as the pool allows (R153). -/
def State.grantTakes (wg wheel k : Nat) : Nat → State → State
  | 0, s => s
  | f + 1, s =>
    match s.wgOf wg with
    | none => s
    | some g =>
      let d := g.donation wheel k
      match d.queue with
      | [] => s
      | (uid, rows) :: rest =>
        if rows ≤ d.pool then
          State.grantTakes wg wheel k f
            ((s.setDonation wg { d with pool := d.pool - rows, queue := rest }).updTeam uid (·.granted rows))
        else s

/-- The members of a set. -/
def State.setMembers (s : State) (wg wheel k : Nat) : List Team :=
  (s.members wg).filter fun t => t.wheel == wheel && t.donation == some k

/-- Donation deadlock (R154, R363): every member raises 0x16 at its TAKE or BAR, each TAKE leaves the queue and each arrival is
withdrawn. -/
def State.checkDeadlock (s : State) (wg wheel k : Nat) : State :=
  match s.wgOf wg with
  | none => s
  | some g =>
    let d := g.donation wheel k
    let ms := s.setMembers wg wheel k
    let stuck := ms.all fun t => t.status == .blocked || t.status == .parked .barrier
    let short := match d.queue with
      | [] => false
      | (_, rows) :: _ => d.pool < rows
    if stuck && (ms.any fun t => t.status == .blocked) && short then
      let needed := ((d.queue.head?).map (·.2)).getD 0
      let v := BitVec.ofNat 64 (needed * 2 ^ 32 + d.pool)
      let s := s.setDonation wg { d with queue := [] }
      ms.foldl (fun s t => (s.withdrawArrival t).withTeam t.uid fun s =>
        (s.mapTeam fun t => { t with status := .ready }).takeTrap
          ⟨{ Trap.plain 0x16 v 0 with epc := s.team.pc }, false⟩) s
    else s

/-- Grants, then the test for deadlock, in every set of a workgroup (R154). -/
def State.settleDonations (s : State) (wg : Nat) : State :=
  match s.wgOf wg with
  | none => s
  | some g =>
    g.donations.foldl (fun s d => (State.grantTakes wg d.wheel d.set 64 s).checkDeadlock wg d.wheel d.set) s

/-- A team leaves the queue of its set. -/
def State.leaveQueue (s : State) (t : Team) : State :=
  s.updWg t.wg fun g => { g with donations := g.donations.map fun d =>
    { d with queue := d.queue.filter fun e => e.1 != t.uid } }

/-! ## Leases -/

/-- The Millstone of a mill. -/
def State.millstone (s : State) (m : Nat) : Millstone := mapGet Millstone.idle s.millstones m

/-- The Millstone of a mill set. -/
def State.setMillstone (s : State) (m : Nat) (x : Millstone) : State :=
  { s with millstones := mapSet Millstone.idle s.millstones m x }

/-- Does the partition own the mill's Millstone (R182)? -/
def State.ownsStone (s : State) (part mill : Nat) : Bool := s.regBit (partReg part (0x040 + 8 * (mill / 64))) (mill % 64)

/-- The team gets its lease; a resumed team goes on where it stands (R180, R181). -/
def Team.leased (t : Team) (n : Nat) : Team :=
  let t := { t with leaseHeld := true, leaseGrant := n, leaseRemain := n }
  if t.releasing then { t with releasing := false, status := t.onward, age := 0 } else t.resume

/-- A free Millstone goes to the head request (R180). -/
def State.grantLease (s : State) (mill : Nat) : State :=
  let x := s.millstone mill
  match x.holder, x.queue with
  | none, (uid, n) :: rest =>
    let s := (s.setMillstone mill { x with holder := some uid, queue := rest }).updTeam uid (·.leased n)
    if (s.teamOf uid).any fun t => t.heldTrap.isSome then s.withTeam uid State.afterClosure else s
  | _, _ => s

/-- The lease of a team ends, and its request if it waits for one (R180). -/
def State.endLease (s : State) (t : Team) : State :=
  let x := s.millstone t.mill
  let free := x.holder == some t.uid
  let x := { x with
    holder := if free then none else x.holder
    queue := x.queue.filter fun e => e.1 != t.uid
    busy := if free then x.busy.map fun o => { o with ends := false } else x.busy }
  ((s.setMillstone t.mill x).updTeam t.uid fun t => { t with leaseHeld := false, leaseRemain := 0 }).grantLease t.mill

/-- A request joins the arbiter's queue and is granted at once if the Millstone is free (R180). -/
def State.requestLease (s : State) (n : Nat) : State :=
  let t := s.team
  let x := s.millstone t.mill
  ((s.setMillstone t.mill { x with queue := x.queue ++ [(t.uid, n)] }).mapTeam fun t =>
    { t with status := .parked .lease }).grantLease t.mill

end Sys2Proof.Machine
end

