-- ==== Sys2Proof/Machine/Steps.lean ====
section
/-! DEFINITION. Supersteps (R117 to R138): STEP and STEPQ, the boundary machine, grants, packets, the commit, and the loss of a
member. -/

namespace Sys2Proof.Machine

/-! ## The step domain of a virtual device (R117 to R119) -/

/-- Does the virtual device belong to a domain? -/
def State.stepEn (s : State) (vd : Nat) : Bool := s.regBit (vdReg vd 0x050) 63

/-- A message to a module; the module's own messages need none. -/
def State.send1 (s : State) (m : Message) : State := { s with outbox := s.outbox ++ [m] }

/-- A grant received (R131). -/
def State.takeGrant (s : State) (vd target step sl ml : Nat) : State :=
  { s with quotas := ⟨vd, target, step, sl, ml⟩ ::
      s.quotas.filter fun q => !(q.vd == vd && q.target == target && q.step == step) }

/-- This module's grant of a step to every member (R129); the outside sends a grant only from a member. -/
def State.grantStep (s : State) (vd step : Nat) : State :=
  let q := s.reg (vdReg vd 0x058)
  (s.stepMembers vd).foldl (fun s m =>
    if m = s.module then s.takeGrant vd m step (wbits q 31 16) (wbits q 15 0)
    else s.send1 (.grant m vd step (wbits q 31 16) (wbits q 15 0))) s

/-! ## The boundary machine (R129) -/

/-- Arrivals at a boundary, counting those of EXIT (R127). -/
def State.arrivalsAt (s : State) (b : Boundary) : Nat :=
  b.arrivals + (s.exits.filter fun e => e.1 == b.vd && e.2 < b.n).length

/-- COLLECTING goes to ENTERED: END is sent to every member and the enter barrier joined. -/
def State.tryEnter (s : State) (vd n : Nat) : State :=
  let b := s.boundaryOf vd n
  let pcount := s.regBits (vdReg vd 0x050) 31 16
  let asked := b.byStep || b.ends.any fun e => e.1 != s.module
  if s.stepEn vd && !s.stepFail vd && b.state == .collecting && pcount ≤ s.arrivalsAt b && asked then
    let others := (s.stepMembers vd).filter (· != s.module)
    let s := others.foldl (fun s m => s.send1 (.boundaryEnd m vd n (countFor b.sent m))) s
    let s := s.setBoundary { b with
      state := .entered
      ends := b.ends ++ [(s.module, countFor b.sent s.module)] }
    (s.send1 (.joinEnter vd n)).tryApply vd n
  else s

/-! ## Commit (R133 to R135) -/

/-- The key order of writes (R133). -/
def entryBefore (a b : StepEntry) : Bool :=
  a.src < b.src || (a.src == b.src && (a.lseq < b.lseq || (a.lseq == b.lseq && (a.team < b.team ||
    (a.team == b.team && a.seq < b.seq)))))

/-- A write put in its place among writes in key order, after its equals. -/
def insertEntry (e : StepEntry) : List StepEntry → List StepEntry
  | [] => [e]
  | x :: xs => if entryBefore e x then e :: x :: xs else x :: insertEntry e xs

/-- Writes in key order. -/
def sortEntries (es : List StepEntry) : List StepEntry := es.foldl (fun acc e => insertEntry e acc) []

/-- The spilled entries of a step, as the millpond holds them now (R118, R132). -/
def State.pondEntries (s : State) (vd n : Nat) : List StepEntry :=
  (s.millpond.filter fun p => p.vd == vd && p.step == n).map fun p =>
    entryOfBytes ((s.memRead false p.addr 0 false 64).1 ++ (s.memRead false (p.addr + 64) 0 false 64).1)

/-- The writes of a step to a region, in key order; an entry outside the region's range is none of them (R121). -/
def State.writesTo (s : State) (vd n : Nat) (g : Nat × Nat × Nat) : List StepEntry :=
  sortEntries ((s.sluice.filter (fun e => e.step == n) ++ s.pondEntries vd n).filter fun e =>
    e.region == g.1 && g.2.1 ≤ e.line && e.line < g.2.2)

/-- The elements of a write: address and bytes of each that its mask covers whole. One that software's change of a millpond entry left
covered in part is not applied. DESIGN CHOICE: log 124. -/
def entryElems (e : StepEntry) (size : Nat) : List (Nat × List Byte) :=
  (List.range (64 / size)).filterMap fun i =>
    if e.mask.toNat / 2 ^ (i * size) % 2 ^ size == 2 ^ size - 1 then
      some (e.line + i * size, (e.data.drop (i * size)).take size)
    else none

/-- An element of the image written. -/
def State.imageWrite (s : State) (addr : Nat) (bs : List Byte) : State := (s.memWrite false addr 0 false bs).1

/-- The last value each source wrote to each element, for FIRST and ERROR. -/
def partOf (ws : List StepEntry) (size : Nat) : List (Nat × Nat × List Byte) :=
  ws.foldl (fun acc w => (entryElems w size).foldl (fun acc e =>
    (acc.filter fun x => !(x.1 == e.1 && x.2.1 == w.src)) ++ [(e.1, w.src, e.2)]) acc) []

/-- A region's writes applied under FIRST or ERROR. -/
def State.commitParts (s : State) (g rule size : Nat) (ws : List StepEntry) : State :=
  let part := partOf ws size
  (part.map (·.1)).eraseDups.foldl (fun s a =>
    let vs := part.filter fun x => x.1 == a
    match vs with
    | [] => s
    | v :: rest =>
      if rule = 4 then
        s.imageWrite a (rest.foldl (fun (b : Nat × Nat × List Byte) x => if x.2.1 < b.2.1 then x else b) v).2.2
      else if rest.all fun x => x.2.2 == v.2.2 then s.imageWrite a v.2.2
      else s.updReg (regionReg g 0) fun w => wput w 62 62 1) s

/-- A region's writes applied. -/
def State.commitRegion (s : State) (vd n : Nat) (g : Nat × Nat × Nat) : State :=
  let rule := s.regBits (regionReg g.1 0) 60 58
  let etype := s.regBits (regionReg g.1 0) 57 56
  let size := etypeBytes etype
  let ws := s.writesTo vd n g
  if 4 ≤ rule then s.commitParts g.1 rule size ws
  else
    ws.foldl (fun s w => (entryElems w size).foldl (fun s e =>
      s.imageWrite e.1 (combineElems rule etype (s.memRead false e.1 0 false size).1 e.2)) s) s

/-- `Commit(n)` on every enabled region of the domain. -/
def State.commit (s : State) (vd n : Nat) : State :=
  (s.regions.filter fun g => s.regionVd g.1 == vd).foldl (fun s g => s.commitRegion vd n g) s

/-- The lines that the commit of a boundary writes. -/
def State.commitLines (s : State) (vd n : Nat) : List Nat :=
  ((s.regions.filter fun g => s.regionVd g.1 == vd).flatMap fun g => (s.writesTo vd n g).map (·.line)).eraseDups

/-- Does the commit of a boundary wait for a line under rebuild, of the millpond or of a region (R52)? -/
def State.commitStalls (s : State) (vd n : Nat) : Bool :=
  (s.millpond.any fun p => p.vd == vd && p.step == n && (s.stalls false p.addr || s.stalls false (p.addr + 64))) ||
  (s.commitLines vd n).any (s.stalls false)

/-- The lines that the commit of a boundary is about to write are kept as they stand, for loads of earlier steps (R124). -/
def State.keepImage (s : State) (vd n : Nat) : State :=
  { s with images := s.images ++ (s.commitLines vd n).map fun l => ImageLine.mk vd n l (s.memRead false l 0 false 64).1 }

/-- The half of a step discarded: its sluice and millpond entries. What this module may still send towards a target stays (R131). -/
def State.dropHalf (s : State) (vd n : Nat) : State :=
  { s with
    sluice := s.sluice.filter fun e => !(e.step == n && s.regionVd e.region == vd)
    millpond := s.millpond.filter fun p => !(p.vd == vd && p.step == n) }

/-- The half of a step freed when its boundary is complete, with the counts towards the targets of that step (R129, R131). -/
def State.freeStep (s : State) (vd n : Nat) : State :=
  { s.dropHalf vd n with
    quotas := s.quotas.filter fun q => !(q.vd == vd && q.step == n) }

/-! ## The loss of a member (R129, R136) -/

/-- Peer lost at a load under way in the lanes given (R16, R75, R129): none of its lanes lands, and its counter is freed (R39). -/
def State.loseLoad (s : State) (a : Access) (report : Nat) (lanes : List (Nat × Word)) : State :=
  let s := { s with
    accesses := dropBy Access.id s.accesses a.id
    requests := s.requests.filter fun r => r.access != a.id }
  s.withTeam a.team fun s => s.lateTrap a (a.laneTrap 0x11 report lanes)

/-- The accesses with a Peer load under way that meets a condition on its module and step, with the lanes of those loads. -/
def State.peerAccesses (s : State) (f : Req → Nat → Nat → Bool) : List (Access × List (Nat × Word)) :=
  s.accesses.filterMap fun a =>
    let lost := s.requests.filter fun r => r.access == a.id && match r.loc with
      | .peer m _ st => f r m st
      | _ => false
    if lost.isEmpty then none else some (a, lost.flatMap Req.laneEas)

/-- Every such load is lost, with a report code. -/
def State.loseWhere (s : State) (report : Nat) (f : Req → Nat → Nat → Bool) : State :=
  (s.peerAccesses f).foldl (fun (s : State) x => s.loseLoad x.1 report x.2) s

/-- Peer lost at a blocked STEP. -/
def State.loseStep (s : State) (uid : Nat) : State :=
  s.withTeam uid fun s =>
    (s.mapTeam fun t => { t with status := .ready }).takeTrap ⟨{ Trap.bare 0x11 0 with epc := s.team.pc }, false⟩

/-- Is the boundary one that a loss discards, or one whose step is applied but not complete? -/
def Boundary.losable (b : Boundary) (vd : Nat) (applied : Bool) : Bool :=
  b.vd == vd && match b.state with
    | .collecting => !applied
    | .entered => !applied
    | .committed => applied
    | .applying => false
    | .done => false
    | .failed => false

/-- Is the team of that virtual device and blocked in STEP? -/
def Team.inStep (t : Team) (vd : Nat) : Bool :=
  t.vd == vd && match t.status with
    | .parked (.step _) => true
    | _ => false

/-- The boundaries of a domain that fails, and the loads other modules hold here. -/
def State.failBoundaries (s : State) (vd : Nat) : State :=
  { (s.boundaries.filter fun b => b.losable vd false).foldl (fun (s : State) (b : Boundary) => s.dropHalf vd b.n) s with
    boundaries := s.boundaries.map fun b =>
      if b.losable vd false || b.losable vd true then { b with state := .failed } else b
    heldLoads := s.heldLoads.filter fun h => !(h.vd == vd && s.committed vd < h.step) }

/-- Every load held here for this module's teams raises peer lost. -/
def State.loseLoads (s : State) (vd : Nat) : State :=
  s.loseWhere 0 fun r m st => s.reqVd r == vd && m == s.module && s.committed vd < st

/-- Every STEP blocked here raises peer lost. -/
def State.loseSteps (s : State) (vd : Nat) : State :=
  (s.teams.filter fun t => t.inStep vd).foldl (fun (s : State) (t : Team) => s.loseStep t.uid) s

/-- The domain fails: FAIL is set, the boundaries not applied are discarded, held loads and blocked STEPs raise peer lost. -/
def State.failDomain (s : State) (vd : Nat) : State :=
  if !s.stepEn vd || s.stepFail vd then s
  else
    ((((s.updReg (vdReg vd 0x050) fun w => wput w 61 61 1).failBoundaries vd).loseLoads vd).loseSteps vd).send1 (.fail vd)

/-- A member of a domain was lost: the domain fails, or will once the commit under way has ended (R129). FAIL belongs to the whole
domain, so a boundary that still collects fails with it after that commit, and not before. DESIGN CHOICE: log 110. -/
def State.loseMember (s : State) (vd : Nat) : State :=
  if s.boundaries.any fun b => b.vd == vd && b.state == .applying then
    { s with boundaries := s.boundaries.map fun b =>
        if b.vd == vd && b.state == .applying then { b with lost := true } else b }
  else s.failDomain vd

/-- The domains of which a module is a member lose it. -/
def State.memberLost (s : State) (m : Nat) : State :=
  ((List.range 256).filter fun vd => s.stepEn vd && s.isMember vd m).foldl State.loseMember s

/-- FAIL of another member reaches this module (R129). -/
def State.memberFail (s : State) (vd : Nat) : Out :=
  if !s.stepEn vd || s.stepFail vd then .fault .notEnabled else .next (s.loseMember vd)

/-- Another member answers that the loads of an access that it held are lost with the domain (R129). Which boundaries that member has
committed this module does not know (R124). -/
def State.loadLost (s : State) (request : Nat) : Out :=
  match findBy Req.id s.requests request with
  | none => .fault .notEnabled
  | some r =>
    match r.loc with
    | .peer m _ _ =>
      if m == s.module || !r.op.reads then .fault .notEnabled
      else .next (s.loseWhere 0 fun x m' _ => x.access == r.access && m' == m)
    | _ => .fault .notEnabled

/-! ## STEP and STEPQ -/

/-- The effect of STEP (R127). DESIGN CHOICE: log 78. -/
def State.doStep (s : State) : Res :=
  let t := s.team
  let n := t.stepNo + 1
  if !s.stepEn t.vd then s.openTrap 0x10 none
  else if s.stepFail t.vd then .trap (.bare 0x11 0) s
  else if s.complete t.vd + 1 < n then .wait (s.mapTeam fun t => { t with status := .parked (.step n) })
  else
    let b := s.boundaryOf t.vd n
    let s := s.mapTeam fun t => { t with stepNo := n, packetSeq := 0 }
    let s := s.mapTeam fun t => t.setPoint (t.pc + 4)
    .ok ((s.setBoundary { b with arrivals := b.arrivals + 1, byStep := true }).tryEnter t.vd n)

/-- STEP (R127): the team's arrival at the next boundary is counted. -/
def execStep : State → Out := execClosing .step ⟨false, false, [], []⟩ State.doStep

/-- What STEPQ reads (R128). -/
def State.stepQuery (s : State) (k : Nat) (b : Word) : Word :=
  let t := s.team
  if k = 0 then BitVec.ofNat 64 (t.stepNo % 2 ^ 32 * 2 ^ 32 + s.committed t.vd)
  else if k = 1 then
    let m := wbits b 11 0
    if s.isMember t.vd m then
      let (sl, ml) := s.quotaOf t.vd m (t.stepNo + 1)
      BitVec.ofNat 64 (sl * 2 ^ 32 + ml)
    else 0
  else
    let w := s.reg (regionReg (wbits b 7 0) 0)
    BitVec.ofNat 64 (b2n (w.getLsbD 63) * 4 + b2n (w.getLsbD 61) * 2 + b2n (w.getLsbD 62))

/-- STEPQ (R128): `s`d := step number and COMMITTED, quota left, or a region's state. -/
def execStepq (d k b : BitVec 6) : State → Out :=
  let srcs := if k = 0 then [] else [RegRef.u b.toNat]
  execClosing (.stepq d k b) ⟨false, false, srcs, [.u d.toNat]⟩ fun s =>
    .ok (s.mapTeam fun t => t.setU d.toNat (s.stepQuery k.toNat (t.u b.toNat)))

/-- A team that retires counts at every later boundary of its domain (R127). -/
def State.countExit (s : State) (t : Team) : State :=
  if !s.stepEn t.vd then s
  else
    let s := { s with exits := s.exits ++ [(t.vd, t.stepNo)] }
    (s.boundaries.filter fun b => b.vd == t.vd && b.state == .collecting).foldl (fun s b => s.tryEnter b.vd b.n) s

/-! ## The events of the boundary machine -/

/-- STEP_GRANT (R131, R365): a target's grant for a step reaches this module. One that would come before this module's own EN is set
comes later. DESIGN CHOICE: log 125. -/
def execStepGrant (vd target step slines mlines : Nat) (s : State) : Out :=
  if 256 ≤ vd then .fault .noSuchUnit
  else if !s.stepEn vd || !s.isMember vd target then .fault .notEnabled
  else .next (s.takeGrant vd target step slines mlines)

/-- STEP_PACKET (R121, R131, R132): a packet of another module arrives. -/
def execStepPacket (entry : StepEntry) (s : State) : Out :=
  if s.packetStalls entry then .fault .notEnabled
  else .next ((s.receivePacket entry).tryApply (s.regionVd entry.region) entry.step)

/-- PEER_LOAD_REQUEST (R124): another module's load is answered from the image of its step, or held until its step is
committed and its line is not under rebuild (R52); in a domain that has failed it is lost (R129). DEDUCED: log 77. -/
def execPeerLoadRequest (source load address bytes step : Nat) (s : State) : Out :=
  match s.regions.find? fun r => r.2.1 ≤ address && address < r.2.2 with
  | some g =>
    let vd := s.regionVd g.1
    if step ≤ s.committed vd && !s.stalls false address then .next (s.send1 (.peerData source load (s.imageRead vd step address bytes)))
    else if s.committed vd < step && s.stepFail vd then .next s
    else .next { s with heldLoads := s.heldLoads ++ [⟨vd, step, source, load, address, bytes⟩] }
  | none =>
    .next ({ s with draws := s.draws + 1 }.send1
      (.peerData source load (leBytes bytes (Config.remoteLoad s.draws).toNat)))

/-- BOUNDARY_END_MESSAGE (R129): END(n) of a member arrives; one that would come before this module's own EN is set comes later.
DESIGN CHOICE: log 125. -/
def execBoundaryEndMessage (vd source step lines : Nat) (s : State) : Out :=
  if 256 ≤ vd then .fault .noSuchUnit
  else if !s.stepEn vd || !s.isMember vd source || source == s.module then .fault .notEnabled
  else
    let b := s.boundaryOf vd step
    if b.state != .collecting && b.state != .entered || b.ends.any (fun e => e.1 == source) then .fault .notEnabled
    else
      let s := s.setBoundary { b with ends := b.ends ++ [(source, lines)] }
      .next ((s.tryEnter vd step).tryApply vd step)

/-- ENTER_BARRIER_DONE (R129). -/
def execEnterBarrierDone (vd step : Nat) (s : State) : Out :=
  let b := s.boundaryOf vd step
  if b.state != .entered || b.enterDone then .fault .notEnabled
  else .next ((s.setBoundary { b with enterDone := true }).tryApply vd step)

/-- The loads that COMMITTED = n lets go: other modules' are answered, this module's land (R124). -/
def State.serveHeld (s : State) (vd n : Nat) : State :=
  let s := s.answerHeld
  let own := s.requests.filterMap fun r => match r.loc with
    | .peer m addr st =>
      if m == s.module && r.op.reads && st ≤ n && s.reqVd r == vd && !s.stalls false addr then some (r, addr, st) else none
    | _ => none
  own.foldl (fun s r => s.servePeer r.1 r.2.1 r.2.2) s

/-- COMMIT_DONE (R129, R134): the writes of the step are applied, COMMITTED is n, and held loads are served. -/
def execCommitDone (vd step : Nat) (s : State) : Out :=
  let b := s.boundaryOf vd step
  if b.state != .applying || s.commitStalls vd step then .fault .notEnabled
  else
    let s := ((s.keepImage vd step).commit vd step).setBoundary { b with state := .committed }
    let s := s.updReg (vdReg vd 0x068) fun w => wput w 31 0 step
    let s := (s.serveHeld vd step).send1 (.joinCommit vd step)
    .next (if b.lost then s.failDomain vd else s)

/-- COMMIT_BARRIER_DONE (R129): COMPLETE is n, the half of the step is freed, step n + 2 is granted and blocked STEPs go on. -/
def execCommitBarrierDone (vd step : Nat) (s : State) : Out :=
  let b := s.boundaryOf vd step
  if b.state != .committed then .fault .notEnabled
  else
    let s := s.setBoundary { b with state := .done }
    let s := (s.updReg (vdReg vd 0x068) fun w => wput w 63 32 step).freeStep vd step
    let s := s.grantStep vd (step + 2)
    let s := s.mapTeams fun t => match t.status with
      | .parked (.step n) => if t.vd == vd && n ≤ step + 1 then { t with status := .ready, age := 0 } else t
      | _ => t
    .next (s.tryEnter vd (step + 1))

end Sys2Proof.Machine
end

