-- ==== Sys2Proof/Machine/Claims.lean ====
section
/-! DEFINITION. Tensor descriptors, claims, flows and the Weir (R77 to R96). -/

namespace Sys2Proof.Machine

/-! ## Tensor descriptors (R78 to R81) -/

/-- The descriptor that 64 bytes hold (R78, R79); an extent or stride beyond NDIM counts as 1 or 0. -/
def descOf (b : List Byte) : Desc :=
  let f := fun off n => leNat ((b.drop off).take n)
  let ctl := f 0x18 8
  let nd := bitsOf ctl 3 2
  { sspace := bitOf ctl 0, dspace := bitOf ctl 1, dpeer := bitOf ctl 63, pmod := bitsOf ctl 59 48
    esize := 2 ^ bitsOf ctl 5 4, src := f 0 8, dst := f 8 8
    ext := (List.range 4).map fun i => if i ≤ nd then f (0x10 + 2 * i) 2 else 1
    sstr := (List.range 3).map fun i => if i < nd then f (0x20 + 4 * i) 4 else 0
    dstr := (List.range 3).map fun i => if i < nd then f (0x2C + 4 * i) 4 else 0 }

/-- Extent i. -/
def Desc.n (d : Desc) (i : Nat) : Nat := d.ext.getD i 1
/-- Stride i + 1 of the source or destination. -/
def Desc.stride (d : Desc) (src : Bool) (i : Nat) : Nat := (if src then d.sstr else d.dstr).getD i 0
/-- First address of the source or destination. -/
def Desc.base (d : Desc) (src : Bool) : Nat := if src then d.src else d.dst
/-- Is that side in the Plain? -/
def Desc.plain (d : Desc) (src : Bool) : Bool := if src then d.sspace else d.dspace
/-- Bytes of a row. -/
def Desc.rowBytes (d : Desc) : Nat := d.n 0 * d.esize
/-- Rows. -/
def Desc.rows (d : Desc) : Nat := d.n 1 * d.n 2 * d.n 3
/-- The claim's total (R80). -/
def Desc.total (d : Desc) : Nat := d.rowBytes * d.rows

/-- The address of row r (R80). -/
def Desc.rowAt (d : Desc) (src : Bool) (r : Nat) : Nat :=
  (d.base src + r % d.n 1 * d.stride src 0 + r / d.n 1 % d.n 2 * d.stride src 1 +
    r / d.n 1 / d.n 2 * d.stride src 2) % 2 ^ 64

/-- The pieces of a side that linear bytes `off` to `off + len - 1` touch: linear offset, address, length (R80). -/
def Desc.pieces (d : Desc) (src : Bool) (off len : Nat) : List (Nat × Nat × Nat) :=
  let rb := d.rowBytes
  if len = 0 || rb = 0 then []
  else
    (List.range ((off + len - 1) / rb + 1 - off / rb)).map fun i =>
      let r := off / rb + i
      let lo := max off (r * rb)
      let hi := min (off + len) (r * rb + rb)
      (lo, (d.rowAt src r + (lo - r * rb)) % 2 ^ 64, hi - lo)

/-- The first and last byte of a side, without wrapping, so that a side that R80 carries past 2^64 has one interval.
DESIGN CHOICE: log 126. -/
def Desc.bounds (d : Desc) (src : Bool) : Nat × Nat :=
  (d.base src, d.base src + (d.n 1 - 1) * d.stride src 0 + (d.n 2 - 1) * d.stride src 1 +
    (d.n 3 - 1) * d.stride src 2 + d.rowBytes - 1)

/-- The form checks of R81 that both sides share: reserved bits, extents, unused fields and the total. -/
def descMalformed (b : List Byte) : Bool :=
  let f := fun off n => leNat ((b.drop off).take n)
  let ctl := f 0x18 8
  let nd := bitsOf ctl 3 2
  let d := descOf b
  bitsOf ctl 62 60 != 0 || bitsOf ctl 47 6 != 0 ||
  (List.range 4).any (fun i => if i ≤ nd then f (0x10 + 2 * i) 2 == 0 else f (0x10 + 2 * i) 2 != 0) ||
  (List.range 3).any (fun i => nd ≤ i && (f (0x20 + 4 * i) 4 != 0 || f (0x2C + 4 * i) 4 != 0)) ||
  (d.dpeer && !d.dspace) || (d.pmod != 0 && !d.dpeer) || 0xFFFFFFFF < d.total

/-- Is an address or a used stride of a side no multiple of the element size (R81)? -/
def Desc.unaligned (d : Desc) (src : Bool) : Bool :=
  d.base src % d.esize != 0 || (List.range 3).any fun i => d.stride src i % d.esize != 0

/-- Do the destination strides of the used dimensions overlap (R81)? -/
def Desc.overlaps (d : Desc) (nd : Nat) : Bool :=
  (1 ≤ nd && d.stride false 0 < d.rowBytes) || (2 ≤ nd && d.stride false 1 < d.n 1 * d.stride false 0) ||
  (3 ≤ nd && d.stride false 2 < d.n 2 * d.stride false 1)

/-- The checks of R81, for a descriptor that module `home` reads. -/
def descInvalid (home : Nat) (b : List Byte) : Bool :=
  let d := descOf b
  let nd := bitsOf (leNat ((b.drop 0x18).take 8)) 3 2
  let (slo, shi) := d.bounds true
  let (dlo, dhi) := d.bounds false
  descMalformed b || d.unaligned true || d.unaligned false || d.overlaps nd ||
  (d.sspace == d.dspace && (!d.dpeer || d.pmod == home) && slo ≤ dhi && dlo ≤ shi)

/-! ## Reads of operands by the descriptor engine (R83, R297, R299) -/

/-- The trap of a whole instruction at an address: `%fmask` is the active mask (R65). DEDUCED: log 80. -/
def State.wholeTrap (s : State) (code report : Nat) (tval : Word) : Res :=
  .trap { Trap.plain code tval s.team.mask with report := report } s

/-- The trap of a whole instruction at an address, for which the spec states no `%fmask` (log 16). -/
def State.bareTrap (s : State) (code report : Nat) (tval : Word) : Res :=
  .trap { Trap.bare code tval with report := report } s

/-- The trap of a whole instruction for which the spec states neither `%tval` nor `%fmask` (log 16). DESIGN CHOICE: log 41. -/
def State.bareOpen (s : State) (code report : Nat) : Res :=
  let (v, s) := s.openTval
  s.bareTrap code report v

/-- The trap of a whole instruction for whose cause no address is stated. DESIGN CHOICE: log 41. -/
def State.wholeOpen (s : State) (code report : Nat) : Res :=
  let (v, s) := s.openTval
  s.wholeTrap code report v

/-- `n` bytes at an operand address, through the descriptor engine. -/
def State.operand (s : State) (plain : Bool) (ea : Word) (n : Nat) : Except Res (State × List Byte) :=
  let t := s.team
  if plain then
    match s.plainPhys ea n t.part 1 with
    | .error (c, stopped) => .error (s.wholeTrap c (if stopped then 0x0A else 0) ea)
    | .ok (slice, off) =>
      if s.weirHit t.mill true 0 ea.toNat n false then .error (s.wholeTrap 0x0C 0 ea)
      else if s.plainBusy slice off n then .error (.wait s)
      else if s.plainPoisoned slice off n then .error (s.wholeTrap 0x12 0 ea)
      else .ok (s, s.plainRead slice off n)
  else
    match s.translate (.ahead t.die) ea.toNat t.asid .load t.sup with
    | (s, .fault c r) => .error (s.wholeTrap c r ea)
    | (s, .touch e a w) => .error (s.touchPage e a w ea (some t.mask))
    | (s, .leaf e) =>
      if s.weirHit t.mill false t.asid ea.toNat n false then .error (s.wholeTrap 0x0C 0 ea)
      else
        match s.teamThroughLeaf e ea.toNat n with
        | (s, .data bs) => .ok (s, bs)
        | (s, .fault c r) => .error (s.wholeTrap c r ea)
        | (s, .touch e a w) => .error (s.touchPage e a w ea (some t.mask))

/-! ## CLAIM (R82 to R85) -/

/-- The pages of a side in linear order. -/
def Desc.pages (d : Desc) (src : Bool) : List Nat :=
  ((d.pieces src 0 d.total).flatMap fun p =>
    (List.range ((p.2.1 + p.2.2 - 1) / 65536 + 1 - p.2.1 / 65536)).map fun i => max p.2.1 ((p.2.1 / 65536 + i) * 65536))

/-- The pages of a descriptor, the source's first, with the access each is walked for. -/
def Desc.walkList (d : Desc) : List (Nat × Acc) :=
  (if d.sspace then [] else (d.pages true).map fun a => (a, Acc.src)) ++
  (if d.dspace then [] else (d.pages false).map fun a => (a, Acc.dst))

/-- Walks that pin (R60, R83): the entries of the pages, or how the instruction ends. -/
def State.pinPages (s : State) (die asid : Nat) (sup : Bool) (held : List TlbEntry) :
    List (Nat × Acc) → List TlbEntry → Nat → Except Res (State × List TlbEntry)
  | [], pins, _ => .ok (s, pins)
  | (va, acc) :: rest, pins, fresh =>
    match s.translate (.ahead die) va asid acc sup with
    | (s, .fault c r) => .error (s.wholeTrap c r (BitVec.ofNat 64 va))
    | (s, .touch e a w) => .error (s.touchPage e a w (BitVec.ofNat 64 va) (some s.team.mask))
    | (s, .leaf e) =>
      if e.cls = 3 then .error (s.wholeTrap 0x10 0 (BitVec.ofNat 64 va))
      else
        match pinMore held pins fresh e with
        | none => .error (s.wholeTrap 0x0E 0x0B (BitVec.ofNat 64 va))
        | some (pins, fresh) => (s.keepPins die pins).pinPages die asid sup held rest pins fresh

/-- The first failing Plain row of a side (R14, R15): cause, stopped slice, address. -/
def State.rowFails (s : State) (d : Desc) (src : Bool) (part : Nat) : Option (Nat × Bool × Nat) :=
  if !d.plain src || (!src && d.dpeer) then none
  else (d.pieces src 0 d.total).findSome? fun p =>
    match s.plainPhys (BitVec.ofNat 64 p.2.1) p.2.2 part 1 with
    | .error (c, stopped) => some (c, stopped, p.2.1)
    | .ok _ => none

/-- The route of a module that is valid and not lost (R377). -/
def State.liveRoute (s : State) (m : Nat) (alt : Bool) : Option Word :=
  let r := s.reg (routeReg m alt)
  if r.getLsbD 63 && !r.getLsbD 62 then some r else none

/-- The first route of a module in use. -/
def State.anyRoute (s : State) (m : Nat) : Option Word := (s.liveRoute m false).orElse fun _ => s.liveRoute m true

/-- The ports of a route, hop by hop. -/
def routePorts (r : Word) : List Nat := (List.range (wbits r 34 32 + 1)).map fun h => bitsOf r.toNat (4 * h + 3) (4 * h)

/-- The module at the far end of a port: NEIGH of this module's own (R376); what the ports of other modules lead to is free.
DESIGN CHOICE: log 97. -/
def State.farEnd (s : State) (m port : Nat) : Nat :=
  if m = s.module then s.regBits (fportReg port) 43 32 else Config.farEnd m port

/-- The links that a list of ports takes from a module on: module and egress port of each hop. -/
def State.linksFrom (s : State) (m : Nat) : List Nat → List (Nat × Nat)
  | [] => []
  | p :: ps => (m, p) :: s.linksFrom (s.farEnd m p) ps

/-- The links of a route (R377). -/
def State.routeLinks (s : State) (r : Word) : List (Nat × Nat) := s.linksFrom s.module (routePorts r)

/-- An alternate route that shares no link with the route (R84). DESIGN CHOICE: log 97. -/
def State.alternateFor (s : State) (m : Nat) (r : Word) : Option Word :=
  ([s.liveRoute m false, s.liveRoute m true].filterMap id).find? fun x =>
    (s.routeLinks x).all fun l => !(s.routeLinks r).contains l

/-- The rows of the destination, which a reservation names: address and bytes (R15, R84). -/
def Desc.dstRows (d : Desc) : List (Nat × Nat) := (d.pieces false 0 d.total).map (·.2)

/-- The checks of a descriptor up to the peer's reservation: its pins. -/
def State.claimWalk (s : State) (d : Desc) : Except Res (State × List TlbEntry) :=
  let t := s.team
  match s.pinPages t.die t.asid t.sup (s.heldPins t.die) d.walkList [] 0 with
  | .error r => .error r
  | .ok (s, pins) =>
    match (s.rowFails d true t.part).orElse fun _ => s.rowFails d false t.part with
    | some (c, stopped, a) => .error (s.wholeTrap c (if stopped then 0x0A else 0) (BitVec.ofNat 64 a))
    | none =>
      if d.dpeer && (!(s.peer d.pmod).1 || (s.anyRoute d.pmod).isNone) then
        .error (s.wholeTrap 0x11 0x09 (BitVec.ofNat 64 d.dst))
      else .ok (s, pins)

/-- The descriptor's address; with V = 1 the lanes vote (R83). -/
def State.claimAddress (s : State) (a b : Nat) (v : Bool) : Except Res Word :=
  let t := s.team
  if !v then .ok (t.u a)
  else
    match t.active with
    | [] => .error (s.openTrap 0x05 (some 0))
    | l :: ls =>
      let w := t.v a l
      let bad := ls.filter fun k => t.v a k != w
      if bad.isEmpty then .ok (t.u b + w.setWidth 64) else .error (s.openTrap 0x05 (some (maskOf bad)))

/-- Is the slot in use? -/
def ClaimState.inUse : ClaimState → Bool
  | .free => false
  | .revoked => false
  | .claiming => false
  | .held => true
  | .flowing => true
  | .pending => true

/-- The effect of CLAIM up to the waits (R83): the slot is CLAIMING and the team waits for CLAIM_HELD. DEDUCED: log 76. -/
def State.doClaim (c a b : Nat) (p v : Bool) (s : State) : Res :=
  let t := s.team
  match s.claimAddress a b v with
  | .error r => r
  | .ok da =>
    if (t.claim c).state.inUse then s.wholeOpen 0x0E 0
    else if da.toNat % 64 != 0 then s.wholeTrap 0x06 0 da
    else if !s.performedAll t.uid true then .wait s
    else
      match s.operand p da 64 with
      | .error r => r
      | .ok (s, bytes) =>
        if descInvalid s.module bytes then s.wholeOpen 0x0E 0
        else
          let d := descOf bytes
          match s.claimWalk d with
          | .error r => r
          | .ok (s, pins) =>
            let old := s.team.claim c
            let route := if d.dpeer then s.anyRoute d.pmod else none
            let slot : Claim :=
              { Claim.free with
                state := .claiming, desc := d, die := t.die, pins := pins, total := d.total, route := route
                alternate := route.bind fun r => s.alternateFor d.pmod r
                prior := old.state, priorCause := old.cause, priorTotal := old.total }
            let s := if d.dpeer then s.send1 (.reserve d.pmod t.vd d.dstRows) else s
            .wait (s.mapTeam fun t => { t.setClaim c slot with status := .parked (.claim c) })

/-- CLAIM (R82, R83). -/
def execClaim (c : BitVec 4) (a b : BitVec 6) (p v : BitVec 1) : State → Out :=
  let srcs := if v = 1 then [RegRef.v a.toNat, .u b.toNat] else [RegRef.u a.toNat]
  execClosing (.claim c a b p v) ⟨false, false, srcs, []⟩
    (State.afterAcquires (State.doClaim c.toNat a.toNat b.toNat (p == 1) (v == 1)))

/-- The slot as it stood before the CLAIM (R86). -/
def Claim.restored (c : Claim) : Claim := { Claim.free with state := c.prior, cause := c.priorCause, total := c.priorTotal }

/-- The slot HELD. -/
def Claim.heldWith (c : Claim) (pins : List TlbEntry) (base count : Nat) : Claim :=
  { c with
    state := .held, cause := 0, pins := pins, stale := false, peerBase := base, peerCount := count, prior := .free
    priorCause := 0, priorTotal := 0 }

/-- What the peer's answer makes of a claim (R84). -/
def claimAnswer (d : Desc) (answer : PeerAnswer) : Option (Except Nat (Nat × Nat)) :=
  match answer, d.dpeer with
  | .none, false => some (.ok (0, 0))
  | .accepted base count, true => some (.ok (base, count))
  | .noPermit, true => some (.error 0x09)
  | .outside, true => some (.error 0x07)
  | _, _ => none

/-! ## Revocation (R86, R87) -/

/-- A revoking event acts on a claim: HELD becomes REVOKED and its pins go, FLOWING becomes PENDING. A CLAIMING slot takes no cause: the
table of R86 has no such row. DESIGN CHOICE: log 115. -/
def Claim.revoke (c : Claim) (code : Nat) : Claim :=
  match c.state with
  | .held => { Claim.free with state := .revoked, cause := code, total := c.total }
  | .flowing => { c with state := .pending, cause := code }
  | .free => c
  | .claiming => c
  | .pending => c
  | .revoked => c

/-- Every claim of a team for which `f` holds is revoked. -/
def Team.revokeIf (t : Team) (f : Claim → Bool) (code : Nat) : Team :=
  { t with claims := t.claims.map fun c => if f c.2 then (c.1, c.2.revoke code) else c }

/-- A walk under way restarts when an invalidation covers one of its pages: what it had pinned is let go (R73, R86). -/
def Team.staleIf (t : Team) (f : Claim → Bool) : Team :=
  { t with claims := t.claims.map fun c =>
      if c.2.state == .claiming && f c.2 then (c.1, { c.2 with stale := true, pins := [] }) else c }

/-- The claims that pin an entry for which `f` holds are revoked with a code; walks restart, those of copy nodes among them. -/
def State.revokePins (s : State) (f : TlbEntry → Bool) (code : Nat) : State :=
  { s.mapTeams fun t => (t.revokeIf (fun c => c.pins.any f) code).staleIf fun c => c.pins.any f with
    copyWaits := s.copyWaits.map fun w => if w.2.pins.any f then (w.1, { w.2 with stale := true, pins := [] }) else w }

/-! ## The Weir and the start of a flow (R90 to R94) -/

/-- The lowest and highest byte that a side of a sub-range touches. -/
def Desc.range (d : Desc) (src : Bool) (off len : Nat) : Option (Nat × Nat) :=
  match d.pieces src off len with
  | [] => none
  | p :: ps =>
    let all := p :: ps
    some (all.foldl (fun m x => min m x.2.1) p.2.1, all.foldl (fun m x => max m (x.2.1 + x.2.2 - 1)) 0)

/-- The Weir entries of a flow of module `home`: the source range and the destination range (R94). One in the Plain of another
module meets only entries of that module. DEDUCED: log 77. -/
def weirEntries (home mill flow asid : Nat) (d : Desc) (off len : Nat) : List WeirEntry :=
  ((d.range true off len).toList.map fun r => ⟨mill, flow, none, d.sspace, asid, r.1, r.2, false⟩) ++
  ((d.range false off len).toList.map fun r =>
    ⟨mill, flow, if d.dpeer && d.pmod != home then some d.pmod else none, d.dspace, asid, r.1, r.2, true⟩)

/-- Do two Weir entries share a byte? -/
def WeirEntry.meets (a b : WeirEntry) : Bool :=
  a.peer == b.peer && a.plain == b.plain && (a.plain || a.asid == b.asid) && a.lo ≤ b.hi && b.lo ≤ a.hi

/-- Does a flow wait for another's entries (R92)? -/
def State.weirConflict (s : State) (new : List WeirEntry) : Bool :=
  s.weir.any fun old => new.any fun x => old.mill == x.mill && x.meets old && (x.dest || old.dest)

/-- The unit in which poison is kept: a 64-bit word of the Plain, a line elsewhere. DEDUCED: log 77. -/
def unitOf (plain : Bool) : Nat := if plain then 8 else 64

/-- The chunks of a range: linear offsets at which a piece of one unit of the source and one of the destination begins. -/
def Desc.chunkAt (d : Desc) (off last : Nat) : Nat :=
  let side := fun src => match d.pieces src off (last + 1 - off) with
    | [] => 0
    | p :: _ => min p.2.2 (unitOf (d.plain src) - p.2.1 % unitOf (d.plain src))
  min (side true) (side false)

/-- The chunks of a flow (R91), cut so that each lies in one unit on both sides. DEDUCED: log 77. -/
def Desc.chunks (d : Desc) : Nat → Nat → Nat → List Nat
  | 0, _, _ => []
  | f + 1, off, last => if last < off then [] else off :: d.chunks f (off + max 1 (d.chunkAt off last)) last

/-- The flow of a copy node or of a team's slot. -/
def State.flowOf (s : State) (uid slot : Nat) : Option Flow := s.flows.find? fun f => f.team == some uid && f.slot == slot

/-- Has the team a flow running? -/
def State.flowRuns (s : State) (uid : Nat) : Bool := s.flows.any fun f => f.team == some uid

/-- A flow started: its entries are in the Weir and its slot is FLOWING (R90). -/
def State.startFlow (s : State) (slot off len : Nat) (ctr : Word) : State :=
  let t := s.team
  let c := t.claim slot
  let id := s.nextId
  let f : Flow :=
    { id := id, team := some t.uid, slot := slot, mill := t.mill, vd := t.vd, asid := t.asid, desc := c.desc, off := off
      len := len, chunks := c.desc.chunks len off (off + len - 1)
      ctrSlice := bitsOf ctr.toNat 29 21
      ctrOff :=
        if c.desc.dpeer then bitsOf ctr.toNat 20 0
        else match s.plainPhys ctr 16 t.part 1 with
          | .ok p => p.2
          | .error _ => 0
      peer := if c.desc.dpeer then some c.desc.pmod else none
      pins := c.pins, error := false, node := none, route := none, alternate := none }
  { s with
    flows := s.flows ++ [f]
    weir := s.weir ++ weirEntries s.module t.mill id t.asid c.desc off len
    nextId := id + 1 }.mapTeam fun t => (t.setClaim slot { c with state := .flowing }).setPoint (t.pc + 4)

/-- May a flow start: the team has none running, and none of the mill's stands in its way (R92)? -/
def State.mayFlow (s : State) (slot off len : Nat) : Bool :=
  let t := s.team
  !s.flowRuns t.uid && !s.weirConflict (weirEntries s.module t.mill 0 t.asid (t.claim slot).desc off len)

/-- The check of the counter of a flow (R90): the trap, if there is one. -/
def State.flowCounter (s : State) (c : Claim) (ca : Word) : Option (Nat × Bool) :=
  if c.desc.dpeer then
    if ca.toNat / 2 ^ 30 != 0 then some (0x07, false)
    else if ca.toNat % 16 != 0 then some (0x18, false)
    else if c.peerCount * 4096 < bitsOf ca.toNat 20 0 + 16 then some (0x07, false)
    else none
  else
    match s.counterPhys ca s.team.part with
    | .error e => some e
    | .ok (slice, off) => if s.ctrWord slice off 2 / 256 != 0 then some (0x18, false) else none

/-- Has the counter's bank a store to it queued, behind which the counter is read? -/
def State.counterBusy (s : State) (peer : Bool) (ca : Word) : Bool :=
  !peer && match s.counterPhys ca s.team.part with
    | .ok (slice, off) => s.plainBusy slice off 16
    | .error _ => false

/-- The effect of FLOW (R90). -/
def State.doFlow (slot a b : Nat) (all : Bool) (s : State) : Res :=
  let t := s.team
  let c := t.claim slot
  let ca := t.u a
  let bad := fun (code : Nat) (stopped : Bool) =>
    Res.trap { Trap.bare code ca with report := if stopped then 0x0A else 0 } s
  let (off, len) := if all then (0, c.total) else (wbits (t.u b) 31 0, wbits (t.u b) 56 32)
  if !s.performedAll t.uid true then .wait s
  else if c.state == .free then bad 0x0E false
  else if c.state == .revoked || c.state == .pending then bad 0x0D false
  else if !all && wbits (t.u b) 63 57 != 0 then bad 0x0E false
  else if len = 0 || 0x1000000 < len || c.total < off + len || off % c.desc.esize != 0 || len % c.desc.esize != 0 then
    bad 0x0E false
  else if s.counterBusy c.desc.dpeer ca then .wait s
  else
    match s.flowCounter c ca with
    | some (code, stopped) => bad code stopped
    | none =>
      if s.mayFlow slot off len then .ok (s.startFlow slot off len ca)
      else .wait (s.mapTeam fun t => { t with status := .parked (.flow slot off len ca) })

/-- FLOW (R90). -/
def execFlow (c : BitVec 4) (a b : BitVec 6) (all : BitVec 1) : State → Out :=
  let srcs := if all = 1 then [RegRef.u a.toNat] else [RegRef.u a.toNat, .u b.toNat]
  execClosing (.flow c a b all) ⟨false, false, srcs, []⟩ (State.afterAcquires (State.doFlow c.toNat a.toNat b.toNat (all == 1)))

/-- FLOW_START (R92): a held FLOW starts once no flow of its team and no conflict remains; one whose claim was revoked issues
again. -/
def execFlowStart (team : Nat) (s : State) : Out :=
  match s.focus team with
  | none => .fault .notEnabled
  | some s =>
    match s.team.status with
    | .parked (.flow slot off len ctr) =>
      let ready := s.mapTeam fun t => { t with status := .ready, age := 0 }
      if (s.team.claim slot).state != .held && !s.flowRuns s.team.uid then .next ready
      else if s.mayFlow slot off len then .next ((ready.startFlow slot off len ctr).advance 4)
      else .fault .notEnabled
    | _ => .fault .notEnabled

/-! ## The end of a flow (R93) -/

/-- A slot when its flow has ended: FLOWING is HELD again, PENDING is REVOKED (R86). -/
def Claim.afterFlow (c : Claim) : Claim :=
  match c.state with
  | .flowing => { c with state := .held }
  | .pending => { Claim.free with state := .revoked, cause := c.cause, total := c.total }
  | .free => c
  | .claiming => c
  | .held => c
  | .revoked => c

/-- A flow gone: its Weir entries and its slot, or the claim of a copy node that has ended already (R175). -/
def State.dropFlow (s : State) (f : Flow) : State :=
  let s := { s with flows := dropBy Flow.id s.flows f.id, weir := s.weir.filter fun w => w.flow != f.id }
  match f.team with
  | some uid => s.updTeam uid fun t => t.setClaim f.slot (t.claim f.slot).afterFlow
  | none =>
    match f.node with
    | some (g, n) => if (s.node g n).all (·.2.state.ended) then s.dropCopy g n else s
    | none => s

/-- Does the flow count on a counter of this module? A team's flow to a peer counts on one there (R90); a copy node's counts on its
COPYCTR, which this module arms (R175). -/
def Flow.countsHere (f : Flow) : Bool := f.peer.isNone || f.node.isSome

/-- The Plain address of a counter at a peer. -/
def Flow.ctrAddr (f : Flow) : Nat := f.ctrSlice * 2 ^ 21 + f.ctrOff

/-- A flow severed (R93): its counter gains SEVERED with the code, and it ends; the claim keeps the first code recorded. ERROR stays as
it is, since R93 sets it with a flow's last add. DESIGN CHOICE: log 116. -/
def State.sever (s : State) (f : Flow) (code : Nat) : State :=
  let s := match f.team with
    | some uid => s.updTeam uid fun t =>
      let c := t.claim f.slot
      t.setClaim f.slot { c with state := .pending, cause := if c.state == ClaimState.pending then c.cause else code }
    | none => s
  let s := s.dropFlow f
  if !f.countsHere then s.send1 (.flowStatus f.desc.pmod f.ctrAddr (4 + code * 16))
  else s.doJobs [.sever f.ctrSlice f.ctrOff code]

/-! ## FLOW_CHUNK_ACCEPT (R91, R93) -/

/-- The bytes of a source chunk: their values, whether they are poison, and whether they were read under an absent key. Those of a slice
that was stopped under the claim read as poisoned zeros. DESIGN CHOICE: log 115. -/
def State.chunkRead (s : State) (f : Flow) (addr n : Nat) : List Byte × Bool × Bool :=
  if f.desc.sspace then
    match s.plainPhys (BitVec.ofNat 64 addr) n (f.vd / 8) 1 with
    | .ok (slice, off) => (s.plainRead slice off n, s.plainPoisoned slice off n, false)
    | .error _ => (List.replicate n 0, true, false)
  else
    match f.pins.find? fun e => e.covers f.asid addr with
    | some e =>
      let (bs, st) := s.memRead (e.cls != 0) (e.pa addr) e.key (e.cls == 2 && e.key == 0 && s.bypass f.asid) n
      (bs, st == .poisoned, st == .keyAbsent)
    | none => (List.replicate n 0, true, false)

/-- A chunk written at its destination; whether it was discarded for want of a key. At a slice that was stopped under the claim the bytes
are dropped and the chunk counts as one without an error. DESIGN CHOICE: log 115. -/
def State.chunkWrite (s : State) (f : Flow) (addr : Nat) (bs : List Byte) (poison : Bool) : State × Bool :=
  if f.desc.dpeer then (s.send1 (.chunk f.desc.pmod addr bs poison (if f.countsHere then none else some f.ctrAddr)), false)
  else if f.desc.dspace then
    match s.plainPhys (BitVec.ofNat 64 addr) bs.length (f.vd / 8) 1 with
    | .ok (slice, off) =>
      if poison then (s.poisonWord slice (off / 8), false) else (s.plainStore slice off bs, false)
    | .error _ => (s, false)
  else
    match f.pins.find? fun e => e.covers f.asid addr with
    | some e =>
      let pa := e.pa addr
      let s := s.removeLine f.mill (.mem (e.cls != 0) pa e.key false)
      let open' := e.cls == 2 && e.key == 0 && s.bypass f.asid
      let (s, st) := if poison then s.memPoison (e.cls != 0) pa e.key open' else s.memWrite (e.cls != 0) pa e.key open' bs
      (if st == .keyAbsent then s.postKeyAbsent f.vd (pa / 64 * 64) e.key else s, st == .keyAbsent)
    | none => (s, false)

/-- Does a side of the chunk wait: in the Plain behind a store still queued, elsewhere for the rebuild of its line (R52)? -/
def State.chunkBusy (s : State) (f : Flow) (src : Bool) (addr n : Nat) : Bool :=
  if !src && f.desc.dpeer then false
  else if f.desc.plain src then
    match s.plainPhys (BitVec.ofNat 64 addr) n (f.vd / 8) 1 with
    | .ok (slice, off) => s.bankBusy slice off n
    | .error _ => false
  else (f.pins.find? fun e => e.covers f.asid addr).any fun e => s.stalls (e.cls != 0) (e.pa addr)

/-- May poison come in with the chunk now (R51, R53)? DEDUCED: log 75. -/
def State.chunkCalm (s : State) (f : Flow) (addr n : Nat) : Bool :=
  if f.desc.dpeer then true
  else if f.desc.dspace then
    match s.plainPhys (BitVec.ofNat 64 addr) n (f.vd / 8) 1 with
    | .ok (slice, off) => s.calmPlain slice (off / 8)
    | .error _ => true
  else (f.pins.find? fun e => e.covers f.asid addr).all fun e => s.calmLine (e.cls != 0) (e.pa addr / 64 * 64)

/-- The add of a counted chunk; with the last, ERROR is set in the same clock and the flow ends (R91, R93). -/
def State.countChunk (s : State) (f : Flow) (n : Nat) : State :=
  let last := f.chunks.isEmpty
  let s := if last then s.dropFlow f else { s with flows := updateBy Flow.id s.flows f.id fun _ => f }
  if !f.countsHere then if last && f.error then s.send1 (.flowStatus f.desc.pmod f.ctrAddr 8) else s
  else
    let s := if last && f.error then
        s.setCtrWord f.ctrSlice f.ctrOff 2 (s.ctrWord f.ctrSlice f.ctrOff 2 ||| 8)
      else s
    s.addCounter f.ctrSlice f.ctrOff n

/-- FLOW_CHUNK_ACCEPT: a chunk is read, written at its destination and counted, behind the writes that the banks have queued (R107). -/
def execFlowChunkAccept (flow offset : Nat) (s : State) : Out :=
  match findBy Flow.id s.flows flow with
  | none => .fault .notEnabled
  | some f =>
    let last := f.off + f.len - 1
    let n := f.desc.chunkAt offset last
    match f.chunks.contains offset, f.desc.pieces true offset n, f.desc.pieces false offset n with
    | true, src :: _, dst :: _ =>
      if s.chunkBusy f true src.2.1 n || s.chunkBusy f false dst.2.1 n || (f.countsHere && s.bankBusy f.ctrSlice f.ctrOff 16) then
        .fault .notEnabled
      else
        let (bs, poison, absent) := s.chunkRead f src.2.1 n
        if poison && !s.chunkCalm f dst.2.1 n then .fault .notEnabled
        else
        let s := if absent then
            match f.pins.find? fun e => e.covers f.asid src.2.1 with
            | some e => s.postKeyAbsent f.vd (e.pa src.2.1 / 64 * 64) e.key
            | none => s
          else s
        let (s, dropped) := s.chunkWrite f dst.2.1 bs poison
        .next (s.countChunk { f with
          chunks := f.chunks.filter (· != offset)
          error := f.error || poison || absent || dropped } n)
    | _, _, _ => .fault .notEnabled

/-! ## UNCLAIM and CLSTAT (R96) -/

/-- UNCLAIM: the slot goes to FREE; it holds at issue until a flow over the claim has ended. -/
def execUnclaim (c : BitVec 4) : State → Out :=
  execClosing (.unclaim c) ⟨false, false, [], []⟩ fun s =>
    let st := (s.team.claim c.toNat).state
    if st == .flowing || st == .pending then .wait s
    else .ok (s.mapTeam fun t => (t.setClaim c.toNat Claim.free).setPoint (t.pc + 4))

/-- The slot word (R96). -/
def Claim.word (c : Claim) : Word :=
  let st := match c.state with
    | .free => 0
    | .claiming => 0
    | .held => 1
    | .flowing => 1
    | .revoked => 2
    | .pending => 3
  BitVec.ofNat 64 (c.total * 2 ^ 32 + b2n (c.state == .flowing || c.state == .pending) * 256 + c.cause * 16 + st)

/-- CLSTAT: `s`d := the slot word. -/
def execClstat (d : BitVec 6) (c : BitVec 4) : State → Out :=
  execClosing (.clstat d c) ⟨false, false, [], [.u d.toNat]⟩ fun s =>
    .ok (s.mapTeam fun t => t.setU d.toNat (t.claim c.toNat).word)

/-! ## A peer's reservation at this module (R84, R378) -/

/-- PEER_RESERVATION: accepted with an enabled permit whose SVD is the sender, when every row of the destination, an address and a
size, lies in the window of TVD's partition (R14, R15). -/
def execPeerReservation (source vd : Nat) (addresses sizes : List Nat) (s : State) : Out :=
  if 4096 ≤ source then .fault .noSuchUnit
  else
    let p := s.reg (permitReg source)
    let part := wbits p 15 8 / 8
    let (_, base, count) := s.window part
    let outside := fun (r : Nat × Nat) => match s.plainPhys (BitVec.ofNat 64 r.1) r.2 part 1 with
      | .ok _ => false
      | .error _ => true
    let answer : PeerAnswer :=
      if !p.getLsbD 63 || wbits p 7 0 != vd then .noPermit
      else if (addresses.zip sizes).any outside then .outside
      else .accepted base count
    .next (s.send1 (.reserveAnswer source answer))

end Sys2Proof.Machine
end

