-- ==== Sys2Proof/Machine/Counters.lean ====
section
/-! DEFINITION. The counter instructions (R98, R99), FORK and JOIN (R155 to R157), GRDY (R298) and GSUBMIT (R299). -/

namespace Sys2Proof.Machine

/-- The set of a point after a 4-byte instruction. -/
def State.pointAfter (s : State) : State := s.mapTeam fun t => t.setPoint (t.pc + 4)

/-- An instruction on the counter at an address, its object checked (R98). It waits for the acquires of its team (R104), and `release`
for every earlier access to be performed at device scope; the counter is read behind what its bank has queued. DEDUCED: log 70.
DEDUCED: log 72. -/
def State.onCounter (s : State) (release : Bool) (ca : Word) (f : Nat → Nat → State → Res) : Res :=
  let t := s.team
  if s.acquiring t.uid || (release && !s.performedAll t.uid true) then .wait s
  else
    match s.counterPhys ca t.part with
    | .error (code, stopped) => s.bareOpen code (if stopped then 0x0A else 0)
    | .ok (slice, off) =>
      if s.plainBusy slice off 16 then .wait s
      else if s.ctrWord slice off 2 / 256 != 0 then s.bareOpen 0x18 0
      else f slice off s

/-- ACARM: ARRIVED := 0, EXPECTED := `s`b[31:0], word 2 := 0, waiters looked at again. -/
def execAcarm (a b : BitVec 6) : State → Out :=
  execClosing (.acarm a b) ⟨false, false, [.u a.toNat, .u b.toNat], []⟩ fun s =>
    s.onCounter true (s.team.u a.toNat) fun slice off s =>
      let s := ((s.setCtrWord slice off 0 0).setCtrWord slice off 1 (wbits (s.team.u b.toNat) 31 0)).setCtrWord slice off 2 0
      .ok (s.pointAfter.doJobs [.counter slice off])

/-- A result that comes back from a slice after the instruction has issued: `s`d stays pending until the turn that brings it (R231,
R252), which a save waits for where the effect is not to be made again (`kept`). DEDUCED: log 130. -/
def State.answerLater (s : State) (kept : Bool) (d : Nat) (ea : Word) (slice off : Nat) (v : Word) : State :=
  s.begin { plainAccess s.team none with dsts := [.u d], atomic := kept }
    [{ s.team.req 0 ea (.plain slice off) 8 (.uload d 0 8) with stage := .served (leBytes 8 v.toNat) }]

/-- The wait of ACWAIT and JOIN: at once when the condition holds, as an acquire at device scope; else the team parks. What comes of the
result is `answer`. -/
def State.waitCounter (answer : Nat → Nat → Word → State → State) (dest a : Nat) (s : State) : Res :=
  s.onCounter false (s.team.u a) fun slice off s =>
    if s.ctrDone slice off then .ok (answer slice off (s.ctrResult slice off) (s.dropLaneCache s.team.mill))
    else .wait (s.mapTeam fun t => { t with status := .parked (.counter slice off dest) })

/-- ACWAIT: parks until ARRIVED ≥ EXPECTED or word 2 ≠ 0. -/
def execAcwait (d a : BitVec 6) : State → Out :=
  execClosing (.acwait d a) ⟨false, false, [.u a.toNat], [.u d.toNat]⟩
    (State.waitCounter (fun _ _ v s => s.mapTeam fun t => t.setU d.toNat v) d.toNat a.toNat)

/-- ACADD: adds `s`b[31:0]. -/
def execAcadd (a b : BitVec 6) : State → Out :=
  execClosing (.acadd a b) ⟨false, false, [.u a.toNat, .u b.toNat], []⟩ fun s =>
    s.onCounter true (s.team.u a.toNat) fun slice off s =>
      .ok (s.pointAfter.addCounter slice off (wbits (s.team.u b.toNat) 31 0))

/-- ACRST: ARRIVED := 0, word 2 := RESET, GEN raised; waiters released, armed nodes cancelled. -/
def execAcrst (a : BitVec 6) : State → Out :=
  execClosing (.acrst a) ⟨false, false, [.u a.toNat], []⟩ fun s =>
    s.onCounter true (s.team.u a.toNat) fun slice off s =>
      let gen := s.ctrWord slice off 3
      let s := ((s.setCtrWord slice off 0 0).setCtrWord slice off 2 2).setCtrWord slice off 3 (gen + 1)
      .ok (s.pointAfter.doJobs [.counter slice off])

/-- ACREAD: `s`d := word w of the counter, as an acquire at device scope. -/
def execAcread (d a w : BitVec 6) : State → Out :=
  execClosing (.acread d a w) ⟨false, false, [.u a.toNat], [.u d.toNat]⟩ fun s =>
    s.onCounter false (s.team.u a.toNat) fun slice off s =>
      .ok ((s.dropLaneCache s.team.mill).mapTeam fun t => t.setU d.toNat (BitVec.ofNat 64 (s.ctrWord slice off w.toNat)))

/-! ## FORK and JOIN -/

/-- What SHAPE and SAVE words say of a kernel (R155, R170). -/
def kernelOf (entry recipe : Word) (nrecipe shape save : Nat) : Kernel :=
  { entry := entry, recipe := recipe, nrecipe := nrecipe
    swaths := bitsOf shape 4 0 + 1, teams := bitsOf shape 8 5 + 1, granules := bitsOf shape 12 9 + 1
    wpRows := bitsOf shape 19 13, maxG := max (bitsOf save 4 0) (bitsOf shape 12 9) + 1, nt := bitsOf save 10 5
    na := bitsOf save 15 11 }

/-- A SAVE word out of range (R170). -/
def saveBad (save : Nat) : Bool :=
  16 < bitsOf save 15 11 || 32 < bitsOf save 10 5 || 15 < bitsOf save 4 0 || save / 2 ^ 16 != 0

/-- Entries that a mill's deque holds (R156). -/
def State.deque (s : State) (mill : Nat) : List Child := mapGet [] s.deques mill

/-- Entries of a deque that stand in the mill: those of virtual devices that hold their partition's slice. Entries of the others lie
saved (R186). DEDUCED: log 57. -/
def State.liveDeque (s : State) (mill : Nat) : List Child :=
  (s.deque mill).filter fun c => (s.slice (c.vd / 8)).vd == some c.vd

/-- The entry that a child descriptor makes (R155, R156, R149, R238). -/
def State.childOf (s : State) (b : List Byte) : Child :=
  let f := fun off n => leNat ((b.drop off).take n)
  let t := s.team
  let g := s.wgOf t.wg
  { vd := t.vd, asid := t.asid
    kernel := kernelOf (BitVec.ofNat 64 (f 0 8)) 0 0 (f 0x10 4) (f 0x14 4)
    ctr := BitVec.ofNat 64 (f 8 8)
    args := (List.range 5).map fun i => BitVec.ofNat 64 (f (0x18 + 8 * i) 8)
    linear := (g.map (·.linear)).getD 0, x := (g.map (·.x)).getD 0, y := (g.map (·.y)).getD 0, z := (g.map (·.z)).getD 0
    stage := (g.map (·.stage)).getD 0, lseq := t.lseq }

/-- Is a child descriptor's counter one that R98 refuses? -/
def State.childCtrBad (s : State) (ctr : Word) : Bool :=
  match s.counterPhys ctr s.team.part with
  | .error _ => true
  | .ok (slice, off) => s.ctrWord slice off 2 / 256 != 0

/-- The effect of FORK (R156), whose answer comes back later (R231, R252). DEDUCED: log 72. DEDUCED: log 130. -/
def State.doFork (i : Instr) (d a : Nat) (s : State) : Res :=
  let t := s.team
  let ea := t.u a
  if !s.performedAll t.uid true || !s.mayAccess t.uid then .wait s
  else if ea.toNat % 64 != 0 then s.bareTrap 0x06 0 ea
  else
    match s.plainPhys ea 64 t.part 1 with
    | .error (code, stopped) => s.bareTrap code (if stopped then 0x0A else 0) ea
    | .ok (slice, off) =>
      if s.plainBusy slice off 64 then .wait s
      else if s.plainPoisoned slice off 64 then s.bareTrap 0x12 0 ea
      else
        let b := s.plainRead slice off 64
        let f := fun o n => leNat ((b.drop o).take n)
        let c := s.childOf b
        if f 0 8 % 2 != 0 || f 0x10 4 / 2 ^ 20 != 0 || saveBad (f 0x14 4) then .trap (bitsTrap i 0x01) s
        else if s.counterBusy false c.ctr then .wait s
        else if s.childCtrBad c.ctr then s.bareOpen 0x18 0
        else if 64 ≤ (s.liveDeque t.mill).length then .ok (s.pointAfter.answerLater true d ea slice off 1)
        else
          let s := { s with deques := mapSet [] s.deques t.mill (c :: s.deque t.mill) }
          .ok (s.pointAfter.answerLater true d ea slice off 0)

/-- FORK (R156): the child descriptor at `s`a is pushed onto the mill's deque; `s`d := 0, or 1 when it is full. -/
def execFork (d a : BitVec 6) : State → Out :=
  execClosing (.fork d a) ⟨false, false, [.u a.toNat], [.u d.toNat]⟩ (State.afterAcquires (State.doFork (.fork d a) d.toNat a.toNat))

/-- JOIN (R157): as ACWAIT on the counter at `s`a; the result of one that does not park comes back later (R231). DEDUCED: log 130. -/
def execJoin (d a : BitVec 6) : State → Out :=
  execClosing (.join d a) ⟨false, false, [.u a.toNat], [.u d.toNat]⟩ fun s =>
    if !s.mayAccess s.team.uid then .wait s
    else
      State.waitCounter (fun slice off v s => s.answerLater false d.toNat (s.team.u a.toNat) slice off v) d.toNat a.toNat s

/-! ## GRDY and GSUBMIT -/

/-- Is what a GRDY of the team releases performed at device scope: every access of its own, and those its siblings issued before
they arrived at a BAR that it has completed (R114)? DEDUCED: log 73. -/
def State.groupPerformed (s : State) (t : Team) : Bool :=
  s.performedAll t.uid true && s.requests.all fun r => !t.covered.contains r.id || r.performed true

/-- GRDY (R298): a release, which waits for the acquires of its team (R104), and the workgroup's ready flag is set. DEDUCED: log 73. -/
def execGrdy : State → Out :=
  execClosing .grdy ⟨false, false, [], []⟩ fun s =>
    if s.acquiring s.team.uid || !s.groupPerformed s.team then .wait s
    else .ok ((s.wgOf s.team.wg).elim s.pointAfter fun g => s.pointAfter.setReady g)

/-- The effect of GSUBMIT (R299). -/
def State.doSubmit (d a : Nat) (s : State) : Res :=
  let t := s.team
  let ea := t.u a
  if ea.toNat % 128 != 0 then s.bareTrap 0x06 0 ea
  else if !s.performedAll t.uid true then .wait s
  else
    match s.operand false ea 128 with
    | .error r => r
    | .ok (s, b) =>
      let q := mapGet [] s.deviceQueues t.vd
      if 16 ≤ q.length then .ok (s.mapTeam fun t => t.setU d 1).pointAfter
      else
        let s := { s with deviceQueues := mapSet [] s.deviceQueues t.vd (q ++ [Submitted.mk t.asid ea b]) }
        .ok (s.mapTeam fun t => t.setU d 0).pointAfter

/-- GSUBMIT (R299): the submission at `s`a is appended to the device queue; `s`d := 0, or 1 when it holds 16. -/
def execGsubmit (d a : BitVec 6) : State → Out :=
  execClosing (.gsubmit d a) ⟨false, false, [.u a.toNat], [.u d.toNat]⟩ (State.afterAcquires (State.doSubmit d.toNat a.toNat))

end Sys2Proof.Machine
end

