-- ==== Sys2Proof/Machine/Tile.lean ====
section
/-! DEFINITION. The Millstone: tile loads and stores (R305 to R309), leases and TZERO (R310), MMA (R311, R312) and the accumulator
operations (R313 to R315). -/

namespace Sys2Proof.Machine

/-! ## Shapes (R303, R304) -/

/-- A tile's shape. -/
structure Shape where
  fmt : Nat
  cols : Nat
  rows : Nat
  deriving DecidableEq, Repr

/-- The shape that a `%tshape` value gives. -/
def shapeOf (w : Word) : Shape := ⟨wbits w 19 16, wbits w 15 8, wbits w 7 0⟩

/-- The value of a shape. -/
def Shape.word (x : Shape) : Word := BitVec.ofNat 64 (x.fmt * 2 ^ 16 + x.cols * 2 ^ 8 + x.rows)

/-- `%tshape`n of a mill. -/
def State.tshapeWord (s : State) (mill n : Nat) : Word := mapGet 0x14040 s.tshape (mill * 32 + n)

/-- `%tshape`n of a mill := w. -/
def State.setTshape (s : State) (mill n : Nat) (w : Word) : State :=
  { s with tshape := mapSet 0x14040 s.tshape (mill * 32 + n) w }

/-- The shape of a tile of the team's mill. -/
def State.shape (s : State) (n : Nat) : Shape := shapeOf (s.tshapeWord s.team.mill n)

/-- Bytes of an element of a format that is no block format. -/
def elemBytes (fmt : Nat) : Nat := if fmt = 0 then 4 else if fmt = 3 then 1 else 2

/-- Row bytes. -/
def Shape.rowBytes (x : Shape) : Nat :=
  if blockK x.fmt = 0 then elemBytes x.fmt * x.cols else blockBytes (blockK x.fmt) * x.cols / 16

/-- Bytes of the whole shape. -/
def Shape.total (x : Shape) : Nat := x.rows * x.rowBytes

/-- Alignment. -/
def Shape.align (x : Shape) : Nat :=
  match x.fmt with
  | 0 => 4
  | 3 => 1
  | 5 => 4
  | 6 => 4
  | _ => 2

/-- Is the shape valid? -/
def Shape.valid (x : Shape) : Bool :=
  let top := if x.fmt = 6 then 128 else 64
  x.fmt ≤ 6 && 1 ≤ x.rows && x.rows ≤ top && 1 ≤ x.cols && x.cols ≤ top &&
  (blockK x.fmt == 0 || x.cols % 16 == 0) && x.total ≤ 8192

/-! ## The tile and accumulator files -/

/-- The key of a byte of a tile. -/
def tileKey (mill n off : Nat) : Nat := mill * 2 ^ 18 + n * 8192 + off

/-- The key of a word of an accumulator. -/
def accKey (mill n w : Nat) : Nat := mill * 2 ^ 16 + n * 4096 + w

/-- The first `n` bytes of a tile of the team's mill. -/
def State.tileRead (s : State) (t n : Nat) : List Byte := mapBytes 0 s.tiles (tileKey s.team.mill t 0) n

/-- Bytes of a tile written; a 64-bit word written whole is no longer poisoned (R51). -/
def State.tileWrite (s : State) (t off : Nat) (bs : List Byte) : State :=
  let k := tileKey s.team.mill t off
  { s with
    tiles := mapSplice 0 s.tiles k bs
    tilePoison := s.tilePoison.filter fun w => !(k ≤ 8 * w && 8 * w + 8 ≤ k + bs.length) }

/-- Is one of the first `n` bytes of a tile poisoned? -/
def State.tilePoisoned (s : State) (t n : Nat) : Bool :=
  let k := tileKey s.team.mill t 0
  s.tilePoison.any fun w => k ≤ 8 * w && 8 * w < k + n

/-- Word (i, j) of an accumulator of the team's mill. -/
def State.acc (s : State) (c i j : Nat) : Lane := mapGet 0 s.accs (accKey s.team.mill c (64 * i + j))

/-- Words of an accumulator written. -/
def State.setAcc (s : State) (c : Nat) (ws : List (Nat × Lane)) : State :=
  { s with accs := mapSetMany 0 s.accs (ws.map fun w => (accKey s.team.mill c w.1, w.2)) }

/-- The bits of element (i, j) in the bytes of a tile; those of its whole block for a block format. -/
def Shape.elemAt (x : Shape) (bytes : List Byte) (i j : Nat) : Nat :=
  let k := blockK x.fmt
  if k = 0 then leNat ((bytes.drop (i * x.rowBytes + j * elemBytes x.fmt)).take (elemBytes x.fmt))
  else leNat ((bytes.drop (i * x.rowBytes + j / 16 * blockBytes k)).take (blockBytes k))

/-- The exact value of element (i, j). DEDUCED: log 42. -/
def Shape.value (x : Shape) (bytes : List Byte) (i j : Nat) : FVal :=
  let b := x.elemAt bytes i j
  match elemFloat? x.fmt with
  | some f => decodeFloat f b
  | none => if blockK x.fmt = 0 then intVal (signed 8 b) else blockElem (blockK x.fmt) b (j % 16)

/-- The integer value of an INT8 element. -/
def Shape.int (x : Shape) (bytes : List Byte) (i j : Nat) : Int := signed 8 (x.elemAt bytes i j)

/-! ## What a Millstone instruction checks first (R301, R356) -/

/-- Is the tile, or the accumulator, still to be written by an earlier instruction? -/
def State.stoneBusy (s : State) (acc : Bool) (n : Nat) : Bool :=
  (s.millstone s.team.mill).busy.any fun o => o.acc == acc && o.n == n

/-- Does the team's last MMA of a lease still run? DEDUCED: log 43. -/
def State.leaseEnding (s : State) : Bool :=
  let x := s.millstone s.team.mill
  x.holder == some s.team.uid && x.busy.any (·.ends)

/-- An instruction that writes its tile or accumulator some clocks after issue: the Millstone is busy with it.
DEDUCED: log 43. -/
def State.stoneStarts (s : State) (acc : Bool) (n : Nat) (ends : Bool) : State :=
  let x := s.millstone s.team.mill
  s.setMillstone s.team.mill { x with busy := x.busy ++ [⟨acc, n, ends⟩] }

/-- The lease trap of R301, or the wait for tiles and accumulators, or the effect. -/
def State.onStone (s : State) (tiles accs : List Nat) (f : State → Res) : Res :=
  if !s.ownsStone s.team.part s.team.mill then s.openTrap 0x17 none
  else if tiles.any (s.stoneBusy false) || accs.any (s.stoneBusy true) then .wait s
  else f s

/-- Tile shape, with `%tval` zero (R312, R356). -/
def tileShapeTrap : Trap := .bare 0x19 0

/-- The tracked sets with a tile or an accumulator that the instruction writes; none when there is no room (R356). -/
def Team.track (t : Team) (acc : Bool) (n : Nat) : Option Team :=
  if acc then
    if t.accs.contains n then some t else if t.accs.length < t.maxA then some { t with accs := n :: t.accs } else none
  else
    if t.tiles.contains n then some t else if t.tiles.length < t.maxT then some { t with tiles := n :: t.tiles } else none

/-- The effect of an instruction that writes a tile or an accumulator, which is tracked. -/
def State.writing (s : State) (acc : Bool) (n : Nat) (f : State → Res) : Res :=
  match s.team.track acc n with
  | some t => f { s with team := t }
  | none => .trap tileShapeTrap s

/-- Poisoned data from a tile or a register (R51, R309). DEDUCED: log 40. -/
def poisonedTile (s : State) : Res := .trap (.bare 0x12 0) s

/-! ## The memory side of a tile access (R306, R307) -/

/-- A range of a tile access: where it lies, its address, its length. -/
structure TileRange where
  loc : Loc
  ea : Word
  n : Nat
  deriving DecidableEq, Repr

/-- The Plain rows of a tile (R14, R15). -/
def State.plainRanges (s : State) : List (Word × Nat) → Except Res (List TileRange)
  | [] => .ok []
  | (ea, n) :: rest =>
    match s.plainPhys ea n s.team.part 1 with
    | .error (c, stopped) => .error (s.wholeTrap c (if stopped then 0x0A else 0) ea)
    | .ok (slice, off) =>
      match s.plainRanges rest with
      | .ok more => .ok (⟨.plain slice off, ea, n⟩ :: more)
      | r => r

/-- Translated pieces, each within one line, walked through the walk-ahead TLB of the die. -/
def State.memRanges (acc : Acc) : State → List (Nat × Nat) → Except Res (State × List TileRange)
  | s, [] => .ok (s, [])
  | s, (va, n) :: rest =>
    let t := s.team
    let ea := BitVec.ofNat 64 va
    match s.translate (.ahead t.die) va t.asid acc t.sup with
    | (s, .fault c r) => .error (s.wholeTrap c r ea)
    | (s, .touch e a w) => .error (s.touchPage e a w ea (some t.mask))
    | (s, .leaf e) =>
      if e.cls = 3 then .error (s.wholeTrap 0x10 0 ea)
      else
        match State.memRanges acc s rest with
        | .ok (s, more) => .ok (s, ⟨s.locOf e va, ea, n⟩ :: more)
        | r => r

/-- The checks of a tile access's descriptor (R81, R307). -/
def tileDescInvalid (load : Bool) (b : List Byte) : Bool :=
  let d := descOf b
  let nd := bitsOf (leNat ((b.drop 0x18).take 8)) 3 2
  let zero := fun off n => leNat ((b.drop off).take n) == 0
  descMalformed b || d.dpeer || d.pmod != 0 || d.unaligned load ||
  (if load then !zero 8 8 || !zero 0x2C 12 || d.dspace else !zero 0 8 || !zero 0x20 12 || d.sspace || d.overlaps nd)

/-- `DescriptorSide` (R307): the ranges of the used side, in linear order. -/
def State.descriptorSide (s : State) (da : Word) (load : Bool) (sh : Shape) : Except Res (State × List TileRange) :=
  if s.acquiring s.team.uid || !s.performedAll s.team.uid true then .error (.wait s)
  else if da.toNat % 64 != 0 then .error (s.wholeTrap 0x06 0 da)
  else
    match s.operand false da 64 with
    | .error r => .error r
    | .ok (s, b) =>
      let d := descOf b
      if tileDescInvalid load b then .error (s.wholeOpen 0x0E 0)
      else if d.total != sh.total then .error (s.wholeOpen 0x19 0)
      else
        let ps := d.pieces load 0 d.total
        if d.plain load then
          match s.plainRanges (ps.map fun p => (BitVec.ofNat 64 p.2.1, p.2.2)) with
          | .ok rs => .ok (s, rs)
          | .error r => .error r
        else State.memRanges (if load then .src else .dst) s (ps.flatMap fun p => lineRanges p.2.2 p.2.1 p.2.2)

/-- The rows of a tile at a Plain address and a stride (R306). -/
def State.strideSide (s : State) (a : Word) (stride : Nat) (load : Bool) (sh : Shape) : Except Res (State × List TileRange) :=
  if a.toNat % sh.align != 0 then .error (s.wholeTrap 0x06 0 a)
  else if stride % sh.align != 0 then .error (s.wholeOpen 0x06 0)
  else if !load && 1 < sh.rows && stride < sh.rowBytes then .error (s.wholeOpen 0x19 0)
  else
    match s.plainRanges ((List.range sh.rows).map fun i => (a + BitVec.ofNat 64 (i * stride), sh.rowBytes)) with
    | .ok rs => .ok (s, rs)
    | .error r => .error r

/-- The range of a tile access that the Weir holds, if any (R94). -/
def State.weirRange (s : State) (write : Bool) (rs : List TileRange) : Option TileRange :=
  rs.find? fun r => match r.loc with
    | .plain _ _ => s.weirHit s.team.mill true 0 r.ea.toNat r.n write
    | _ => s.weirHit s.team.mill false s.team.asid r.ea.toNat r.n write

/-- Does a request that the access must follow still stand before a range, or the rebuild of its line (R36, R52, R106, R109)? -/
def State.rangeBusy (s : State) (r : TileRange) : Bool :=
  match r.loc with
  | .plain slice off => s.plainBusy slice off r.n
  | .mem host pa _ _ => s.stalls host pa || s.writeAhead s.team r.loc
  | .peer _ _ _ => false

/-- The address of the first poisoned byte of a range, if any (R51, R53). -/
def State.rangePoison (s : State) (r : TileRange) : Option Word :=
  match r.loc with
  | .plain slice off =>
    ((List.range r.n).find? fun i => s.plainPoison.contains (slice, (off + i) / 8)).map fun i => r.ea + BitVec.ofNat 64 i
  | loc => if s.poisonedAt loc r.n then some r.ea else none

/-- The bytes of a range; a key not LOADED gives zeros and its event (R46). -/
def State.rangeRead (s : State) (r : TileRange) : State × List Byte :=
  match r.loc with
  | .plain slice off => (s, s.plainRead slice off r.n)
  | .mem host pa key bypass =>
    let (bs, st) := s.memRead host pa key bypass r.n
    (if st == .keyAbsent then s.postKeyAbsent s.team.vd (pa / 64 * 64) key else s, bs)
  | .peer _ _ _ => (s, List.replicate r.n 0)

/-- The bytes of every range, in order. -/
def State.rangesRead : State → List TileRange → State × List Byte
  | s, [] => (s, [])
  | s, r :: rs =>
    let (s, bs) := s.rangeRead r
    let (s, more) := State.rangesRead s rs
    (s, bs ++ more)

/-- A vector of `n` FP32 values in the Plain (R308, R314): its alignment to 4 is checked first, then the one region (R14). A poisoned word
raises 0x12 with its address. DESIGN CHOICE: log 139. -/
def State.plainVector (s : State) (a n : Nat) : Except Res (List Nat) :=
  let ea := BitVec.ofNat 64 a
  if a % 4 != 0 then .error (s.wholeTrap 0x06 0 ea)
  else
  match s.plainPhys ea (4 * n) s.team.part 1 with
  | .error (c, stopped) => .error (s.wholeTrap c (if stopped then 0x0A else 0) ea)
  | .ok (slice, off) =>
    if s.acquiring s.team.uid || s.plainBusy slice off (4 * n) then .error (.wait s)
    else
      match s.rangePoison ⟨.plain slice off, ea, 4 * n⟩ with
      | some bad => .error (s.wholeTrap 0x12 0 bad)
      | none => .ok ((List.range n).map fun i => leNat (s.plainRead slice (off + 4 * i) 4))

/-! ## TLD (R306 to R309) -/

/-- A row of a tile after smoothing (R308): its bytes and flags. -/
def Shape.smoothRow (x : Shape) (bytes : List Byte) (sv : List Nat) (i : Nat) : List Byte × Nat :=
  let prod := (List.range x.cols).map fun j => mulVal (x.value bytes i j) (decodeFloat .fp32 (sv.getD j 0))
  let rs : List (Nat × Nat × Nat) := match elemFloat? x.fmt with
    | some f => prod.map fun p => let r := roundWith f 1 p; (elemBytes x.fmt, r.1, r.2)
    | none =>
      let k := blockK x.fmt
      (List.range (x.cols / 16)).map fun b =>
        let q := quantise k 1 (((prod.drop (16 * b)).take 16).map (·.1))
        (blockBytes k, q.1, ((prod.drop (16 * b)).take 16).foldl (fun f p => f ||| p.2) q.2)
  (rs.flatMap fun r => leBytes r.1 r.2.1, rs.foldl (fun f r => f ||| r.2.2) 0)

/-- The tile's bytes as TLD leaves them, with flags. -/
def Shape.loaded (x : Shape) (bytes : List Byte) (sv : Option (List Nat)) : List Byte × Nat :=
  match sv with
  | none => (bytes, 0)
  | some v =>
    let rows := (List.range x.rows).map (x.smoothRow bytes v)
    (rows.flatMap (·.1), rows.foldl (fun f r => f ||| r.2) 0)

/-- TLD once its ranges are known: the Weir, the read, the tile. -/
def State.tileLoad (s : State) (n : Nat) (sh : Shape) (rs : List TileRange) (sv : Option (List Nat)) : Res :=
  match s.weirRange false rs with
  | some r => s.wholeTrap 0x0C 0 r.ea
  | none =>
    if !s.mayAccess s.team.uid || rs.any s.rangeBusy then .wait s
    else
      match rs.findSome? s.rangePoison with
      | some ea => s.wholeTrap 0x12 0 ea
      | none =>
        s.writing false n fun s =>
          let (s, bytes) := s.rangesRead rs
          let (out, fl) := sh.loaded bytes sv
          (s.tileWrite n 0 out).flagged [(0, fl)] true

/-- TLD (R306): `side` gives its ranges, `sv` the address of a smoothing vector. DEDUCED: log 39. -/
def State.doTld (n : Nat) (side : State → Shape → Except Res (State × List TileRange)) (sv : Option Nat) (s : State) : Res :=
  s.onStone [n] [] fun s =>
    let sh := s.shape n
    if sv.isSome && sh.fmt == 3 then s.wholeOpen 0x19 0
    else
      match side s sh with
      | .error r => r
      | .ok (s, rs) =>
        match sv with
        | none => s.tileLoad n sh rs none
        | some a =>
          match s.plainVector a sh.cols with
          | .error r => r
          | .ok v => s.tileLoad n sh rs (some v)

/-- TLD with DESC = 0: rows at a Plain address and a stride. -/
def execTld (t : BitVec 5) (a b : BitVec 6) (m : BitVec 1) : State → Out :=
  execClosing (.tld t a b m) ⟨false, false, [.u a.toNat, .u b.toNat], []⟩ fun s =>
    let w := s.team.u b.toNat
    s.doTld t.toNat (fun s sh => s.strideSide (s.team.u a.toNat) (wbits w 31 0) true sh)
      (if m = 1 then some (wbits w 63 32) else none)

/-- TLD with DESC = 1: the source side of a tensor descriptor. -/
def execTldD (t : BitVec 5) (a b : BitVec 6) (m : BitVec 1) : State → Out :=
  let srcs := if m = 1 then [RegRef.u a.toNat, .u b.toNat] else [RegRef.u a.toNat]
  execClosing (.tldD t a b m) ⟨false, false, srcs, []⟩ fun s =>
    s.doTld t.toNat (fun s sh => s.descriptorSide (s.team.u a.toNat) true sh)
      (if m = 1 then some (wbits (s.team.u b.toNat) 63 32) else none)

/-! ## TST -/

/-- The stores of a tile's bytes to its ranges, each within one 64-bit word of the Plain or one line. -/
def tileStores : List TileRange → List Byte → List (Loc × Word × List Byte)
  | [], _ => []
  | r :: rs, bs =>
    let here := bs.take r.n
    let cut := match r.loc with
      | .plain slice off => (wordPieces r.n off here).map fun p => (Loc.plain slice p.1, r.ea + BitVec.ofNat 64 (p.1 - off), p.2)
      | loc => [(loc, r.ea, here)]
    cut ++ tileStores rs (bs.drop r.n)

/-- TST (R306): the tile is read and its bytes are stored under a completion counter. DEDUCED: log 39. -/
def State.doTst (n : Nat) (side : State → Shape → Except Res (State × List TileRange)) (s : State) : Res :=
  s.onStone [n] [] fun s =>
    let sh := s.shape n
    match side s sh with
    | .error r => r
    | .ok (s, rs) =>
      match s.weirRange true rs with
      | some r => s.wholeTrap 0x0C 0 r.ea
      | none =>
        if !s.mayAccess s.team.uid then .wait s
        else if s.tilePoisoned n sh.total then poisonedTile s
        else .ok (s.sendStore ((tileStores rs (s.tileRead n sh.total)).map fun w => (0, w)))

/-- TST with DESC = 0. -/
def execTst (t : BitVec 5) (a b : BitVec 6) : State → Out :=
  execClosing (.tst t a b) ⟨false, false, [.u a.toNat, .u b.toNat], []⟩ fun s =>
    s.doTst t.toNat fun s sh => s.strideSide (s.team.u a.toNat) (wbits (s.team.u b.toNat) 31 0) false sh

/-- TST with DESC = 1: the destination side of a tensor descriptor. -/
def execTstD (t : BitVec 5) (a : BitVec 6) : State → Out :=
  execClosing (.tstD t a) ⟨false, false, [.u a.toNat], []⟩ fun s =>
    s.doTst t.toNat fun s sh => s.descriptorSide (s.team.u a.toNat) false sh

/-! ## Leases and TZERO (R180, R310) -/

/-- MLEASE #n: a request for n operations; lease (0x17) when one is held or the Millstone is another partition's. -/
def execMlease (n : BitVec 12) : State → Out :=
  execClosing (.mlease n) ⟨false, false, [], []⟩ fun s =>
    if s.team.leaseHeld || !s.ownsStone s.team.part s.team.mill then s.openTrap 0x17 none
    else .wait (s.requestLease (n.toNat + 1))

/-- MRELS: a held lease ends; without one it has no effect. -/
def execMrels : State → Out :=
  execClosing .mrels ⟨false, false, [], []⟩ fun s =>
    .ok (if s.team.leaseHeld then s.endLease s.team else s)

/-- TZERO: every byte of the tile := 0. -/
def execTzero (t : BitVec 5) : State → Out :=
  execClosing (.tzero t) ⟨false, false, [], []⟩ fun s =>
    s.onStone [t.toNat] [] fun s => s.writing false t.toNat fun s =>
      .ok ((s.tileWrite t.toNat 0 (List.replicate 8192 0)).stoneStarts false t.toNat false)

/-- MILLSTONE_OPERATION_COMPLETE (R301): the oldest operation has written its tile or accumulator; the lease ends with the MMA
that brought REMAIN to 0 (R180). DEDUCED: log 43. -/
def execMillstoneOperationComplete (mill : Nat) (s : State) : Out :=
  let x := s.millstone mill
  match x.busy with
  | [] => .fault .notEnabled
  | o :: rest =>
    let s := s.setMillstone mill { x with busy := rest }
    match if o.ends then x.holder.bind s.teamOf else none with
    | some t => .next (s.endLease t)
    | none => .next s

/-! ## MMA (R206 to R208, R312) -/

/-- Is the combination of a format word and a semiring one of R207? -/
def mmaAllowed (w : Nat) (sem : Nat) : Bool :=
  let af := bitsOf w 3 0
  let bf := bitsOf w 7 4
  let floats := [1, 2, 4, 5, 6]
  w / 2 ^ 12 == 0 && bitsOf w 10 8 ≤ 5 &&
  ((floats.contains af && floats.contains bf && !bitOf w 11 && sem ≤ 3) ||
   (af == 3 && bf == 3 && (sem ≤ 3 || (sem == 4 && bitOf w 11))))

/-- New C of one element: its bits and flags (R208). Integer terms are formed exactly and have no sign of zero. DEDUCED: log 42. -/
def mmaElem (w sem rm : Nat) (c : Lane) (a b : Shape) (ab bb : List Byte) (i j : Nat) : Lane × Nat :=
  let ks := List.range a.cols
  if a.fmt = 3 then
    let ps := ks.map fun k => (a.int ab i k, b.int bb k j)
    if bitOf w 11 then (BitVec.ofInt 32 (mmaInt sem (signed 32 c.toNat) ps), 0)
    else
      let (v, fl) := mmaFloat sem rm (decodeFloat .fp32 c.toNat) (ps.map fun p => intVal (mmaIntTerm sem p))
      (BitVec.ofNat 32 v, fl)
  else
    let (v, fl) := mmaFloat sem rm (decodeFloat .fp32 c.toNat) (ks.map fun k => mmaTerm sem rm (a.value ab i k) (b.value bb k j))
    (BitVec.ofNat 32 v, fl)

/-- The elements that an MMA writes: word number, bits, flags. -/
def mmaWords (w sem rm : Nat) (c : Nat → Nat → Lane) (a b : Shape) (ab bb : List Byte) : List (Nat × Lane × Nat) :=
  (List.range a.rows).flatMap fun i => (List.range b.cols).map fun j =>
    (64 * i + j, mmaElem w sem rm (c i j) a b ab bb i j)

/-- MMA after its checks: the accumulator, REMAIN, the flags. -/
def State.mmaRun (s : State) (c ta tb w sem : Nat) (a b : Shape) : Res :=
  let rm := if bitsOf w 10 8 = 0 then s.team.rm else bitsOf w 10 8
  let ws := mmaWords w sem rm (s.acc c) a b (s.tileRead ta a.total) (s.tileRead tb b.total)
  let left := s.team.leaseRemain - 1
  let s := (s.setAcc c (ws.map fun x => (x.1, x.2.1))).stoneStarts true c (left == 0)
  (s.mapTeam fun t => { t with leaseRemain := left }).flagged [(0, ws.foldl (fun f x => f ||| x.2.2) 0)] true

/-- The effect of MMA (R312), each trap with `%tval` zero. -/
def State.doMma (c ta tb sem f : Nat) (s : State) : Res :=
  let t := s.team
  let off := (List.range t.lanes).filter fun l => !t.mask.getLsbD l
  let w := (t.v f 0).toNat
  let differ := (List.range t.lanes).filter fun l => (t.v f l).toNat != w
  if !off.isEmpty then .trap (.plain 0x03 0 (maskOf off)) s
  else if s.leaseEnding then .wait s
  else if !t.leaseHeld || !s.ownsStone t.part t.mill then .trap (.bare 0x17 0) s
  else if !differ.isEmpty then .trap (.plain 0x04 0 (maskOf differ)) s
  else if !mmaAllowed w sem then .trap (.bare 0x01 0) s
  else if s.stoneBusy false ta || s.stoneBusy false tb || s.stoneBusy true c then .wait s
  else
    let a := s.shape ta
    let b := s.shape tb
    let k := min (elemK a.fmt) (elemK b.fmt)
    if a.fmt != bitsOf w 3 0 || b.fmt != bitsOf w 7 4 then .trap tileShapeTrap s
    else if b.rows != a.cols || k < a.cols || 64 < a.rows || 64 < b.cols then .trap tileShapeTrap s
    else if s.tilePoisoned ta a.total || s.tilePoisoned tb b.total then poisonedTile s
    else s.writing true c fun s => s.mmaRun c ta tb w sem a b

/-- MMA (R311, R312): `a`c := `a`c combined with `t`a times `t`b under a semiring, formats in `v`f. -/
def execMma (c : BitVec 4) (a b : BitVec 5) (s : BitVec 3) (f : BitVec 6) : State → Out :=
  execClosing (.mma c a b s f) ⟨false, false, [.v f.toNat], []⟩
    (State.doMma c.toNat a.toNat b.toNat s.toNat f.toNat)

/-! ## Accumulator operations (R313 to R315) -/

/-- The words of an accumulator as a function of its old ones, with the flags gathered. -/
def State.mapAcc (s : State) (c : Nat) (f : Nat → Nat → Nat → Nat × Nat) : Res :=
  s.writing true c fun s =>
    let ws := (List.range 64).flatMap fun i => (List.range 64).map fun j => (64 * i + j, f i j (s.acc c i j).toNat)
    ((s.setAcc c (ws.map fun x => (x.1, BitVec.ofNat 32 x.2.1))).stoneStarts true c false).flagged
      [(0, ws.foldl (fun g x => g ||| x.2.2) 0)] true

/-- The rounding mode of a rounding field (R191). -/
def Team.rounding (t : Team) (r : BitVec 3) : Nat := if r = 0 then t.rm else r.toNat

/-- ACLR: every word := 0. -/
def execAclr (d : BitVec 4) : State → Out :=
  execClosing (.aclr d) ⟨false, false, [], []⟩ fun s =>
    s.onStone [] [d.toNat] fun s => s.mapAcc d.toNat fun _ _ _ => (0, 0)

/-- ASCALE: each element times the FP32 value of `s`b[31:0]. -/
def execAscale (d : BitVec 4) (b : BitVec 5) (r : BitVec 3) : State → Out :=
  execClosing (.ascale d b r) ⟨false, false, [.u b.toNat], []⟩ fun s =>
    s.onStone [] [d.toNat] fun s =>
      s.mapAcc d.toNat fun _ _ c => fmul .fp32 (s.team.rounding r) c (wbits (s.team.u b.toNat) 31 0)

/-- ABIAS: each element plus bias j, from 64 FP32 values at Plain address `s`b[31:0]. -/
def execAbias (d : BitVec 4) (b : BitVec 5) (r : BitVec 3) : State → Out :=
  execClosing (.abias d b r) ⟨false, false, [.u b.toNat], []⟩ fun s =>
    s.onStone [] [d.toNat] fun s =>
      match s.plainVector (wbits (s.team.u b.toNat) 31 0) 64 with
      | .error e => e
      | .ok v => s.mapAcc d.toNat fun _ j c => fadd .fp32 (s.team.rounding r) c (v.getD j 0)

/-- The element of an accumulator converted to a format that is no block format (R315): its bits and flags. -/
def amovElem (fmt rm c : Nat) : Nat × Nat :=
  match fmt with
  | 0 => (c, 0)
  | 1 => convert .f32 .bf16 rm c
  | 2 => convert .f32 .fp16 rm c
  | _ => (c % 256, 0)

/-- A row of a tile from a row of FP32 bits: element and block sizes, bits, flags (R202, R315). -/
def Shape.rowFrom (x : Shape) (rm : Nat) (row : List Nat) : List (Nat × Nat × Nat) :=
  let k := blockK x.fmt
  if k = 0 then row.map fun c => (elemBytes x.fmt, amovElem x.fmt rm c)
  else
    (List.range (x.cols / 16)).map fun b =>
      (blockBytes k, quantise k rm (((row.drop (16 * b)).take 16).map (decodeFloat .fp32)))

/-- The tile written from the rows of an accumulator, each element first changed by `f`. -/
def State.tileFrom (s : State) (d c rm : Nat) (f : Nat → Nat → Nat × Nat) : Res :=
  let sh := s.shape d
  s.writing false d fun s =>
    let rows := (List.range sh.rows).map fun i => (List.range sh.cols).map fun j => f j (s.acc c i j).toNat
    let out := rows.flatMap fun row => sh.rowFrom rm (row.map (·.1))
    let fl := (rows.flatMap fun row => row.map (·.2)) ++ out.map (·.2.2)
    ((s.tileWrite d 0 (out.flatMap fun r => leBytes r.1 r.2.1)).stoneStarts false d false).flagged
      [(0, fl.foldl (· ||| ·) 0)] true

/-- AMOV: the accumulator's elements converted into the tile's format. -/
def execAmov (d : BitVec 5) (a : BitVec 4) (r : BitVec 3) : State → Out :=
  execClosing (.amov d a r) ⟨false, false, [], []⟩ fun s =>
    s.onStone [d.toNat] [a.toNat] fun s =>
      let sh := s.shape d.toNat
      if 64 < sh.rows || 64 < sh.cols then s.openTrap 0x19 none
      else s.tileFrom d.toNat a.toNat (s.team.rounding r) fun _ c => (c, 0)

/-- AMOV.Q (R203): each element divided by the smoothing value of its channel, then quantised. -/
def execAmovQ (d : BitVec 5) (a : BitVec 4) (b : BitVec 5) (r : BitVec 3) : State → Out :=
  execClosing (.amovQ d a b r) ⟨false, false, [.u b.toNat], []⟩ fun s =>
    s.onStone [d.toNat] [a.toNat] fun s =>
      let sh := s.shape d.toNat
      if 64 < sh.rows || 64 < sh.cols || blockK sh.fmt = 0 then s.openTrap 0x19 none
      else
        match s.plainVector (wbits (s.team.u b.toNat) 31 0) sh.cols with
        | .error e => e
        | .ok v => s.tileFrom d.toNat a.toNat (s.team.rounding r) fun j c => fdiv .fp32 1 c (v.getD j 0)

/-- TTRN: `t`d := `t`a transposed, and the shape of `t`d with it. -/
def execTtrn (d a : BitVec 5) : State → Out :=
  execClosing (.ttrn d a) ⟨false, false, [], []⟩ fun s =>
    s.onStone [d.toNat, a.toNat] [] fun s =>
      let sh := s.shape a.toNat
      if blockK sh.fmt != 0 then s.openTrap 0x19 none
      else if s.tilePoisoned a.toNat sh.total then poisonedTile s
      else
        s.writing false d.toNat fun s =>
          let bytes := s.tileRead a.toNat sh.total
          let out := (List.range sh.cols).flatMap fun j => (List.range sh.rows).flatMap fun i =>
            leBytes (elemBytes sh.fmt) (sh.elemAt bytes i j)
          .ok (((s.tileWrite d.toNat 0 out).setTshape s.team.mill d.toNat
            (Shape.word ⟨sh.fmt, sh.rows, sh.cols⟩)).stoneStarts false d.toNat false)

end Sys2Proof.Machine
end

