-- ==== Sys2Proof/Machine/Collective.lean ====
section
/-! DEFINITION. Collectives and exchanges: COLL and A2AV (R316 to R324). -/

namespace Sys2Proof.Machine

/-! ## Rank groups (R317, R318) -/

/-- A field of a descriptor. -/
def leField (b : List Byte) (off n : Nat) : Nat := leNat ((b.drop off).take n)

/-- The members of the group a descriptor names, in rank order, as integers. -/
def groupOf (b : List Byte) : List Int :=
  let nd := bitsOf (leField b 4 4) 1 0
  let count := fun i => if i ≤ nd then leField b (0x0E + 2 * i) 2 else 1
  let stride := fun i => if i ≤ nd then signed 16 (leField b (8 + 2 * i) 2) else 0
  (List.range (count 0 * count 1 * count 2)).map fun r =>
    (bitsOf (leField b 0 2) 11 0 : Int) + (r % count 0 : Nat) * stride 0 + (r / count 0 % count 1 : Nat) * stride 1 +
      (r / count 0 / count 1 : Nat) * stride 2

/-- Is the shape of the group malformed: a reserved bit, a count or a stride? -/
def groupMalformed (b : List Byte) : Bool :=
  let nd := bitsOf (leField b 4 4) 1 0
  bitsOf (leField b 0 2) 15 12 != 0 || nd == 3 || leField b 4 4 / 2 ^ 6 != 0 ||
  (List.range 3).any fun i =>
    if i ≤ nd then leField b (0x0E + 2 * i) 2 == 0
    else leField b (0x0E + 2 * i) 2 != 1 || leField b (8 + 2 * i) 2 != 0

/-- The members of a group that passes R318: all of them modules of the domain, none twice, this one among them, with no
collective of the same DOMAIN and TAG running in the virtual device. -/
def State.groupMembers (s : State) (vd : Nat) (b : List Byte) : Option (List Nat) :=
  if groupMalformed b then none
  else
    let g := groupOf b
    let ms := g.map Int.toNat
    if g.any (fun m => m < 0 || 4095 < m) || ms.eraseDups.length != ms.length || !ms.contains s.module then none
    else if !s.stepEn vd || ms.any (fun m => !s.isMember vd m) then none
    else if s.colls.any fun c =>
        c.vd == vd && c.domain == s.regBits (vdReg vd 0x050) 47 32 && c.tag == leField b 2 2 then none
    else some ms

/-- Bytes of an element of a collective (R318). -/
def collElem (etype : Nat) : Nat := if etype = 2 then 2 else 4

/-- Is a collective's descriptor invalid beyond its group (R318)? `room` is the size of the operand. -/
def collInvalid (b : List Byte) (kind : CollKind) (op members room : Nat) : Bool :=
  let etype := bitsOf (leField b 4 4) 3 2
  let bytes := leField b 0x18 4
  etype == 3 || bitsOf (leField b 4 4) 5 4 == 3 || (b.drop 0x1C).any (· != 0) || (op == 3 && etype != 0) || bytes == 0 ||
  bytes % collElem etype != 0 || room < bytes ||
  (kind == .reduceScatter && bytes % (members * collElem etype) != 0) ||
  (kind == .allGather && 0x1000000 < members * bytes)

/-! ## Landing (R320, R324) -/

/-- Does the kind reduce? -/
def CollKind.reduces : CollKind → Bool
  | .allReduce => true
  | .reduceScatter => true
  | .reduce => true
  | .allGather => false
  | .broadcast => false
  | .exchange => false

/-- What lands at this member: for each run of bytes, its first linear offset, its length, and the rank it comes from when it
comes from one. -/
def Coll.segments (c : Coll) : List (Nat × Nat × Option Nat) :=
  let p := c.members.length
  match c.kind with
  | .allReduce => [(0, c.bytes, none)]
  | .reduceScatter => [(0, c.bytes / p, none)]
  | .allGather => (List.range p).map fun q => (q * c.bytes, c.bytes, some q)
  | .broadcast => [(0, c.bytes, some 0)]
  | .reduce => if c.rank = 0 then [(0, c.bytes, none)] else []
  | .exchange =>
    let counts := c.recvCounts.getD []
    (List.range p).map fun q => (c.esize * (counts.take q).sum, c.esize * counts.getD q 0, some q)

/-- The chunks of what lands: 64 bytes at most, each of one run. DEDUCED: log 46. -/
def Coll.chunkList (c : Coll) : List Nat :=
  c.segments.flatMap fun g => (List.range ((g.2.1 + 63) / 64)).map fun i => g.1 + 64 * i

/-- What a collective has still to land; offset 0 stands for its end at a member that lands nothing (R320, R322). -/
def Coll.toLand (c : Coll) : List Nat := if c.chunkList.isEmpty then [0] else c.chunkList

/-- Bytes that land. -/
def Coll.landing (c : Coll) : Nat := (c.segments.map (·.2.1)).sum

/-- Two elements combined. -/
def combineTwo (op etype x y : Nat) : Nat :=
  let f : FFmt := if etype = 1 then .fp32 else .bf16
  match op with
  | 1 => if etype = 0 then (if signed 32 x ≤ signed 32 y then x else y) else (fminmax f false x y).1
  | 2 => if etype = 0 then (if signed 32 x ≤ signed 32 y then y else x) else (fminmax f true x y).1
  | _ => x ||| y

/-- The reduction of the members' elements (R320); the first is also combined with itself, so that a NaN alone becomes the default
NaN (R196). -/
def reduceElems (op etype : Nat) (xs : List Nat) : Nat :=
  match xs with
  | [] => 0
  | x :: _ =>
    if op = 0 then
      if etype = 0 then xs.sum % 2 ^ 32
      else
        let f : FFmt := if etype = 1 then .fp32 else .bf16
        (fsum f 1 (xs.map (decodeFloat f))).1
    else xs.foldl (combineTwo op etype) x

/-- The reduction of the members' bytes, element by element. -/
def reduceBytes (op etype : Nat) (operands : List (List Byte)) : List Byte :=
  let n := collElem etype
  (List.range ((operands.headD []).length / n)).flatMap fun i =>
    leBytes n (reduceElems op etype (operands.map fun b => leField b (i * n) n))

/-- The bytes of a chunk that lands: `others` are the bytes of the other members that it needs, in rank order; none when they do
not fit. -/
def Coll.chunkBytes (c : Coll) (off n : Nat) (src : Option Nat) (base : Nat) (others : List (List Byte)) : Option (List Byte) :=
  let fits := others.all fun b => b.length == n
  match src with
  | some q =>
    let own := if c.kind = .exchange then c.esize * (c.sendCounts.take q).sum + (off - base) else off - base
    if q = c.rank then (if others.isEmpty then some ((c.operand.drop own).take n) else none)
    else if others.length = 1 && fits then others.head? else none
  | none =>
    let at' := if c.kind = .reduceScatter then c.rank * (c.bytes / c.members.length) + off else off
    if others.length + 1 = c.members.length && fits then
      some (reduceBytes c.op c.etype (others.take c.rank ++ [(c.operand.drop at').take n] ++ others.drop c.rank))
    else none

/-! ## The start (R319, R321, R324) -/

/-- The descriptor of a group instruction, read through the descriptor engine; a fault is reported under R65, `%fmask` the active mask
(R319). DEDUCED: log 44. -/
def State.groupDescriptor (s : State) (ea : Word) : Except Res (State × List Byte) :=
  let t := s.team
  if ea.toNat % 64 != 0 then .error (s.wholeTrap 0x06 0 ea)
  else
    match s.teamRead ea.toNat 64 with
    | (s, .fault c r) => .error (s.wholeTrap c r ea)
    | (s, .touch e a w) => .error (s.touchPage e a w ea (some t.mask))
    | (s, .data b) => .ok (s, b)

/-- A Plain region of a group instruction: its own alignment is checked first, then the region (R14, R15): slice and byte, or the
trap. -/
def State.groupRegion (s : State) (a n al : Nat) : Except Res (Nat × Nat) :=
  if a % al != 0 then .error (s.bareTrap 0x06 0 (BitVec.ofNat 64 a))
  else
  match s.plainPhys (BitVec.ofNat 64 a) n s.team.part 1 with
  | .ok p => .ok p
  | .error (c, stopped) => .error (s.bareTrap c (if stopped then 0x0A else 0) (BitVec.ofNat 64 a))

/-- The bytes of a Plain region that the instruction copies (R15, R51); a poisoned word of it raises 0x12 with its address.
DESIGN CHOICE: log 117. -/
def State.groupRead (s : State) (a n al : Nat) : Except Res (List Byte) :=
  match s.groupRegion a n al with
  | .error r => .error r
  | .ok (slice, off) =>
    if s.plainBusy slice off n then .error (.wait s)
    else
      match s.rangePoison ⟨.plain slice off, BitVec.ofNat 64 a, n⟩ with
      | some bad => .error (s.bareTrap 0x12 0 bad)
      | none => .ok (s.plainRead slice off n)

/-- The operand of a collective: the first bytes of a tile or accumulator, copied (R317). -/
def State.collOperand (s : State) (accum : Bool) (n bytes : Nat) : List Byte :=
  if accum then
    ((List.range ((bytes + 3) / 4)).flatMap fun w => leBytes 4 (s.acc n (w / 64) (w % 64)).toNat).take bytes
  else s.tileRead n bytes

/-- Bytes of chunk buffers that the collectives and exchanges under way hold: their operands, send buffers and send counts (R3,
R319). -/
def State.chunkHeld (s : State) : Nat := (s.colls.map fun c => c.operand.length + 4 * c.sendCounts.length).sum

/-- Have the 64 MiB of chunk buffers room for so many bytes more (R3, R319)? DEDUCED: log 76. -/
def State.chunkRoom (s : State) (n : Nat) : Bool := s.chunkHeld + n ≤ 2 ^ 26

/-- A new collective or exchange under way. -/
def State.addColl (s : State) (c : Coll) : State :=
  { s with colls := s.colls ++ [{ c with id := s.nextId }], nextId := s.nextId + 1 }

/-- The kind that a field names. -/
def collKind (k : Nat) : CollKind :=
  match k with
  | 0 => .allReduce
  | 1 => .reduceScatter
  | 2 => .allGather
  | 3 => .broadcast
  | _ => .reduce

/-- The start of a COLL in the team of the lowest TINDEX: `ctr` and `da` are its operands. -/
def State.startColl (k op n : Nat) (accum : Bool) (ctr da : Word) (s : State) : Res :=
  match s.groupDescriptor da with
  | .error r => r
  | .ok (s, b) =>
    let t := s.team
    let room := if accum then 16384 else (s.shape n).total
    match s.groupMembers t.vd b with
    | none => s.bareOpen 0x1A 0
    | some ms =>
      if collInvalid b (collKind k) op ms.length room then s.bareOpen 0x1A 0
      else
        s.onCounter false ctr fun slice off s =>
          let ctl := leField b 4 4
          let c : Coll :=
            { id := 0, kind := collKind k, vd := t.vd, op := op, etype := bitsOf ctl 3 2, alg := bitsOf ctl 5 4
              domain := s.regBits (vdReg t.vd 0x050) 47 32, tag := leField b 2 2, members := ms
              rank := ms.idxOf s.module, bytes := leField b 0x18 4, operand := [], esize := 1, sendCounts := []
              recvCounts := none, slice := 0, dst := 0, dcap := 0, rcntSlice := 0, rcnt := 0, ctrSlice := slice, ctrOff := off
              gen := s.ctrWord slice off 3, phase := .running, slot := false, left := [] }
          match if c.landing = 0 then .ok (0, 0) else s.groupRegion (leField b 0x14 4) c.landing 1 with
          | .error r => r
          | .ok (dslice, doff) =>
            s.onStone (if accum then [] else [n]) (if accum then [n] else []) fun s =>
              if !s.chunkRoom c.bytes then .wait s
              else if !accum && s.tilePoisoned n c.bytes then poisonedTile s
              else
                let asks := c.kind.reduces && c.rank == 0 && c.alg != 2
                let operand := s.collOperand accum n c.bytes
                let s := s.addColl { c with
                  operand := operand, slice := dslice, dst := doff, left := c.toLand
                  phase := if asks then .joining else .running }
                .ok (s.send1 (.collJoin ms c.tag operand))

/-- The send counts of an exchange. -/
def countsOf (b : List Byte) (p : Nat) : List Nat := (List.range p).map fun q => leField b (4 * q) 4

/-- The messages of an exchange: to each other member its count and its segment. -/
def exchangeMessages (module tag esize : Nat) (ms counts : List Nat) (buffer : List Byte) : List Message :=
  (ms.zipIdx.filter fun m => m.1 != module).flatMap fun m =>
    [.counts m.1 tag (counts.getD m.2 0),
      .segment m.1 tag ((buffer.drop (esize * (counts.take m.2).sum)).take (esize * counts.getD m.2 0))]

/-- The record of an exchange that starts (R324). -/
def exchangeOf (s : State) (b : List Byte) (ms counts : List Nat) (esize : Nat) (buffer : List Byte) (ctr rcnt dst : Nat × Nat) :
    Coll :=
  { id := 0, kind := .exchange, vd := s.team.vd, op := 0, etype := 0, alg := 0
    domain := s.regBits (vdReg s.team.vd 0x050) 47 32, tag := leField b 2 2, members := ms
    rank := ms.idxOf s.module, bytes := 0, operand := buffer, esize := esize, sendCounts := counts
    recvCounts := none, slice := dst.1, dst := dst.2, dcap := leField b 0x24 4, rcntSlice := rcnt.1, rcnt := rcnt.2
    ctrSlice := ctr.1, ctrOff := ctr.2, gen := s.ctrWord ctr.1 ctr.2 3, phase := .running, slot := false, left := [] }

/-- An exchange whose send counts are read and whose counter and regions have passed: its chunk buffers are reserved and filled, its
counter set, and its messages sent (R319, R324). -/
def State.exchangeCopies (s : State) (b : List Byte) (ms counts : List Nat) (esize : Nat) (ctr rcnt dst : Nat × Nat) : Res :=
  let sent := esize * counts.sum
  if !s.chunkRoom (sent + 4 * counts.length) then .wait s
  else
    match s.groupRead (leField b 0x18 4) sent 1 with
    | .error r => r
    | .ok buffer =>
      let c := exchangeOf s b ms counts esize buffer ctr rcnt dst
      let s := ((s.setCtrWord ctr.1 ctr.2 0 0).setCtrWord ctr.1 ctr.2 1 0xFFFFFFFF).setCtrWord ctr.1 ctr.2 2 0
      let s := s.addColl c
      .ok ({ s with outbox := s.outbox ++ exchangeMessages s.module c.tag esize ms counts buffer }.doJobs [.counter ctr.1 ctr.2])

/-- The start of an A2AV in the team of the lowest TINDEX, its checks in the order of R319: the descriptor with the send counts, the
counter, the Plain regions (R324). -/
def State.startExchange (ctr da : Word) (s : State) : Res :=
  match s.groupDescriptor da with
  | .error r => r
  | .ok (s, b) =>
    let t := s.team
    let ctl := leField b 4 4
    let esize := 2 ^ bitsOf ctl 5 4
    let at' := fun off => leField b off 4
    match s.groupMembers t.vd b with
    | none => s.bareOpen 0x1A 0
    | some ms =>
      let p := ms.length
      if bitsOf ctl 3 2 != 0 || (b.drop 0x28).any (· != 0) then s.bareOpen 0x1A 0
      else
        match s.groupRead (at' 0x14) (4 * p) 4 with
        | .error r => r
        | .ok cb =>
          let counts := countsOf cb p
          if 0x1000000 < esize * counts.sum then s.bareOpen 0x1A 0
          else
            s.onCounter false ctr fun slice off s =>
              match s.groupRegion (at' 0x18) (esize * counts.sum) 1, s.groupRegion (at' 0x1C) (8 * p) 4,
                s.groupRegion (at' 0x20) (at' 0x24) 1 with
              | .error r, _, _ => r
              | .ok _, .error r, _ => r
              | .ok _, .ok _, .error r => r
              | .ok _, .ok rcnt, .ok dst => s.exchangeCopies b ms counts esize (slice, off) rcnt dst

/-! ## The issue by a workgroup (R319) -/

/-- A team whose arrival is withdrawn issues its instruction again. DEDUCED: log 45. -/
def Team.again (t : Team) : Team := { t with status := .ready, age := 0 }

/-- A trap raised in a team at the group instruction it has arrived at. -/
def State.groupTrap (s : State) (uid code : Nat) : State :=
  s.withTeam uid fun s =>
    let (v, s) := s.openTval
    (s.mapTeam Team.again).mainTrap (.plain code v 0) 4

/-- The start that the bits of a group instruction ask for. -/
def State.startGroup (bits : Nat) (a b : Word) (s : State) : Res :=
  if bitsOf bits 7 1 = 0x76 then
    s.startColl (bitsOf bits 31 29) (bitsOf bits 28 26) (bitsOf bits 12 8) (bitOf bits 13) a b
  else s.startExchange a b

/-- What the start leaves: every arrived team goes on after the instruction; on a fault of the first team, or while the start must
wait, each issues it again. DEDUCED: log 45. -/
def groupStarted (uids : List Nat) : Res → State
  | .ok s => uids.foldl (fun s uid => s.updTeam uid fun t => (t.setPoint (t.pc + 4)).resume) s
  | .trap x s => if x.code = stallCode then s else s.mainTrap x 4
  | .wait s => s
  | .held s => s
  | .goto _ s => s

/-- The arrival test: once every team of the workgroup that has not retired has arrived, the instruction starts. -/
def State.tryGroup (s : State) (wg : Nat) : State :=
  match s.wgOf wg with
  | none => s
  | some g =>
    match g.arrivals with
    | [] => s
    | x :: xs =>
      if g.arrivals.length < (s.members wg).length then s
      else
        let uids := g.arrivals.map (·.team)
        let s := s.updWg wg fun g => { g with arrivals := [] }
        if xs.any fun y => y.bits != x.bits || y.a != x.a || y.b != x.b then
          uids.foldl (fun s uid => s.groupTrap uid 0x05) s
        else
          let s := uids.foldl (fun s uid => s.updTeam uid Team.again) s
          let first := xs.foldl (fun m y => if y.tindex < m.tindex then y else m) x
          s.withTeam first.team fun s => groupStarted uids (s.startGroup x.bits x.a x.b)

/-- The arrival of a team: every lane below L active, a release at device scope, then the park. -/
def State.groupIssue (i : Instr) (a b : Word) (s : State) : Res :=
  let t := s.team
  let off := (List.range t.lanes).filter fun l => !t.mask.getLsbD l
  if !off.isEmpty then s.openTrap 0x03 (some (maskOf off))
  else if s.acquiring t.uid || !s.performedAll t.uid true then .wait s
  else
    let s := s.updWg t.wg fun g => { g with arrivals := g.arrivals ++ [⟨t.uid, t.tindex, i.bits, a, b⟩] }
    .wait ((s.mapTeam fun t => { t with status := .parked .collective }).tryGroup t.wg)

/-- COLL (R316, R319): `s`a the counter, `s`b the descriptor. DEDUCED: log 44. -/
def execColl (n : BitVec 5) (t : BitVec 1) (a b : BitVec 6) (op k : BitVec 3) : State → Out :=
  execClosing (.coll n t a b op k) ⟨false, false, [.u a.toNat, .u b.toNat], []⟩ fun s =>
    s.groupIssue (.coll n t a b op k) (s.team.u a.toNat) (s.team.u b.toNat)

/-- A2AV (R323, R324). -/
def execA2av (a b : BitVec 6) : State → Out :=
  execClosing (.a2av a b) ⟨false, false, [.u a.toNat, .u b.toNat], []⟩ fun s =>
    s.groupIssue (.a2av a b) (s.team.u a.toNat) (s.team.u b.toNat)

/-! ## The events of a collective -/

/-- A collective changed, and dropped once everything has landed. -/
def State.setColl (s : State) (c : Coll) : State :=
  if c.left.isEmpty && (c.kind != .exchange || c.recvCounts.isSome) then { s with colls := dropBy Coll.id s.colls c.id }
  else { s with colls := updateBy Coll.id s.colls c.id fun _ => c }

/-- Reduction slots in use at this module's Pass die (R321). -/
def State.slotsUsed (s : State) : Nat := (s.colls.filter (·.slot)).length

/-- Where a virtual device stands after the round-robin pointer (R321). -/
def State.slotKey (s : State) (vd : Nat) : Nat := (vd + 255 - s.slotPointer) % 256

/-- REDUCTION_SLOT_GRANT (R321): every member has joined and the root asks, or a waiting request is served. Requests that wait and come
before it are granted first; with as many of them as there are free slots it finds none. DEDUCED: log 46. -/
def execReductionSlotGrant (collective : Nat) (s : State) : Out :=
  match findBy Coll.id s.colls collective with
  | none => .fault .notEnabled
  | some c =>
    let ahead := (s.colls.filter fun x => x.phase == .asking && x.id != c.id && s.slotKey x.vd < s.slotKey c.vd).length
    if c.phase == .running || (0 < ahead && s.slotsUsed + ahead < 32) then .fault .notEnabled
    else if ahead = 0 && s.slotsUsed < 32 then .next ({ s with slotPointer := c.vd }.setColl { c with phase := .running, slot := true })
    else if c.phase == .asking then .fault .notEnabled
    else .next (s.setColl { c with phase := if c.alg = 1 then .running else .asking })

/-- An add of landed bytes, discarded when the counter's GEN has changed since the start (R322). DEDUCED: log 46. -/
def State.countLanded (s : State) (c : Coll) (n : Nat) : State :=
  if s.ctrWord c.ctrSlice c.ctrOff 3 = c.gen then s.addCounter c.ctrSlice c.ctrOff n else s

/-- Does a write to the counter stand in its bank's queue? What lands is written and counted behind it (R107). DEDUCED: log 70. -/
def State.counterQueued (s : State) (c : Coll) : Bool := s.bankBusy c.ctrSlice c.ctrOff 16

/-- COLLECTIVE_LAND (R320, R322): a chunk lands at this member and is counted; at a member that lands nothing the collective ends. -/
def execCollectiveLand (collective offset : Nat) (others : List (List Byte)) (s : State) : Out :=
  match findBy Coll.id s.colls collective with
  | none => .fault .notEnabled
  | some c =>
    match c.segments.find? fun g => g.1 ≤ offset && offset < g.1 + g.2.1 with
    | none =>
      if c.kind == .reduce && c.left.contains offset && others.isEmpty then .next (s.setColl { c with left := [] })
      else .fault .notEnabled
    | some (base, len, src) =>
      let n := min 64 (base + len - offset)
      match c.chunkBytes offset n src base others with
      | none => .fault .notEnabled
      | some bs =>
        if c.phase != .running || !c.left.contains offset || s.bankBusy c.slice (c.dst + offset) n || s.counterQueued c then
          .fault .notEnabled
        else
          let s := s.plainStore c.slice (c.dst + offset) bs
          .next ((s.countLanded c n).setColl { c with left := c.left.filter (· != offset) })

/-- A2AV_COUNTS (R324): the counts of all members have arrived; RCNT and EXPECTED are written, and 8P bytes counted.
DEDUCED: log 46. -/
def execA2avCounts (exchange : Nat) (counts : List Nat) (s : State) : Out :=
  match findBy Coll.id s.colls exchange with
  | none => .fault .notEnabled
  | some c =>
    let p := c.members.length
    if c.kind != .exchange || c.recvCounts.isSome || counts.length != p ||
        counts.getD c.rank 0 != c.sendCounts.getD c.rank 0 || s.bankBusy c.rcntSlice c.rcnt (8 * p) || s.counterQueued c then
      .fault .notEnabled
    else
      let total := c.esize * counts.sum
      let exceeds := c.dcap < total
      let words := counts ++ (List.range p).map fun q => (counts.take q).sum
      let s := s.plainStore c.rcntSlice c.rcnt (words.flatMap fun w => leBytes 4 w)
      let same := s.ctrWord c.ctrSlice c.ctrOff 3 = c.gen
      let s := if same then s.setCtrWord c.ctrSlice c.ctrOff 1 (if exceeds then 8 * p else 8 * p + total) else s
      let s := if same && exceeds then s.setCtrWord c.ctrSlice c.ctrOff 2 (s.ctrWord c.ctrSlice c.ctrOff 2 ||| 8) else s
      let c := { c with recvCounts := some counts }
      .next ((s.countLanded c (8 * p)).setColl { c with left := if exceeds then [] else c.chunkList })

/-- A collective severed (R322): what has not landed is dropped, the counter gains SEVERED with the cause. -/
def State.severColl (s : State) (c : Coll) (code : Nat) : State :=
  { s with colls := dropBy Coll.id s.colls c.id }.doJobs [.sever c.ctrSlice c.ctrOff code]

end Sys2Proof.Machine
end

