-- ==== Sys2Proof/Machine/Control.lean ====
section
/-! DEFINITION. System registers (R228, R236), control transfers (R239 to R243), the mask stack (R244, R245), barriers (R246, R247), team
control (R248 to R250), donation (R251), mode and time (R253, R254), noise (R269, R270) and TRAP and BRK (R332). -/

namespace Sys2Proof.Machine

/-! ## System registers -/

/-- `%teamid` (R142). -/
def State.teamidWord (s : State) : Word :=
  let t := s.team
  match s.wgOf t.wg with
  | none => 0
  | some g =>
    BitVec.ofNat 64 ((if g.wpRows = 0 then 0 else g.wpBase) * 2 ^ 32 + b2n g.forked * 2 ^ 31 + g.wpRows * 2 ^ 24 +
      (g.nteam - 1) * 2 ^ 20 + t.tindex * 2 ^ 16 + t.wheel * 2 ^ 14 + t.mill * 2 ^ 5 + (t.swaths - 1))

/-- `%wgid` (R149). -/
def Workgroup.idWord (g : Workgroup) : Word :=
  BitVec.ofNat 64 (g.linear % 2 ^ 24 * 2 ^ 40 + g.z % 256 * 2 ^ 32 + g.y % 65536 * 2 ^ 16 + g.x % 65536)

/-- `%vdid` (R237). -/
def Team.vdidWord (t : Team) : Word := BitVec.ofNat 64 (t.lseq % 65536 * 2 ^ 16 + t.part * 2 ^ 8 + t.vd)

/-- `%lease` (R179). -/
def Team.leaseWord (t : Team) : Word :=
  BitVec.ofNat 64 (t.leaseGrant * 2 ^ 20 + b2n t.leaseHeld * 2 ^ 16 + t.leaseRemain)

/-- A system register that is one word of the team (R228). -/
def State.sysWord (s : State) (n : Nat) : Word :=
  let t := s.team
  match n with
  | 0x000 => t.mode
  | 0x001 => t.flags
  | 0x002 => BitVec.ofNat 64 t.plot
  | 0x003 => t.deferWord
  | 0x005 => s.teamidWord
  | 0x006 => ((s.wgOf t.wg).map Workgroup.idWord).getD 0
  | 0x007 => ((s.wgOf t.wg).map fun g => BitVec.ofNat 64 g.stage).getD 0
  | 0x008 => t.vdidWord
  | 0x009 => t.leaseWord
  | 0x010 => t.cause
  | 0x011 => t.epc
  | 0x012 => t.tval
  | 0x013 => BitVec.ofNat 64 t.frame
  | _ => maskPart t.fmask (n - 0x040)

/-- Is the number that of a `%tshape` register? -/
def isTshape (n : Nat) : Bool := 0x020 ≤ n && n ≤ 0x03F

/-- Is the register for the supervisor only? -/
def supervisorRegister (n : Nat) : Bool := (0x010 ≤ n && n ≤ 0x013) || (0x040 ≤ n && n ≤ 0x04F)

/-- The effect of SGETS. -/
def State.doSgets (d n : Nat) (s : State) : Res :=
  if isTshape n then
    if s.ownsStone s.team.part s.team.mill then
      .ok (s.mapTeam fun t => t.setU d (s.tshapeWord s.team.mill (n - 0x020)))
    else s.openTrap 0x17 none
  else if n = 0x004 then
    let (v, s) := s.readTime s.team.vd
    .ok (s.mapTeam fun t => t.setU d v)
  else if n = 0x009 && s.leaseEnding then .wait s
  else .ok (s.mapTeam fun t => t.setU d (s.sysWord n))

/-- SGETS (R236): `s`d := the register. -/
def execSgets (d : BitVec 6) (n : BitVec 12) : State → Out :=
  execClosing (.sgets d n) ⟨supervisorRegister n.toNat, false, [], [.u d.toNat]⟩ (State.doSgets d.toNat n.toNat)

/-- A mask with part i replaced. -/
def setMaskPart (m : Mask) (i : Nat) (w : Word) : Mask :=
  BitVec.ofNat 1024 (m.toNat - bitsOf m.toNat (64 * i + 63) (64 * i) * 2 ^ (64 * i) + w.toNat * 2 ^ (64 * i))

/-- `%mode` with the fields of a written value (R190). -/
def modeWrite (old w : Word) : Word := wput (wput old 12 7 (wbits w 12 7)) 2 0 (wbits w 2 0)

/-- The write of a register of the team that takes every value (R236). -/
def Team.setSys (t : Team) (n : Nat) (w : Word) : Team :=
  match n with
  | 0x001 => { t with flags := wput t.flags 5 0 (wbits w 5 0) }
  | 0x010 => { t with cause := wput t.cause 7 0 (wbits w 7 0) }
  | 0x011 => { t with epc := w }
  | 0x012 => { t with tval := w }
  | 0x013 => { t with frame := wbits w 31 0 }
  | n => if 0x040 ≤ n then { t with fmask := setMaskPart t.fmask (n - 0x040) w } else t

/-- The effect of SSETS; RO and RES fields keep their values. -/
def State.doSsets (i : Instr) (n : Nat) (w : Word) (s : State) : Res :=
  let illegal := Res.trap (bitsTrap i 0x01) s
  if n = 0x000 then
    if wbits w 2 0 = 0 || 6 ≤ wbits w 2 0 then illegal
    else .ok (s.mapTeam fun t => { t with mode := modeWrite t.mode w })
  else if n = 0x002 then
    if wbits w 2 0 = 0 || 6 ≤ wbits w 2 0 then illegal else .ok (s.mapTeam fun t => { t with plot := wbits w 2 0 })
  else if n = 0x003 then
    if wbits w 1 0 = 3 then illegal else .ok (s.mapTeam fun t => { t with defer := wbits w 1 0 })
  else if isTshape n then
    let old := s.tshapeWord s.team.mill (n - 0x020)
    if !s.ownsStone s.team.part s.team.mill then s.openTrap 0x17 none
    else if !(shapeOf w).valid then s.openTrap 0x19 none
    else .ok (s.setTshape s.team.mill (n - 0x020) (wput old 19 0 (wbits w 19 0)))
  else .ok (s.mapTeam fun t => t.setSys n w)

/-- SSETS (R236): the register := `s`a, field by field. -/
def execSsets (a : BitVec 6) (n : BitVec 12) : State → Out :=
  execClosing (.ssets a n) ⟨supervisorRegister n.toNat, false, [.u a.toNat], []⟩ fun s =>
    s.doSsets (.ssets a n) n.toNat (s.team.u a.toNat)

/-! ## Control transfers -/

/-- The address of the instruction plus an offset in halfwords. -/
def branchTarget {w : Nat} (pc : Word) (off : BitVec w) : Word := pc + off.signExtend 64 * 2

/-- BRA (R239). -/
def execBra (off : BitVec 24) : State → Out :=
  execControl (.bra off) ⟨false, false, [], []⟩ fun s => .goto (branchTarget s.team.pc off) s

/-- CALL (R239): `s63` := the next instruction's address. -/
def execCall (off : BitVec 24) : State → Out :=
  execControl (.call off) ⟨false, false, [], [.u 63]⟩ fun s =>
    .goto (branchTarget s.team.pc off) (s.mapTeam fun t => t.setU 63 (t.pc + 4))

/-- A transfer to an address that a register gives: an odd one raises misaligned access (R210). -/
def State.transfer (s : State) (target : Word) (f : Team → Team) : Res :=
  if target.getLsbD 0 then .trap (.bare 0x06 target) s else .goto target (s.mapTeam f)

/-- JMP (R240). -/
def execJmp (a : BitVec 6) (off : BitVec 11) : State → Out :=
  execControl (.jmp a off) ⟨false, false, [.u a.toNat], []⟩ fun s =>
    s.transfer (s.team.u a.toNat + off.signExtend 64 * 2) id

/-- JMPL (R240): `s`a is read, then `s`d := the next instruction's address. -/
def execJmpl (d a : BitVec 6) (off : BitVec 11) : State → Out :=
  execControl (.jmpl d a off) ⟨false, false, [.u a.toNat], [.u d.toNat]⟩ fun s =>
    s.transfer (s.team.u a.toNat + off.signExtend 64 * 2) fun t => t.setU d.toNat (t.pc + 4)

/-- RET (R240). -/
def execRet : State → Out :=
  execControl .ret ⟨false, false, [.u 63], []⟩ fun s => s.transfer (s.team.u 63) id

/-- A branch taken or not. -/
def State.branch {w : Nat} (s : State) (taken : Bool) (off : BitVec w) : Res :=
  if taken then .goto (branchTarget s.team.pc off) s else .ok s

/-- BSZ (R241): taken when `s`n = 0. -/
def execBsz (n : BitVec 6) (off : BitVec 17) : State → Out :=
  execControl (.bsz n off) ⟨false, false, [.u n.toNat], []⟩ fun s => s.branch (s.team.u n.toNat == 0) off

/-- BSNZ (R241): taken when `s`n ≠ 0. -/
def execBsnz (n : BitVec 6) (off : BitVec 17) : State → Out :=
  execControl (.bsnz n off) ⟨false, false, [.u n.toNat], []⟩ fun s => s.branch (s.team.u n.toNat != 0) off

/-- BANY (R242): taken when some active lane holds 1. -/
def execBany (p : BitVec 4) (off : BitVec 18) : State → Out :=
  execControl (.bany p off) ⟨false, false, [.p p.toNat], []⟩ fun s =>
    s.branch (s.team.active.any fun l => (s.team.p p.toNat).getLsbD l) off

/-- BALL (R242): taken when every active lane holds 1. -/
def execBall (p : BitVec 4) (off : BitVec 18) : State → Out :=
  execControl (.ball p off) ⟨false, false, [.p p.toNat], []⟩ fun s =>
    s.branch (s.team.active.all fun l => (s.team.p p.toNat).getLsbD l) off

/-- BNONE (R242): taken when no active lane holds 1. -/
def execBnone (p : BitVec 4) (off : BitVec 18) : State → Out :=
  execControl (.bnone p off) ⟨false, false, [.p p.toNat], []⟩ fun s =>
    s.branch (!s.team.active.any fun l => (s.team.p p.toNat).getLsbD l) off

/-! ## The mask stack (R244) -/

/-- The push of the mask, which is then `m`. -/
def State.pushMask (s : State) (m : Mask) : Res :=
  if 32 ≤ s.team.stack.length then .trap (.plain 0x03 32 0) s
  else .ok (s.mapTeam fun t => { t with stack := t.mask :: t.stack, mask := m })

/-- IFP: push M; M := M AND `p`n. -/
def execIfp (p : BitVec 4) : State → Out :=
  execControl (.ifp p) ⟨false, false, [.p p.toNat], []⟩ fun s => s.pushMask (s.team.mask &&& s.team.p p.toNat)

/-- IFP.N: push M; M := M AND NOT `p`n. -/
def execIfpN (p : BitVec 4) : State → Out :=
  execControl (.ifpN p) ⟨false, false, [.p p.toNat], []⟩ fun s => s.pushMask (s.team.mask &&& ~~~(s.team.p p.toNat))

/-- ELSE: M := Top AND NOT M. -/
def execMaskElse : State → Out :=
  execControl .maskElse ⟨false, false, [], []⟩ fun s =>
    match s.team.stack with
    | [] => .trap (.plain 0x03 0 0) s
    | top :: _ => .ok (s.mapTeam fun t => { t with mask := top &&& ~~~t.mask })

/-- ENDIF: M := Top; pop. -/
def execEndif : State → Out :=
  execControl .endif ⟨false, false, [], []⟩ fun s =>
    match s.team.stack with
    | [] => .trap (.plain 0x03 0 0) s
    | top :: rest => .ok (s.mapTeam fun t => { t with mask := top, stack := rest })

/-- MSET: M := `p`n AND Top, or AND every lane below L when the stack is empty. -/
def execMset (p : BitVec 4) : State → Out :=
  execControl (.mset p) ⟨false, false, [.p p.toNat], []⟩ fun s =>
    .ok (s.mapTeam fun t => { t with mask := t.p p.toNat &&& t.stack.headD (allLanes t.lanes) })

/-- MGET: `p`n := 1 in every lane of M. -/
def execMget (p : BitVec 4) : State → Out :=
  execControl (.mget p) ⟨false, false, [], [.p p.toNat]⟩ fun s =>
    .ok (s.mapTeam fun t => (t.setP p.toNat (t.p p.toNat ||| t.mask)).soundP p.toNat t.active)

/-! ## Barriers (R246, R247) -/

/-- The arrival of the team at the current generation, with the requests it has under way (R114). -/
def State.barArrives (s : State) : State :=
  match s.wgOf s.team.wg with
  | none => s
  | some g =>
    let mine := (s.requests.filter fun r => r.team == s.team.uid && !r.performed true).map fun r => (g.barGen, r.id)
    (s.updWg g.uid fun g => { g with barCount := g.barCount + 1, barReqs := g.barReqs ++ mine }).mapTeam fun t =>
      { t with arrival := some g.barGen }

/-- BAR.ARRIVE: a release at mill scope, which waits for the acquires of its team (R104); illegal with an outstanding arrival. -/
def execBarArrive : State → Out :=
  execClosing .barArrive ⟨false, false, [], []⟩ fun s =>
    if s.team.arrival.isSome then .trap (bitsTrap .barArrive 0x01) s
    else if s.acquiring s.team.uid || !s.performedAll s.team.uid false then .wait s
    else .ok ((s.barArrives.pointAfter).checkBarrier s.team.wg)

/-- The wait of a team for its generation; a point follows when it completes at once. -/
def State.barWaits (s : State) : Res :=
  match s.team.arrival, s.wgOf s.team.wg with
  | some gen, some g =>
    if gen = g.barGen then
      .wait ((s.mapTeam fun t => { t with status := .parked .barrier }).settleDonations s.team.wg)
    else .ok (s.mapTeam fun t => t.completes (g.joined gen)).pointAfter
  | _, _ => .ok s.pointAfter

/-- BAR.WAIT. -/
def execBarWait : State → Out := execClosing .barWait ⟨false, false, [], []⟩ State.barWaits

/-- BAR.SYNC: the arrival, a release as that of BAR.ARRIVE, with a point at itself, then the wait. -/
def execBarSync : State → Out :=
  execClosing .barSync ⟨false, false, [], []⟩ fun s =>
    if s.team.arrival.isSome then s.barWaits
    else if s.acquiring s.team.uid || !s.performedAll s.team.uid false then .wait s
    else
      let s := (s.mapTeam fun t => { t.setPoint t.pc with status := .parked .barrier }).barArrives
      .wait ((s.checkBarrier s.team.wg).settleDonations s.team.wg)

/-! ## Team control (R248 to R250) -/

/-- The team whose turn it is retires (R148, R151, R154, R172, R174, R180, R248). DEDUCED: log 47. -/
def State.retire (s : State) : State :=
  let t := s.team
  let s := ((((s.endLease t).leaveQueue t).withdrawArrival t).countExit t)
  let s := { s with team := Team.vacant }
  let s := ((s.checkBarrier t.wg).tryGroup t.wg).settleDonations t.wg
  match s.wgOf t.wg with
  | some g => if (s.members t.wg).isEmpty then s.endWorkgroup g else s
  | none => s

/-- EXIT (R89, R103, R248): once no flow runs and every access is complete and performed, the team retires. DEDUCED: log 47. -/
def execExit : State → Out :=
  execClosing .exit ⟨false, false, [], []⟩ fun s =>
    let uid := s.team.uid
    if s.flowRuns uid || !(s.accessesOf uid).isEmpty || !s.performedAll uid true then .wait s else .wait s.retire

/-- YIELD: the age becomes 0. -/
def execYield : State → Out :=
  execClosing .yield ⟨false, false, [], []⟩ fun s => .ok (s.mapTeam fun t => { t with age := 0 })

/-- NOP. -/
def execNop : State → Out := execClosing .nop ⟨false, false, [], []⟩ fun s => .ok s

/-- SLEEP #n: PARKED for n clocks from issue. -/
def execSleep (n : BitVec 20) : State → Out :=
  execClosing (.sleep n) ⟨false, false, [], []⟩ fun s => .wait (s.mapTeam fun t =>
    { t with status := .parked (.sleep s.time n.toNat) })

/-- Can so many clocks of the 2.25 GHz clock (R6), 4/9 ns each, have passed since a time, counted in whole nanoseconds? -/
def State.clocksPassed (s : State) (since clocks : Nat) : Bool := 4 * clocks < 9 * (s.time + 1 - since)

/-- SLEEP_EXPIRY (R248): the clocks of a SLEEP have passed. -/
def execSleepExpiry (team : Nat) (s : State) : Out :=
  match s.focus team with
  | none => .fault .notEnabled
  | some s =>
    match s.team.status with
    | .parked (.sleep since clocks) =>
      if s.clocksPassed since clocks then .next (s.mapTeam Team.resume) else .fault .notEnabled
    | _ => .fault .notEnabled

/-- DEFER (R249): `%defer`.MODE := mode. -/
def execDefer (m : BitVec 2) : State → Out :=
  execClosing (.defer m) ⟨false, false, [], []⟩ fun s => .ok (s.mapTeam fun t => { t with defer := m.toNat })

/-- FBPT #n (R164, R249): the latest point is set. -/
def execFbpt (n : BitVec 12) : State → Out :=
  execClosing (.fbpt n) ⟨false, false, [], []⟩ fun s => .ok s.pointAfter

/-- PLOT #n (R250). -/
def execPlot (n : BitVec 3) : State → Out :=
  execClosing (.plot n) ⟨false, false, [], []⟩ fun s => .ok (s.mapTeam fun t => { t with plot := n.toNat })

/-! ## Donation (R152, R153, R251) -/

/-- RDV #k: the team joins set k of its wheel; a team of another set raises illegal instruction. -/
def execRdv (k : BitVec 2) : State → Out :=
  execClosing (.rdv k) ⟨false, false, [], []⟩ fun s =>
    match s.team.donation, s.wgOf s.team.wg with
    | none, some g =>
      .ok ((s.setDonation g.uid (g.donation s.team.wheel k.toNat)).mapTeam fun t =>
        { t with donation := some k.toNat }).pointAfter
    | some j, _ => if j = k.toNat then .ok s.pointAfter else .trap (bitsTrap (.rdv k) 0x01) s
    | none, none => .ok (s.mapTeam fun t => { t with donation := some k.toNat }).pointAfter

/-- Registers below which a team of R registers falls when it gives n. -/
def Team.given (t : Team) (n : Nat) : Team := { t.clearRegs (t.regs - n) t.regs with regs := t.regs - n }

/-- GIVE #n: the rows of the last n registers go to the pool. -/
def execGive (g : BitVec 4) : State → Out :=
  execClosing (.give g) ⟨false, false, [], []⟩ fun s =>
    let t := s.team
    let n := 8 * g.toNat
    match t.donation with
    | none => .trap (bitsTrap (.give g) 0x01) s
    | some k =>
      if t.regs < n + 8 then .trap (bitsTrap (.give g) 0x01) s
      else if (List.range n).any fun i => s.unready (.v (t.regs - n + i)) then .wait s
      else
        let s := (s.mapTeam fun t => t.given n).pointAfter
        match s.wgOf t.wg with
        | none => .ok s
        | some w =>
          let d := w.donation t.wheel k
          .ok ((s.setDonation w.uid { d with pool := d.pool + n * t.swaths }).settleDonations w.uid)

/-- TAKE #n: the team queues in its set, and is granted the rows when they are there. -/
def execTake (g : BitVec 4) : State → Out :=
  execClosing (.take g) ⟨false, false, [], []⟩ fun s =>
    let t := s.team
    let n := 8 * g.toNat
    match t.donation, s.wgOf t.wg with
    | some k, some w =>
      if 128 < t.regs + n || 8 * t.maxG < t.regs + n then .trap (bitsTrap (.take g) 0x01) s
      else
        let d := w.donation t.wheel k
        let s := s.setDonation w.uid { d with queue := d.queue ++ [(t.uid, n * t.swaths)] }
        .wait ((s.mapTeam fun t => { t with status := .blocked }).settleDonations w.uid)
    | _, _ => .trap (bitsTrap (.take g) 0x01) s

/-! ## Mode and time (R253, R254) -/

/-- MODESET: the enables that e names are set, and RM when r is not 0. -/
def execModeset (e : BitVec 6) (r : BitVec 3) : State → Out :=
  execClosing (.modeset e r) ⟨false, false, [], []⟩ fun s =>
    .ok (s.mapTeam fun t =>
      let m := t.mode ||| (e.setWidth 64 <<< 7)
      { t with mode := if r = 0 then m else wput m 2 0 r.toNat })

/-- MODECLR: the enables that e names are cleared. -/
def execModeclr (e : BitVec 6) : State → Out :=
  execClosing (.modeclr e) ⟨false, false, [], []⟩ fun s =>
    .ok (s.mapTeam fun t => { t with mode := t.mode &&& ~~~(e.setWidth 64 <<< 7) })

/-- TIME: waits until every earlier memory instruction is complete, then `s`d := `%time`. -/
def execTime (d : BitVec 6) : State → Out :=
  execClosing (.time d) ⟨false, false, [], [.u d.toNat]⟩ fun s =>
    if !(s.accessesOf s.team.uid).isEmpty then .wait s
    else
      let (v, s) := s.readTime s.team.vd
      .ok (s.mapTeam fun t => t.setU d.toNat v)

/-! ## Noise (R269, R270) -/

/-- Has the mill's noise source failed? -/
def State.noiseFailed (s : State) : Bool := s.regBit (millReg s.team.mill) 62

/-- 32 bits drawn for each active lane. -/
def State.noise (s : State) : State × List (Nat × Lane) :=
  let (xs, s') := State.drawMany s.team.active.length s
  (s', s.team.active.zip xs)

/-- RND (R269). -/
def execRnd (d : BitVec 7) : State → Out :=
  execClosing (.rnd d) ⟨false, false, [], [.v d.toNat]⟩ fun s =>
    if s.team.active.isEmpty then .ok s
    else if s.noiseFailed then .trap (.plain 0x12 0 s.team.mask) s
    else
      let (s, ws) := s.noise
      .ok (s.mapTeam fun t => t.setV d.toNat ws)

/-- The bytes of a record of RND.LOG for a swath (R270). -/
def State.logRecord (s : State) (w : Nat) (ws : List (Nat × Lane)) : List Byte :=
  let t := s.team
  leBytes 4 (t.lseq % 65536 * 65536 + t.vd) ++ leBytes 4 (s.teamWord t) ++ leBytes 4 (t.rndLog % 2 ^ 27 * 32 + w) ++
  leBytes 4 (t.mask.toNat / 2 ^ (32 * w)) ++
  (List.range 32).flatMap fun i => leBytes 4 ((ws.find? fun x => x.1 == 32 * w + i).elim 0 fun x => x.2.toNat)

/-- The place of a record, reserved in the ring's header (R270): its byte after the header. A poisoned word of the header is used as
its bytes stand. DEDUCED: log 48. DESIGN CHOICE: log 127. -/
def State.logReserve (s : State) (slice off size : Nat) : State × Nat :=
  let head := s.ctrWord slice off 0
  if size < head + 144 + 16 then
    ((s.setCtrWord slice off 1 (s.ctrWord slice off 1 + 1)).setCtrWord slice off 0 144, 0)
  else (s.setCtrWord slice off 0 (head + 144), head)

/-- The records of an RND.LOG, one for each swath with an active lane: the stores they make. Their places are reserved in one step.
DESIGN CHOICE: log 127. -/
def State.logSwaths (slice off size : Nat) (base : Word) (ws : List (Nat × Lane)) :
    State → List Nat → State × List (Nat × Loc × Word × List Byte)
  | s, [] => (s, [])
  | s, w :: rest =>
    let bytes := s.logRecord w ws
    let (s, at') := s.logReserve slice off size
    let here := (wordPieces 144 (off + 16 + at') bytes).map fun p =>
      (32 * w, Loc.plain slice p.1, base + BitVec.ofNat 64 (p.1 - off), p.2)
    let (s, more) := State.logSwaths slice off size base ws s rest
    (s, here ++ more)

/-- The effect of RND.LOG (R270). DEDUCED: log 48. -/
def State.doRndLog (d : Nat) (s : State) : Res :=
  let t := s.team
  let r := s.reg (vdReg t.vd 0x088)
  let size := wbits r 57 48 * 4096
  let base : Word := BitVec.ofNat 64 (wbits r 29 0)
  let count := fun (s : State) => s.mapTeam fun t => { t with rndLog := t.rndLog + 1 }
  let bad := fun (stopped : Bool) =>
    Res.trap { Trap.bare 0x07 base with report := if stopped then 0x0A else 0 } s
  if t.active.isEmpty then .ok (count s)
  else if !r.getLsbD 63 || size = 0 then bad false
  else
    match s.plainPhys base size t.part 1 with
    | .error (_, stopped) => bad stopped
    | .ok (slice, off) =>
      if s.noiseFailed then .trap (.plain 0x12 0 t.mask) s
      else if !s.mayAccess t.uid || s.plainBusy slice off 16 then .wait s
      else
        let (s, ws) := s.noise
        let swaths := (List.range t.swaths).filter fun w => t.mask.toNat / 2 ^ (32 * w) % 2 ^ 32 != 0
        let (s, stores) := State.logSwaths slice off size base ws s swaths
        .ok (count ((s.sendStore stores).mapTeam fun t => t.setV d ws))

/-- RND.LOG (R270): as RND, with a record of the bits in the virtual device's ring. -/
def execRndLog (d : BitVec 7) : State → Out :=
  execClosing (.rndLog d) ⟨false, false, [], [.v d.toNat]⟩ (State.doRndLog d.toNat)

/-! ## TRAP and BRK (R332) -/

/-- Breakpoint with its code. DEDUCED: log 65. -/
def breakpoint (c : BitVec 16) : Trap := { Trap.plain 0x1B (c.setWidth 64) 0 with done := true }

/-- TRAP #code: breakpoint, in the lanes or through the queue (R348). -/
def execTrap (c : BitVec 16) : State → Out :=
  execClosing (.trap c) ⟨false, false, [], []⟩ fun s => .trap (breakpoint c) s

/-- BRK #code: breakpoint, always through the fault queue. DEDUCED: log 65. -/
def execBrk (c : BitVec 16) : State → Out :=
  execClosing (.brk c) ⟨false, false, [], []⟩ fun s =>
    .wait ((s.advance 4).toQueue ⟨{ breakpoint c with epc := s.team.pc }, false⟩)

end Sys2Proof.Machine
end

