-- ==== Sys2Proof/Machine/Invalidate.lean ====
section
/-! DEFINITION. Invalidation of translations (R71 to R73, R122, R327). -/

namespace Sys2Proof.Machine

/-- Does it cover an entry (R72)? -/
def InvScope.covers (x : InvScope) (e : TlbEntry) : Bool :=
  match x with
  | .page a va => e.covers a va
  | .spaces as => as.contains e.asid
  | .frames lo hi => e.cls == 0 && e.frame < hi && lo < e.frame + 2 ^ pageShift e.size

/-- The entries of every TLB and the pins of every claim and flow. -/
def State.allEntries (s : State) : List TlbEntry :=
  s.laneTlb.flatMap (·.2) ++ s.walkAhead.flatMap (·.2) ++
  (s.teams.flatMap fun t => t.claims.flatMap fun c => c.2.pins) ++ s.flows.flatMap (·.pins) ++
  s.copyWaits.flatMap fun w => w.2.pins

/-- The addresses that a request was translated for: those of its lanes, or its own. -/
def Req.eas (r : Req) : List Nat := r.ea.toNat :: r.laneEas.map fun p => p.2.toNat

/-- Does a request wait in its mill's egress, or at its controller, under the translation it was made with? A load of class Peer
left when it issued. -/
def Req.underway (r : Req) : Bool :=
  match r.loc, r.op with
  | .mem _ _ _ _, _ => true
  | .peer _ _ _, .packet _ _ => true
  | _, _ => false

/-- Was a request translated through one of the entries, or through one like them that has left its TLB? DEDUCED: log 51. -/
def State.reqUnder (s : State) (x : InvScope) (removed : List TlbEntry) (r : Req) : Bool :=
  let asid := ((s.teamOf r.team).map (·.asid)).getD 0
  r.underway &&
  ((removed.any fun e => r.eas.any (e.covers asid)) || match x with
    | .page a va => asid == a && r.eas.any fun ea => ea / 65536 == va / 65536
    | .spaces as => as.contains asid
    | .frames lo hi => match r.loc with
      | .mem host pa _ _ => !host && lo ≤ pa && pa < hi
      | _ => false)

/-- Entries that an invalidation covers leave every TLB. DEDUCED: log 51. -/
def State.removeEntries (s : State) (x : InvScope) : State :=
  { s with
    laneTlb := (s.laneTlb.map fun t => (t.1, t.2.filter fun e => !x.covers e)).filter fun t => !t.2.isEmpty
    walkAhead := (s.walkAhead.map fun t => (t.1, t.2.filter fun e => !x.covers e)).filter fun t => !t.2.isEmpty }

/-- The pins that go on standing under running flows are found by no lookup any more (R72): they are marked with the invalidation. -/
def State.stalePins (s : State) (x : InvScope) (id : Nat) : State :=
  let mark := fun (e : TlbEntry) => if x.covers e && e.stale == 0 then { e with stale := id } else e
  { s.mapTeams fun t => { t with claims := t.claims.map fun c => (c.1, { c.2 with pins := c.2.pins.map mark }) } with
    flows := s.flows.map fun f => { f with pins := f.pins.map mark } }

/-- The pointers that the walkers keep for the address spaces of an invalidation go (R59, R72); a step region's enabling, whose own list
in R122 does not name them, keeps them. DESIGN CHOICE: log 132. -/
def State.dropScope (s : State) (x : InvScope) : State :=
  match x with
  | .page a _ => s.dropPointers a
  | .spaces as => as.foldl State.dropPointers s
  | .frames _ _ => s

/-- An invalidation begins (R72): its apply, the claims, and what it drains. The instruction caches are emptied when it removes a
translation of a code page (R212). DEDUCED: log 51. -/
def State.invalidate (s : State) (owner : InvOwner) (x : InvScope) (word : Word) : State :=
  let removed := s.allEntries.filter x.covers
  let inv : Invalidation :=
    { id := s.nextId, owner := owner, scope := x
      requests := (s.requests.filter (s.reqUnder x removed)).map (·.id)
      flows := (s.flows.filter fun f => f.pins.any x.covers).map (·.id)
      frames := removed.map fun e => (e.cls != 0, e.frame, e.frame + 2 ^ pageShift e.size)
      word := word }
  let s := (((s.removeEntries x).dropScope x).revokePins x.covers 1).stalePins x s.nextId
  let s := if removed.any (·.x) then { s with icache := [] } else s
  { s with invalidations := s.invalidations ++ [inv], nextId := s.nextId + 1 }

/-- The lane-cache lines of frames dropped in every mill. -/
def State.dropFrames (s : State) (frames : List (Bool × Nat × Nat)) : State :=
  let inside := fun (host : Bool) (line : Nat) => frames.any fun f => f.1 == host && f.2.1 ≤ line && line < f.2.2
  { s with
    laneCache := (s.laneCache.map fun c => (c.1, c.2.filter fun l => !inside l.host l.line)).filter fun c => !c.2.isEmpty
    requests := s.requests.map fun r => match r.loc with
      | .mem host pa _ _ => if inside host (pa / 64 * 64) then { r with fill := false } else r
      | _ => r }

/-- Has everything drained that the invalidation waits for? -/
def State.drained (s : State) (v : Invalidation) : Bool :=
  !(s.requests.any fun r => v.requests.contains r.id) && !(s.flows.any fun f => v.flows.contains f.id)

/-! ## INVCMD (R71) -/

/-- Is the root of the ASID enabled for the virtual device (R30)? -/
def State.ownsAsid (s : State) (vd asid : Nat) : Bool := asid < 4096 && s.asidVd asid == some vd

/-- Every ASID of a virtual device. -/
def State.asidsOf (s : State) (vd : Nat) : List Nat := (List.range 4096).filter fun a => s.asidVd a == some vd

/-- A write of `INVCMD` (R71): an accepted GO begins the invalidation, a refused one sets REF and changes nothing. -/
def State.writeInvcmd (s : State) (vd : Nat) (w : Word) : State :=
  let off := vdReg vd 0x048
  let old := s.reg off
  let fields := fun (old : Word) => wput (wput (wput old 61 60 (wbits w 61 60)) 55 16 (wbits w 55 16)) 11 0 (wbits w 11 0)
  let kind := wbits w 61 60
  let asid := wbits w 11 0
  if !w.getLsbD 63 then s.setReg off (fields old)
  else if old.getLsbD 63 || kind = 3 || (kind < 2 && !s.ownsAsid vd asid) then s.setReg off (wput old 62 62 1)
  else
    let w := wput (wput (fields old) 63 63 1) 62 62 0
    let scope : InvScope :=
      if kind = 0 then .page asid (wbits w 55 16 * 65536) else .spaces (if kind = 1 then [asid] else s.asidsOf vd)
    (s.setReg off w).invalidate (.host vd) scope w

/-- A host write of BAR 0, which minimal mode ignores beyond its first MiB (R381). DEDUCED: log 50. DESIGN CHOICE: log 84. -/
def State.hostWriteReg (s : State) (off : Nat) (f : State → State) : Out :=
  if s.boot == .minimal && 0x100000 ≤ off && !(0x500000 ≤ off && off < 0x600000) then .next s else .next (f s)

/-- The word of `INVCMD` with GO = 1. -/
def invcmdWord (kind : Nat) (page : Word) (asid : BitVec 12) : Word :=
  BitVec.ofNat 64 (2 ^ 63 + kind * 2 ^ 60 + wbits page 55 16 * 65536 + asid.toNat)

/-- INVCMD_ONE_PAGE (R72): a host write of `INVCMD` with KIND 00. -/
def execInvcmdOnePage (vd : Nat) (page : Word) (asid : BitVec 12) (s : State) : Out :=
  if 256 ≤ vd then .fault .noSuchUnit
  else s.hostWriteReg (vdReg vd 0x048) fun s => s.writeInvcmd vd (invcmdWord 0 page asid)

/-- INVCMD_ASID (R72): KIND 01. -/
def execInvcmdAsid (vd : Nat) (asid : BitVec 12) (s : State) : Out :=
  if 256 ≤ vd then .fault .noSuchUnit
  else s.hostWriteReg (vdReg vd 0x048) fun s => s.writeInvcmd vd (invcmdWord 1 0 asid)

/-- INVCMD_VIRTUAL_DEVICE (R72): KIND 10. -/
def execInvcmdVirtualDevice (vd : Nat) (s : State) : Out :=
  if 256 ≤ vd then .fault .noSuchUnit
  else s.hostWriteReg (vdReg vd 0x048) fun s => s.writeInvcmd vd (invcmdWord 2 0 0)

/-! ## TLBINV (R327) -/

/-- TLBINV parks until the acknowledgement; a point follows it (R325). `word` is the page it names. -/
def State.teamInvalidate (s : State) (x : InvScope) (word : Word) : Res :=
  let id := s.nextId
  .wait ((s.invalidate (.team s.team.uid) x word).mapTeam fun t => { t with status := .parked (.invalidation id) })

/-- TLBINV `s`a: KIND 00 of R71 for the page of `s`a in the team's ASID. -/
def execTlbinv (a : BitVec 6) : State → Out :=
  execClosing (.tlbinv a) ⟨true, false, [.u a.toNat], []⟩ fun s =>
    let va := s.team.u a.toNat
    s.teamInvalidate (.page s.team.asid (va.toNat / 65536 * 65536)) va

/-- TLBINV.ALL: KIND 01 for the team's ASID. -/
def execTlbinvAll : State → Out :=
  execClosing .tlbinvAll ⟨true, false, [], []⟩ fun s => s.teamInvalidate (.spaces [s.team.asid]) 0

/-- The end of a team's TLBINV: under SHADOW = 1 it posts its event and parks (R69), else it completes. DEDUCED: log 68. -/
def State.tlbinvDone (s : State) (v : Invalidation) (uid : Nat) : State :=
  match s.teamOf uid with
  | none => s
  | some t =>
    if t.status != .parked (.invalidation v.id) then s
    else if s.regBit (vdReg t.vd 0x040) 1 then
      let (size, s) := s.openTval
      (s.updTeam uid fun t => { t with status := .parked .shadow }).post (some t.vd) 0x06 0x07 v.word size (some uid)
    else s.updTeam uid fun t => (t.setPoint (t.pc + 4)).resume

end Sys2Proof.Machine
end

