-- ==== Sys2Proof/Machine/Keys.lean ====
section
/-! DEFINITION. The keys (R29, R42, R44, R45, R328, R374): loads, destructions, and the host's key-engine registers. -/

namespace Sys2Proof.Machine

/-- The last load or destroy of an index was refused. -/
def State.refuseKey (s : State) (index : Nat) : State := s.updReg (kstatReg index) fun w => wput w 13 13 1

/-- A load of an index by a partition (R45, R328): from EMPTY or RETIRED the material is installed and the partition owns the
index; otherwise it is refused. -/
def State.keyLoad (s : State) (part index : Nat) (mat : BitVec 512) : State :=
  let st := s.keyState index
  if index = 0 || st = 1 || st = 2 then s.refuseKey index
  else
    { s.setReg (kstatReg index) (BitVec.ofNat 64 (part % 32 * 256 + 1)) with
      materials := mapSet 0 s.materials s.nextMaterial mat
      keyMaterial := mapSet 0 s.keyMaterial index s.nextMaterial
      nextMaterial := s.nextMaterial + 1 }

/-- The erase of an index (R45, R87): the material leaves every engine, every lane cache and instruction cache is emptied, and the
claims that pin a page under the index are revoked. DEDUCED: log 21. -/
def State.eraseKey (s : State) (index : Nat) : State :=
  let s := s.updReg (kstatReg index) fun w => wput (wput w 13 13 0) 1 0 2
  ({ s with keyMaterial := mapErase s.keyMaterial index }.dropAllCaches).revokePins (fun e => e.key == index) 5

/-- A destroy of an index by a partition (R45, R328): the state, and whether the index is being destroyed for it.
DEDUCED: log 21. -/
def State.keyDelete (s : State) (part index : Nat) : State × Bool :=
  let st := s.keyState index
  let foreign := st != 0 && s.keyOwner index != some part
  if index = 0 || st = 2 || foreign then (s.refuseKey index, false)
  else if st = 1 then (s.eraseKey index, true)
  else (s.updReg (kstatReg index) fun w => wput w 13 13 0, false)

/-! ## KEYLD and KEYDEL -/

/-- The effect of KEYLD (R328): the material is read, the event applied, and zero written over the bytes. DEDUCED: log 22. -/
def State.doKeyld (i : Instr) (a b : Nat) (s : State) : Res :=
  let t := s.team
  let ea := t.u b
  if wbits (t.u a) 63 16 != 0 then .trap (bitsTrap i 0x01) s
  else if ea.toNat % 64 != 0 then s.bareTrap 0x06 0 ea
  else
    match s.plainPhys ea 64 t.part 1 with
    | .error (code, stopped) => s.bareTrap code (if stopped then 0x0A else 0) ea
    | .ok (slice, off) =>
      if s.plainBusy slice off 64 then .wait s
      else if s.plainPoisoned slice off 64 then s.bareTrap 0x12 0 ea
      else
        let mat := BitVec.ofNat 512 (leNat (s.plainRead slice off 64))
        .ok (((s.keyLoad t.part (wbits (t.u a) 15 0) mat).plainStore slice off zero64).pointAfter)

/-- KEYLD `s`a, `s`b. -/
def execKeyld (a b : BitVec 6) : State → Out :=
  execClosing (.keyld a b) ⟨true, false, [.u a.toNat, .u b.toNat], []⟩ (State.afterAcquires (State.doKeyld (.keyld a b) a.toNat b.toNat))

/-- KEYDEL `s`a (R328): one that destroys parks the team until KEY_RETIRE; any other completes at once. -/
def execKeydel (a : BitVec 6) : State → Out :=
  execClosing (.keydel a) ⟨true, false, [.u a.toNat], []⟩ fun s =>
    if wbits (s.team.u a.toNat) 63 16 != 0 then .trap (bitsTrap (.keydel a) 0x01) s
    else
      let index := wbits (s.team.u a.toNat) 15 0
      match s.keyDelete s.team.part index with
      | (s, true) => .wait (s.mapTeam fun t => { t with status := .parked (.keydel index) })
      | (s, false) => .ok s.pointAfter

/-! ## The host's commands (R374) -/

/-- The command has ended: GO reads 0 and `KMAT` is zeroed. -/
def State.endKcmd (s : State) : State :=
  { s.updReg kcmdReg fun w => wput w 63 63 0 with kmat := 0, hostDestroy := none }

/-- A write of `KCMD`. -/
def State.writeKcmd (s : State) (w : Word) : State :=
  let old := s.reg kcmdReg
  let fields := wput (wput (wput old 62 61 (wbits w 62 61)) 52 48 (wbits w 52 48)) 15 0 (wbits w 15 0)
  let part := wbits w 52 48
  let index := wbits w 15 0
  if !w.getLsbD 63 then s.setReg kcmdReg fields
  else if old.getLsbD 63 then s
  else
    let s := s.setReg kcmdReg (wput fields 63 63 1)
    match wbits w 62 61 with
    | 1 => (s.keyLoad part index (BitVec.ofNat 512 s.kmat)).endKcmd
    | 2 =>
      match s.keyDelete part index with
      | (s, true) => { s with hostDestroy := some index }
      | (s, false) => s.endKcmd
    | _ => (s.refuseKey index).endKcmd

/-- Eight bytes of `KMAT`, or four, written: byte `off` on. -/
def State.writeKmat (s : State) (off n v : Nat) : State :=
  { s with kmat := leNat (overlay (leBytes 64 s.kmat) off (leBytes n v)) }

/-- The word of `KCMD` with GO = 1. -/
def kcmdWord (op part : Nat) (index : BitVec 16) : Word := BitVec.ofNat 64 (2 ^ 63 + op * 2 ^ 61 + part * 2 ^ 48 + index.toNat)

/-- KCMD_LOAD: a host write of `KCMD` with OP 01 and the material in `KMAT`. -/
def execKcmdLoad (part : Nat) (index : BitVec 16) (s : State) : Out :=
  if 32 ≤ part then .fault .noSuchUnit else s.hostWriteReg kcmdReg fun s => s.writeKcmd (kcmdWord 1 part index)

/-- KCMD_DESTROY: a host write of `KCMD` with OP 10. -/
def execKcmdDestroy (part : Nat) (index : BitVec 16) (s : State) : Out :=
  if 32 ≤ part then .fault .noSuchUnit else s.hostWriteReg kcmdReg fun s => s.writeKcmd (kcmdWord 2 part index)

/-- KEY_RETIRE (R45): the erase has drained; the index is RETIRED and what waited for it goes on. DEDUCED: log 21. -/
def execKeyRetire (index : Nat) (s : State) : Out :=
  if 65536 ≤ index then .fault .noSuchUnit
  else if s.keyState index != 2 then .fault .notEnabled
  else
    let s := s.updReg (kstatReg index) fun w => wput w 1 0 3
    let s := s.mapTeams fun t => if t.status == .parked (.keydel index) then (t.setPoint (t.pc + 4)).resume else t
    .next (if s.hostDestroy = some index then s.endKcmd else s)

end Sys2Proof.Machine
end

