-- ==== Sys2Proof/Machine/Fabric.lean ====
section
/-! DEFINITION. The fabric ports and routes, peers lost, congestion, and the stop of a unit (R74, R75, R86, R93, R129, R322,
R376, R377, R379, R385, R386). -/

namespace Sys2Proof.Machine

/-! ## The loss of a peer (R74) -/

/-- Every claim of every team for which `f` holds is revoked with a code. -/
def State.revokeClaims (s : State) (f : Claim → Bool) (code : Nat) : State := s.mapTeams fun t => t.revokeIf f code

/-- Every flow for which `f` holds is severed with a code (R93). -/
def State.severFlows (s : State) (f : Flow → Bool) (code : Nat) : State :=
  (s.flows.filter f).foldl (fun s x => s.sever x code) s

/-- Every collective with that member is severed (R322). -/
def State.severMember (s : State) (m code : Nat) : State :=
  (s.colls.filter fun c => c.members.contains m).foldl (fun s c => s.severColl c code) s

/-- Is it a claim whose destination lies at that module? -/
def Claim.toPeer (c : Claim) (m : Nat) : Bool := c.desc.dpeer && c.desc.pmod == m

/-- The packets in egress towards a module are dropped, and LOST of their regions is set (R75, R136). -/
def State.dropPackets (s : State) (m : Nat) : State :=
  let lost := fun (r : Req) => match r.loc, r.op with
    | .peer x _ _, .packet g _ => if x == m then some g else none
    | _, _ => none
  (s.requests.filterMap lost).foldl (fun s g => s.updReg (regionReg g 0) fun w => wput w 61 61 1)
    { s with requests := s.requests.filter fun r => (lost r).isNone }

/-- A peer is lost: UP clears and GEN rises; flows and collectives with it are severed, claims to it revoked, its domains fail,
packets in egress to it are dropped and loads on their way to it raise peer lost (R74, R75, R87, R93, R129, R136, R322). -/
def State.losePeer (s : State) (m : Nat) : State :=
  if !(s.peer m).1 then s
  else
    let s := s.updReg (peerReg m) fun w => wput (wput w 63 63 0) 15 0 (wbits w 15 0 + 1)
    let s := s.severFlows (fun f => f.peer == some m) 6
    let s := s.revokeClaims (·.toPeer m) 6
    let s := (s.severMember m 6).memberLost m
    (s.dropPackets m).loseWhere 0x09 fun _ x _ => x == m && m != s.module

/-- PEER_DOWN (R74): the fabric reports that the module has reset or powered down. -/
def execPeerDown (target : Nat) (s : State) : Out :=
  if 4096 ≤ target then .fault .noSuchUnit else .next (s.losePeer target)

/-- A host write of a peer entry (R74): UP can only be set. -/
def State.writePeer (s : State) (m : Nat) (w : Word) : State :=
  if w.getLsbD 63 then s.updReg (peerReg m) fun r => wput r 63 63 1 else s

/-- PEER_UP_SET: the host sets UP of a peer entry. -/
def execPeerUpSet (target : Nat) (s : State) : Out :=
  if 4096 ≤ target then .fault .noSuchUnit
  else s.hostWriteReg (peerReg target) fun s => s.writePeer target (BitVec.ofNat 64 (2 ^ 63))

/-! ## Lost routes (R86, R377) -/

/-- A claim whose route is lost goes over to its alternate; with none left it is revoked, or its flow severed by the caller. -/
def Claim.dropRoute (c : Claim) (lost : Word → Bool) : Claim :=
  let alive := fun (r : Option Word) => r.filter fun w => !lost w
  match alive c.route with
  | some r => { c with route := some r, alternate := alive c.alternate }
  | none => { c with route := alive c.alternate, alternate := none }

/-- Is a claim to a peer left without a route? -/
def Claim.routeless (c : Claim) : Bool := c.desc.dpeer && c.state != .free && c.state != .revoked && c.route.isNone

/-- A copy node's flow whose route is lost goes over to the alternate that its claim copied (R175, R377). -/
def Flow.dropRoute (f : Flow) (lost : Word → Bool) : Flow :=
  let alive := fun (r : Option Word) => r.filter fun w => !lost w
  match alive f.route with
  | some r => { f with route := some r, alternate := alive f.alternate }
  | none => { f with route := alive f.alternate, alternate := none }

/-- Routes are lost (R84, R86, R87): each claim to the module, a copy node's among them, goes over to its alternate; without one it is
revoked, and its flow severed, with cause route lost. -/
def State.loseClaimRoutes (s : State) (m : Nat) (lost : Word → Bool) : State :=
  let s := s.mapTeams fun t =>
    { t with claims := t.claims.map fun c => if c.2.toPeer m then (c.1, c.2.dropRoute lost) else c }
  let flows := s.flows.map fun (f : Flow) => if f.peer == some m && f.team.isNone then f.dropRoute lost else f
  let waits := s.copyWaits.map fun (w : Nat × Claim) => if w.2.toPeer m then (w.1, w.2.dropRoute lost) else w
  let s := { s with flows := flows, copyWaits := waits }
  let dead := fun (f : Flow) => f.peer == some m && match f.team.bind s.teamOf with
    | some t => (t.claim f.slot).routeless
    | none => f.route.isNone
  let s := s.severFlows dead 4
  s.revokeClaims (fun c => c.toPeer m && c.routeless) 4

/-- With no route that is valid and not lost, collectives with the module are severed and its UP clears (R322, R377). -/
def State.checkRoutes (s : State) (m : Nat) : State :=
  if (s.anyRoute m).isSome || m = s.module then s else (s.severMember m 4).losePeer m

/-- Do two routes take the same ports? -/
def sameRoute (a b : Word) : Bool := wbits a 34 0 == wbits b 34 0

/-- A route of the table is marked lost, and what follows (R377). -/
def State.loseRoute (s : State) (m : Nat) (alt : Bool) : State :=
  match s.liveRoute m alt with
  | none => s
  | some r =>
    let s := s.updReg (routeReg m alt) fun w => wput w 62 62 1
    (s.loseClaimRoutes m (sameRoute r)).checkRoutes m

/-- A route of given ports to a module is lost (R377): those of the table that take them, and those that claims copied, which no later
write of the table affects. -/
def State.routeLost (s : State) (m : Nat) (r : Word) : Out :=
  if 4096 ≤ m then .fault .noSuchUnit
  else
    let s := [false, true].foldl (fun s alt => if (s.liveRoute m alt).any (sameRoute r) then s.loseRoute m alt else s) s
    .next (s.loseClaimRoutes m (sameRoute r))

/-- LOSS_NOTICE (R377): a notice arrives from the module at the hop that failed, for a route of the table; one for a route that only
claims hold still is the turn `routeLost`. -/
def execLossNotice (target : Nat) (alternate : Bool) (s : State) : Out :=
  if 4096 ≤ target then .fault .noSuchUnit
  else if (s.liveRoute target alternate).isNone then .fault .notEnabled
  else .next (s.loseRoute target alternate)

/-- A host write of a route entry (R377): LOST clears. -/
def State.writeRoute (s : State) (m : Nat) (alt : Bool) (w : Word) : State :=
  (s.setReg (routeReg m alt) (BitVec.ofNat 64 (wbits w 63 63 * 2 ^ 63 + wbits w 34 0))).checkRoutes m

/-- ROUTE_WRITE: a host write of a route entry. -/
def execRouteWrite (target : Nat) (alternate : Bool) (value : Word) (s : State) : Out :=
  if 4096 ≤ target then .fault .noSuchUnit
  else s.hostWriteReg (routeReg target alternate) fun s => s.writeRoute target alternate value

/-! ## Ports (R376) -/

/-- The routes of the table whose hop 0 leaves by a port: module, and whether the alternate. -/
def State.routesBy (s : State) (port : Nat) : List (Nat × Bool) :=
  s.regs.filterMap fun e =>
    if routeReg 0 false ≤ e.1 && e.1 < routeReg 4096 false && e.2.getLsbD 63 && wbits e.2 3 0 == port then
      some ((e.1 - routeReg 0 false) / 16, (e.1 - routeReg 0 false) % 16 == 8)
    else none

/-- The port loses UP: every route whose hop 0 leaves by it is lost, those that claims copied among them. -/
def State.portDown (s : State) (port : Nat) : State :=
  let routes := s.routesBy port
  let s := routes.foldl (fun s r => s.loseRoute r.1 r.2) s
  let target := fun (d : Desc) => if d.dpeer then some d.pmod else none
  let mods := ((s.teams.flatMap fun t => t.claims.filterMap fun c => target c.2.desc) ++ s.flows.filterMap (·.peer) ++
    s.copyWaits.filterMap fun w => target w.2.desc).eraseDups
  mods.foldl (fun s m => s.loseClaimRoutes m fun w => wbits w 3 0 == port) s

/-- The record that UP or DEGR of a port has changed (R371). -/
def State.postPort (s : State) (port : Nat) : State := s.post none 0x25 0 (BitVec.ofNat 64 port) (s.reg (fportReg port)) none

/-- PORT_STATE_CHANGE (R376, R371): a port trains, degrades or loses UP. -/
def execPortStateChange (port : Nat) (up degraded : Bool) (neighbour : Nat) (s : State) : Out :=
  if 16 ≤ port then .fault .noSuchUnit
  else if up && !s.regBit (fportReg port) 63 then .fault .notEnabled
  else
    let was := s.regBit (fportReg port) 62
    let s := s.updReg (fportReg port) fun w =>
      wput (wput (wput w 62 62 (b2n up)) 61 61 (b2n (up && degraded))) 43 32 neighbour
    let s := s.postPort port
    .next (if was && !up then s.portDown port else s)

/-- FABRIC_FLIT_RECEIVE (R376, R379): a flit is checked, and replayed and counted if bad; `queued` flits stand in the port's
egress queue, the head packet's source being `source`, which gets a congestion notice when they are more than `CTHRESH`,
at most one each microsecond. DEDUCED: log 37. -/
def execFabricFlitReceive (port : Nat) (good : Bool) (queued source : Nat) (s : State) : Out :=
  if 16 ≤ port || 4096 ≤ source then .fault .noSuchUnit
  else if !s.regBit (fportReg port) 62 then .fault .notEnabled
  else
    let s := if good then s
      else s.updReg (fportReg port) fun w => wput w 15 0 (min 0xFFFF (wbits w 15 0 + 1))
    let s := { s with portQueues := mapSet 0 s.portQueues port queued }
    if s.regBits cthreshReg 15 0 < queued && mapGet 0 s.notices source ≤ s.time then
      .next ({ s with notices := mapSet 0 s.notices source (s.time + 1000) }.send1 (.congestion source))
    else .next s

/-- CONGESTION_NOTICE (R379): the injection rate towards the module that sent it is halved, down to 1/64, and 10 µs begin. `rates`
holds the exponent. -/
def execCongestionNotice (target : Nat) (s : State) : Out :=
  if 4096 ≤ target then .fault .noSuchUnit
  else
    .next { s with
      rates := mapSet 0 s.rates target (min 6 (mapGet 0 s.rates target + 1))
      recoverAt := mapSet 0 s.recoverAt target (s.time + 10000) }

/-- CONGESTION_RECOVERY (R379): 10 µs have passed without a notice; the rate doubles. -/
def execCongestionRecovery (target : Nat) (s : State) : Out :=
  if 4096 ≤ target then .fault .noSuchUnit
  else if mapGet 0 s.rates target = 0 || s.time < mapGet 0 s.recoverAt target then .fault .notEnabled
  else
    .next { s with
      rates := mapSet 0 s.rates target (mapGet 0 s.rates target - 1)
      recoverAt := mapSet 0 s.recoverAt target (mapGet 0 s.recoverAt target + 10000) }

/-! ## Units that stop (R17, R385, R386) -/

/-- Does a Plain side of the descriptor touch the slice? -/
def Desc.inSlice (d : Desc) (slice : Nat) : Bool :=
  let hits := fun (src : Bool) => (d.pieces src 0 d.total).any fun p => bitsOf p.2.1 29 21 == slice
  (d.sspace && hits true) || (d.dspace && !d.dpeer && hits false)

/-- A mill stops: its status says so, and flows and claims with a part in its slice end (R17, R87, R93). An access that passed its
check before is still served. DESIGN CHOICE: log 98. -/
def State.stopMill (s : State) (m : Nat) : State :=
  let s := s.updReg (millReg m) fun w => wput w 63 63 1
  (s.severFlows (fun f => f.desc.inSlice m) 7).revokeClaims (fun c => c.desc.inSlice m) 7

/-- What the stop of a unit does (R386), if there is such a unit; a port that was up posts its record first. DESIGN CHOICE: log 38. -/
def State.stopUnit (s : State) (kind index : Nat) : Option State :=
  match kind with
  | 1 => if index < 512 then some (s.stopMill index) else none
  | 2 => if index < 8 then some { s with stoppedStacks := index :: s.stoppedStacks } else none
  | 3 =>
    if index < 16 then
      let s1 := s.updReg (fportReg index) fun w => wput (wput w 62 62 0) 61 61 0
      some ((if s.regBit (fportReg index) 62 then s1.postPort index else s1).portDown index)
    else none
  | 4 => if index < 512 then some (s.updReg (millReg index) fun w => wput w 62 62 1) else none
  | 5 => if index < 64 then some { s with stoppedAlus := index :: s.stoppedAlus } else none
  | _ => none

/-- The two records of a stop (R385): unit stopped, then replace request. -/
def State.reportStop (s : State) (kind index : Nat) : State :=
  let code := BitVec.ofNat 64 (kind * 4096 + index)
  (s.post none 0x23 0 0 code none).post none 0x24 0 0 code none

/-- UNIT_STOP (R385): a unit that fails is stopped and reported. -/
def execUnitStop (kind index : Nat) (s : State) : Out :=
  match s.stopUnit kind index with
  | none => .fault .noSuchUnit
  | some s => .next (s.reportStop kind index)

end Sys2Proof.Machine
end

