-- ==== Sys2Proof/Machine/SlhDsa.lean ====
section
/-! DEFINITION. SLH-DSA-SHA2-256s (R382, R383): the check of a signature, and signing. The spec names the algorithm; its steps and parameters are those
of FIPS 205. PRESUMED: log 122. -/

namespace Sys2Proof.Machine

/-- The `n` bytes of a number, big-endian. -/
def beBytes (n v : Nat) : List Byte := (leBytes n v).reverse

/-- The number that big-endian bytes make. -/
def beNat (bs : List Byte) : Nat := leNat bs.reverse

/-- The digits of `b` bits of a string of bytes, the most significant first, `n` of them. -/
def baseDigits (b n : Nat) (bs : List Byte) : List Nat :=
  let v := beNat bs
  (List.range n).map fun i => v / 2 ^ (8 * bs.length - b * (i + 1)) % 2 ^ b

/-- An address that a hash takes: the layer, the tree, the type, and the type's three words. -/
structure SlhAddress where
  layer : Nat := 0
  tree : Nat := 0
  kind : Nat := 0
  pair : Nat := 0
  height : Nat := 0
  index : Nat := 0
  deriving DecidableEq, Repr

/-- The 22 bytes of a compressed address. -/
def SlhAddress.bytes (a : SlhAddress) : List Byte :=
  beBytes 1 a.layer ++ beBytes 8 a.tree ++ beBytes 1 a.kind ++ beBytes 4 a.pair ++ beBytes 4 a.height ++ beBytes 4 a.index

/-- The hash of one value of 32 bytes. -/
def slhF (seed : List Byte) (a : SlhAddress) (x : List Byte) : List Byte := sha256 (seed ++ List.replicate 32 0 ++ a.bytes ++ x)

/-- The hash of several values of 32 bytes. -/
def slhT (seed : List Byte) (a : SlhAddress) (x : List Byte) : List Byte :=
  (sha512 (seed ++ List.replicate 96 0 ++ a.bytes ++ x)).take 32

/-- The 47 bytes that stand for a message. -/
def slhMessage (r seed root msg : List Byte) : List Byte :=
  (sha512 (r ++ seed ++ sha512 (r ++ seed ++ root ++ msg) ++ List.replicate 4 0)).take 47

/-- The values of 32 bytes from a byte of a signature on, `n` of them. -/
def slhValues (sig : List Byte) (off n : Nat) : List (List Byte) := (List.range n).map fun i => (sig.drop (off + 32 * i)).take 32

/-- `n` steps of a chain from step `i` on: the step numbers stand in the address's last word. -/
def slhChain (seed : List Byte) (a : SlhAddress) : Nat → Nat → List Byte → List Byte
  | 0, _, x => x
  | n + 1, i, x => slhChain seed a n (i + 1) (slhF seed { a with index := i } x)

/-- The digits of a value signed once: 64 of the value and three of the checksum. -/
def slhDigits (x : List Byte) : List Nat :=
  let ds := baseDigits 4 64 x
  ds ++ baseDigits 4 3 (beBytes 2 ((ds.map fun d => 15 - d).sum * 16))

/-- The key of a one-time signature of a value. -/
def slhOnce (seed : List Byte) (a : SlhAddress) (values : List (List Byte)) (x : List Byte) : List Byte :=
  let ends := ((slhDigits x).zip values).zipIdx.map fun v => slhChain seed { a with height := v.2 } (15 - v.1.1) v.1.1 v.1.2
  slhT seed { a with kind := 1, height := 0, index := 0 } ends.flatten

/-- The root that a leaf and the nodes beside its path give, from height `h` on. -/
def slhRoot (seed : List Byte) (a : SlhAddress) : List (List Byte) → Nat → Nat → List Byte → List Byte
  | [], _, _, x => x
  | y :: ys, h, i, x =>
    slhRoot seed a ys (h + 1) (i / 2) (slhT seed { a with height := h + 1, index := i / 2 } (if i % 2 = 0 then x ++ y else y ++ x))

/-- The root of one layer's tree, from its 75 values and the value that its leaf signs. -/
def slhLayer (seed : List Byte) (layer tree leaf : Nat) (values : List (List Byte)) (x : List Byte) : List Byte :=
  slhRoot seed { layer := layer, tree := tree, kind := 2 } (values.drop 67) 0 leaf
    (slhOnce seed { layer := layer, tree := tree, pair := leaf } (values.take 67) x)

/-- The root of `n` layers from `layer` on, whose values stand in a signature. -/
def slhLayers (seed sig : List Byte) : Nat → Nat → Nat → Nat → List Byte → List Byte
  | 0, _, _, _, x => x
  | n + 1, layer, tree, leaf, x =>
    slhLayers seed sig n (layer + 1) (tree / 256) (tree % 256)
      (slhLayer seed layer tree leaf (slhValues sig (10592 + 2400 * layer) 75) x)

/-- The key of the few-time signature of a message's first 39 bytes: 22 trees of height 14. -/
def slhFew (seed sig : List Byte) (tree leaf : Nat) (digest : List Byte) : List Byte :=
  let a : SlhAddress := { tree := tree, kind := 3, pair := leaf }
  let roots := (baseDigits 14 22 digest).zipIdx.map fun d =>
    let values := slhValues sig (32 + 480 * d.2) 15
    let at' := d.2 * 2 ^ 14 + d.1
    slhRoot seed a (values.drop 1) 0 at' (slhF seed { a with index := at' } (values.headD []))
  slhT seed { a with kind := 4 } roots.flatten

/-- Does a signature of 29,792 bytes hold for a message under a key of 64 bytes? The message is signed as it stands, with an empty
context. -/
def slhVerify (key msg sig : List Byte) : Bool :=
  let seed := key.take 32
  let root := key.drop 32
  let digest := slhMessage (sig.take 32) seed root (0 :: 0 :: msg)
  let tree := beNat ((digest.drop 39).take 7)
  let leaf := beNat (digest.drop 46)
  sig.length = 29792 && slhLayers seed sig 8 0 tree leaf (slhFew seed sig tree leaf (digest.take 39)) == root

/-! ## Signing -/

/-- The node at a height of a tree whose leaves are given; `a` is the tree's address. -/
def slhNode (seed : List Byte) (a : SlhAddress) (leaf : Nat → List Byte) : Nat → Nat → List Byte
  | 0, i => leaf i
  | h + 1, i => slhT seed { a with height := h + 1, index := i } (slhNode seed a leaf h (2 * i) ++ slhNode seed a leaf h (2 * i + 1))

/-- The nodes beside the path from node `i` at height `h`, for `n` heights. -/
def slhPath (seed : List Byte) (a : SlhAddress) (leaf : Nat → List Byte) : Nat → Nat → Nat → List (List Byte)
  | 0, _, _ => []
  | n + 1, h, i => slhNode seed a leaf h (if i % 2 = 0 then i + 1 else i - 1) :: slhPath seed a leaf n (h + 1) (i / 2)

/-- The secret start of chain `j` of a one-time key. -/
def slhOnceSecret (secret seed : List Byte) (a : SlhAddress) (j : Nat) : List Byte :=
  slhF seed { a with kind := 5, height := j, index := 0 } secret

/-- A one-time key: the ends of its 67 chains. -/
def slhOnceKey (secret seed : List Byte) (a : SlhAddress) : List Byte :=
  slhT seed { a with kind := 1, height := 0, index := 0 }
    ((List.range 67).map fun j => slhChain seed { a with height := j } 15 0 (slhOnceSecret secret seed a j)).flatten

/-- The one-time signature of a value: on each chain as many steps as its digit says. -/
def slhOnceSign (secret seed : List Byte) (a : SlhAddress) (x : List Byte) : List (List Byte) :=
  (slhDigits x).zipIdx.map fun d => slhChain seed { a with height := d.2 } d.1 0 (slhOnceSecret secret seed a d.2)

/-- The leaves of a tree of a layer: one-time keys. -/
def slhLeaf (secret seed : List Byte) (layer tree leaf : Nat) : List Byte :=
  slhOnceKey secret seed { layer := layer, tree := tree, pair := leaf }

/-- The root of the topmost tree, which is the second half of the public key. -/
def slhPublic (secret seed : List Byte) : List Byte := slhNode seed { layer := 7, kind := 2 } (slhLeaf secret seed 7 0) 8 0

/-- The 75 values by which a layer signs a value. -/
def slhLayerSign (secret seed : List Byte) (layer tree leaf : Nat) (x : List Byte) : List (List Byte) :=
  slhOnceSign secret seed { layer := layer, tree := tree, pair := leaf } x ++
    slhPath seed { layer := layer, tree := tree, kind := 2 } (slhLeaf secret seed layer tree) 8 0 leaf

/-- The values by which `n` layers from `layer` on sign: each layer signs the root of the one below it. -/
def slhLayersSign (secret seed : List Byte) : Nat → Nat → Nat → Nat → List Byte → List (List Byte)
  | 0, _, _, _, _ => []
  | n + 1, layer, tree, leaf, x =>
    let values := slhLayerSign secret seed layer tree leaf x
    values ++ slhLayersSign secret seed n (layer + 1) (tree / 256) (tree % 256) (slhLayer seed layer tree leaf values x)

/-- The secret behind leaf `i` of the few-time trees; `a` is their address. -/
def slhFewSecret (secret seed : List Byte) (a : SlhAddress) (i : Nat) : List Byte := slhF seed { a with kind := 6, index := i } secret

/-- The 330 values of a few-time signature. -/
def slhFewSign (secret seed : List Byte) (tree leaf : Nat) (digest : List Byte) : List (List Byte) :=
  let a : SlhAddress := { tree := tree, kind := 3, pair := leaf }
  (baseDigits 14 22 digest).zipIdx.flatMap fun d =>
    slhFewSecret secret seed a (d.2 * 2 ^ 14 + d.1) ::
      slhPath seed a (fun i => slhF seed { a with index := i } (slhFewSecret secret seed a i)) 14 0 (d.2 * 2 ^ 14 + d.1)

/-- The signature of a message with the secret and the public seed of a key; `r` are the 32 bytes that begin it, which may be any. -/
def slhSign (secret seed r msg : List Byte) : List Byte :=
  let digest := slhMessage r seed (slhPublic secret seed) (0 :: 0 :: msg)
  let tree := beNat ((digest.drop 39).take 7)
  let leaf := beNat (digest.drop 46)
  let few := r ++ (slhFewSign secret seed tree leaf (digest.take 39)).flatten
  few ++ (slhLayersSign secret seed 8 0 tree leaf (slhFew seed few tree leaf (digest.take 39))).flatten

end Sys2Proof.Machine
end

