-- ==== Sys2Proof/Machine/Registers.lean ====
section
/-! DEFINITION. The registers of BAR 0 that have behaviour of their own when they are written (R7, R8, R18, R19, R30, R47, R48, R117
to R122, R182 to R184, R360, R368), and how BAR 0 reads (R31, R32, R381, R384). -/

namespace Sys2Proof.Machine

/-- A register with the named fields of a written value (R7, R8). -/
def writeFields (old w : Word) (fields : List (Nat × Nat)) : Word :=
  fields.foldl (fun r f => wput r f.1 f.2 (wbits w f.1 f.2)) old

/-- Do two ranges of numbers, each given by its first and its count, share one? -/
def rangesMeet (a n b m : Nat) : Bool := 0 < n && 0 < m && a < b + m && b < a + n

/-! ## Plain windows (R18, R19, R183) -/

/-- Does a partition have a team slot on the wheel? -/
def slotsOnWheel (base count wheel : Nat) : Bool := rangesMeet base count (16 * wheel) 16

/-- Do the ranges of two enabled partitions meet (R19, R183)? -/
def State.partitionsMeet (s : State) (p q base count : Nat) : Bool :=
  let (_, qbase, qcount) := s.window q
  let f := fun (r hi lo : Nat) => s.regBits (partReg r 0x008) hi lo
  rangesMeet base count qbase qcount ||
  rangesMeet (f p 5 0) (f p 22 16) (f q 5 0) (f q 22 16) ||
  (rangesMeet (f p 43 32) (f p 60 48) (f q 43 32) (f q 60 48) &&
    (List.range 4).any fun w => slotsOnWheel (f p 5 0) (f p 22 16) w && slotsOnWheel (f q 5 0) (f q 22 16) w) ||
  (List.range 8).any fun i => s.reg (partReg p (0x040 + 8 * i)) &&& s.reg (partReg q (0x040 + 8 * i)) != 0

/-- Is a write that sets EN refused (R19, R183)? -/
def State.windowRefused (s : State) (p base count : Nat) : Bool :=
  let f := fun (hi lo : Nat) => s.regBits (partReg p 0x008) hi lo
  let g := s.reg (partReg p 0x010)
  count = 0 || 512 < base + count || 64 < f 5 0 + f 22 16 || 4096 < f 43 32 + f 60 48 ||
  count < wbits g 8 0 + wbits g 25 16 ||
  (List.range 32).any fun q => q != p && (s.window q).1 && s.partitionsMeet p q base count

/-- Has a virtual device an enabled launch queue? -/
def State.anyQueue (s : State) (vd : Nat) : Bool := (List.range 16).any fun q => s.regBit (vdReg vd (0x400 + 32 * q)) 63

/-- Has the partition work that could place a workgroup or move a byte (R19)? A submission that has been read and not yet accepted
counts as work. DESIGN CHOICE: log 99. -/
def State.partitionBusy (s : State) (p : Nat) : Bool :=
  ((List.range 8).any fun i => s.anyQueue (8 * p + i)) ||
  (s.deviceQueues.any fun e => e.1 / 8 == p && !e.2.isEmpty) ||
  (s.readQueue.any fun e => e.1 / 8 == p) ||
  (s.launches.any fun l => l.vd / 8 == p) ||
  (s.graphs.any fun g => g.vd / 8 == p && !g.finished) ||
  (s.deques.any fun e => e.2.any fun c => c.vd / 8 == p) ||
  (s.teams.any fun t => t.vd / 8 == p && !t.isVacant) ||
  (s.copyClaims.any fun k => (findBy Graph.uid s.graphs (k / 65536)).any fun g => g.vd / 8 == p) ||
  (s.colls.any fun c => c.vd / 8 == p)

/-- The rows of a window enabled: what another partition's use left in them is gone, and they read as bytes that nothing has written
(R147). DESIGN CHOICE: log 100. -/
def State.takeRows (s : State) (p base count : Nat) : State :=
  let rows := (List.range count).map fun i => base + i
  let lost := rows.filter fun r => mapGet 0 s.rowOwner r != p + 1
  let gone := fun (a : Nat) => lost.contains (a % 2097152 / 4096)
  { s with
    plain := s.plain.filter fun e => !gone e.1
    plainPoison := s.plainPoison.filter fun w => !gone (8 * w.2)
    rowOwner := mapSetMany 0 s.rowOwner (rows.map fun r => (r, p + 1)) }

/-- A write of `PWINn` (R18, R19). DEDUCED: log 23. -/
def State.writePwin (s : State) (p : Nat) (w : Word) : State :=
  let off := partReg p 0
  let old := s.reg off
  if old.getLsbD 31 then
    if w.getLsbD 31 || s.partitionBusy p then s else s.setReg off (wput old 31 31 0)
  else
    let new := wput (writeFields old w [(25, 16), (8, 0)]) 30 30 0
    if !w.getLsbD 31 then s.setReg off new
    else if s.windowRefused p (wbits w 8 0) (wbits w 25 16) then s.setReg off (wput new 30 30 1)
    else (s.takeRows p (wbits w 8 0) (wbits w 25 16)).setReg off (wput new 31 31 1)

/-- PWIN_WRITE: a host write of `PWINn`. -/
def execPwinWrite (part : Nat) (value : Word) (s : State) : Out :=
  if 32 ≤ part then .fault .noSuchUnit
  else s.hostWriteReg (partReg part 0) fun s => s.writePwin part value

/-! ## Address-space roots (R30) -/

/-- A write of word 0 or word 1 of a root (R30): a refused one reads back with bit 63 clear, and stores the other fields that it
carries. DEDUCED: log 23. -/
def State.writeRoot (s : State) (a : Nat) (second : Bool) (w : Word) : State :=
  let off := rootReg a
  let old := s.reg off
  let en := old.getLsbD 63
  if second then if en then s else s.setReg (off + 8) (writeFields 0 w [(7, 0)])
  else if en then s.setReg off (writeFields old w [(63, 63), (51, 17)])
  else
    let new := writeFields 0 w [(63, 63), (51, 17), (11, 0)]
    s.setReg off (if a = 0 || wbits w 11 0 != a then wput new 63 63 0 else new)

/-- ADDRESS_SPACE_ROOT_WRITE: a host write of a word of a root. -/
def execAddressSpaceRootWrite (asid : Nat) (second : Bool) (value : Word) (s : State) : Out :=
  if 4096 ≤ asid then .fault .noSuchUnit
  else s.hostWriteReg (rootReg asid) fun s => s.writeRoot asid second value

/-! ## Step domains (R117 to R119) -/

/-- The range of a virtual device's millpond. -/
def State.pondRange (s : State) (vd : Nat) : Nat × Nat :=
  let w := s.reg (vdReg vd 0x060)
  (wbits w 38 16 * 65536, wbits w 15 0 * 65536)

/-- Sluice bytes that a virtual device's domain takes (R119). -/
def State.sluiceBytes (s : State) (vd : Nat) : Nat :=
  2 * s.regBits (vdReg vd 0x058) 31 16 * (s.stepMembers vd).length * 128

/-- Is a write that sets `VDSTEP`.EN refused (R119)? -/
def State.stepRefused (s : State) (vd domain pcount : Nat) : Bool :=
  let m := (s.stepMembers vd).length
  let sl := s.regBits (vdReg vd 0x058) 31 16
  let ml := s.regBits (vdReg vd 0x058) 15 0
  let (base, size) := s.pondRange vd
  let others := (List.range 256).filter fun v => v != vd && s.stepEn v
  pcount = 0 || (sl = 0 && ml = 0) || !s.isMember vd s.module ||
  (others.any fun v => s.regBits (vdReg v 0x050) 47 32 == domain) ||
  2 ^ 27 < s.sluiceBytes vd + (others.map s.sluiceBytes).sum ||
  size < 2 * ml * m * 128 || 2 ^ 39 < base + size || (size != 0 && s.overlapsRegion base (base + size)) ||
  others.any fun v => rangesMeet base size (s.pondRange v).1 (s.pondRange v).2

/-- What a virtual device holds of a domain is discarded. DEDUCED: log 24. -/
def State.clearDomain (s : State) (vd : Nat) : State :=
  { s with
    boundaries := s.boundaries.filter fun b => b.vd != vd
    images := s.images.filter fun i => i.vd != vd
    exits := s.exits.filter fun e => e.1 != vd
    sluice := s.sluice.filter fun e => s.regionVd e.region != vd
    millpond := s.millpond.filter fun p => p.vd != vd
    quotas := s.quotas.filter fun q => q.vd != vd
    heldLoads := s.heldLoads.filter fun h => h.vd != vd }

/-- A write of `VDSTEP` (R119, R238, R365): an accepted EN starts step 1, whose lines and those of step 2 are granted.
DEDUCED: log 23. DEDUCED: log 24. -/
def State.writeVdstep (s : State) (vd : Nat) (w : Word) : State :=
  let off := vdReg vd 0x050
  let old := s.reg off
  if old.getLsbD 63 then
    if w.getLsbD 63 then s
    else if s.teams.any fun t => t.vd == vd && !t.isVacant && t.status != .preempted then s
    else (s.clearDomain vd).setReg off (wput (wput old 63 63 0) 61 61 0)
  else
    let new := writeFields old w [(47, 32), (31, 16)]
    if !w.getLsbD 63 then s.setReg off new
    else if s.stepRefused vd (wbits w 47 32) (wbits w 31 16) then s.setReg off (wput new 62 62 1)
    else
      let s := ((s.clearDomain vd).setReg off (wput (wput new 62 62 0) 63 63 1)).setReg (vdReg vd 0x068) 0
      ({ s with lseqs := mapErase s.lseqs vd }.grantStep vd 1).grantStep vd 2

/-- VDSTEP_WRITE: a host write of `VDSTEP`. -/
def execVdstepWrite (vd : Nat) (value : Word) (s : State) : Out :=
  if 256 ≤ vd then .fault .noSuchUnit
  else s.hostWriteReg (vdReg vd 0x050) fun s => s.writeVdstep vd value

/-! ## Step regions (R120 to R122) -/

/-- Is a write that sets a region's EN ignored (R121)? A region that is being enabled counts as enabled here. DEDUCED: log 102. -/
def State.regionIgnored (s : State) (g : Nat) (w : Word) : Bool :=
  let pages := wbits w 15 0
  let lo := wbits w 38 16 * 65536
  let hi := lo + pages * 65536
  let rule := wbits w 60 58
  pages = 0 || 2 ^ 39 < hi || (s.boundRegions.any fun r => r.1 != g && r.2.1 < hi && lo < r.2.2) ||
  5 < rule || (wbits w 57 56 = 0 && rule < 3) ||
  (List.range 256).any fun v => s.stepEn v && rangesMeet lo (hi - lo) (s.pondRange v).1 (s.pondRange v).2

/-- The fields of word 0 of a region but EN, with ERR and LOST cleared by ones. -/
def regionFields (old w : Word) : Word :=
  (writeFields old w [(60, 58), (57, 56), (38, 16), (15, 0)]) &&& ~~~(w &&& BitVec.ofNat 64 (3 * 2 ^ 61))

/-- A write of a word of a step region (R121, R122): one that sets EN begins the removal of the translations of its frames. -/
def State.writeRegion (s : State) (g index : Nat) (w : Word) : State :=
  let off := regionReg g 0
  let old := s.reg off
  let on := old.getLsbD 63
  let cleared := old &&& ~~~(w &&& BitVec.ofNat 64 (3 * 2 ^ 61))
  if index = 1 then if on then s else s.setReg (off + 8) (writeFields 0 w [(7, 0)])
  else if index ≠ 0 then s
  else if on then s.setReg off (if w.getLsbD 63 then cleared else wput cleared 63 63 0)
  else if !w.getLsbD 63 then s.setReg off (regionFields old w)
  else if s.regionIgnored g w then s
  else
    let lo := wbits w 38 16 * 65536
    let s := s.setReg off (regionFields old w)
    { s with enabling := g :: s.enabling }.invalidate (.region g) (.frames lo (lo + wbits w 15 0 * 65536)) 0

/-- STEP_REGION_WRITE: a host write of a word of a region. The write that sets EN has not ended while the region is being
enabled, and no other reaches the entry then. -/
def execStepRegionWrite (region index : Nat) (value : Word) (s : State) : Out :=
  if 256 ≤ region || 4 ≤ index then .fault .noSuchUnit
  else if s.enabling.contains region then .fault .notEnabled
  else s.hostWriteReg (regionReg region index) fun s => s.writeRegion region index value

/-- The invalidation of an owner, if it has drained. -/
def State.drainedFor (s : State) (o : InvOwner) : Option Invalidation :=
  s.invalidations.find? fun v => v.owner == o && s.drained v

/-- An invalidation acknowledged: the lane-cache lines of its frames are dropped, and its record goes (R72). -/
def State.acknowledge (s : State) (v : Invalidation) : State :=
  { s.dropFrames v.frames with invalidations := dropBy Invalidation.id s.invalidations v.id }

/-- The kept images of a region's lines go: its image of boundary 0 is what its frames hold as EN is set (R365). -/
def State.freshRegion (s : State) (g : Nat) : State :=
  let w := s.reg (regionReg g 0)
  { s with images := s.images.filter fun i =>
      !(wbits w 38 16 * 65536 ≤ i.line && i.line < (wbits w 38 16 + wbits w 15 0) * 65536) }

/-- STEP_REGION_ENABLE_DONE (R122): the removal has ended, and EN reads 1. -/
def execStepRegionEnableDone (region : Nat) (s : State) : Out :=
  match s.drainedFor (.region region) with
  | none => .fault .notEnabled
  | some v =>
    let s := (s.acknowledge v).freshRegion region
    .next ({ s with enabling := s.enabling.filter (· != region) }.updReg (regionReg region 0) fun w => wput w 63 63 1)

/-- INVALIDATION_ACKNOWLEDGE (R71, R72, R327): the drains have ended; `INVCMD`.GO clears and the event is posted, or TLBINV
completes. DEDUCED: log 51. DEDUCED: log 81. -/
def execInvalidationAcknowledge (invalidation : Nat) (s : State) : Out :=
  match findBy Invalidation.id s.invalidations invalidation with
  | none => .fault .notEnabled
  | some v =>
    if !s.drained v then .fault .notEnabled
    else
      match v.owner with
      | .host vd =>
        let s := (s.acknowledge v).updReg (vdReg vd 0x048) fun w => wput w 63 63 0
        .next (s.post (some vd) 0x03 0 (BitVec.ofNat 64 (wbits v.word 55 16 * 65536)) v.word none)
      | .team uid => .next ((s.acknowledge v).tlbinvDone v uid)
      | .migration _ => .fault .notEnabled
      | .region _ => .fault .notEnabled

/-! ## Launch queues (R368, R369) -/

/-- The register of a launch queue. -/
def lqReg (vd q off : Nat) : Nat := vdReg vd (0x400 + 32 * q + off)

/-- TAIL, as the Pass die last read it. -/
def State.tailOf (s : State) (vd q : Nat) : Nat := mapGet 0 s.tails (vd * 16 + q)

/-- Submissions in a queue's ring: TAIL − HEAD. -/
def State.ringHolds (s : State) (vd q : Nat) : Nat := (s.tailOf vd q + 2 ^ 32 - s.regBits (lqReg vd q 0x18) 31 0) % 2 ^ 32

/-- A queue whose TAIL passes COUNT stops (R369). -/
def State.checkQueue (s : State) (vd q : Nat) : State :=
  if s.regBit (lqReg vd q 0) 63 && s.regBits (lqReg vd q 0x10) 15 0 < s.ringHolds vd q then
    (s.updReg (lqReg vd q 0) fun w => wput (wput w 62 62 1) 63 63 0).post (some vd) 0x0C 0 (BitVec.ofNat 64 q)
      (BitVec.ofNat 64 (s.tailOf vd q)) none
  else s

/-- The Pass die reads the tail line (R369). -/
def State.readTail (s : State) (vd q : Nat) : State :=
  let a := s.regBits (lqReg vd q 0x08) 51 6 * 64
  { s with tails := mapSet 0 s.tails (vd * 16 + q) (leNat (s.hostRead a 4)) }.checkQueue vd q

/-- A write of `LQBASE` (R368). With EN the entries of the ring go, and submissions of the fabric behind them stand first.
DEDUCED: log 23. DEDUCED: log 54. -/
def State.writeLqbase (s : State) (vd q : Nat) (w : Word) : State :=
  let off := lqReg vd q 0
  let old := s.reg off
  let ctl := s.reg (lqReg vd q 0x10)
  if old.getLsbD 63 then
    if w.getLsbD 63 then s
    else
      let key := vd * 16 + q
      let left := (mapGet [] s.fabricQueue key).map fun x => (0, x.2)
      { s.setReg off (wput old 63 63 0) with fabricQueue := mapSet [] s.fabricQueue key left }
  else
    let new := writeFields old w [(55, 12)]
    if !w.getLsbD 63 then s.setReg off new
    else if wbits ctl 15 0 = 0 || !s.ownsAsid vd (wbits ctl 43 32) then s.setReg off (wput new 62 62 1)
    else ((s.setReg off (wput (wput new 62 62 0) 63 63 1)).setReg (lqReg vd q 0x18) 0).readTail vd q

/-- LQBASE_WRITE: a host write of `LQBASE`. -/
def execLqbaseWrite (vd queue : Nat) (value : Word) (s : State) : Out :=
  if 256 ≤ vd || 16 ≤ queue then .fault .noSuchUnit
  else s.hostWriteReg (lqReg vd queue 0) fun s => s.writeLqbase vd queue value

/-- TAIL_LINE_SNOOP (R369): a snoop takes the line away and the Pass die reads it again. -/
def execTailLineSnoop (vd queue : Nat) (s : State) : Out :=
  if 256 ≤ vd || 16 ≤ queue then .fault .noSuchUnit
  else if !s.regBit (lqReg vd queue 0) 63 then .fault .notEnabled
  else .next (s.readTail vd queue)

/-! ## Time, scrub, queue selection -/

/-- A write of `VDTBASE` (R360): DREF := D. -/
def State.writeTbase (s : State) (vd : Nat) (w : Word) : State :=
  { s.setReg (vdReg vd 0x0B8) w with drefs := mapSet 0 s.drefs vd (BitVec.ofNat 64 (s.clockOf vd)) }

/-- VDTBASE_WRITE: a host write of `VDTBASE`. -/
def execVdtbaseWrite (vd : Nat) (value : Word) (s : State) : Out :=
  if 256 ≤ vd then .fault .noSuchUnit
  else s.hostWriteReg (vdReg vd 0x0B8) fun s => s.writeTbase vd value

/-- A GO over the range of `SCRBASE` and `SCRLEN` (R48). -/
def State.scrubGo (s : State) (oldkey : Nat) : State :=
  let base := s.regBits (scrReg 0) 38 12
  let blocks := s.regBits (scrReg 1) 27 0
  if blocks = 0 || 0x8000000 < base + blocks || (oldkey != 0 && s.keyState oldkey != 3) then
    s.updReg (scrReg 2) fun w => wput w 2 2 1
  else
    let new := ((List.range blocks).map fun i => base + i).filter fun b => !s.scrubMarks.contains b
    { s.updReg (scrReg 2) fun w => wput (wput w 2 2 0) 1 1 1 with scrubMarks := s.scrubMarks ++ new }

/-- A write of a scrub register (R47). -/
def State.writeScrub (s : State) (i : Nat) (w : Word) : State :=
  match i with
  | 0 => s.setReg (scrReg 0) (writeFields 0 w [(38, 12)])
  | 1 => s.setReg (scrReg 1) (writeFields 0 w [(27, 0)])
  | 2 =>
    let s := s.updReg (scrReg 2) fun r => writeFields r w [(63, 48)]
    if w.getLsbD 0 then s.scrubGo (wbits w 63 48) else s
  | _ => s

/-- SCRCTL_GO (R48): a host write of `SCRCTL` with GO = 1. -/
def execScrctlGo (oldkey : BitVec 16) (s : State) : Out :=
  s.hostWriteReg (scrReg 2) fun s => s.writeScrub 2 (BitVec.ofNat 64 (oldkey.toNat * 2 ^ 48 + 1))

/-- A write of `QSELq` (R184). -/
def State.writeQsel (s : State) (vd q : Nat) (w : Word) : State := s.setReg (vdReg vd (0x100 + 8 * q)) (writeFields 0 w [(9, 0)])

/-! ## Reads of BAR 0 -/

/-- A number of the identity area after `gen` updates, kept within its bound (R384). DEDUCED: log 30. -/
def identityNat (gen off n : Nat) : Nat := leNat ((List.range n).map fun i => Config.identity gen (off + i))

/-- NIMG (R384): an update replaces an image and adds none. DEDUCED: log 30. -/
def imageCount : Nat := identityNat 0 0x1008 4 % 16 + 1

/-- The update that replaced firmware image `i` last, of those in effect. -/
def State.imageRecord (s : State) (i : Nat) : Option ImageRecord := s.updatedImages.find? (·.image == i)

/-- The security version of image `i` that is in effect: of its last update, or of the image that the module came with (R384). -/
def State.imageSecurityOf (s : State) (i : Nat) : Nat :=
  match s.imageRecord i with
  | some x => x.security.toNat
  | none => identityNat 0 (0x1100 + 16 * i) 4

/-- Its image version (R384). -/
def State.imageNumberOf (s : State) (i : Nat) : Nat :=
  match s.imageRecord i with
  | some x => x.version.toNat
  | none => identityNat 0 (0x1104 + 16 * i) 4

/-- The 16 bytes of IMG for image `i` (R384). -/
def State.imageEntry (s : State) (i : Nat) : List Byte :=
  if imageCount ≤ i then [] else leBytes 4 (s.imageSecurityOf i) ++ leBytes 4 (s.imageNumberOf i)

/-- CHAINLEN (R384). DEDUCED: log 30. -/
def chainLength (gen : Nat) : Nat := identityNat gen 0x100C 4 % 57345

/-- The secret seed of the identity key, which the module keeps to itself (R383). -/
def identitySecret (gen : Nat) : List Byte := leBytes 32 ((Config.identitySeeds gen).toNat / 2 ^ 256)

/-- The public seed of the identity key: the first half of IDKEY (R384). PRESUMED: log 122. -/
def identitySeed (gen : Nat) : List Byte := leBytes 32 (Config.identitySeeds gen).toNat

/-- IDKEY (R384): the public seed, and the root of the key's topmost tree. PRESUMED: log 122. -/
def identityKey (gen : Nat) : List Byte := identitySeed gen ++ slhPublic (identitySecret gen) (identitySeed gen)

/-- A byte of the identity area (R384): the serial number stays, an image's entry changes when an update has replaced it, and IDKEY and
CHAIN may change with an update. DEDUCED: log 30. -/
def State.identityByte (s : State) (off : Nat) : Byte :=
  let gen := s.imageGen
  if 0x1000 ≤ off && off < 0x1008 then Config.identity 0 off
  else if 0x1008 ≤ off && off < 0x100C then (leBytes 4 imageCount).getD (off - 0x1008) 0
  else if 0x100C ≤ off && off < 0x1010 then (leBytes 4 (chainLength gen)).getD (off - 0x100C) 0
  else if 0x1040 ≤ off && off < 0x1080 then (identityKey gen).getD (off - 0x1040) 0
  else if 0x1100 ≤ off && off < 0x1200 then (s.imageEntry ((off - 0x1100) / 16)).getD (off % 16) 0
  else if 0x2000 ≤ off && off < 0x2000 + chainLength gen then Config.identity gen off
  else 0

/-- The 8 bytes of BAR 0 at an aligned offset. -/
def State.barRead (s : State) (off : Nat) : Word :=
  if 0x1000 ≤ off && off < 0x100000 then
    BitVec.ofNat 64 (leNat ((List.range 8).map fun i => s.identityByte (off + i)))
  else if s.boot == .minimal && 0x100000 ≤ off && !(0x500000 ≤ off && off < 0x600000) then 0
  else s.reg off

/-- Is it a reserved offset (R32)? An offset beyond the 64 MiB of BAR 0, of which R32 does not speak, counts as one.
DESIGN CHOICE: log 123. -/
def reservedOffset (off : Nat) : Bool := (0x310000 ≤ off && off < 0x400000) || 0x920000 ≤ off

end Sys2Proof.Machine
end

