-- ==== Sys2Proof/Machine/System.lean ====
section
/-! DEFINITION. The privileged instructions that read the device and return from the handler: ERET (R326, R350), PQUOTA (R329),
CSRR and CSRW (R330). -/

namespace Sys2Proof.Machine

/-! ## The return from the handler -/

/-- A team goes on with its closure, whose rest runs before the main stream goes on, and reports a trap that was held for the
closure's end (R163); `drop` removes the head, which had completed or is passed over. DEDUCED: log 29. -/
def State.resumeClosure (s : State) (drop : Bool) : State :=
  let s := s.mapTeam fun t =>
    let t := { t with closure := if drop then t.closure.tail else t.closure, age := 0 }
    let t := { t with drains := !t.closure.isEmpty }
    { t with status := t.onward }
  (s.refreeze s.team.uid).afterClosure

/-- A fetch that fails while a resumption looks for the end of an instruction. -/
def fetchTrap (code report : Nat) (pc : Word) : Trap :=
  { Trap.bare code pc with report := report, fetch := true, epc := pc }

/-- Does the fetch of the halfword at an address wait for a line under rebuild (R52)? -/
def State.halfStalls (s : State) (pc : Word) : Bool :=
  !pc.getLsbD 0 && match (s.fetchHalf pc.toNat).2 with
  | .error (c, _) => c == stallCode
  | .ok _ => false

/-- The team goes on after the instruction at `epc`, whose length its first halfword gives (R209); from an odd address nothing is
fetched (R210). DEDUCED: log 29. -/
def State.resumeAfter (s : State) (epc : Word) : State :=
  if epc.getLsbD 0 then
    (s.mapTeam fun t => { t with pc := epc }).takeTrap ⟨{ Trap.bare 0x06 epc with epc := epc }, false⟩
  else
  match s.fetchHalf epc.toNat with
  | (s, .ok h) => (s.mapTeam fun t => { t with pc := epc + BitVec.ofNat 64 (lengthOf h) }).resumeClosure false
  | (s, .error (c, r)) => (s.mapTeam fun t => { t with pc := epc }).takeTrap ⟨fetchTrap c r epc, false⟩

/-- A register that ERET writes. -/
def restored : RegRef → Bool
  | .v n => n < 8
  | .u _ => true
  | .p _ => true

/-- Where ERET goes, once the frame is restored (R326): the closure set aside is the team's again, with the trap held for its end
(R163). DEDUCED: log 29. -/
def State.eretTo (s : State) (cause : Word) (epc : Word) : State :=
  let s := s.mapTeam fun t => { t with closure := t.shelved, shelved := [], heldTrap := t.shelvedTrap, shelvedTrap := none }
  if cause.getLsbD 6 then (s.mapTeam fun t => { t with pc := t.mainPc }).resumeClosure (cause.getLsbD 7)
  else if cause.getLsbD 7 then s.resumeAfter epc
  else (s.mapTeam fun t => { t with pc := epc }).resumeClosure false

/-- The effect of ERET (R350): the frame is read and restored, and the team returns to user level. -/
def State.doEret (s : State) : Res :=
  let t := s.team
  let size := frameSize t.lanes
  let direct := !t.cause.getLsbD 6
  if (s.pending t.uid).any restored then .wait s
  else if direct && t.epc.getLsbD 0 then .trap (.bare 0x06 t.epc) s
  else
    match s.plainPhys (BitVec.ofNat 64 t.frame) size t.part 1 with
    | .error (code, stopped) => s.bareTrap code (if stopped then 0x0A else 0) (BitVec.ofNat 64 t.frame)
    | .ok (slice, off) =>
      if s.plainBusy slice off size then .wait s
      else if s.plainPoisoned slice off size then s.bareTrap 0x12 0 (BitVec.ofNat 64 t.frame)
      else
        let r := s.mapTeam fun t => t.restoreFrame (s.plainRead slice off size)
        if direct && t.cause.getLsbD 7 && r.halfStalls t.epc then .wait s else .wait (r.eretTo t.cause t.epc)

/-- ERET. -/
def execEret : State → Out := execClosing .eret ⟨true, false, [], []⟩ State.doEret

/-! ## PQUOTA (R329) -/

/-- Is the team resident: placed, and not saved? DEDUCED: log 26. -/
def Team.resident (t : Team) : Bool := !t.isVacant && t.status != .preempted

/-- Register rows that a team holds (R141). -/
def Team.rows (t : Team) : Nat := t.regs * t.swaths

/-- Teams of a partition on a mill. -/
def State.teamsOn (s : State) (part mill : Nat) : List Team :=
  s.teams.filter fun t => t.resident && t.part == part && t.mill == mill

/-- Register rows of a partition in use on a wheel: those of teams, and the pools of resident workgroups (R152). -/
def State.rowsUsed (s : State) (part mill wheel : Nat) : Nat :=
  let on := (s.teamsOn part mill).filter fun t => t.wheel == wheel
  let pools := (s.workgroups.filter fun g => g.mill == mill && g.vd / 8 == part &&
      (s.members g.uid).any Team.resident).flatMap fun g => g.donations.filterMap fun d =>
    if d.wheel == wheel then some d.pool else none
  (on.map Team.rows).sum + pools.sum

/-- The slice that holds a workgroup's Plain region. -/
def Workgroup.wpSlice (g : Workgroup) : Nat := bitsOf g.wpBase 29 21

/-- The size of a team's save area (R356). -/
def areaSize (lanes g nt na : Nat) : Nat := frameSize lanes + (0x2000 + 32 * lanes * g + 8192 * nt + 16384 * na)

/-- The save area of a team: its slice, its first byte within the window, and its size. -/
def Team.area (t : Team) : Nat × Nat × Nat := (t.saveSlice, t.saveOff, areaSize t.lanes t.maxG t.maxT t.maxA)

/-- The rows of 4 KiB in which bytes `off` to `off + n - 1` lie. DEDUCED: log 28. -/
def rowsOfBytes (off n : Nat) : List Nat := (List.range ((off + n - 1) / 4096 + 1 - off / 4096)).map fun i => off / 4096 + i

/-- Save rows of a virtual device in a slice that hold part of a team's save area. DEDUCED: log 28. -/
def State.saveRowsUsed (s : State) (vd mill : Nat) : Nat :=
  ((s.teams.filter fun t => !t.isVacant && t.vd == vd && t.area.1 == mill).flatMap fun t =>
    rowsOfBytes t.area.2.1 t.area.2.2).eraseDups.length

/-- Quota and use of a resource for the team, or none for operands that R329 does not give. DEDUCED: log 28. -/
def State.quotaWord (s : State) (a b : Word) : Option (Nat × Nat) :=
  let t := s.team
  let p := s.reg (partReg t.part 0x008)
  let mill := wbits b 8 0
  let only := fun (n : Nat) => b.toNat / 2 ^ n = 0
  match a.toNat with
  | 0 => if only 9 then some (wbits p 22 16, (s.teamsOn t.part mill).length) else none
  | 1 => if only 11 then some (wbits p 60 48, s.rowsUsed t.part mill (wbits b 10 9)) else none
  | 2 =>
    if only 9 then
      some (s.regBits (partReg t.part 0x010) 25 16,
        ((s.workgroups.filter fun g => g.vd / 8 == t.part && g.wpRows != 0 && g.wpSlice == mill).map (·.wpRows)).sum)
    else none
  | 3 => if only 9 then some (s.regBits (vdReg t.vd 0x080) 25 16, s.saveRowsUsed t.vd mill) else none
  | 4 =>
    if only 0 then
      some (2 * s.regBits (vdReg t.vd 0x058) 31 16 * (s.stepMembers t.vd).length,
        (s.sluice.filter fun e => s.regionVd e.region == t.vd).length)
    else none
  | 5 => if only 0 then some (32, s.slotsUsed) else none
  | _ => none

/-- PQUOTA `s`d, `s`a, `s`b: quota in [63:32] and in use in [31:0]. -/
def execPquota (d a b : BitVec 6) : State → Out :=
  execClosing (.pquota d a b) ⟨true, false, [.u a.toNat, .u b.toNat], [.u d.toNat]⟩ fun s =>
    match s.quotaWord (s.team.u a.toNat) (s.team.u b.toNat) with
    | none => .trap (bitsTrap (.pquota d a b) 0x01) s
    | some (q, u) =>
      .ok (s.mapTeam fun t => t.setU d.toNat (BitVec.ofNat 64 (q * 2 ^ 32 + u))).pointAfter

/-! ## CSRR and CSRW (R32, R330) -/

/-- Is an offset one that supervisor code of the partition may not read (R330)? The scrub registers are readable. DEDUCED: log 108. -/
def State.csrForbidden (s : State) (part off : Nat) : Bool :=
  if 0x100000 ≤ off && off < 0x200000 then off < 0x120000 && (off - 0x100000) / 0x1000 != part
  else if 0x200000 ≤ off && off < 0x300000 then (off - 0x200000) / 0x1000 / 8 != part
  else if 0x300000 ≤ off && off < 0x310000 then (s.asidVd ((off - 0x300000) / 16)).map (· / 8) != some part
  else if kstatReg 0 < off && off < kstatReg 65536 then
    match s.keyOwner ((off - kstatReg 0) / 8) with
    | some p => p != part
    | none => false
  else false

/-- A trap of CSRR or CSRW, whose `%tval` is the offset (R213, R330). -/
def csrTrap (code : Nat) (off : Word) (s : State) : Res := .trap (.plain code off 0) s

/-- Is an offset reserved or misaligned (R32), or beyond BAR 0? DESIGN CHOICE: log 123. -/
def badOffset (off : Word) : Bool := off.toNat % 8 != 0 || reservedOffset off.toNat

/-- CSRR `s`d, `s`a: `s`d := the 8 bytes of BAR 0 at offset `s`a. -/
def execCsrr (d a : BitVec 6) : State → Out :=
  execClosing (.csrr d a) ⟨true, false, [.u a.toNat], [.u d.toNat]⟩ fun s =>
    let off := s.team.u a.toNat
    if badOffset off then csrTrap 0x01 off s
    else if s.csrForbidden s.team.part off.toNat then csrTrap 0x02 off s
    else .ok (s.mapTeam fun t => t.setU d.toNat (s.barRead off.toNat)).pointAfter

/-- What CSRW may write: `QSELq` of the team's virtual device, and the scrub registers from partition 0. -/
def State.csrWrite (s : State) (off : Nat) (w : Word) : Option State :=
  let vd := s.team.vd
  if vdReg vd 0x100 ≤ off && off < vdReg vd 0x180 then some (s.writeQsel vd ((off - vdReg vd 0x100) / 8) w)
  else if s.team.part = 0 && scrReg 0 ≤ off && off ≤ scrReg 2 then some (s.writeScrub ((off - scrReg 0) / 8) w)
  else none

/-- CSRW `s`a, `s`b: the 8 bytes of BAR 0 at offset `s`a := `s`b. -/
def execCsrw (a b : BitVec 6) : State → Out :=
  execClosing (.csrw a b) ⟨true, false, [.u a.toNat, .u b.toNat], []⟩ fun s =>
    let off := s.team.u a.toNat
    if badOffset off then csrTrap 0x01 off s
    else
      match s.csrWrite off.toNat (s.team.u b.toNat) with
      | none => csrTrap 0x02 off s
      | some s => .ok s.pointAfter

end Sys2Proof.Machine
end

