-- ==== Sys2Proof/Machine/Context.lean ====
section
/-! DEFINITION. Time slices, pre-emption, saves and resumptions (R85, R88, R103, R167, R168, R181, R184 to R186, R355 to R359, R389),
HALT (R331), the fault and event rings as they drain (R349, R352, R370), and the host's answers (R354, R373). -/

namespace Sys2Proof.Machine

/-! ## Slices (R185, R186) -/

/-- Submissions that a launch queue holds, those of the fabric among them (R188). -/
def State.queueHolds (s : State) (vd q : Nat) : Bool :=
  s.regBit (lqReg vd q 0) 63 && (s.ringHolds vd q != 0 || !(mapGet [] s.fabricQueue (vd * 16 + q)).isEmpty)

/-- Has the virtual device work: a submission, a launchable workgroup, a deque entry or a team (R185)? -/
def State.hasWork (s : State) (vd : Nat) : Bool :=
  ((List.range 16).any fun q => s.queueHolds vd q) ||
  !(mapGet [] s.deviceQueues vd).isEmpty ||
  (s.readQueue.any fun e => e.1 == vd) || (s.launchables.any fun l => l.vd == vd) ||
  (s.deques.any fun e => e.2.any fun c => c.vd == vd) || s.teams.any fun t => t.vd == vd && !t.isVacant

/-- Does the virtual device take part in slicing? -/
def State.takesPart (s : State) (vd : Nat) : Bool := s.regBit (vdReg vd 0x070) 63 && s.hasWork vd

/-- Slices in a round (R184). -/
def State.weight (s : State) (vd : Nat) : Nat := max 1 (s.regBits (vdReg vd 0x070) 19 16)

/-- The virtual device that R185 visits after another; after a partition stood idle, the first in number. DESIGN CHOICE: log 128. -/
def State.nextVd (s : State) (p : Nat) (after : Option Nat) : Option Nat :=
  let all := ((List.range 8).map fun i => 8 * p + i).filter s.takesPart
  match after with
  | none => all.head?
  | some v => ((all.filter fun x => v < x) ++ all.filter fun x => x ≤ v).head?

/-- The length of a virtual device's slice in nanoseconds: SLICE, as if 10 when it is smaller and 10,000 when larger (R184). -/
def State.sliceTime (s : State) (vd : Nat) : Nat := 1000 * min 10000 (max 10 (s.regBits (vdReg vd 0x070) 13 0))

/-- Has the slice lasted SLICE µs (R185)? DESIGN CHOICE: log 83. -/
def State.sliceOver (s : State) (x : Slice) (vd : Nat) : Bool := x.since + s.sliceTime vd ≤ s.time

/-- A slice begins. DEDUCED: log 33. -/
def State.giveSlice (s : State) (p vd left : Nat) : State :=
  (s.setSlice p ⟨some vd, left, false, s.time⟩).updReg (vdReg vd 0x070) fun w => wput w 62 62 1

/-- The next slice of a partition that no virtual device holds. -/
def State.startSlice (s : State) (p : Nat) (after : Option Nat) : State :=
  match s.nextVd p after with
  | none => s.setSlice p Slice.idle
  | some v => s.giveSlice p v (s.weight v)

/-- A slice whose virtual device has no work left ends by itself, and the next begins at once (R185). -/
def State.endIdleSlice (s : State) (p : Nat) : State :=
  let x := s.slice p
  match x.vd with
  | none => s
  | some v =>
    if x.preemptAsked || s.hasWork v then s
    else (s.updReg (vdReg v 0x070) fun w => wput w 62 62 0).startSlice p (some v)

/-- The slices that end by themselves. -/
def State.endIdleSlices (s : State) : State := (s.slices.map (·.1)).foldl State.endIdleSlice s

/-- A switch ends once every team of the outgoing virtual device is saved; the next slice begins (R185, R186).
DEDUCED: log 33. -/
def State.finishSwitch (s : State) (p : Nat) : State :=
  let x := s.slice p
  match x.vd with
  | none => s
  | some v =>
    if !x.preemptAsked || s.teams.any (fun t => t.vd == v && t.resident) then s
    else
      let s := s.updReg (vdReg v 0x070) fun w => wput w 62 62 0
      if x.left != 0 && s.takesPart v then s.giveSlice p v x.left else s.startSlice p (some v)

/-! ## The request for pre-emption (R70, R85, R88, R92, R127, R151, R319) -/

/-- The arrival of the team at COLL or A2AV withdrawn. -/
def State.leaveGroup (s : State) : State :=
  s.updWg s.team.wg fun g => { g with arrivals := g.arrivals.filter fun a => a.team != s.team.uid }

/-- What a team in some wait leaves when the request comes. A trap not yet reported is dropped when its instruction runs again, and
kept when it completed. -/
def Team.stopWaiting (t : Team) : Team :=
  let t := { t with
    heldTrap := t.heldTrap.filter fun (x : TakenTrap) => x.trap.done
    pendingTrap := t.pendingTrap.filter fun (x : TakenTrap) => x.trap.done
    guestSeq := none
    drains := false
    status := .preempting }
  match t.fault with
  | none => t
  | some f => if f.taken.deferred then t else { t with fault := none, pc := f.taken.trap.epc }

/-- The event on which the team waits, if its record is not yet written, no longer names it (R70). -/
def State.leaveEvent (s : State) : State :=
  { s with events := s.events.map fun e => if e.park == some s.team.uid then { e with park := some 0 } else e }

/-- A team parked on a guest-table store leaves it: the store is performed again on resumption, from the main stream or as the head of
the closure (R70). DEDUCED: log 68. -/
def Team.leaveGuest (again : Option Word) (t : Team) : Team :=
  match again with
  | some pc => { t.stopWaiting with pc := pc }
  | none => { t.stopWaiting with drains := true }

/-- The request for the team whose turn it is: its HELD claims are revoked in this clock, its wait ends, and it waits for
PREEMPT_SAVE. A SLEEP under way stays at its pc, and a team that is saved whole runs it again from its first clock. DESIGN CHOICE:
log 120. -/
def State.askTeam (s : State) : State :=
  let t := s.team
  let s := s.mapTeam fun t => t.revokeIf (fun c => c.state == .held) 3
  let go := fun (s : State) => s.mapTeam Team.stopWaiting
  match t.status with
  | .vacant => s
  | .retired => s
  | .preempting => s
  | .preempted => s
  | .ready => go s
  | .draining _ => go s
  | .trapping => go s
  | .blocked => go (s.leaveQueue t)
  | .parked w =>
    match w with
    | .retire => s
    | .claim c => go (s.mapTeam fun t => t.setClaim c (t.claim c).restored)
    | .collective => go s.leaveGroup
    | .lease =>
      let x := s.millstone t.mill
      go (s.setMillstone t.mill { x with queue := x.queue.filter fun e => e.1 != t.uid })
    | .counter _ _ _ => go s
    | .barrier => go s
    | .step _ => go s
    | .migration _ => go s
    | .fault => go s
    | .guest again => s.leaveEvent.mapTeam (·.leaveGuest again)
    | .sleep _ _ => go s
    | .flow _ _ _ _ => go s
    | .keydel _ => go s
    | .invalidation _ => go s
    | .shadow => go s.leaveEvent

/-- The request for every resident team of a virtual device, and the switch that follows; `left` slices of its round remain. What
goes to `VDSAVE` stays in the fields of the state that hold it, since the layout of that area belongs to the device. DEDUCED: log 33.
DESIGN CHOICE: log 101. -/
def State.switchOut (s : State) (vd left : Nat) : State :=
  let p := vd / 8
  let uids := (s.teams.filter fun t => t.vd == vd && t.resident).map (·.uid)
  let s := if (s.slice p).vd == some vd then s.setSlice p { s.slice p with left := left, preemptAsked := true } else s
  (uids.foldl (fun s uid => s.withTeam uid State.askTeam) s).finishSwitch p

/-- SLICE_EXPIRY (R185, R186): once the slice has lasted its time, the virtual device's next begins in that clock, or the partition
switches; a partition that nobody holds gives its next slice. DEDUCED: log 33. -/
def execSliceExpiry (part : Nat) (s : State) : Out :=
  if 32 ≤ part then .fault .noSuchUnit
  else
    let x := s.slice part
    match x.vd with
    | none => .next (s.startSlice part none)
    | some v =>
      if x.preemptAsked then
        if s.teams.any fun t => t.vd == v && t.resident then .fault .notEnabled else .next (s.finishSwitch part)
      else if !s.sliceOver x v then .fault .notEnabled
      else if s.takesPart v && 1 < x.left then .next (s.setSlice part { x with left := x.left - 1, since := s.time })
      else if s.takesPart v && s.nextVd part (some v) == some v then
        .next (s.setSlice part { x with left := s.weight v, since := s.time })
      else .next (s.switchOut v 0)

/-- VDCMD with OP 0010 (R373): the virtual device that holds the slice is pre-empted. -/
def State.vdPreempt (s : State) (vd : Nat) : State :=
  if s.holdsSlice vd then s.switchOut vd ((s.slice (vd / 8)).left - 1) else s

/-- VDCMD_PREEMPT: a host write of `VDCMD` with OP 0010. -/
def execVdcmdPreempt (vd : Nat) (s : State) : Out :=
  if 256 ≤ vd then .fault .noSuchUnit else s.hostWriteReg (vdReg vd 0x008) fun s => s.vdPreempt vd

/-- HALT (R331): RUN is cleared, the event posted, and the virtual device pre-empted, the issuing team after the HALT.
DEDUCED: log 27. -/
def execHalt : State → Out :=
  execClosing .halt ⟨true, false, [], []⟩ fun s =>
    let vd := s.team.vd
    let s := s.updReg (vdReg vd 0x070) fun w => wput w 63 63 0
    let s := s.post (some vd) 0x0A 0 s.team.epc 0 none
    .wait ((s.pointAfter.advance 4).switchOut vd 0)

/-! ## Saves (R356 to R358) -/

/-- What a save holds: the registers kept, and the granules, tiles and accumulators written. -/
structure Kept where
  full : Bool
  v : Nat → Bool
  u : Nat → Bool
  p : Nat → Bool
  granules : List Nat
  tiles : List Nat
  accs : List Nat

/-- Numbers below `n` whose bit is set. -/
def bitList (n x : Nat) : List Nat := (List.range n).filter fun i => bitOf x i

/-- The number with those bits set. -/
def bitsFrom (l : List Nat) : Nat := (l.eraseDups.map fun i => 2 ^ i).sum

/-- What a team's save holds: a rewind's live registers, or everything (R358). -/
def Team.kept (t : Team) : Option Recipe → Kept
  | some r =>
    { full := false, v := bitOf r.vlive, u := bitOf r.slive, p := bitOf r.plive
      granules := (List.range (t.regs / 8)).filter fun g => bitsOf r.vlive (8 * g + 7) (8 * g) != 0
      tiles := bitList 32 r.tlive, accs := bitList 16 r.alive }
  | none =>
    { full := true, v := fun _ => true, u := fun _ => true, p := fun _ => true, granules := List.range (t.regs / 8)
      tiles := (List.range 32).filter t.tiles.contains, accs := (List.range 16).filter t.accs.contains }

/-- The bytes of an accumulator of a mill. -/
def State.accBytes (s : State) (mill n : Nat) : List Byte :=
  (List.range 4096).flatMap fun w => leBytes 4 (mapGet 0 s.accs (accKey mill n w)).toNat

/-- The bytes of a tile of a mill. -/
def State.tileBytes (s : State) (mill n : Nat) : List Byte := mapBytes 0 s.tiles (tileKey mill n 0) 8192

/-- The bytes of a context region (R357). -/
def State.contextBytes (s : State) (t : Team) (k : Kept) : List Byte :=
  let mode := if k.full then (t.mode, t.plot, t.deferWord.toNat, t.stepNo)
    else (t.point.mode, t.point.plot, t.point.defer, t.point.stepNo)
  let lease := ({ t with leaseHeld := t.leaseHeld || t.releasing }).leaseWord
  leBytes 8 (t.hdr k.full (if k.full then t.stack.length else 0)) ++
  leBytes 8 (if k.full then t.pc else t.point.resume).toNat ++ leBytes 8 t.point.resume.toNat ++
  leBytes 8 mode.1.toNat ++ leBytes 8 t.flags.toNat ++ leBytes 8 mode.2.1 ++ leBytes 8 mode.2.2.1 ++
  leBytes 8 mode.2.2.2 ++ leBytes 8 lease.toNat ++
  leBytes 8 (bitsFrom k.granules + 2 ^ 16 * bitsFrom k.tiles + 2 ^ 48 * bitsFrom k.accs) ++
  ((List.range 16).flatMap fun c => leBytes 8 (t.claim c).word.toNat) ++ List.replicate 48 0 ++
  maskBytes (if k.full then t.mask else allLanes t.lanes) ++
  ((List.range 32).flatMap fun n => leBytes 8 (s.tshapeWord t.mill n).toNat) ++ List.replicate 384 0 ++
  ((List.range 64).flatMap fun i => leBytes 8 (if k.u i then (t.u i).toNat else 0)) ++
  ((List.range 16).flatMap fun i => maskBytes (if k.p i then t.p i else 0)) ++
  (if k.full then t.stackBytes else List.replicate 4096 0) ++ List.replicate 0x200 0 ++
  k.granules.flatMap t.granuleBytes ++ k.tiles.flatMap (s.tileBytes t.mill) ++ k.accs.flatMap (s.accBytes t.mill)

/-- The Plain address of a team's context region: F bytes into its save area (R355). -/
def Team.contextAt (t : Team) : Word := BitVec.ofNat 64 (t.saveSlice * 2 ^ 21 + t.saveOff + frameSize t.lanes)

/-- The size C of a context region (R356). -/
def Team.contextSize (t : Team) : Nat := areaSize t.lanes t.maxG t.maxT t.maxA - frameSize t.lanes

/-- Bytes from the start of a context region to its tiles. -/
def Kept.tilesAt (k : Kept) (lanes : Nat) : Nat := 0x2000 + 32 * lanes * k.granules.length

/-- Poison of saved tile words goes with them into the Plain (R51). -/
def State.poisonSaved (s : State) (t : Team) (k : Kept) (slice off : Nat) : State :=
  k.tiles.zipIdx.foldl (fun (s : State) (x : Nat × Nat) =>
    ((s.tilePoison.filter fun w => tileKey t.mill x.1 0 / 8 ≤ w && w < tileKey t.mill (x.1 + 1) 0 / 8)).foldl
      (fun (s : State) (w : Nat) =>
        s.poisonWord slice ((off + k.tilesAt t.lanes + 8192 * x.2) / 8 + (w - tileKey t.mill x.1 0 / 8))) s) s

/-- Are the team's writes all performed at device scope (R103), with no atomic and no FORK under way? DEDUCED: log 31. -/
def State.writesDone (s : State) (uid : Nat) : Bool :=
  (s.accessesOf uid).all (fun a => !a.atomic) &&
  s.requests.all fun r => r.team != uid || !r.op.writes || (!r.op.reads && r.performed true)

/-- The loads of a team complete into nothing (R167). DEDUCED: log 31. -/
def State.dropLoads (s : State) (uid : Nat) : State :=
  { s with
    accesses := s.accesses.filter fun a => a.team != uid
    requests := s.requests.filter fun r => r.team != uid || match r.op with
      | .store _ => true
      | .atomic _ _ _ _ _ _ => true
      | .packet _ _ => true
      | .load _ _ => false
      | .uload _ _ _ => false
      | .prefetch => true }

/-- Do Millstone operations still write tiles or accumulators that the save reads (R301)? -/
def State.stoneWrites (s : State) (t : Team) (k : Kept) : Bool :=
  (s.millstone t.mill).busy.any fun o => if o.acc then k.accs.contains o.n else k.tiles.contains o.n

/-- May the team be saved now: a rewind once its writes are performed, a whole save once its loads are complete and its closure
has drained; and never while it has a flow (R88, R103, R167)? DEDUCED: log 31. -/
def State.mayBeSaved (s : State) (r : Option Recipe) : Bool :=
  let t := s.team
  !s.flowRuns t.uid && s.writesDone t.uid && !s.stoneWrites t (t.kept r) &&
  (r.isSome || ((s.accessesOf t.uid).isEmpty && (t.closure.isEmpty || t.fault.isSome || t.drains || t.pendingTrap.isSome)))

/-- A record that parks no team, written once there is room (R352, R389). DEDUCED: log 36. -/
def State.writeLost (s : State) (uid : Nat) : State :=
  match s.lostRecords.find? fun e => e.1 == uid with
  | none => s
  | some (_, vd, bs) =>
    if s.ringRoom (faultRing vd) then
      let (_, s) := s.ringPush (faultRing vd) fun seq => overlay bs 0x24 (leBytes 4 seq)
      { s with lostRecords := s.lostRecords.filter fun e => e.1 != uid }
    else s

/-- The context of the team whose turn it is is lost with its slice: the team retires, and a record says so (R389). -/
def State.loseContext (s : State) (epc : Word) : State :=
  let t := s.team
  let x : Trap := { Trap.bare 0x07 (BitVec.ofNat 64 t.frame) with report := 0x0A, epc := epc }
  let (x, s) := s.settle ⟨x, false⟩
  let (time, s) := s.readTime t.vd
  let bs := faultBytes s t x time 0
  (({ s with lostRecords := s.lostRecords ++ [(t.uid, t.vd, bs)] }.dropLoads t.uid).retire).writeLost t.uid

/-- A saved team: its slot and rows are free, its lease has ended, its loads go nowhere; a rewound one forgets a trap that was held
or still to be taken (R167). DEDUCED: log 31. DEDUCED: log 32. -/
def Team.saved (t : Team) (r : Option Recipe) : Team :=
  let live := fun (f : Nat → Bool) (n : Nat) => r.isNone || f n
  { t with
    status := .preempted
    rewound := r
    uregs := []
    vregs := []
    preds := []
    mask := 0
    stack := []
    vpoison := t.vpoison.filter fun p => live (t.kept r).v p.1
    upoison := t.upoison.filter (live (t.kept r).u)
    ppoison := t.ppoison.filter fun p => live (t.kept r).p p.1
    closure := if r.isSome then [] else t.closure
    heldTrap := if r.isSome then none else t.heldTrap
    pendingTrap := if r.isSome then none else t.pendingTrap
    drains := false
    fault := none
    releasing := t.releasing || t.leaseHeld
    age := 0 }

/-- The save of the team whose turn it is into its context region (R358). DEDUCED: log 31. DEDUCED: log 32. -/
def State.saveContext (s : State) (r : Option Recipe) : Out :=
  let t := s.team
  let k := t.kept r
  if s.sliceStopped t.saveSlice then
    .next ((s.loseContext (match r with
      | some x => if x.rebuild = 0 then x.resume else x.rebuild
      | none => t.pc)).finishSwitch t.part)
  else
    match s.plainPhys t.contextAt t.contextSize t.part 1 with
    | .error _ => .fault .notEnabled
    | .ok (slice, off) =>
      if s.plainBusy slice off t.contextSize then .fault .notEnabled
      else
        let s := ((s.plainStore slice off (s.contextBytes t k)).poisonSaved t k slice off).dropLoads t.uid
        let s := (s.endLease t).leaveQueue t
        .next ((s.mapTeam fun _ => { t.saved r with leaseHeld := false }).finishSwitch t.part)

/-- PREEMPT_SAVE (R166, R167): once its waits end, the team is rewound or saved whole; whether its segment is idempotent is not
checked. -/
def execPreemptSave (team : Nat) (s : State) : Out :=
  match s.focus team with
  | none => .fault .notEnabled
  | some s =>
    let r := s.rewindTo s.team
    if s.team.status != .preempting || !s.mayBeSaved r then .fault .notEnabled else s.saveContext r

/-! ## Resumption (R139, R168, R181, R359) -/

/-- The teams of a workgroup that have not retired, by index. -/
def State.membersInOrder (s : State) (wg : Nat) : List Team :=
  (List.range 16).filterMap fun i => (s.members wg).find? fun t => t.tindex == i

/-- Do the slots of a placement lie within the partition's range, apart and free (R176)? -/
def State.slotsFree (s : State) (part mill : Nat) (slots : List Nat) : Bool :=
  let base := s.regBits (partReg part 0x008) 5 0
  let count := s.regBits (partReg part 0x008) 22 16
  slots.all (fun j => base ≤ j && j < base + count && j < 64) && slots.eraseDups.length == slots.length &&
  slots.all fun j => !s.teams.any fun t => t.resident && t.mill == mill && t.wheel * 16 + t.slot == j

/-- Do wheels have room for rows: what is wanted of each wheel fits beside what is in use (R176)? -/
def State.rowsFit (s : State) (part mill : Nat) (wanted : Nat → Nat) : Bool :=
  (List.range 4).all fun w => wanted w = 0 || s.rowsUsed part mill w + wanted w ≤ s.regBits (partReg part 0x008) 60 48

/-- The wheel to which a donation set moves: that of its members, or its own number when it has none. DEDUCED: log 34. -/
def Donation.newWheel (d : Donation) (placed : List (Team × Nat)) : Option Nat :=
  match (placed.filter fun x => x.1.wheel == d.wheel && x.1.donation == some d.set).map (·.2 / 16) with
  | [] => some d.wheel
  | w :: ws => if ws.all (· == w) then some w else none

/-- The donation sets of a workgroup under their new wheels, if its members stay together and no two sets meet (R139).
DEDUCED: log 34. -/
def movedSets (ds : List Donation) (placed : List (Team × Nat)) : Option (List Donation) :=
  let new := ds.map fun d => (d.newWheel placed).map fun w => { d with wheel := w }
  if new.all (·.isSome) then
    let l := new.filterMap id
    if (l.map fun d => (d.wheel, d.set)).eraseDups.length == l.length then some l else none
  else none

/-- Bits of a context region's word. -/
def regionWord (b : List Byte) (off n : Nat) : Nat := leNat ((b.drop off).take n)

/-- What a region holds (R357, R359): its MAPS, and the live registers of a rewind. -/
def keptOf (b : List Byte) (r : Option Recipe) : Kept :=
  let maps := regionWord b 0x48 8
  { full := regionWord b 0 8 % 2 == 1
    v := match r with
      | some x => bitOf x.vlive
      | none => fun _ => true
    u := match r with
      | some x => bitOf x.slive
      | none => fun _ => true
    p := match r with
      | some x => bitOf x.plive
      | none => fun _ => true
    granules := bitList 16 maps, tiles := bitList 32 (maps / 2 ^ 16), accs := bitList 16 (maps / 2 ^ 48) }

/-- The registers of a team as a region restores them, none beyond those it holds (R183); predicate registers have the lanes below L alone
(R357). -/
def Team.restoreRegs (t : Team) (b : List Byte) (k : Kept) : Team :=
  { t with
    uregs := mapSetMany 0 []
      (((List.range 64).filter k.u).map fun i => (i, BitVec.ofNat 64 (regionWord b (0x400 + 8 * i) 8)))
    preds := mapSetMany 0 []
      (((List.range 16).filter k.p).map fun i => (i, BitVec.ofNat 1024 (regionWord b (0x600 + 128 * i) 128) &&& allLanes t.lanes))
    vregs := mapSetMany 0 [] ((k.granules.zipIdx.filter fun g => 8 * g.1 < t.regs).flatMap fun g => (List.range t.lanes).flatMap fun l =>
      ((List.range 8).filter fun j => k.v (8 * g.1 + j)).map fun j =>
        (vkey (8 * g.1 + j) l,
          BitVec.ofNat 32 (regionWord b (0x2000 + 32 * t.lanes * g.2 + 32 * l + 4 * j) 4))) }

/-- A team as its region restores it, at its new place: what a closure kept runs before the main stream goes on. A rewound team reruns
its segment from whatever its registers and memory hold, and nothing is checked (R166); its count of RND.LOG goes on.
DEDUCED: log 31. DEDUCED: log 32. DESIGN CHOICE: log 86. DESIGN CHOICE: log 127. -/
def Team.restoreContext (t : Team) (b : List Byte) (k : Kept) (mill j : Nat) : Team :=
  let lease := BitVec.ofNat 64 (regionWord b 0x40 8)
  let pc := BitVec.ofNat 64 (regionWord b 8 8)
  let t := { t with drains := !t.closure.isEmpty }
  { (t.restoreRegs b k).restoreModes (regionWord b 0x18 8) (regionWord b 0x20 8) (regionWord b 0x28 8) (regionWord b 0x30 8) with
    mill := mill
    wheel := j / 16
    slot := j % 16
    pc := match t.rewound with
      | some r => if r.rebuild = 0 then pc else r.rebuild
      | none => pc
    stepNo := regionWord b 0x38 4
    mask := if k.full then BitVec.ofNat 1024 (regionWord b 0x100 128) &&& allLanes t.lanes else allLanes t.lanes
    stack := if k.full then stackOf t.lanes (b.drop 0xE00) (min 32 (bitsOf (regionWord b 0 8) 13 8)) else []
    tiles := k.tiles
    accs := k.accs
    releasing := lease.getLsbD 16
    leaseGrant := if lease.getLsbD 16 then wbits lease 32 20 else t.leaseGrant
    rewound := none
    status := t.onward
    age := 0 }

/-- Has the context region of a saved team something of a Millstone, as software may have left it: a lease to request again, or tiles or
accumulators to be written back (R181, R359)? -/
def State.needsStone (s : State) (t : Team) : Bool :=
  match s.plainPhys t.contextAt t.contextSize t.part 1 with
  | .error _ => false
  | .ok (slice, off) =>
    let b := s.plainRead slice off 0x50
    let k := keptOf b t.rewound
    bitOf (regionWord b 0x40 8) 16 || !k.tiles.isEmpty || !k.accs.isEmpty

/-- The tiles and accumulators of a mill's files that a rewound team does not restore read zero, but those that are another resident
team's (R168). DEDUCED: log 104. -/
def State.clearFiles (s : State) (t : Team) (k : Kept) (mill : Nat) : State :=
  let others := s.teams.filter fun x => x.uid != t.uid && x.resident && x.mill == mill
  let tiles := (List.range 32).filter fun n => !(k.tiles.contains n || others.any fun x => x.tiles.contains n)
  let accs := (List.range 16).filter fun n => !(k.accs.contains n || others.any fun x => x.accs.contains n)
  let inTile := fun (a : Nat) => tiles.any fun n => tileKey mill n 0 ≤ a && a < tileKey mill (n + 1) 0
  { s with
    tiles := s.tiles.filter fun e => !inTile e.1
    tilePoison := s.tilePoison.filter fun w => !inTile (8 * w)
    accs := s.accs.filter fun e => !accs.any fun n => accKey mill n 0 ≤ e.1 && e.1 < accKey mill (n + 1) 0 }

/-- The saved tiles and accumulators written into the files of the new mill, with the tiles' shapes and poison (R359). -/
def State.restoreFiles (s : State) (t : Team) (b : List Byte) (k : Kept) (mill slice off : Nat) : State :=
  let at' := k.tilesAt t.lanes
  let s := k.tiles.zipIdx.foldl (fun (s : State) (x : Nat × Nat) =>
    let key := tileKey mill x.1 0
    let from' := at' + 8192 * x.2
    { s.setTshape mill x.1 (BitVec.ofNat 64 (regionWord b (0x180 + 8 * x.1) 8 % 2 ^ 20)) with
      tiles := mapSplice 0 s.tiles key ((b.drop from').take 8192)
      tilePoison := (s.tilePoison.filter fun w => w < key / 8 || key / 8 + 1024 ≤ w) ++
        ((List.range 1024).filter fun i => s.plainPoisoned slice (off + from' + 8 * i) 8).map fun i => key / 8 + i }) s
  k.accs.zipIdx.foldl (fun (s : State) (x : Nat × Nat) =>
    let from' := at' + 8192 * k.tiles.length + 16384 * x.2
    let words := (List.range 4096).map fun w => BitVec.ofNat 32 (regionWord b (from' + 4 * w) 4)
    { s with accs := mapSplice 0 s.accs (accKey mill x.1 0) words }) s

/-- One team restored: its registers, its tiles, its lease request; a context that its slice has taken is lost (R389). On another mill
the lane cache is emptied, which may hold lines older than the team's acquires and stores (R105, R106). DEDUCED: log 34. -/
def State.restoreTeam (s : State) (mill j : Nat) : State :=
  let t := s.team
  match s.plainPhys t.contextAt t.contextSize t.part 1 with
  | .error _ => s.loseContext 0
  | .ok (slice, off) =>
    let b := s.plainRead slice off t.contextSize
    let k := keptOf b t.rewound
    let s := if t.rewound.isSome && s.ownsStone t.part mill then s.clearFiles t k mill else s
    let s := (s.restoreFiles t b k mill slice off).mapTeam fun t => t.restoreContext b k mill j
    let s := if mill = t.mill then s else s.dropLaneCache mill
    let s := if s.team.releasing then s.requestLease s.team.leaseGrant else s
    s.afterClosure

/-- The order in which slots of a mill queue (R180): ascending slot number. -/
def insertBySlot (x : Team × Nat) : List (Team × Nat) → List (Team × Nat)
  | [] => [x]
  | y :: ys => if x.2 < y.2 then x :: y :: ys else y :: insertBySlot x ys

/-- TEAM_RESUME (R139, R168, R359): the teams of a saved workgroup resume together on one mill; where one needs a Millstone, on a mill
whose Millstone is the partition's, since no agent reaches another's (R183). DEDUCED: log 34. -/
def execTeamResume (workgroup : Nat) (place : Placement) (s : State) : Out :=
  match s.wgOf workgroup with
  | none => .fault .notEnabled
  | some g =>
    let ts := s.membersInOrder workgroup
    let placed := ts.zip place.slots
    let part := g.vd / 8
    let rows := fun (w : Nat) => ((placed.filter fun x => x.2 / 16 == w).map fun x => x.1.rows).sum
    match movedSets g.donations placed with
    | none => .fault .notEnabled
    | some sets =>
      let wanted := fun (w : Nat) => rows w + ((sets.filter fun d => d.wheel == w).map (·.pool)).sum
      let busy := ts.any fun t => match s.plainPhys t.contextAt t.contextSize t.part 1 with
        | .ok (slice, off) => s.bankBusy slice off t.contextSize
        | .error _ => false
      if ts.isEmpty || !ts.all (fun t => t.status == .preempted) || place.slots.length != ts.length || 512 ≤ place.mill ||
          s.sliceStopped place.mill || !s.holdsSlice g.vd || !s.slotsFree part place.mill place.slots ||
          !s.rowsFit part place.mill wanted || (ts.any s.needsStone && !s.ownsStone part place.mill) || busy then .fault .notEnabled
      else
        let s := s.updWg workgroup fun g => { g with mill := place.mill, donations := sets }
        .next ((placed.foldl (fun l x => insertBySlot x l) []).foldl
          (fun (s : State) (x : Team × Nat) => s.withTeam x.1.uid fun s => s.restoreTeam place.mill x.2) s)

/-! ## Traps and records that waited -/

/-- TRAP_ENTRY (R349): no register is pending any more, and the team enters its handler. -/
def execTrapEntry (team : Nat) (s : State) : Out :=
  match s.focus team with
  | none => .fault .notEnabled
  | some s =>
    match s.team.pendingTrap with
    | some x => if s.team.status == .trapping && s.frameFree then .next (s.trapEntry x) else .fault .notEnabled
    | none => .fault .notEnabled

/-- FAULT_RECORD_WRITE (R352): the fault queue has room for a record that waits. DEDUCED: log 36. -/
def execFaultRecordWrite (team : Nat) (s : State) : Out :=
  match s.lostRecords.find? fun e => e.1 == team with
  | some e => if s.ringRoom (faultRing e.2.1) then .next (s.writeLost team) else .fault .notEnabled
  | none =>
    match s.focus team with
    | none => .fault .notEnabled
    | some s =>
      if s.team.status == .parked .fault && (s.team.fault.map (·.seq)) == some none && s.ringRoom (faultRing s.team.vd) then
        .next s.writeFault
      else .fault .notEnabled

/-- EVENT_RECORD_WRITE (R370): the event queue has room for the oldest record that waits. -/
def execEventRecordWrite (vd : Nat) (s : State) : Out :=
  match s.events.find? fun e => e.vd == some vd with
  | none => .fault .notEnabled
  | some e =>
    if !s.ringRoom (eventRing e.vd) then .fault .notEnabled
    else
      let (seq, s) := { s with events := s.events.erase e }.ringPush (eventRing e.vd) e.bytes
      .next (match e.park with
        | some uid => s.updTeam uid fun t => { t with guestSeq := some seq }
        | none => s)

/-! ## The host's answers -/

/-- The team parked on a fault record of the virtual device. -/
def State.onRecord (s : State) (vd : Nat) (seq : Nat) : Option Team :=
  s.teams.find? fun t => t.vd == vd && t.status == .parked .fault && (t.fault.bind (·.seq)) == some seq

/-- Are the accesses and the flow of a team that is to retire done (R248)? -/
def State.mayRetire (s : State) (uid : Nat) : Bool :=
  !s.flowRuns uid && (s.accessesOf uid).isEmpty && s.performedAll uid true

/-- Teams that are to retire and may. DEDUCED: log 35. -/
def State.settleRetiring (s : State) : State :=
  ((s.teams.filter fun t => t.status == .parked .retire).map (·.uid)).foldl (fun (s : State) (uid : Nat) =>
    match s.teamOf uid with
    | some t => if s.mayRetire uid then (s.withTeam uid State.retire).finishSwitch t.part else s
    | none => s) s

/-- An answer that reissues (R354): a DONE or DEF trap resumes as R326 gives. -/
def State.answerReissue (s : State) (f : FaultRecord) : State :=
  let s := s.mapTeam fun t => { t with fault := none }
  s.resumeClosure (f.taken.deferred && f.taken.trap.done)

/-- An answer that goes on after the instruction (R354). DEDUCED: log 29. -/
def State.answerContinue (s : State) (f : FaultRecord) : State :=
  let s := s.mapTeam fun t => { t with fault := none }
  if f.taken.deferred then s.resumeClosure true
  else if f.taken.trap.done then s.resumeClosure false
  else s.resumeAfter f.taken.trap.epc

/-- Does an answer that goes on after an instruction wait for a line under rebuild (R52)? The store comes after that.
DESIGN CHOICE: log 25. -/
def State.answerStalls (s : State) (vd : Nat) (w : Word) : Bool :=
  s.boot != .minimal && wbits w 63 62 == 1 &&
  match (s.onRecord vd (wbits w 31 0)).bind fun t => s.focus t.uid with
  | some s => s.team.fault.any fun f => !f.taken.deferred && !f.taken.trap.done && s.halfStalls f.taken.trap.epc
  | none => false

/-- A write of `VDFRESP` (R354). DEDUCED: log 35. -/
def State.writeFresp (s : State) (vd : Nat) (w : Word) : State :=
  match s.onRecord vd (wbits w 31 0) with
  | none => s
  | some t =>
    s.withTeam t.uid fun s =>
      match wbits w 63 62, s.team.fault with
      | 0, some f => s.answerReissue f
      | 1, some f => s.answerContinue f
      | 2, _ => (s.mapTeam fun t => { t with fault := none, closure := [], shelved := [], status := .parked .retire }).settleRetiring
      | _, _ => s

/-- The word of `VDFRESP`. -/
def frespWord (action : Nat) (seq : BitVec 32) : Word := BitVec.ofNat 64 (action * 2 ^ 62 + seq.toNat)

/-- VDFRESP_REISSUE: a host write of `VDFRESP` with ACTION 00. -/
def execVdfrespReissue (vd : Nat) (seq : BitVec 32) (s : State) : Out :=
  if 256 ≤ vd then .fault .noSuchUnit else s.hostWriteReg (vdReg vd 0x0B0) fun s => s.writeFresp vd (frespWord 0 seq)

/-- VDFRESP_CONTINUE: ACTION 01. -/
def execVdfrespContinue (vd : Nat) (seq : BitVec 32) (s : State) : Out :=
  if 256 ≤ vd then .fault .noSuchUnit
  else if s.answerStalls vd (frespWord 1 seq) then .fault .notEnabled
  else s.hostWriteReg (vdReg vd 0x0B0) fun s => s.writeFresp vd (frespWord 1 seq)

/-- VDFRESP_RETIRE: ACTION 10. -/
def execVdfrespRetire (vd : Nat) (seq : BitVec 32) (s : State) : Out :=
  if 256 ≤ vd then .fault .noSuchUnit else s.hostWriteReg (vdReg vd 0x0B0) fun s => s.writeFresp vd (frespWord 2 seq)

/-- The team whose turn it is resumed after the instruction that posted its guest event: a store of the main stream has moved on
already, one of the closure leaves it now, and a TLBINV goes on. -/
def State.guestResume (s : State) : State :=
  let s := s.mapTeam fun t => { t with guestSeq := none }
  match s.team.status with
  | .parked (.guest again) =>
    let s := s.mapTeam fun t => { t with status := t.onward, age := 0 }
    if again.isNone then s.popClosure else s.afterClosure
  | .parked .shadow => s.mapTeam fun t => (t.setPoint (t.pc + 4)).resume
  | _ => s

/-- VDCMD with OP 0001 (R68, R69, R373). -/
def State.vdResume (s : State) (vd seq : Nat) : State :=
  match s.teams.find? fun t => t.vd == vd && !t.isVacant && t.guestSeq == some seq with
  | none => s
  | some t => s.withTeam t.uid State.guestResume

/-- VDCMD_RESUME: a host write of `VDCMD` with OP 0001. -/
def execVdcmdResume (vd : Nat) (seq : BitVec 32) (s : State) : Out :=
  if 256 ≤ vd then .fault .noSuchUnit else s.hostWriteReg (vdReg vd 0x008) fun s => s.vdResume vd seq.toNat

/-- A write of `VDCMD` (R373). -/
def State.writeVdcmd (s : State) (vd : Nat) (w : Word) : State :=
  match wbits w 63 60 with
  | 1 => s.vdResume vd (wbits w 31 0)
  | 2 => s.vdPreempt vd
  | _ => s

end Sys2Proof.Machine
end

