-- ==== Sys2Proof/Machine/Distributor.lean ====
section
/-! DEFINITION. The distributor: launch queues and the device queue (R169 to R175, R185, R238, R369), fabric launches (R187 to R189),
placement (R10, R147, R176, R177, R355) and the deques of the mills (R158). -/

namespace Sys2Proof.Machine

/-! ## SUBMISSION_READ (R185, R369) -/

/-- PRIO of a launch queue. -/
def State.prio (s : State) (vd q : Nat) : Nat := s.regBits (vdReg vd (0x100 + 8 * q)) 9 8

/-- The queues of the highest PRIO that hold submissions, ascending. -/
def State.queuesReady (s : State) (vd : Nat) : List Nat :=
  let hold := (List.range 16).filter (s.queueHolds vd)
  let top := hold.foldl (fun m q => max m (s.prio vd q)) 0
  hold.filter fun q => s.prio vd q == top

/-- The queue to read from, and the submissions it may still give in this turn (R185). The turn is held as 256 × (queue + 1) + left. -/
def State.queueNext (s : State) (vd : Nat) : Option (Nat × Nat) :=
  let ready := s.queuesReady vd
  let turn := mapGet 0 s.queueTurn vd
  let last := turn / 256
  let weight := fun (q : Nat) => max 1 (s.regBits (vdReg vd (0x100 + 8 * q)) 7 0)
  if last != 0 && turn % 256 != 0 && ready.contains (last - 1) then some (last - 1, turn % 256)
  else ((ready.filter fun q => last ≤ q) ++ ready.filter fun q => q < last).head?.map fun q => (q, weight q)

/-- The ASID of a launch queue. -/
def State.queueAsid (s : State) (vd q : Nat) : Nat := s.regBits (lqReg vd q 0x10) 43 32

/-- A submission of the ring read and handed on; one that cannot be read has no bytes (R171, R369). -/
def State.readRing (s : State) (vd q : Nat) : State :=
  let head := s.regBits (lqReg vd q 0x18) 31 0
  let count := max 1 (s.regBits (lqReg vd q 0x10) 15 0)
  let addr := s.regBits (lqReg vd q 0) 55 12 * 4096 + 128 * (head % count)
  let asid := s.queueAsid vd q
  let (s, r) := s.distRead asid addr 128
  let bytes := match r with
    | .data bs => bs
    | .fault _ _ => []
    | .touch _ _ _ => []
  let left := (mapGet [] s.fabricQueue (vd * 16 + q)).map fun x => (x.1 - 1, x.2)
  { s.updReg (lqReg vd q 0x18) fun w => wput w 31 0 (head + 1) with
    fabricQueue := mapSet [] s.fabricQueue (vd * 16 + q) left
    readQueue := s.readQueue ++ [(vd, ⟨asid, BitVec.ofNat 64 addr, bytes⟩, s.room vd)] }

/-- The next submission of a queue handed on: one of the fabric with nothing of the ring before it, else the ring's (R188). -/
def State.readQueueEntry (s : State) (vd q : Nat) : State :=
  match mapGet [] s.fabricQueue (vd * 16 + q) with
  | (0, sub) :: rest =>
    { s with
      fabricQueue := mapSet [] s.fabricQueue (vd * 16 + q) rest
      readQueue := s.readQueue ++ [(vd, { sub with asid := s.queueAsid vd q }, s.room vd)] }
  | _ => s.readRing vd q

/-- SUBMISSION_READ: the Pass die reads from the queue whose turn it is, within a slice of the virtual device; its device queue is
read first (R299). -/
def execSubmissionRead (vd queue : Nat) (s : State) : Out :=
  if 256 ≤ vd || 16 ≤ queue then .fault .noSuchUnit
  else
    match s.queueNext vd with
    | none => .fault .notEnabled
    | some (q, left) =>
      if q != queue || !s.holdsSlice vd || !(mapGet [] s.deviceQueues vd).isEmpty then .fault .notEnabled
      else
        let s := s.readQueueEntry vd q
        if s.distStall then .fault .notEnabled else .next { s with queueTurn := mapSet 0 s.queueTurn vd ((q + 1) * 256 + (left - 1)) }

/-! ## The checks of a submission (R169 to R171, R176) -/

/-- A little-endian field of bytes. -/
def fieldAt (b : List Byte) (off n : Nat) : Nat := leNat ((b.drop off).take n)

/-- Bytes read by the distributor, cut at pages. -/
def State.distSpan (s : State) (asid : Nat) : Nat → Nat → Nat → State × Option (List Byte)
  | 0, _, _ => (s, some [])
  | f + 1, va, n =>
    if n = 0 then (s, some [])
    else
      let k := min n (65536 - va % 65536)
      match s.distRead asid va k with
      | (s, .data bs) =>
        match s.distSpan asid f ((va + k) % 2 ^ 64) (n - k) with
        | (s, some more) => (s, some (bs ++ more))
        | r => r
      | (s, _) => (s, none)

/-- `n` bytes at an address. -/
def State.distBytes (s : State) (asid va n : Nat) : State × Option (List Byte) := s.distSpan asid (n / 65536 + 2) va n

/-- The checks on a submission of itself: is it malformed (R169)? -/
def submissionBad (b : List Byte) : Bool :=
  let f := fieldAt b
  f 0 8 / 4 != 0 ||
  match f 0 1 % 4 with
  | 0 => f 8 8 % 64 != 0 || f 0x10 8 / 2 ^ 44 != 0 || f 0x20 32 != 0
  | 1 => f 8 8 % 64 != 0 || f 0x10 2 = 0 || f 0x12 6 != 0 || f 0x20 96 != 0
  | 2 => bitsOf (f 8 8) 15 12 != 0 || bitsOf (f 8 8) 63 28 != 0 || f 0x10 48 != 0
  | _ => true

/-- X, Y, Z and the stage count of a GRID word (R169). -/
def gridOf (w : Nat) : Nat × Nat × Nat × Nat := (bitsOf w 15 0 + 1, bitsOf w 31 16 + 1, bitsOf w 39 32 + 1, bitsOf w 43 40 + 1)

/-- A kernel descriptor (R170). -/
def kernelAt (b : List Byte) : Kernel :=
  kernelOf (BitVec.ofNat 64 (fieldAt b 0 8)) (BitVec.ofNat 64 (fieldAt b 8 8)) (fieldAt b 0x10 2) (fieldAt b 0x14 4)
    (fieldAt b 0x18 4)

/-- Is a kernel descriptor malformed (R170)? -/
def kernelBad (b : List Byte) : Bool :=
  let f := fieldAt b
  f 0 1 % 2 != 0 || f 0x12 2 != 0 || f 0x14 4 / 2 ^ 20 != 0 || saveBad (f 0x18 4) || f 0x1C 36 != 0

/-- A record of a recipe table (R165). -/
def recipeAt (b : List Byte) : Recipe :=
  let f := fieldAt b
  { resume := BitVec.ofNat 64 (f 0 8), rebuild := BitVec.ofNat 64 (f 8 8), vlive := f 0x10 16, slive := f 0x20 8
    tlive := f 0x28 4, alive := f 0x2C 2, plive := f 0x2E 2 }

/-- Has a record of a recipe table a reserved bit set (R165)? -/
def recipeBad (b : List Byte) : Bool := fieldAt b 0x32 2 != 0 || fieldAt b 0x34 12 != 0

/-- The pieces of a list, `n` elements each. -/
def pieces {β : Type} (n : Nat) : Nat → List β → List (List β)
  | 0, _ => []
  | f + 1, l => if l.isEmpty then [] else l.take n :: pieces n f (l.drop n)

/-- Bytes of save rows that a virtual device has in a slice, within the window (R184). DEDUCED: log 56. -/
def Room.saves (r : Room) : Nat × Nat := (wbits r.save 8 0 * 4096, min (wbits r.save 8 0 + wbits r.save 25 16) r.count * 4096)

/-- Team slots of a partition on a wheel. -/
def Room.slots (r : Room) (w : Nat) : Nat :=
  ((List.range 16).filter fun i => wbits r.res 5 0 ≤ 16 * w + i && 16 * w + i < wbits r.res 5 0 + wbits r.res 22 16).length

/-- Could a workgroup of the kernel fit on some mill with nothing else resident (R171)? -/
def Room.fits (r : Room) (k : Kernel) : Bool :=
  let each := k.granules * 8 * k.swaths
  let teams := ((List.range 4).map fun w => min (r.slots w) (wbits r.res 60 48 / each)).sum
  r.enabled && k.teams ≤ teams && k.wpRows ≤ wbits r.grow 25 16 &&
  r.saves.1 + k.teams * areaSize (32 * k.swaths) k.maxG k.nt k.na ≤ r.saves.2 && r.mills

/-- A launch that has passed the checks of R171. -/
structure Ready where
  kernel : Kernel
  recipes : List Recipe
  gx : Nat
  gy : Nat
  gz : Nat
  stages : Nat
  ctr : Word
  args : List Word

/-- The records of a recipe table (R165), or a reason code. -/
def State.recipesOf (s : State) (asid : Nat) (k : Kernel) : State × Except Nat (List Recipe) :=
  if k.recipe = 0 then (s, .ok [])
  else
    match s.distBytes asid k.recipe.toNat (64 * k.nrecipe) with
    | (s, none) => (s, .error 2)
    | (s, some bs) =>
      let recs := pieces 64 k.nrecipe bs
      (s, if recs.any recipeBad then .error 1 else .ok (recs.map recipeAt))

/-- The checks of a launch submission of TYPE 00 (R171): the launch, or the reason code of its refusal; `room` is what there was
when the submission was read. DEDUCED: log 53. -/
def State.checkLaunch (s : State) (room : Room) (asid : Nat) (b : List Byte) : State × Except Nat Ready :=
  if submissionBad b then (s, .error 1)
  else
    let (x, y, z, n) := gridOf (fieldAt b 0x10 8)
    if 2 ^ 24 < x * y * z * n then (s, .error 3)
    else
      match s.distBytes asid (fieldAt b 8 8) 64 with
      | (s, none) => (s, .error 2)
      | (s, some kd) =>
        let k := kernelAt kd
        match s.recipesOf asid k with
        | (s, .error r) => (s, .error r)
        | (s, .ok recipes) =>
          if kernelBad kd then (s, .error 1)
          else if !room.fits k then (s, .error 4)
          else
            (s, .ok ⟨k, recipes, x, y, z, n, BitVec.ofNat 64 (fieldAt b 0x18 8),
              (List.range 8).map fun i => BitVec.ofNat 64 (fieldAt b (0x40 + 8 * i) 8)⟩)

/-! ## Acceptance (R150, R171 to R175, R238) -/

/-- The launch sequence counter of a virtual device. -/
def State.lseqOf (s : State) (vd : Nat) : Nat := mapGet 0 s.lseqs vd

/-- The counter advanced by n. -/
def State.advanceLseq (s : State) (vd n : Nat) : State := { s with lseqs := mapSet 0 s.lseqs vd ((s.lseqOf vd + n) % 65536) }

/-- A launch accepted: every coordinate is launchable at stage 0. -/
def State.acceptLaunch (s : State) (vd asid : Nat) (r : Ready) : State :=
  let s := s.advanceLseq vd 1
  let uid := s.nextId
  let total := r.gx * r.gy * r.gz
  let l : Launch :=
    { uid := uid, vd := vd, asid := asid, kernel := r.kernel, gx := r.gx, gy := r.gy, gz := r.gz, stages := r.stages
      ctr := r.ctr, args := r.args, lseq := s.lseqOf vd, left := total, node := none, recipes := r.recipes }
  { s with
    launches := s.launches ++ [l]
    launchables := s.launchables ++ (List.range total).map fun c => ⟨vd, uid, c, 0⟩
    nextId := uid + 1 }

/-- The kernel of a copy node, and of a node that is malformed: none. -/
def Kernel.blank : Kernel := ⟨0, 0, 0, 1, 1, 1, 0, 1, 0, 0⟩

/-- The fields of a node that its 64 bytes give (R173). -/
def nodeAt (b : List Byte) (lseq : Nat) : Node :=
  let f := fun off n => BitVec.ofNat 64 (fieldAt b off n)
  { copy := fieldAt b 0 1 == 1, state := .waiting, work := f 8 8, counts := f 0x10 8, armctr := f 0x18 8, copyctr := f 0x20 8
    succ := ((List.range 4).map fun i => fieldAt b (0x28 + 2 * i) 2).filter (· != 0xFFFF)
    kernel := Kernel.blank, gx := 1, gy := 1, gz := 1, stages := 1, ctr := 0, args := [], recipes := [], launch := none
    launched := [], lseq := lseq }

/-- Is a node malformed by its own bytes (R175)? -/
def nodeBad (b : List Byte) (count : Nat) : Bool :=
  let f := fieldAt b
  1 < f 0 1 || f 0x10 8 % 2 != 0 || (f 0 1 == 0 && f 0x20 8 != 0) ||
  (List.range 4).any fun i => f (0x28 + 2 * i) 2 != 0xFFFF && count ≤ f (0x28 + 2 * i) 2

/-- Can every count of a node be read (R175)? DEDUCED: log 53. DEDUCED: log 54. -/
def State.countsReadable (s : State) (asid : Nat) (nd : Node) : State × Bool :=
  match s.distBytes asid nd.counts.toNat (2 * nd.tiles) with
  | (s, some _) => (s, true)
  | (s, none) => (s, false)

/-- A launch node's WORK read and checked (R171, R175): the node with its launch, or none for a malformed one. -/
def State.decodeWork (s : State) (vd asid : Nat) (nd : Node) : State × Option Node :=
  match s.distBytes asid nd.work.toNat 128 with
  | (s, none) => (s, none)
  | (s, some w) =>
    if fieldAt w 0 1 % 4 != 0 then (s, none)
    else
      match s.checkLaunch (s.room vd) asid w with
      | (s, .error _) => (s, none)
      | (s, .ok r) =>
        (s, some { nd with
          kernel := r.kernel, gx := r.gx, gy := r.gy, gz := r.gz, stages := r.stages, ctr := r.ctr, args := r.args
          recipes := r.recipes })

/-- A node decoded when its graph is accepted (R175), and whether it is malformed. DEDUCED: log 53. DEDUCED: log 54. -/
def State.decodeNode (s : State) (vd asid count lseq : Nat) (b : List Byte) : State × Node × Bool :=
  let nd := nodeAt b lseq
  if nodeBad b count then (s, nd, true)
  else
    match if nd.copy then (s, some nd) else s.decodeWork vd asid nd with
    | (s, none) => (s, nd, true)
    | (s, some nd) =>
      let (s, ok) := s.countsReadable asid nd
      (s, nd, !ok)

/-- The nodes of a graph decoded in order. -/
def State.decodeNodes (s : State) (vd asid count : Nat) : Nat → List (List Byte) → State × List (Node × Bool)
  | _, [] => (s, [])
  | lseq, b :: bs =>
    let (s, nd) := s.decodeNode vd asid count lseq b
    let (s, more) := s.decodeNodes vd asid count (lseq + 1) bs
    (s, nd :: more)

/-- Nodes that fail at acceptance, each with its record, and what follows for their successors (R175). -/
def State.failNodes (s : State) (g : Nat) (ns : List Nat) : State × List Job :=
  ns.foldl (fun (x : State × List Job) n =>
    let (s, more) := x.1.reachNode g n .failed 1 0
    (s, x.2 ++ more)) (s, [])

/-- A graph accepted: every malformed node fails, their successors are cancelled, and every tile is examined (R175). -/
def State.acceptGraph (s : State) (vd asid : Nat) (sub : Submitted) (table : List (List Byte)) : State :=
  let first := s.lseqOf vd + 1
  let (s, nodes) := s.decodeNodes vd asid table.length first table
  let s := s.advanceLseq vd table.length
  let uid := s.nextId
  let g : Graph :=
    { uid := uid, vd := vd, asid := asid, sub := sub.addr, nodesAt := BitVec.ofNat 64 (fieldAt sub.bytes 8 8)
      ctr := BitVec.ofNat 64 (fieldAt sub.bytes 0x18 8)
      nodes := nodes.map fun n => { n.1 with lseq := n.1.lseq % 65536 }, finished := false }
  let bad := (nodes.zipIdx.filter fun n => n.1.2).map fun n => n.2
  let look := (nodes.zipIdx.filter fun n => !n.1.2).flatMap fun n =>
    (List.range n.1.1.tiles).map fun c => Job.examine uid n.2 c
  let (s, more) := { s with graphs := s.graphs ++ [g], nextId := uid + 1 }.failNodes uid bad
  s.doJobs (more ++ look ++ [Job.finish uid])

/-- A submission refused (R171). -/
def State.refuseSubmission (s : State) (vd : Nat) (sub : Submitted) (reason : Nat) : State :=
  s.post (some vd) 0x01 0 sub.addr (BitVec.ofNat 64 reason) none

/-- A graph submission checked and accepted or refused. -/
def State.submitGraph (s : State) (vd : Nat) (sub : Submitted) : State :=
  let n := fieldAt sub.bytes 0x10 2
  match s.distBytes sub.asid (fieldAt sub.bytes 8 8) (64 * n) with
  | (s, none) => s.refuseSubmission vd sub 2
  | (s, some bs) =>
    let table := pieces 64 n bs
    if table.any fun b => fieldAt b 2 6 != 0 || fieldAt b 0x30 16 != 0 then s.refuseSubmission vd sub 1
    else s.acceptGraph vd sub.asid sub table

/-- A remote launch (R189): a packet goes to the module, or, with no route there, an event says so. -/
def State.submitRemote (s : State) (vd : Nat) (sub : Submitted) : State :=
  let dest := fieldAt sub.bytes 8 8 % 4096
  let entry := bitsOf (fieldAt sub.bytes 8 8) 27 16
  if dest == s.module || (s.anyRoute dest).isNone then
    s.post (some vd) 0x0B 0 (BitVec.ofNat 64 entry) (BitVec.ofNat 64 s.module) none
  else
    s.send1 (.launch dest entry ((List.range 8).map fun i => BitVec.ofNat 64 (fieldAt sub.bytes (0x40 + 8 * i) 8)))

/-- A submission checked, and accepted or refused. -/
def State.submit (s : State) (vd : Nat) (sub : Submitted) (room : Room) : State :=
  if sub.bytes.length != 128 then s.refuseSubmission vd sub 2
  else if submissionBad sub.bytes then s.refuseSubmission vd sub 1
  else
    match fieldAt sub.bytes 0 1 % 4 with
    | 0 =>
      match s.checkLaunch room sub.asid sub.bytes with
      | (s, .error r) => s.refuseSubmission vd sub r
      | (s, .ok r) => s.acceptLaunch vd sub.asid r
    | 1 => s.submitGraph vd sub
    | _ => s.submitRemote vd sub

/-- An event of the distributor, which waits where it met a line under rebuild (R52). -/
def State.unstalled (s : State) : Out := if s.distStall then .fault .notEnabled else .next s

/-- SUBMISSION (R171): the distributor takes the next submission read from the launch queues, or else reads the device queue, from
which none was read before it (R299). -/
def execSubmission (vd : Nat) (s : State) : Out :=
  if 256 ≤ vd then .fault .noSuchUnit
  else if !s.holdsSlice vd then .fault .notEnabled
  else
    match s.readQueue.find? fun e => e.1 == vd with
    | some e => ({ s with readQueue := s.readQueue.erase e }.submit vd e.2.1 e.2.2).unstalled
    | none =>
      match mapGet [] s.deviceQueues vd with
      | [] => .fault .notEnabled
      | sub :: rest => ({ s with deviceQueues := mapSet [] s.deviceQueues vd rest }.submit vd sub (s.room vd)).unstalled

/-! ## Fabric launches (R187 to R189) -/

/-- The launch submission that an entry of the fabric launch table and a packet make (R188); its address is not stated.
DEDUCED: log 53. DEDUCED: log 54. -/
def State.fabricSubmission (s : State) (entry : Nat) (args : List Word) (addr : Word) : Submitted :=
  { asid := 0, addr := addr
    bytes := leBytes 8 0 ++ leBytes 8 (s.reg (launchReg entry 1)).toNat ++ leBytes 8 (s.reg (launchReg entry 2)).toNat ++
      List.replicate 40 0 ++ (List.range 8).flatMap fun i => leBytes 8 (args.getD i 0).toNat }

/-- FABRIC_LAUNCH_PACKET (R188): accepted behind what the queue holds, or refused to the sender. -/
def execFabricLaunchPacket (source entry : Nat) (args : List Word) (s : State) : Out :=
  if 4096 ≤ source || 4096 ≤ entry then .fault .noSuchUnit
  else
    let w := s.reg (launchReg entry 0)
    let vd := wbits w 7 0
    let q := wbits w 11 8
    if w.getLsbD 63 && wbits w 43 32 == source && s.regBit (vdReg vd 0x070) 63 && (s.window (vd / 8)).1 then
      let (addr, s) := s.openTval
      let ahead := if s.regBit (lqReg vd q 0) 63 then s.ringHolds vd q else 0
      let l := mapGet [] s.fabricQueue (vd * 16 + q)
      let new := l ++ [(ahead, s.fabricSubmission entry args addr)]
      .next { s with fabricQueue := mapSet [] s.fabricQueue (vd * 16 + q) new }
    else .next ({ s with launchRefusals := s.launchRefusals + 1 }.send1 (.launchRefused source entry))

/-- FABRIC_LAUNCH_REFUSAL (R189): the refusal of a packet of this module reaches the virtual device that sent it. -/
def execFabricLaunchRefusal (vd entry target : Nat) (s : State) : Out :=
  if 256 ≤ vd || 4096 ≤ entry || 4096 ≤ target then .fault .noSuchUnit
  else .next (s.post (some vd) 0x0B 0 (BitVec.ofNat 64 entry) (BitVec.ofNat 64 target) none)

/-! ## Placement (R10, R147, R176, R355) -/

/-- Are rows of the window, counted from its base, workgroup rows of the partition that no workgroup holds in the slice? -/
def State.wpFree (s : State) (part mill row n : Nat) : Bool :=
  let g := s.reg (partReg part 0x010)
  n = 0 || (wbits g 8 0 ≤ row && row + n ≤ wbits g 8 0 + wbits g 25 16 &&
    !s.workgroups.any fun x => x.vd / 8 == part && x.wpRows != 0 && x.wpSlice == mill && rangesMeet row n x.wpRow x.wpRows)

/-- Do save areas of a size lie within the virtual device's save rows, apart from each other and from those of its teams?
DEDUCED: log 56. -/
def State.savesFree (s : State) (vd mill size : Nat) (saves : List Nat) : Bool :=
  let (lo, hi) := (s.room vd).saves
  saves.all (fun a => a % 64 == 0 && lo ≤ a && a + size ≤ hi) &&
  saves.zipIdx.all (fun a => saves.zipIdx.all fun b => a.2 == b.2 || !rangesMeet a.1 size b.1 size) &&
  saves.all fun a => !s.teams.any fun t =>
    !t.isVacant && t.vd == vd && t.saveSlice == mill && rangesMeet a size t.area.2.1 t.area.2.2

/-- Can a workgroup of the kernel be placed so (R176)? DEDUCED: log 56. -/
def State.placeOk (s : State) (vd : Nat) (k : Kernel) (p : Placement) : Bool :=
  let part := vd / 8
  let rows := k.granules * 8 * k.swaths
  p.mill < 512 && !s.sliceStopped p.mill && p.slots.length == k.teams && p.saves.length == k.teams &&
  s.slotsFree part p.mill p.slots && s.rowsFit part p.mill (fun w => rows * (p.slots.filter fun j => j / 16 == w).length) &&
  s.wpFree part p.mill p.wpRow k.wpRows && s.savesFree vd p.mill (areaSize (32 * k.swaths) k.maxG k.nt k.na) p.saves

/-- A workgroup to be placed: what R149 and R150 say of it. -/
structure Start where
  launch : Option Nat
  forked : Bool
  vd : Nat
  asid : Nat
  kernel : Kernel
  args : List Word
  linear : Nat
  coord : Nat
  x : Nat
  y : Nat
  z : Nat
  stage : Nat
  childCtr : Option Word
  lseq : Nat
  recipes : List Recipe

/-- Team i of a workgroup at its start (R10, R86, R125, R159, R164, R355). -/
def Start.team (w : Start) (p : Placement) (wg i : Nat) : Team :=
  let k := w.kernel
  let j := p.slots.getD i 0
  let save := p.saves.getD i 0
  { Team.vacant with
    uid := wg + 1 + i, status := .ready, vd := w.vd, asid := w.asid, mill := p.mill, wheel := j / 16, slot := j % 16, wg := wg
    tindex := i, lseq := w.lseq, lanes := 32 * k.swaths, regs := 8 * k.granules, pc := k.entry
    uregs := mapSetMany 0 [] (w.args.zipIdx.map fun a => (a.2, a.1))
    mask := allLanes (32 * k.swaths), frame := p.mill * 2 ^ 21 + save, point := ⟨k.entry, 1, 5, 0, 0⟩
    maxG := k.maxG, maxT := k.nt, maxA := k.na, saveSlice := p.mill, saveOff := save }

/-- The workgroup placed: its teams are READY, and its launch acquires at device scope (R114). -/
def State.startWorkgroup (s : State) (w : Start) (p : Placement) : State :=
  let k := w.kernel
  let uid := s.nextId
  let g : Workgroup :=
    { uid := uid, launch := w.launch, forked := w.forked, vd := w.vd, asid := w.asid, mill := p.mill, nteam := k.teams
      linear := w.linear, coord := w.coord, x := w.x, y := w.y, z := w.z, stage := w.stage
      wpBase := if k.wpRows = 0 then 0 else p.mill * 2 ^ 21 + p.wpRow * 4096, wpRows := k.wpRows, wpRow := p.wpRow
      barGen := 0, barCount := 0, barReqs := [], readyFlag := false, donations := [], arrivals := [], childCtr := w.childCtr, lseq := w.lseq
      recipes := w.recipes }
  { s with
    workgroups := s.workgroups ++ [g]
    rest := s.rest ++ (List.range k.teams).map (w.team p uid)
    nextId := uid + 1 + k.teams }.dropLaneCache p.mill

/-- What a launchable workgroup of a launch starts as (R149, R173). -/
def Launch.start (l : Launch) (c stage : Nat) : Start :=
  { launch := some l.uid, forked := false, vd := l.vd, asid := l.asid, kernel := l.kernel, args := l.args
    linear := stage * (l.gx * l.gy * l.gz) + c, coord := c, x := c % l.gx, y := c / l.gx % l.gy, z := c / l.gx / l.gy, stage := stage, childCtr := none, lseq := l.lseq
    recipes := l.recipes }

/-- WORKGROUP_PLACE (R176, R177): the virtual device's first launchable workgroup is placed. -/
def execWorkgroupPlace (vd : Nat) (place : Placement) (s : State) : Out :=
  if 256 ≤ vd then .fault .noSuchUnit
  else
    match s.launchables.find? fun l => l.vd == vd with
    | none => .fault .notEnabled
    | some x =>
      match s.launchOf x.launch with
      | none => .fault .notEnabled
      | some l =>
        if !s.holdsSlice vd || (s.liveDeque place.mill).any (fun c => c.vd / 8 == vd / 8) ||
            !s.placeOk vd l.kernel place then .fault .notEnabled
        else .next ({ s with launchables := s.launchables.erase x }.startWorkgroup (l.start x.coord x.stage) place)

/-! ## Deques (R156, R158) -/

/-- What an entry of a deque starts as: a forked workgroup with its parent's coordinates (R149, R155, R156). -/
def Child.start (c : Child) : Start :=
  { launch := none, forked := true, vd := c.vd, asid := c.asid, kernel := c.kernel, args := c.args, linear := c.linear
    coord := c.linear, x := c.x, y := c.y, z := c.z, stage := c.stage, childCtr := some c.ctr, lseq := c.lseq, recipes := [] }

/-- DEQUE_START: a mill starts the entry at the head of its deque. -/
def execDequeStart (mill : Nat) (place : Placement) (s : State) : Out :=
  if 512 ≤ mill then .fault .noSuchUnit
  else
    match s.liveDeque mill with
    | [] => .fault .notEnabled
    | c :: _ =>
      if place.mill != mill || !s.holdsSlice c.vd || !s.placeOk c.vd c.kernel place then .fault .notEnabled
      else
        let s := { s with deques := mapSet [] s.deques mill ((s.deque mill).erase c) }
        .next (s.startWorkgroup c.start place)

/-- Are two mills neighbours in the mesh of one die (R2)? -/
def meshNeighbours (a b : Nat) : Bool :=
  let row := fun (m : Nat) => m % 128 / 16
  let col := fun (m : Nat) => m % 16
  a / 128 == b / 128 &&
  ((row a == row b && (col a + 1 == col b || col b + 1 == col a)) ||
    (col a == col b && (row a + 1 == row b || row b + 1 == row a)))

/-- The list without the last element equal to one. -/
def eraseLast {β : Type} [DecidableEq β] (l : List β) (x : β) : List β := (l.reverse.erase x).reverse

/-- DEQUE_STEAL (R158): a mill takes the entry at the tail of a neighbour's deque, which then stands at the tail of its own; a full deque
of the thief takes none. DESIGN CHOICE: log 119. -/
def execDequeSteal (thief owner : Nat) (s : State) : Out :=
  if 512 ≤ thief || 512 ≤ owner then .fault .noSuchUnit
  else
    match (s.liveDeque owner).getLast? with
    | none => .fault .notEnabled
    | some c =>
      if !meshNeighbours thief owner || s.sliceStopped thief || !s.holdsSlice c.vd || !(s.room c.vd).fits c.kernel ||
          (s.liveDeque thief).any (fun x => x.vd / 8 == c.vd / 8) || 64 ≤ (s.liveDeque thief).length then .fault .notEnabled
      else
        let s := { s with deques := mapSet [] s.deques owner (eraseLast (s.deque owner) c) }
        .next { s with deques := mapSet [] s.deques thief (s.deque thief ++ [c]) }

end Sys2Proof.Machine
end

