-- ==== Sys2Proof/Machine/Migration.lean ====
section
/-! DEFINITION. The fault unit's migrations: migrate-on-touch (R55), optimistic migration (R56), the clean-copy table (R57) and the
migration rings (R372). -/

namespace Sys2Proof.Machine

/-- Is a line of the page or of its new frame, or the line of its leaf, under rebuild, which the fault unit awaits (R52)? -/
def State.pageStalls (s : State) (m : Migration) : Bool :=
  s.stalls false m.leafAt || s.rebuilding.any fun l =>
    (!m.capacity && m.oldFrame ≤ l.1 && l.1 < m.oldFrame + 65536) || (m.newFrame ≤ l.1 && l.1 < m.newFrame + 65536)

/-- Key absent set in the walker report when an access found its key so (R46). -/
def State.noteAbsent (s : State) (vd line key : Nat) (st : ReadStatus) : State :=
  if st == .keyAbsent then s.postKeyAbsent vd line key else s

/-- A 64-byte line of a page copied: decrypted where it lies and encrypted under the new frame with the same key; poison is copied
(R53, R55). Its read and its write each set key absent when the key is (R46). -/
def State.copyLine (s : State) (m : Migration) (off : Nat) : State :=
  let (bs, st) := s.memRead m.capacity (m.oldFrame + off) m.key false 64
  let s := s.noteAbsent m.vd (m.oldFrame + off) m.key st
  let to' := m.newFrame + off
  let (s, st) := if st == .poisoned then s.memPoison false to' m.key false else s.memWrite false to' m.key false bs
  s.noteAbsent m.vd to' m.key st

/-- A page of 64 KiB copied. DEDUCED: log 49. -/
def State.copyPage (s : State) (m : Migration) : State :=
  (List.range 1024).foldl (fun (s : State) (i : Nat) => s.copyLine m (64 * i)) s

/-- A frame put back in the ring: FCONS goes back by one, and the frame stands there (R55, R56). DEDUCED: log 49. -/
def State.returnFrame (s : State) (vd frame : Nat) : State :=
  let ring := s.reg (vdReg vd 0x0E8)
  let idx := s.reg (vdReg vd 0x0F8)
  let cons := (wbits idx 47 32 + 65535) % 65536
  (s.hostStore (wbits ring 51 12 * 4096 + 8 * (cons % max 1 (wbits ring 11 0))) (leBytes 8 frame)).setReg (vdReg vd 0x0F8)
    (wput idx 47 32 cons)

/-- Every access parked on a migration issues again (R55). -/
def State.resumeMigration (s : State) (id : Nat) : State :=
  s.mapTeams fun t => if t.status == .parked (.migration id) then { t with status := t.onward, age := 0 } else t

/-- A page entered in the clean-copy table; the oldest entry leaves a full one (R57). -/
def State.enterClean (s : State) (m : Migration) : State :=
  let l := s.cleanCopies.filter (fun c => c.1 != m.newFrame) ++ [(m.newFrame, m.oldFrame)]
  { s with cleanCopies := if 16384 < l.length then l.drop 1 else l }

/-- The host frees a capacity page: clean copies of it are no more (R57). DEDUCED: log 105. -/
def State.freeCapacity (s : State) (page : Nat) : State :=
  { s with cleanCopies := s.cleanCopies.filter fun c => c.2 / 65536 != page / 65536 }

/-- The record of a migration gone. -/
def State.dropMigration (s : State) (id : Nat) : State := { s with migrations := dropBy Migration.id s.migrations id }

/-- The record of a migration changed. -/
def State.updMigration (s : State) (id : Nat) (f : Migration → Migration) : State :=
  { s with migrations := updateBy Migration.id s.migrations id f }

/-- Word 0 of a leaf with bit i set to b. -/
def leafBit (w i : Nat) (b : Bool) : Nat := w - (if bitOf w i then 2 ^ i else 0) + (if b then 2 ^ i else 0)

/-- Word 0 of a leaf that maps a Basin frame (R25). -/
def basinLeaf (w frame : Nat) : Nat := w - bitsOf w 51 16 * 65536 - bitsOf w 7 5 * 32 + frame

/-- The old translation of a migrating page leaves every TLB, with drain before acknowledge (R72); claims that pin the page are
revoked first, with cause migration (R56, R87). -/
def State.invalidatePage (s : State) (m : Migration) : State :=
  (s.revokePins (fun e => e.covers m.asid m.page) 2).invalidate (.migration m.id) (.page m.asid m.page) 0

/-- The migration of that identity in that state. -/
def State.migrationIn (s : State) (id : Nat) (touch : Bool) (st : MigState) : Option Migration :=
  (findBy Migration.id s.migrations id).filter fun m => m.onTouch == touch && m.state == st

/-- Word 0 but for A and D: a walk that sets them does not change the leaf under a copy. DEDUCED: log 49. -/
def sameLeaf (a b : Nat) : Bool := leafBit (leafBit a 10 false) 11 false == leafBit (leafBit b 10 false) 11 false

/-! ## Migrate-on-touch (R55) -/

/-- MIGRATE_ON_TOUCH_COPY_DONE: the copy ends and word 0 is swapped, or the leaf has changed under it (DEDUCED: log 49). Claims that pin
the page are revoked in this clock. DESIGN CHOICE: log 133. -/
def execMigrateOnTouchCopyDone (migration : Nat) (s : State) : Out :=
  match s.migrationIn migration true .copying with
  | none => .fault .notEnabled
  | some m =>
    if s.pageStalls m then .fault .notEnabled
    else
    let w := s.tableWord m.leafAt
    if !sameLeaf w m.word0 then
      .next (((s.returnFrame m.vd m.newFrame).dropMigration m.id).resumeMigration m.id)
    else
      let new := leafBit (leafBit (leafBit (basinLeaf w m.newFrame) 13 false) 10 true) 11 false
      .next ((((s.copyPage m).setTableWord m.leafAt new).updMigration m.id fun m =>
        { m with state := .switching }).invalidatePage m)

/-- MIGRATE_ON_TOUCH_INVAL_ACK: the invalidation is acknowledged; the page is a clean copy, and parked accesses issue again. -/
def execMigrateOnTouchInvalAck (migration : Nat) (s : State) : Out :=
  match s.migrationIn migration true .switching, s.drainedFor (.migration migration) with
  | some m, some v => .next ((((s.acknowledge v).enterClean m).dropMigration m.id).resumeMigration m.id)
  | _, _ => .fault .notEnabled

/-! ## Optimistic migration (R56) -/

/-- The report of a migration: done, abandoned or refused busy, with its attempts (R371); the report code of an abandoned one is 0x0C
(R63). DEDUCED: log 49. -/
def State.reportMigration (s : State) (vd type page attempts : Nat) : State :=
  s.post (some vd) type (if type = 0x08 then 0x0C else 0) (BitVec.ofNat 64 page) (BitVec.ofNat 64 attempts) none

/-- Does the walk to the leaf of a page meet a line under rebuild (R52)? -/
def State.moveStalls (s : State) (vd asid page : Nat) : Bool :=
  s.asidVd asid == some vd && match s.walkDown page 3 (s.regBits (rootReg asid) 51 17 * 2 ^ 17) with
    | .error (code, _) => code == stallCode
    | .ok _ => false

/-- Where the 64 KiB leaf of a page lies and its word 0, if it is one that can be migrated: valid, of class Basin or Capacity, and
not marked migrate-on-touch. -/
def State.movable (s : State) (vd asid page : Nat) : Option (Nat × Nat × Nat) :=
  if s.asidVd asid != some vd then none
  else
    match s.walkDown page 3 (s.regBits (rootReg asid) 51 17 * 2 ^ 17) with
    | .error _ => none
    | .ok (lvl, a, w0, w1) =>
      if lvl = 0 && !s.malformed lvl w0 w1 && bitOf w0 0 && !bitOf w0 13 && bitsOf w0 7 5 < 2 then
        some (a, w0, bitsOf w1 15 0)
      else none

/-- The copy of a page begins, or begins again: MIG = 1 and D = 0, and the old translation leaves the TLBs. -/
def State.beginCopy (s : State) (m : Migration) : State :=
  let w := leafBit (leafBit (s.tableWord m.leafAt) 14 true) 11 false
  let m := { m with word0 := w, marked := false, state := .copying }
  ((s.setTableWord m.leafAt w).updMigration m.id fun _ => m).invalidatePage m

/-- A command taken (R56, R372). DEDUCED: log 49. -/
def State.startMigration (s : State) (vd asid page : Nat) : State :=
  let open' := s.migrations.filter fun m => !m.onTouch
  if 4096 ≤ open'.length || s.migrations.any (fun m => m.asid == asid && m.page == page) then
    s.reportMigration vd 0x09 page 0
  else
    match s.movable vd asid page with
    | none => s.reportMigration vd 0x08 page 0
    | some (a, w0, key) =>
      match State.takeFrame vd 65536 s with
      | (s, none) => s.reportMigration vd 0x09 page 0
      | (s, some frame) =>
        let m : Migration :=
          { id := s.nextId, vd := vd, asid := asid, page := page, onTouch := false, state := .copying, attempts := 1
            leafAt := a, word0 := w0, oldFrame := bitsOf w0 51 16 * 65536, capacity := bitsOf w0 7 5 == 1, key := key
            newFrame := frame, marked := false }
        { s with migrations := s.migrations ++ [m], nextId := s.nextId + 1 }.beginCopy m

/-- MIGRATION_COMMAND: the fault unit takes the next command of the ring, once no line that its walk reads is under rebuild (R52). -/
def execMigrationCommand (vd : Nat) (s : State) : Out :=
  if 256 ≤ vd then .fault .noSuchUnit
  else
    let ring := s.reg (vdReg vd 0x0F0)
    let idx := s.reg (vdReg vd 0x0F8)
    let cons := wbits idx 15 0
    if !ring.getLsbD 63 || cons == wbits idx 31 16 then .fault .notEnabled
    else
      let e := leNat (s.hostRead (wbits ring 51 12 * 4096 + 16 * (cons % max 1 (wbits ring 11 0))) 8)
      if s.moveStalls vd (bitsOf e 11 0) (bitsOf e 55 16 * 65536) then .fault .notEnabled
      else
        let s := s.setReg (vdReg vd 0x0F8) (wput idx 15 0 (cons + 1))
        .next (s.startMigration vd (bitsOf e 11 0) (bitsOf e 55 16 * 65536))

/-- The page has been written under the copy: it is copied again, or after one copy and three retries abandoned. -/
def State.retryMigration (s : State) (m : Migration) : State :=
  if m.attempts < 4 then s.beginCopy { m with attempts := m.attempts + 1 }
  else
    let s := s.setTableWord m.leafAt (leafBit (s.tableWord m.leafAt) 14 false)
    ((s.returnFrame m.vd m.newFrame).dropMigration m.id).reportMigration m.vd 0x08 m.page m.attempts

/-- OPT_MIGRATION_COPY_DONE: the copy ends, and the dirty filter decides. -/
def execOptMigrationCopyDone (migration : Nat) (s : State) : Out :=
  match s.migrationIn migration false .copying, s.drainedFor (.migration migration) with
  | some m, some v =>
    if s.pageStalls m then .fault .notEnabled
    else
    let s := s.acknowledge v
    if m.marked then .next (s.retryMigration m)
    else .next ((s.copyPage m).updMigration m.id fun m => { m with state := .switching })
  | _, _ => .fault .notEnabled

/-- OPT_MIGRATION_SWAP_DONE: the swap to the new frame succeeds, or fails because D was set; a leaf changed otherwise abandons. -/
def execOptMigrationSwapDone (migration : Nat) (s : State) : Out :=
  match s.migrationIn migration false .switching with
  | none => .fault .notEnabled
  | some m =>
    let w := s.tableWord m.leafAt
    if s.pageStalls m then .fault .notEnabled
    else if !sameLeaf w m.word0 then
      .next (((s.returnFrame m.vd m.newFrame).dropMigration m.id).reportMigration m.vd 0x08 m.page m.attempts)
    else if m.marked || bitOf w 11 then .next (s.retryMigration m)
    else
      let new := leafBit (basinLeaf w m.newFrame) 14 false
      .next (((s.setTableWord m.leafAt new).updMigration m.id fun m => { m with state := .draining }).invalidatePage m)

/-- OPT_MIGRATION_DRAIN_ACK: the invalidation is acknowledged, and the migration reported done. -/
def execOptMigrationDrainAck (migration : Nat) (s : State) : Out :=
  match s.migrationIn migration false .draining, s.drainedFor (.migration migration) with
  | some m, some v =>
    let s := s.acknowledge v
    let s := if m.capacity then s.enterClean m else s
    .next ((s.dropMigration m.id).reportMigration m.vd 0x07 m.page m.attempts)
  | _, _ => .fault .notEnabled

end Sys2Proof.Machine
end

