-- ==== Sys2Proof/Machine/Boot.lean ====
section
/-! DEFINITION. The start of the module (R380, R381), firmware updates (R382) and attestation (R383). -/

namespace Sys2Proof.Machine

/-! ## The start (R380, R381) -/

/-- BOOTREC. -/
def bootrec : Nat := 0x000000
/-- BOOTCMD. -/
def bootcmdReg : Nat := 0x000008
/-- ATTCMD. -/
def attcmdReg : Nat := 0x000010
/-- FWCMD. -/
def fwcmdReg : Nat := 0x000018

/-- Do all mills of some die fail? -/
def dieFails (mills : List Nat) : Bool :=
  (List.range 4).any fun d => (List.range 128).all fun i => mills.contains (128 * d + i)

/-- Does a stage pass (R381)? -/
def stagePasses (r : StartReport) (stage : Nat) : Bool :=
  match stage with
  | 1 => r.images
  | 2 => r.linkOk
  | 3 => r.ucie
  | 4 => (List.range 8).any fun k => !r.stacksFailed.contains k
  | 5 => !dieFails r.millsFailed
  | 6 => r.passOk
  | 7 => r.noiseOk
  | _ => true

/-- The first stage that fails. -/
def firstFailure (r : StartReport) : Option Nat := ((List.range 8).map (· + 1)).find? fun k => !stagePasses r k

/-- The module reset: what lies outside it stays, and so do the failed starts that BOOTREC counts, unless power was lost, the images,
the time, and the model's own counters. A stored update takes effect (R380, R382). DESIGN CHOICE: log 19. DEDUCED: log 58. -/
def State.restart (s : State) (powerLost : Bool) : State :=
  { State.reset with
    regs := (State.reset.setReg bootrec (if powerLost then 0 else writeFields 0 (s.reg bootrec) [(57, 56), (15, 8)])).regs
    imageVersion := s.storedUpdate.getD s.imageVersion
    imageGen := s.imageGen + (if s.storedUpdate.isSome then 1 else 0)
    updatedImages := s.storedImages ++ s.updatedImages
    module := s.module
    hostMem := s.hostMem
    hostPoison := s.hostPoison
    hostSeal := s.hostSeal
    materials := s.materials
    nextMaterial := s.nextMaterial
    outbox := s.outbox
    time := s.time
    agenda := s.agenda
    draws := s.draws
    nextId := s.nextId
    steps := s.steps }

/-- Stage 2: the width and speed of the host link. DEDUCED: log 58. -/
def State.linkTrained (s : State) (r : StartReport) : State :=
  s.updReg bootrec fun w => wput (wput w 39 36 r.width) 35 32 r.speed

/-- Units that fail are stopped and reported. DEDUCED: log 58. -/
def State.stopUnits (s : State) (kind : Nat) (units : List Nat) : State :=
  units.foldl (fun (s : State) (i : Nat) => match s.stopUnit kind i with
    | some s => s.reportStop kind i
    | none => s) s

/-- Stage 7: key 0 is 512 bits of noise (R44). -/
def State.makeKey0 (s : State) : State :=
  let (xs, s) := s.drawMany 16
  let key := BitVec.ofNat 512 (leNat (xs.flatMap fun x => leBytes 4 x.toNat))
  { s with
    materials := mapSet 0 s.materials s.nextMaterial key
    keyMaterial := mapSet 0 s.keyMaterial 0 s.nextMaterial
    nextMaterial := s.nextMaterial + 1 }

/-- Stage 8: an enabled port trains, and its state changes, or it stays down and is reported (R371). -/
def State.trainPort (s : State) (r : StartReport) (port : Nat) : State :=
  if !s.regBit (fportReg port) 63 then s
  else if r.portsUp.contains port then (s.updReg (fportReg port) fun w => wput w 62 62 1).postPort port
  else s.reportStop 3 port

/-- What the stages leave of which the first `n` passed: units that fail are stopped and reported even in the stage that fails. -/
def State.runStages (s : State) (r : StartReport) (n : Nat) : State :=
  let at' := fun (k : Nat) (f : State → State) (s : State) => if k ≤ n then f s else s
  let s := at' 2 (fun s => s.linkTrained r) s
  let s := at' 3 (fun s => s.stopUnits 2 ((List.range 8).filter r.stacksFailed.contains)) s
  let s := at' 4 (fun s => s.stopUnits 1 ((List.range 512).filter r.millsFailed.contains)) s
  let s := at' 7 State.makeKey0 s
  let s := at' 8 (fun s => (List.range 16).foldl (fun s p => s.trainPort r p) s) s
  s.updReg bootrec fun w => wput w 7 0 n

/-- One run of the stages: READY, or a failed start, which counts, and is the last when two have failed before. -/
def State.start (s : State) (r : StartReport) : State :=
  let s := s.restart r.powerLost
  match firstFailure r with
  | none =>
    let s := s.runStages r 8
    { s.updReg bootrec fun w => wput (wput w 57 56 0) 62 62 1 with boot := .ready }
  | some k =>
    let n := s.regBits bootrec 57 56
    let s := s.runStages r (k - 1)
    if n < 2 then { s.updReg bootrec fun w => wput (wput w 57 56 (n + 1)) 15 8 k with boot := .starting }
    else { s.updReg bootrec fun w => wput (wput (wput w 57 56 3) 15 8 k) 63 63 1 with boot := .minimal }

/-- MODULE_START: power or a reset, or the next run after a failed start. DEDUCED: log 58. -/
def execModuleStart (report : StartReport) (s : State) : Out := .next (s.start report)

/-- BOOTCMD_RETRY: a write of `BOOTCMD` with RETRY, which only minimal mode heeds. -/
def execBootcmdRetry (report : StartReport) (s : State) : Out :=
  if s.boot == .minimal then .next ((s.updReg bootrec fun w => wput (wput w 57 56 0) 63 63 0).start report) else .next s

/-! ## Attestation (R383) -/

/-- The host physical address that a command word gives, 4 KiB aligned. DEDUCED: log 59. -/
def commandAddr (w : Word) : Nat := wbits w 51 12 * 4096

/-- A write of `ATTCMD`; ignored while a report is being made. DEDUCED: log 59. -/
def State.writeAttcmd (s : State) (w : Word) : State :=
  if s.attesting then s else { s.setReg attcmdReg (BitVec.ofNat 64 (commandAddr w)) with attesting := true }

/-- ATTCMD_WRITE. -/
def execAttcmdWrite (value : Word) (s : State) : Out := .next (s.writeAttcmd value)

/-- The bytes of a part of BAR 0 as the host reads them. -/
def State.barBytes (s : State) (off n : Nat) : List Byte :=
  (List.range (n / 8)).flatMap fun i => leBytes 8 (s.barRead (off + 8 * i)).toNat

/-- The SHA-256 digest of firmware image `i`: of the update that last replaced it, or the one the module came with (R383). -/
def State.digestOf (s : State) (i : Nat) : BitVec 256 :=
  ((s.imageRecord i).map (·.digest)).getD (Config.imageDigest i)

/-- The report: the nonce, the images' digests, the partition table's, and those of a virtual device and its partition.
DEDUCED: log 59. -/
def State.attestation (s : State) (nonce : List Byte) (vd : Nat) : List Byte :=
  nonce ++ ((List.range imageCount).flatMap fun i => leBytes 32 (s.digestOf i).toNat) ++
  sha256 (s.barBytes (partReg 0 0) 0x20000) ++
  (if vd = 0xFF then []
   else sha256 (s.barBytes (vdReg vd 0) 0x1000) ++ sha256 (s.barBytes (partReg (vd / 8) 0) 0x1000))

/-- The signature of a report under the identity key; it begins with 32 bytes that the signer draws (R383). PRESUMED: log 122. -/
def State.signReport (s : State) (random report : List Byte) : List Byte :=
  slhSign (identitySecret s.imageGen) (identitySeed s.imageGen) random report

/-- ATTESTATION_COMPLETE: the report and its signature, for which 32 bytes have been drawn, are written, and TYPE 0x26 is posted with a
status that the spec does not state. -/
def execAttestationComplete (random : List Byte) (s : State) : Out :=
  if !s.attesting || random.length != 32 then .fault .notEnabled
  else
    let buffer := (s.reg attcmdReg).toNat
    let given := s.hostRead buffer 33
    let report := s.attestation (given.take 32) (leNat (given.drop 32))
    let s := { s.hostStore (buffer + 64) (report ++ s.signReport random report) with attesting := false }
    let (status, s) := s.openTval
    .next (s.post none 0x26 0 (BitVec.ofNat 64 buffer) status none)

/-! ## Firmware updates (R382) -/

/-- A write of `FWCMD`. DEDUCED: log 59. -/
def State.writeFwcmd (s : State) (w : Word) : State :=
  { s.setReg fwcmdReg (BitVec.ofNat 64 (commandAddr w)) with updating := true }

/-- FWCMD_WRITE. -/
def execFwcmdWrite (value : Word) (s : State) : Out := .next (s.writeFwcmd value)

/-- The highest security version accepted: of the images in effect, each of which was accepted when it came or at a start, and of the
updates (R381, R382). DEDUCED: log 59. -/
def State.highestVersion (s : State) : Nat :=
  (List.range imageCount).foldl (fun v i => max v (s.imageSecurityOf i)) (max s.imageVersion (s.storedUpdate.getD 0))

/-- What is kept of an image that is accepted (R382 to R384). DESIGN CHOICE: log 106. -/
def recordOf (image : List Byte) : ImageRecord :=
  { image := Config.imageIndex image % imageCount
    digest := BitVec.ofNat 256 (leNat (sha256 image))
    security := Config.imageSecurity image
    version := Config.imageNumber image }

/-- Does the SLH-DSA-SHA2-256s signature of 29,792 bytes that stands at a byte of an image hold for the rest of it (R382)?
DESIGN CHOICE: log 106, what the signature covers. PRESUMED: log 122, the algorithm. -/
def imageHolds (image : List Byte) (at' : Nat) : Bool :=
  at' + 29792 ≤ image.length &&
    slhVerify (leBytes 64 (Config.imageKey image).toNat) (image.take at' ++ image.drop (at' + 29792)) ((image.drop at').take 29792)

/-- Is an image accepted (R382): the digest of its key is fused, its signature holds, and its version is not lower than the highest
accepted? DESIGN CHOICE: log 106. -/
def State.acceptsImage (s : State) (image : List Byte) (at' : Nat) : Bool :=
  Config.fused (sha256 (leBytes 64 (Config.imageKey image).toNat)) && imageHolds image at' &&
    s.highestVersion ≤ (Config.imageSecurity image).toNat

/-- FIRMWARE_UPDATE_COMPLETE: the image of `length` bytes, whose signature stands at byte `signature`, is read from host memory and
stored if it is accepted; the result is posted as TYPE 0x27 with a status that the spec does not state. -/
def execFirmwareUpdateComplete (length signature : Nat) (s : State) : Out :=
  if !s.updating then .fault .notEnabled
  else
    let image := s.hostRead (s.reg fwcmdReg).toNat length
    let s :=
      if s.acceptsImage image signature then
        { s with
          storedUpdate := some (Config.imageSecurity image).toNat
          storedImages := recordOf image :: s.storedImages }
      else s
    let s := { s with updating := false }
    let (status, s) := s.openTval
    .next (s.post none 0x27 0 (s.reg fwcmdReg) status none)

end Sys2Proof.Machine
end

