-- ==== Sys2Proof/Machine/Compact.lean ====
section
/-! DEFINITION. The compact instructions (R217). -/

namespace Sys2Proof.Machine

/-- vmovC (R217): its 32-bit equivalent with d = a = vd and b = vs. -/
def execVmovC (d b : BitVec 5) : State → Out :=
  execCapturable (.vmovC d b) false 0 (.lane .or d.toNat [.v b.toNat, .v b.toNat])

/-- vaddC (R217): its 32-bit equivalent with d = a = vd and b = vs. -/
def execVaddC (d b : BitVec 5) : State → Out :=
  execCapturable (.vaddC d b) false 0 (.lane (.add .w32) d.toNat [.v d.toNat, .v b.toNat])

/-- vsubC (R217): its 32-bit equivalent with d = a = vd and b = vs. -/
def execVsubC (d b : BitVec 5) : State → Out :=
  execCapturable (.vsubC d b) false 0 (.lane (.sub .w32) d.toNat [.v d.toNat, .v b.toNat])

/-- vmulC (R217): its 32-bit equivalent with d = a = vd and b = vs. -/
def execVmulC (d b : BitVec 5) : State → Out :=
  execCapturable (.vmulC d b) false 0 (.lane .mul d.toNat [.v d.toNat, .v b.toNat])

/-- vandC (R217): its 32-bit equivalent with d = a = vd and b = vs. -/
def execVandC (d b : BitVec 5) : State → Out :=
  execCapturable (.vandC d b) false 0 (.lane .and d.toNat [.v d.toNat, .v b.toNat])

/-- vorC (R217): its 32-bit equivalent with d = a = vd and b = vs. -/
def execVorC (d b : BitVec 5) : State → Out :=
  execCapturable (.vorC d b) false 0 (.lane .or d.toNat [.v d.toNat, .v b.toNat])

/-- vxorC (R217): its 32-bit equivalent with d = a = vd and b = vs. -/
def execVxorC (d b : BitVec 5) : State → Out :=
  execCapturable (.vxorC d b) false 0 (.lane .xor d.toNat [.v d.toNat, .v b.toNat])

/-- vshlC (R217): its 32-bit equivalent with d = a = vd and b = vs. -/
def execVshlC (d b : BitVec 5) : State → Out :=
  execCapturable (.vshlC d b) false 0 (.lane .shl d.toNat [.v d.toNat, .v b.toNat])

/-- vshrC (R217): its 32-bit equivalent with d = a = vd and b = vs. -/
def execVshrC (d b : BitVec 5) : State → Out :=
  execCapturable (.vshrC d b) false 0 (.lane .shr d.toNat [.v d.toNat, .v b.toNat])

/-- vshrAC (R217): its 32-bit equivalent with d = a = vd and b = vs. -/
def execVshrAC (d b : BitVec 5) : State → Out :=
  execCapturable (.vshrAC d b) false 0 (.lane .sar d.toNat [.v d.toNat, .v b.toNat])

/-- faddC (R217): its 32-bit equivalent with d = a = vd and b = vs. -/
def execFaddC (d b : BitVec 5) : State → Out :=
  execCapturable (.faddC d b) false 0 (.lane .fadd d.toNat [.v d.toNat, .v b.toNat])

/-- hadd2Bf16C (R217): its 32-bit equivalent with d = a = vd and b = vs. -/
def execHadd2Bf16C (d b : BitVec 5) : State → Out :=
  execCapturable (.hadd2Bf16C d b) false 0 (.lane (.hadd .bf16) d.toNat [.v d.toNat, .v b.toNat])

/-- fsubC (R217): its 32-bit equivalent with d = a = vd and b = vs. -/
def execFsubC (d b : BitVec 5) : State → Out :=
  execCapturable (.fsubC d b) false 0 (.lane .fsub d.toNat [.v d.toNat, .v b.toNat])

/-- hsub2Bf16C (R217): its 32-bit equivalent with d = a = vd and b = vs. -/
def execHsub2Bf16C (d b : BitVec 5) : State → Out :=
  execCapturable (.hsub2Bf16C d b) false 0 (.lane (.hsub .bf16) d.toNat [.v d.toNat, .v b.toNat])

/-- fmulC (R217): its 32-bit equivalent with d = a = vd and b = vs. -/
def execFmulC (d b : BitVec 5) : State → Out :=
  execCapturable (.fmulC d b) false 0 (.lane .fmul d.toNat [.v d.toNat, .v b.toNat])

/-- hmul2Bf16C (R217): its 32-bit equivalent with d = a = vd and b = vs. -/
def execHmul2Bf16C (d b : BitVec 5) : State → Out :=
  execCapturable (.hmul2Bf16C d b) false 0 (.lane (.hmul .bf16) d.toNat [.v d.toNat, .v b.toNat])

/-- vminC (R217): its 32-bit equivalent with d = a = vd and b = vs. -/
def execVminC (d b : BitVec 5) : State → Out :=
  execCapturable (.vminC d b) false 0 (.lane (.min .w32 false) d.toNat [.v d.toNat, .v b.toNat])

/-- vminUC (R217): its 32-bit equivalent with d = a = vd and b = vs. -/
def execVminUC (d b : BitVec 5) : State → Out :=
  execCapturable (.vminUC d b) false 0 (.lane (.min .w32 true) d.toNat [.v d.toNat, .v b.toNat])

/-- vmaxC (R217): its 32-bit equivalent with d = a = vd and b = vs. -/
def execVmaxC (d b : BitVec 5) : State → Out :=
  execCapturable (.vmaxC d b) false 0 (.lane (.max .w32 false) d.toNat [.v d.toNat, .v b.toNat])

/-- vmaxUC (R217): its 32-bit equivalent with d = a = vd and b = vs. -/
def execVmaxUC (d b : BitVec 5) : State → Out :=
  execCapturable (.vmaxUC d b) false 0 (.lane (.max .w32 true) d.toNat [.v d.toNat, .v b.toNat])

/-- fminC (R217): its 32-bit equivalent with d = a = vd and b = vs. -/
def execFminC (d b : BitVec 5) : State → Out :=
  execCapturable (.fminC d b) false 0 (.lane .fmin d.toNat [.v d.toNat, .v b.toNat])

/-- hmin2Bf16C (R217): its 32-bit equivalent with d = a = vd and b = vs. -/
def execHmin2Bf16C (d b : BitVec 5) : State → Out :=
  execCapturable (.hmin2Bf16C d b) false 0 (.lane (.hmin .bf16) d.toNat [.v d.toNat, .v b.toNat])

/-- fmaxC (R217): its 32-bit equivalent with d = a = vd and b = vs. -/
def execFmaxC (d b : BitVec 5) : State → Out :=
  execCapturable (.fmaxC d b) false 0 (.lane .fmax d.toNat [.v d.toNat, .v b.toNat])

/-- hmax2Bf16C (R217): its 32-bit equivalent with d = a = vd and b = vs. -/
def execHmax2Bf16C (d b : BitVec 5) : State → Out :=
  execCapturable (.hmax2Bf16C d b) false 0 (.lane (.hmax .bf16) d.toNat [.v d.toNat, .v b.toNat])

end Sys2Proof.Machine
end

