-- ==== Sys2Proof/Machine/Copies.lean ====
section
/-! DEFINITION. The end of a CLAIM's waits (R83, R84), and the copy nodes of graphs, which the descriptor engine of die 0 carries out
(R175). -/

namespace Sys2Proof.Machine

/-! ## Copy nodes (R175) -/

/-- The key of a copy node among the claims of die 0's pool. -/
def copyKey (graph node : Nat) : Nat := graph * 65536 + node

/-- How the claim of a copy node goes. -/
inductive CopyWalk where
  /-- the pages are pinned -/
  | pins (pins : List TlbEntry)
  /-- a cause and a report code -/
  | fault (code report : Nat)
  /-- a page of the migration ring is to be brought first (R55) -/
  | touch (e : TlbEntry) (leafAt word0 va : Nat)
  deriving DecidableEq, Repr

/-- The walks of a copy node's pages at user level, which pin (R26, R60, R83). -/
def State.copyPins (s : State) (asid : Nat) (held : List TlbEntry) : List (Nat × Acc) → List TlbEntry → Nat → State × CopyWalk
  | [], pins, _ => (s, .pins pins)
  | (va, acc) :: rest, pins, fresh =>
    match s.translate (.ahead 0) va asid acc false with
    | (s, .fault c r) => (s, .fault c r)
    | (s, .touch e a w) => (s, .touch e a w va)
    | (s, .leaf e) =>
      if e.cls = 3 then (s, .fault 0x10 0)
      else
        match pinMore held pins fresh e with
        | none => (s, .fault 0x0E 0x0B)
        | some (pins, fresh) => (s.keepPins 0 pins).copyPins asid held rest pins fresh

/-- Every check of a copy node's descriptor: its pages, its rows, its peer. -/
def State.copyClaim (s : State) (gr : Graph) (d : Desc) : State × CopyWalk :=
  match s.copyPins gr.asid (s.heldPins 0) d.walkList [] 0 with
  | (s, .pins pins) =>
    match (s.rowFails d true (gr.vd / 8)).orElse fun _ => s.rowFails d false (gr.vd / 8) with
    | some (c, stopped, _) => (s, .fault c (if stopped then 0x0A else 0))
    | none =>
      if d.dpeer && (!(s.peer d.pmod).1 || (s.anyRoute d.pmod).isNone) then (s, .fault 0x11 0x09) else (s, .pins pins)
  | r => r

/-- The node fails by a fault of its claim (R371: reason 4). DEDUCED: log 55. -/
def State.copyFails (s : State) (g n code report : Nat) : State := s.doJobs [.reach g n .failed (4 + code * 256) report]

/-- A page of the copy's descriptor is migrated first (R55): the copy starts again once it has moved. -/
def State.copyTouch (s : State) (g n : Nat) (gr : Graph) (e : TlbEntry) (leafAt word0 va : Nat) : State :=
  match s.joinMigration gr.vd gr.asid e leafAt word0 (va / 65536 * 65536) with
  | (s, some _) => s
  | (s, none) => s.copyFails g n 0x08 0x08

/-- The check of COPYCTR (R98): where it lies, or the cause and report code with which the copy fails (R371). DEDUCED: log 55. -/
def State.copyCounter (s : State) (gr : Graph) (nd : Node) : Except (Nat × Nat) (Nat × Nat) :=
  match s.counterPhys nd.copyctr (gr.vd / 8) with
  | .error (c, stopped) => .error (c, if stopped then 0x0A else 0)
  | .ok (slice, off) => if s.ctrWord slice off 2 / 256 != 0 then .error (0x18, 0) else .ok (slice, off)

/-- The claim is HELD, with the routes it copied: one flow moves the whole of it; it is in no Weir (R175, R377). -/
def State.copyFlow (s : State) (g n : Nat) (gr : Graph) (d : Desc) (pins : List TlbEntry) (route alternate : Option Word)
    (slice off : Nat) : State :=
  let f : Flow :=
    { id := s.nextId, team := none, slot := 0, mill := 0, vd := gr.vd, asid := gr.asid, desc := d, off := 0, len := d.total
      chunks := d.chunks d.total 0 (d.total - 1), ctrSlice := slice, ctrOff := off
      peer := if d.dpeer then some d.pmod else none, pins := pins, error := false, node := some (g, n), route := route
      alternate := alternate }
  { s with
    flows := s.flows ++ [f], nextId := s.nextId + 1
    copyClaims := copyKey g n :: s.copyClaims.filter (· != copyKey g n)
    copyWaits := s.copyWaits.filter fun w => w.1 != copyKey g n
    copyTouched := s.copyTouched.filter fun w => w.1 != copyKey g n }.doJobs [.counter slice off]

/-- The counter armed with the claim's total, before the claim is made (R175). DEDUCED: log 55. -/
def State.copyArm (s : State) (d : Desc) (slice off : Nat) : State :=
  (((s.setCtrWord slice off 0 0).setCtrWord slice off 1 d.total).setCtrWord slice off 2 0).doJobs [.counter slice off]

/-- How a fault of a copy's claim ends its event: a line under rebuild is waited for (R52). -/
def State.copyStops (s : State) (g n code report : Nat) : Out :=
  if code = stallCode then .fault .notEnabled else .next (s.copyFails g n code report)

/-- A page of the claim is migrated first (R55): the node keeps its claim, and its counter armed, and walks again once the page has
moved. -/
def State.claimTouch (s : State) (g n : Nat) (gr : Graph) (d : Desc) (e : TlbEntry) (leafAt word0 va : Nat) : State :=
  match s.joinMigration gr.vd gr.asid e leafAt word0 (va / 65536 * 65536) with
  | (s, some _) =>
    { s with
      copyClaims := copyKey g n :: s.copyClaims.filter (· != copyKey g n)
      copyWaits := s.copyWaits.filter fun w => w.1 != copyKey g n
      copyTouched := (copyKey g n, d) :: s.copyTouched.filter fun w => w.1 != copyKey g n }
  | (s, none) => s.copyFails g n 0x08 0x08

/-- The claim of a copy node from its descriptor, its counter armed: HELD, or waiting for a peer's reservation (R84, R175). -/
def State.copyGo (s : State) (g n : Nat) (gr : Graph) (d : Desc) (slice off : Nat) : Out :=
  match s.copyClaim gr d with
  | (s, .fault c r) => s.copyStops g n c r
  | (s, .touch e a w va) => .next (s.claimTouch g n gr d e a w va)
  | (s, .pins pins) =>
    let route := if d.dpeer then s.anyRoute d.pmod else none
    let alternate := route.bind fun r => s.alternateFor d.pmod r
    if d.dpeer then
      let slot : Claim :=
        { Claim.free with state := .claiming, desc := d, total := d.total, pins := pins, route := route, alternate := alternate }
      .next ({ s with
        copyClaims := copyKey g n :: s.copyClaims.filter (· != copyKey g n)
        copyWaits := s.copyWaits ++ [(copyKey g n, slot)]
        copyTouched := s.copyTouched.filter fun w => w.1 != copyKey g n }.send1 (.reserve d.pmod gr.vd d.dstRows))
    else .next (s.copyFlow g n gr d pins route alternate slice off)

/-- The descriptor of a copy node is read, its counter armed and its claim made (R79, R81, R175). -/
def State.copyStart (s : State) (g n : Nat) (gr : Graph) (nd : Node) : Out :=
  if nd.work.toNat % 64 != 0 then .next (s.copyFails g n 0x06 0)
  else
    match s.engineRead 0 gr.asid nd.work.toNat 64 .load false with
    | (s, .fault c r) => s.copyStops g n c r
    | (s, .touch e a w) => .next (s.copyTouch g n gr e a w nd.work.toNat)
    | (s, .data bytes) =>
      match s.copyCounter gr nd with
      | .error (c, r) => .next (s.copyFails g n c r)
      | .ok (slice, off) =>
        if s.bankBusy slice off 16 then .fault .notEnabled
        else
          let s := s.copyArm (descOf bytes) slice off
          if descInvalid s.module bytes then .next (s.copyFails g n 0x0E 0) else s.copyGo g n gr (descOf bytes) slice off

/-- The walks of a claim of a copy node again, after a page of it has moved (R55): its counter stands armed since the copy started. -/
def State.copyAgain (s : State) (g n : Nat) (gr : Graph) (nd : Node) (d : Desc) : Out :=
  match s.copyCounter gr nd with
  | .error (c, r) => .next (s.copyFails g n c r)
  | .ok (slice, off) => s.copyGo g n gr d slice off

/-- COPY_NODE_START (R175): a claim of die 0's pool of 16 is free, and a running copy node has not started; or one walks again after a
page of it has moved. -/
def execCopyNodeStart (graph node : Nat) (s : State) : Out :=
  match s.node graph node with
  | none => .fault .notEnabled
  | some (gr, nd) =>
    if !nd.copy || nd.state != .running then .fault .notEnabled
    else
      match s.copyTouched.find? fun w => w.1 == copyKey graph node with
      | some w => s.copyAgain graph node gr nd w.2
      | none =>
        if s.copyClaims.contains (copyKey graph node) || 16 ≤ s.copyClaims.length then .fault .notEnabled
        else s.copyStart graph node gr nd

/-- The claim of a copy node whose peer has accepted: HELD, its pages walked again if an invalidation met one (R73). -/
def State.copyHeld (s : State) (g n : Nat) (gr : Graph) (nd : Node) (slot : Claim) : Out :=
  match s.copyCounter gr nd, if slot.stale then s.copyClaim gr slot.desc else (s, .pins slot.pins) with
  | .error (c, r), _ => .next (s.copyFails g n c r)
  | .ok _, (s, .fault c r) => s.copyStops g n c r
  | .ok _, (s, .touch e a w va) => .next (s.claimTouch g n gr slot.desc e a w va)
  | .ok (slice, off), (s, .pins pins) => .next (s.copyFlow g n gr slot.desc pins slot.route slot.alternate slice off)

/-- The peer's answer to a copy node's reservation (R84). -/
def State.copyAnswered (s : State) (key : Nat) (slot : Claim) (answer : PeerAnswer) : Out :=
  let g := key / 65536
  let n := key % 65536
  match s.node g n, claimAnswer slot.desc answer with
  | some (gr, nd), some r =>
    if !(s.peer slot.desc.pmod).1 || slot.route.isNone then .next (s.copyFails g n 0x11 0x09)
    else
      match r with
      | .error code => .next (s.copyFails g n code 0)
      | .ok _ => s.copyHeld g n gr nd slot
  | _, _ => .fault .notEnabled

/-! ## CLAIM_HELD (R83 to R86) -/

/-- A claim of the team whose turn it is, whose waits end. Where the peer refuses or is lost, `%tval` is the descriptor's DST: the answer
names no row. DESIGN CHOICE: log 114. -/
def State.claimHeld (s : State) (c : Nat) (answer : PeerAnswer) : Out :=
  let slot := s.team.claim c
  let s := s.mapTeam fun t => { t with status := .ready }
  let back := fun (s : State) => s.mapTeam fun t => t.setClaim c slot.restored
  let lost := slot.desc.dpeer && (!(s.peer slot.desc.pmod).1 || slot.route.isNone)
  match claimAnswer slot.desc answer with
  | none => .fault .notEnabled
  | some r =>
    if lost then ((back s).wholeTrap 0x11 0x09 (BitVec.ofNat 64 slot.desc.dst)).finish 4
    else
      match r with
      | .error code => ((back s).wholeTrap code 0 (BitVec.ofNat 64 slot.desc.dst)).finish 4
      | .ok (base, count) =>
        match if slot.stale then (back s).claimWalk slot.desc else .ok (s, slot.pins) with
        | .error (.wait s) => .next s
        | .error (.trap x s) => if x.code = stallCode then .fault .notEnabled else (Res.trap x s).finish 4
        | .error r => r.finish 4
        | .ok (s, pins) =>
          .next (((s.mapTeam fun t => (t.setClaim c (slot.heldWith pins base count)).setPoint (t.pc + 4))).advance 4)

/-- CLAIM_HELD: the waits of a team's CLAIM end, and a walk that an invalidation met restarts (R73); or, for `team` at or above
2^64, those of a copy node's claim. DEDUCED: log 76. -/
def execClaimHeld (team : Nat) (answer : PeerAnswer) (s : State) : Out :=
  match s.copyWaits.find? fun w => w.1 + 2 ^ 64 == team with
  | some w => s.copyAnswered w.1 w.2 answer
  | none =>
    match s.focus team with
    | none => .fault .notEnabled
    | some s =>
      match s.team.status with
      | .parked (.claim c) => s.claimHeld c answer
      | _ => .fault .notEnabled

end Sys2Proof.Machine
end

