-- ==== Sys2Proof/Machine/Cross.lean ====
section
/-! DEFINITION. The cross-lane instructions (R272 to R277). -/

namespace Sys2Proof.Machine

/-- shflIdx (R273): a value of the plot, at the position that `v`b names. -/
def execShflIdx (d a b : BitVec 7) : State → Out :=
  execCapturable (.shflIdx d a b) false 0 (.cross .shflIdx d.toNat a.toNat (.v b.toNat))

/-- shflUp (R273): a value of the plot, at the position that `v`b names. -/
def execShflUp (d a b : BitVec 7) : State → Out :=
  execCapturable (.shflUp d a b) false 0 (.cross .shflUp d.toNat a.toNat (.v b.toNat))

/-- shflDown (R273): a value of the plot, at the position that `v`b names. -/
def execShflDown (d a b : BitVec 7) : State → Out :=
  execCapturable (.shflDown d a b) false 0 (.cross .shflDown d.toNat a.toNat (.v b.toNat))

/-- shflXor (R273): a value of the plot, at the position that `v`b names. -/
def execShflXor (d a b : BitVec 7) : State → Out :=
  execCapturable (.shflXor d a b) false 0 (.cross .shflXor d.toNat a.toNat (.v b.toNat))

/-- VRED (R275): the combination of the plot's active lanes. -/
def execVred (d a : BitVec 7) (op : BitVec 3) : State → Out :=
  execCapturable (.vred d a op) false 0 (.cross (.red op.toNat) d.toNat a.toNat (.imm 0))

/-- VSCAN (R275): the combination of the plot's active lanes up to the lane. -/
def execVscan (d a : BitVec 7) (op : BitVec 3) : State → Out :=
  execCapturable (.vscan d a op) false 0 (.cross (.scan op.toNat) d.toNat a.toNat (.imm 0))

/-- MATCH.BITS (R276): the positions of the plot whose key equals the lane's. Field b is not read. DEDUCED: log 20. -/
def execMatchBits (d a b : BitVec 7) : State → Out :=
  execCapturable (.matchBits d a b) false 0 (.cross .matchBits d.toNat a.toNat (.imm 0))

/-- MATCH.FLOAT (R276): the positions of the plot whose key equals the lane's as FP32 values. Field b is not read.
DEDUCED: log 20. -/
def execMatchFloat (d a b : BitVec 7) : State → Out :=
  execCapturable (.matchFloat d a b) false 0 (.cross .matchFloat d.toNat a.toNat (.imm 0))

/-- BCAST (R277): `Peer` at the position that `s`b names. -/
def execBcast (d a : BitVec 7) (b : BitVec 6) : State → Out :=
  execCapturable (.bcast d a b) false 0 (.cross .bcast d.toNat a.toNat (.u b.toNat false))

/-- SREAD (R277): `s`d := `v`a of lane `s`b, 0 when that lane is inactive or absent. -/
def execSread (d : BitVec 6) (a : BitVec 7) (b : BitVec 6) : State → Out :=
  execCapturable (.sread d a b) false 0 (.sread d.toNat a.toNat b.toNat)

/-- A vote (R274): each active lane's predicate := whether the active lanes of its plot agree. -/
def State.vote (s : State) (pd : Nat) (holds : List Nat → Bool) : State :=
  let act := s.team.active
  let yes := act.filter fun l => holds ((plotLanes (plotSize s.team.plot) l).filter act.contains)
  s.mapTeam fun t => (t.setP pd ((t.p pd &&& ~~~(maskOf act)) ||| maskOf yes)).soundP pd act

/-- VOTE.ANY (R274): some active lane of the plot holds 1 in `p`a. -/
def execVoteAny (p q : BitVec 4) : State → Out :=
  execControl (.voteAny p q) ⟨false, false, [.p q.toNat], [.p p.toNat]⟩ fun s =>
    .ok (s.vote p.toNat fun ls => ls.any fun l => (s.team.p q.toNat).getLsbD l)

/-- VOTE.ALL (R274): every active lane of the plot holds 1 in `p`a. -/
def execVoteAll (p q : BitVec 4) : State → Out :=
  execControl (.voteAll p q) ⟨false, false, [.p q.toNat], [.p p.toNat]⟩ fun s =>
    .ok (s.vote p.toNat fun ls => ls.all fun l => (s.team.p q.toNat).getLsbD l)

/-- VOTE.EQ (R274): every active lane of the plot holds the same bits in `v`a. -/
def execVoteEq (p : BitVec 4) (a : BitVec 7) : State → Out :=
  execControl (.voteEq p a) ⟨false, false, [.v a.toNat], [.p p.toNat]⟩ fun s =>
    .ok (s.vote p.toNat fun ls => ls.all fun l => s.team.v a.toNat l == s.team.v a.toNat (ls.headD 0))

end Sys2Proof.Machine
end

