-- ==== Sys2Proof/Machine/Float.lean ====
section
/-! DEFINITION. The floating-point, packed half, conversion, packing and hashed random instructions (R261 to R268, R271). -/

namespace Sys2Proof.Machine

/-- fadd (R261): one correctly rounded FP32 result. -/
def execFadd (d a b : BitVec 7) (r : BitVec 3) : State → Out :=
  execCapturable (.fadd d a b r) false r.toNat (.lane .fadd d.toNat [.v a.toNat, .v b.toNat])

/-- fsub (R261): one correctly rounded FP32 result. -/
def execFsub (d a b : BitVec 7) (r : BitVec 3) : State → Out :=
  execCapturable (.fsub d a b r) false r.toNat (.lane .fsub d.toNat [.v a.toNat, .v b.toNat])

/-- fmul (R261): one correctly rounded FP32 result. -/
def execFmul (d a b : BitVec 7) (r : BitVec 3) : State → Out :=
  execCapturable (.fmul d a b r) false r.toNat (.lane .fmul d.toNat [.v a.toNat, .v b.toNat])

/-- fdiv (R261): one correctly rounded FP32 result. -/
def execFdiv (d a b : BitVec 7) (r : BitVec 3) : State → Out :=
  execCapturable (.fdiv d a b r) false r.toNat (.lane .fdiv d.toNat [.v a.toNat, .v b.toNat])

/-- ffma (R261): one rounding of x × y + z. -/
def execFfma (d a b : BitVec 7) (r : BitVec 3) : State → Out :=
  execCapturable (.ffma d a b r) false r.toNat (.lane .ffma d.toNat [.v a.toNat, .v b.toNat, .v d.toNat])

/-- ffms (R261): one rounding of z − x × y. -/
def execFfms (d a b : BitVec 7) (r : BitVec 3) : State → Out :=
  execCapturable (.ffms d a b r) false r.toNat (.lane .ffms d.toNat [.v a.toNat, .v b.toNat, .v d.toNat])

/-- fsqrt (R261): the rounded square root. -/
def execFsqrt (d a : BitVec 7) (r : BitVec 3) : State → Out :=
  execCapturable (.fsqrt d a r) false r.toNat (.lane .fsqrt d.toNat [.v a.toNat])

/-- fmin (R262): the lesser under R197. -/
def execFmin (d a b : BitVec 7) : State → Out :=
  execCapturable (.fmin d a b) false 0 (.lane .fmin d.toNat [.v a.toNat, .v b.toNat])

/-- fmax (R262): the greater under R197. -/
def execFmax (d a b : BitVec 7) : State → Out :=
  execCapturable (.fmax d a b) false 0 (.lane .fmax d.toNat [.v a.toNat, .v b.toNat])

/-- fcpsgn (R262): A[30:0] with B[31]. -/
def execFcpsgn (d a b : BitVec 7) : State → Out :=
  execCapturable (.fcpsgn d a b) false 0 (.lane .fcpsgn d.toNat [.v a.toNat, .v b.toNat])

/-- fabs (R262): A with bit 31 cleared. -/
def execFabs (d a : BitVec 7) : State → Out :=
  execCapturable (.fabs d a) false 0 (.lane .fabs d.toNat [.v a.toNat])

/-- fneg (R262): A with bit 31 inverted. -/
def execFneg (d a : BitVec 7) : State → Out :=
  execCapturable (.fneg d a) false 0 (.lane .fneg d.toNat [.v a.toNat])

/-- fclass (R264): the class bit of A. -/
def execFclass (d a : BitVec 7) : State → Out :=
  execCapturable (.fclass d a) false 0 (.lane .fclass d.toNat [.v a.toNat])

/-- The condition that an FCMP code names (R263). -/
def floatCondition (c : BitVec 6) : LCmp :=
  match c.toNat with
  | 0 => .feq
  | 1 => .fne
  | 2 => .flt
  | 3 => .fle
  | 4 => .fgt
  | 5 => .fge
  | 6 => .unordered
  | _ => .ordered

/-- FCMP (R263): the predicate := A cond B. -/
def execFcmp (p : BitVec 4) (a b : BitVec 7) (c : BitVec 6) : State → Out :=
  execCapturable (.fcmp p a b c) false 0 (.lcmp (floatCondition c) p.toNat a.toNat b.toNat)

/-- frcp (R265): special function 0. -/
def execFrcp (d a : BitVec 7) : State → Out :=
  execCapturable (.frcp d a) false 0 (.lane (.special 0) d.toNat [.v a.toNat])

/-- frsq (R265): special function 1. -/
def execFrsq (d a : BitVec 7) : State → Out :=
  execCapturable (.frsq d a) false 0 (.lane (.special 1) d.toNat [.v a.toNat])

/-- fex2 (R265): special function 2. -/
def execFex2 (d a : BitVec 7) : State → Out :=
  execCapturable (.fex2 d a) false 0 (.lane (.special 2) d.toNat [.v a.toNat])

/-- flg2 (R265): special function 3. -/
def execFlg2 (d a : BitVec 7) : State → Out :=
  execCapturable (.flg2 d a) false 0 (.lane (.special 3) d.toNat [.v a.toNat])

/-- fsin (R265): special function 4. -/
def execFsin (d a : BitVec 7) : State → Out :=
  execCapturable (.fsin d a) false 0 (.lane (.special 4) d.toNat [.v a.toNat])

/-- fcos (R265): special function 5. -/
def execFcos (d a : BitVec 7) : State → Out :=
  execCapturable (.fcos d a) false 0 (.lane (.special 5) d.toNat [.v a.toNat])

/-- ftanh (R265): special function 6. -/
def execFtanh (d a : BitVec 7) : State → Out :=
  execCapturable (.ftanh d a) false 0 (.lane (.special 6) d.toNat [.v a.toNat])

/-- The format that an FMT bit names (R266). -/
def halfFormat (f : BitVec 1) : FFmt := if f = 1 then .bf16 else .fp16

/-- hadd2 (R266): both elements, each rounded once. -/
def execHadd2 (d : BitVec 7) (a b : BitVec 6) (f : BitVec 1) (r : BitVec 3) : State → Out :=
  execCapturable (.hadd2 d a b f r) false r.toNat (.lane (.hadd (halfFormat f)) d.toNat [.v a.toNat, .v b.toNat])

/-- hsub2 (R266): both elements, each rounded once. -/
def execHsub2 (d : BitVec 7) (a b : BitVec 6) (f : BitVec 1) (r : BitVec 3) : State → Out :=
  execCapturable (.hsub2 d a b f r) false r.toNat (.lane (.hsub (halfFormat f)) d.toNat [.v a.toNat, .v b.toNat])

/-- hmul2 (R266): both elements, each rounded once. -/
def execHmul2 (d : BitVec 7) (a b : BitVec 6) (f : BitVec 1) (r : BitVec 3) : State → Out :=
  execCapturable (.hmul2 d a b f r) false r.toNat (.lane (.hmul (halfFormat f)) d.toNat [.v a.toNat, .v b.toNat])

/-- hfma2 (R266): both elements, each rounded once. -/
def execHfma2 (d : BitVec 7) (a b : BitVec 6) (f : BitVec 1) (r : BitVec 3) : State → Out :=
  execCapturable (.hfma2 d a b f r) false r.toNat (.lane (.hfma (halfFormat f)) d.toNat [.v a.toNat, .v b.toNat, .v d.toNat])

/-- hfms2 (R266): both elements, each rounded once. -/
def execHfms2 (d : BitVec 7) (a b : BitVec 6) (f : BitVec 1) (r : BitVec 3) : State → Out :=
  execCapturable (.hfms2 d a b f r) false r.toNat (.lane (.hfms (halfFormat f)) d.toNat [.v a.toNat, .v b.toNat, .v d.toNat])

/-- hmin2 (R266): the lesser of each element under R197. -/
def execHmin2 (d : BitVec 7) (a b : BitVec 6) (f : BitVec 1) : State → Out :=
  execCapturable (.hmin2 d a b f) false 0 (.lane (.hmin (halfFormat f)) d.toNat [.v a.toNat, .v b.toNat])

/-- hmax2 (R266): the greater of each element under R197. -/
def execHmax2 (d : BitVec 7) (a b : BitVec 6) (f : BitVec 1) : State → Out :=
  execCapturable (.hmax2 d a b f) false 0 (.lane (.hmax (halfFormat f)) d.toNat [.v a.toNat, .v b.toNat])

/-- The type that a CVT code names (R267). -/
def cvtType (c : BitVec 3) : CvtType :=
  match c.toNat with
  | 0 => .f32
  | 1 => .bf16
  | 2 => .fp16
  | 3 => .i32
  | 4 => .u32
  | 5 => .i16
  | 6 => .i8
  | _ => .u8

/-- CVT (R267): each element converted from type f to type t. -/
def execCvt (d a : BitVec 7) (t f r : BitVec 3) : State → Out :=
  execCapturable (.cvt d a t f r) false r.toNat (.lane (.cvt (cvtType f) (cvtType t)) d.toNat [.v a.toNat])

/-- packH (R268). -/
def execPackH (d a b : BitVec 7) : State → Out :=
  execCapturable (.packH d a b) false 0 (.lane .packH d.toNat [.v a.toNat, .v b.toNat])

/-- packB (R268). -/
def execPackB (d a b : BitVec 7) : State → Out :=
  execCapturable (.packB d a b) false 0 (.lane .packB d.toNat [.v a.toNat, .v b.toNat])

/-- unpackH (R268). -/
def execUnpackH (d a b : BitVec 7) : State → Out :=
  execCapturable (.unpackH d a b) false 0 (.lane .unpackH d.toNat [.v a.toNat, .v b.toNat])

/-- unpackB (R268). -/
def execUnpackB (d a b : BitVec 7) : State → Out :=
  execCapturable (.unpackB d a b) false 0 (.lane .unpackB d.toNat [.v a.toNat, .v b.toNat])

/-- HRND (R271): bytes 0 to 3 of the SHA-256 digest of the seed and the lane's index; illegal where PFEAT.HR is 0. -/
def execHrnd (d a : BitVec 7) (b : BitVec 6) (s : State) : Out :=
  execCapturable (.hrnd d a b) (!s.regBit (partReg s.team.part 0x018) 0) 0
    (.lane .hrnd d.toNat [.u b.toNat false, .u b.toNat true, .v a.toNat]) s

end Sys2Proof.Machine
end

