-- ==== Sys2Proof/Machine/HostWrite.lean ====
section
/-! DEFINITION. REGISTER_WRITE: a store of the host to BAR 0 (R7, R8, R31, R32, R381). -/

namespace Sys2Proof.Machine

/-- The fields of a register that take what the host writes, where the register has no behaviour of its own; `free` says that the
unit which fixes them while it is enabled is not. A field that is read-only, reserved or of no register takes nothing. -/
def vdFields (o : Nat) (free : Bool) : List (Nat × Nat) :=
  match o with
  | 0x000 => [(63, 63)]
  | 0x040 => [(55, 8), (1, 0)]
  | 0x058 => if free then [(31, 0)] else []
  | 0x060 => if free then [(38, 0)] else []
  | 0x070 => [(63, 63), (19, 16), (13, 0)]
  | 0x078 => [(38, 20)]
  | 0x080 => [(25, 16), (8, 0)]
  | 0x088 => [(63, 63), (57, 48), (29, 12)]
  | 0x090 => [(25, 23), (21, 19), (15, 12), (7, 3), (1, 1)]
  | 0x098 => [(63, 63), (51, 0)]
  | 0x0A8 => [(31, 0)]
  | 0x0C0 => [(63, 63), (31, 0)]
  | 0x0D0 => [(63, 63), (51, 0)]
  | 0x0E0 => [(31, 0)]
  | 0x0E8 => [(63, 63), (51, 0)]
  | 0x0F0 => [(63, 63), (51, 0)]
  | 0x0F8 => [(63, 48), (31, 16)]
  | o => if free && 0x200 ≤ o && o < 0x400 then [(63, 0)] else []

/-- The fields of a partition's registers while its window is disabled (R182). -/
def partFields (o : Nat) : List (Nat × Nat) :=
  match o with
  | 0x008 => [(60, 48), (43, 32), (22, 16), (5, 0)]
  | 0x010 => [(25, 16), (8, 0)]
  | 0x018 => [(0, 0)]
  | o => if 0x040 ≤ o && o < 0x080 then [(63, 0)] else []

/-- A word of a launch queue's registers but `LQBASE` (R368). -/
def State.writeQueueReg (s : State) (vd q o : Nat) (w : Word) : State :=
  if s.regBit (lqReg vd q 0) 63 then s
  else
    match o with
    | 0x08 => s.setReg (lqReg vd q o) (writeFields 0 w [(51, 6)])
    | 0x10 => s.setReg (lqReg vd q o) (writeFields 0 w [(43, 32), (15, 0)])
    | _ => s

/-- A word of a virtual-device entry. DEDUCED: log 60. DEDUCED: log 61. -/
def State.writeVd (s : State) (vd o : Nat) (w : Word) : State :=
  match o with
  | 0x008 => s.writeVdcmd vd w
  | 0x048 => s.writeInvcmd vd w
  | 0x050 => s.writeVdstep vd w
  | 0x0B0 => s.writeFresp vd w
  | 0x0B8 => s.writeTbase vd w
  | o =>
    if 0x100 ≤ o && o < 0x180 then s.writeQsel vd ((o - 0x100) / 8) w
    else if 0x400 ≤ o && o < 0x600 then
      let q := (o - 0x400) / 32
      if (o - 0x400) % 32 = 0 then s.writeLqbase vd q w else s.writeQueueReg vd q ((o - 0x400) % 32) w
    else
      let off := vdReg vd o
      s.setReg off (writeFields (s.reg off) w (vdFields o (!s.regBit (vdReg vd 0x050) 63)))

/-- A word of a partition entry. -/
def State.writePart (s : State) (p o : Nat) (w : Word) : State :=
  if o = 0 then s.writePwin p w
  else if (s.window p).1 then s
  else
    let off := partReg p o
    s.setReg off (writeFields (s.reg off) w (partFields o))

/-- A word of a fabric port (R376): REPLAY is cleared by ones. -/
def State.writePort (s : State) (off : Nat) (w : Word) : State :=
  let old := s.reg off
  s.setReg off (wput (wput old 63 63 (wbits w 63 63)) 15 0 (wbits (old &&& ~~~w) 15 0))

/-- A word of the fabric's registers (R187, R376 to R379) or of the peer and region tables (R74, R120). -/
def State.writeFabric (s : State) (off : Nat) (w : Word) : State :=
  if off < fportReg 16 then if off % 64 = 0 then s.writePort off w else s
  else if off = cthreshReg then s.setReg off (writeFields 0 w [(15, 0)])
  else if routeReg 0 false ≤ off && off < routeReg 4096 false then
    s.writeRoute ((off - routeReg 0 false) / 16) ((off - routeReg 0 false) % 16 == 8) w
  else if launchReg 0 0 ≤ off && off < launchReg 4096 0 then
    match (off - launchReg 0 0) % 32 with
    | 0 => s.setReg off (writeFields 0 w [(63, 63), (43, 32), (11, 0)])
    | 24 => s
    | _ => s.setReg off w
  else if permitReg 0 ≤ off && off < permitReg 4096 then s.setReg off (writeFields 0 w [(63, 63), (15, 0)])
  else if peerReg 0 ≤ off && off < peerReg 4096 then s.writePeer ((off - peerReg 0) / 8) w
  else if regionReg 0 0 ≤ off && off < regionReg 256 0 then
    s.writeRegion ((off - regionReg 0 0) / 32) ((off - regionReg 0 0) % 32 / 8) w
  else s

/-- A word of the module event queue (R370). -/
def State.writeMeq (s : State) (off : Nat) (w : Word) : State :=
  match off with
  | 0x500000 => s.setReg off (writeFields 0 w [(63, 63), (51, 0)])
  | 0x500010 => s.setReg off (writeFields 0 w [(31, 0)])
  | _ => s

/-- The host writes the 8 bytes of BAR 0 at an aligned offset. -/
def State.hostWord (s : State) (off : Nat) (w : Word) : State :=
  if off < 0x100000 then if off = attcmdReg then s.writeAttcmd w else if off = fwcmdReg then s.writeFwcmd w else s
  else if off < 0x200000 then if off < 0x120000 then s.writePart ((off - 0x100000) / 0x1000) (off % 0x1000) w else s
  else if off < 0x300000 then s.writeVd ((off - 0x200000) / 0x1000) (off % 0x1000) w
  else if off < 0x310000 then s.writeRoot ((off - 0x300000) / 16) (off % 16 == 8) w
  else if off = kcmdReg then s.writeKcmd w
  else if 0x480040 ≤ off && off < 0x480080 then s.writeKmat (off - 0x480040) 8 w.toNat
  else if 0x500000 ≤ off && off < 0x600000 then s.writeMeq off w
  else if 0x600000 ≤ off && off < 0x800000 then s.writeFabric off w
  else if scrReg 0 ≤ off && off ≤ scrReg 2 then s.writeScrub ((off - scrReg 0) / 8) w
  else s

/-- The bits of a register that start something or clear something when a one is written: a store to the other half of the register
writes zero there. DEDUCED: log 61. -/
def actionBits (off : Nat) : Nat :=
  if off = kcmdReg then 2 ^ 63
  else if off = scrReg 2 then 1
  else if fportReg 0 ≤ off && off < fportReg 16 then 0xFFFF
  else if regionReg 0 0 ≤ off && off < regionReg 256 0 && off % 32 = 0 then 3 * 2 ^ 61
  else
    match vdOffset? off with
    | some (_, 0x048) => 2 ^ 63
    | _ => 0

/-- The word that a store of 4 bytes makes of a register (R32). DEDUCED: log 61. -/
def State.halfWritten (s : State) (off : Nat) (w : Word) : Word :=
  let base := off / 8 * 8
  let old := s.reg base &&& ~~~(BitVec.ofNat 64 (actionBits base))
  if off % 8 = 0 then wput old 31 0 (wbits w 31 0) else wput old 63 32 (wbits w 31 0)

/-- Is an offset the upper half of a register of 32 bits, where no register lies: `PWINn` (R18)? -/
def narrowTop (off : Nat) : Bool := 0x100000 ≤ off && off < 0x120000 && off % 0x1000 == 4

/-- The store of an aligned 4 or 8 bytes (R32, R381). DEDUCED: log 50. -/
def State.hostStoreReg (s : State) (off bytes : Nat) (w : Word) : State :=
  let base := off / 8 * 8
  if reservedOffset off || narrowTop off || (s.boot == .minimal && 0x100000 ≤ off && !(0x500000 ≤ off && off < 0x600000)) then s
  else if bytes = 8 then s.hostWord off w
  else if 0x480040 ≤ off && off < 0x480080 then s.writeKmat (off - 0x480040) 4 (wbits w 31 0)
  else s.hostWord base (s.halfWritten off w)

/-- Does the store ask for RETRY in minimal mode? That is the step BOOTCMD_RETRY. -/
def State.asksRetry (s : State) (off : Nat) (w : Word) : Bool := s.boot == .minimal && off == bootcmdReg && w.getLsbD 0

/-- Is the store one to a step region whose enabling write has not ended? It comes after that. DESIGN CHOICE: log 25. -/
def State.regionBusy (s : State) (off : Nat) : Bool :=
  regionReg 0 0 ≤ off && off < regionReg 256 0 && s.enabling.contains ((off - regionReg 0 0) / 32)

/-- Is the store an answer that waits for a line under rebuild? DESIGN CHOICE: log 25. -/
def State.answerBusy (s : State) (off bytes : Nat) (w : Word) : Bool :=
  match vdOffset? (off / 8 * 8) with
  | some (vd, 0x0B0) => s.answerStalls vd (if bytes = 8 then w else s.halfWritten off w)
  | _ => false

/-- REGISTER_WRITE: other sizes and misaligned stores change nothing. DESIGN CHOICE: log 25. -/
def execRegisterWrite (offset bytes : Nat) (value : Word) (s : State) : Out :=
  if !(bytes == 4 || bytes == 8) || offset % bytes != 0 then .next s
  else if s.asksRetry offset value || s.regionBusy offset || s.answerBusy offset bytes value then .fault .notEnabled
  else .next (s.hostStoreReg offset bytes value)

end Sys2Proof.Machine
end

