-- ==== Sys2Proof/Machine/LaneMem.lean ====
section
/-! DEFINITION. The memory instructions of the lanes: loads and stores (R278 to R285), fences and cache operations (R286 to R289) and
the atomics (R290 to R295). -/

namespace Sys2Proof.Machine

/-! ## Loads and stores -/

/-- LDG (R279): `v`d := the bytes at `s`s + `v`x, translated. -/
def execLdg (d : BitVec 7) (s : BitVec 6) (x : BitVec 7) (hint sz : BitVec 2) : State → Out :=
  execCapturable (.ldg d s x hint sz) false 0 (.lmem true false (2 ^ sz.toNat) hint.toNat x.toNat s.toNat d.toNat)

/-- STG (R279): the bytes of `v`d to `s`s + `v`x, translated. -/
def execStg (d : BitVec 7) (s : BitVec 6) (x : BitVec 7) (hint sz : BitVec 2) : State → Out :=
  execCapturable (.stg d s x hint sz) false 0 (.lmem false false (2 ^ sz.toNat) hint.toNat x.toNat s.toNat d.toNat)

/-- LDP (R279): `v`d := the bytes at Plain address `s`s + `v`x. -/
def execLdp (d : BitVec 7) (s : BitVec 6) (x : BitVec 7) (sz : BitVec 2) : State → Out :=
  execCapturable (.ldp d s x sz) false 0 (.lmem true true (2 ^ sz.toNat) 0 x.toNat s.toNat d.toNat)

/-- STP (R279): the bytes of `v`d to Plain address `s`s + `v`x. -/
def execStp (d : BitVec 7) (s : BitVec 6) (x : BitVec 7) (sz : BitVec 2) : State → Out :=
  execCapturable (.stp d s x sz) false 0 (.lmem false true (2 ^ sz.toNat) 0 x.toNat s.toNat d.toNat)

/-- The lanes' addresses (R12). -/
def Team.eas (t : Team) (s x : Nat) : List (Nat × Word) := t.active.map fun l => (l, t.u s + (t.v x l).setWidth 64)

/-- Bytes of an access of format A. -/
def bytesA (sz : BitVec 1) : Nat := if sz = 1 then 8 else 4

/-- LDA (R284): an acquire at its scope; at .DEV and .DEVP the lane cache is emptied first, also with no active lane, at .DEVP a
Plain location promotes. DEDUCED: log 74. -/
def execLda (d : BitVec 7) (s : BitVec 6) (x : BitVec 7) (c : BitVec 2) (p sz : BitVec 1) : State → Out :=
  let n := bytesA sz
  execClosing (.lda d s x c p sz) ⟨false, false, [.u s.toNat, .v x.toNat], pairRegs n d.toNat⟩ fun st =>
    let eas := st.team.eas s.toNat x.toNat
    if eas.isEmpty then .ok (if 2 ≤ c.toNat then st.dropLaneCache st.team.mill else st)
    else st.laneLoad ⟨p == 1, .load, n, .other⟩ ⟨0, true, c == 3, 2 ≤ c.toNat⟩ false d.toNat eas

/-- Is every earlier access of the team performed at a scope (R101, R104)? At .TEAM nothing is asked. -/
def State.performedAt (s : State) (c : BitVec 2) : Bool := c == 0 || s.performedAll s.team.uid (2 ≤ c.toNat)

/-- The data of a store of n bytes from a register (R279). -/
def Team.laneData (t : Team) (n d : Nat) (eas : List (Nat × Word)) : List (Nat × Word × List Byte) :=
  eas.map fun e => (e.1, e.2, storeBytes n (t.v d e.1) (t.v (d + 1) e.1))

/-- The checks of an access that must wait: a trap or a park, or the wait. -/
def State.checkThenWait (s : State) (k : AccessKind) (eas : List (Nat × Word)) : Res :=
  let (s1, ls) := State.checkLanes k s eas
  (s1.accessVerdict none k.n none ls).getD (.wait s1)

/-- STL (R285): the checks, then a release at its scope, then the store. -/
def execStl (d : BitVec 7) (s : BitVec 6) (x : BitVec 7) (c : BitVec 2) (p sz : BitVec 1) : State → Out :=
  let n := bytesA sz
  execClosing (.stl d s x c p sz) ⟨false, false, [.u s.toNat, .v x.toNat] ++ pairRegs n d.toNat, []⟩ fun st =>
    let eas := st.team.eas s.toNat x.toNat
    let k : AccessKind := ⟨p == 1, .store, n, .other⟩
    if st.performedAt c then st.storeAll k (c == 1) false none (st.team.laneData n d.toNat eas)
    else st.checkThenWait k eas

/-! ## Fences and cache operations -/

/-- FENCE (R287): holds until every earlier access has performed at its scope; at .TEAM, until each is complete. -/
def execFence (c : BitVec 2) : State → Out :=
  execClosing (.fence c) ⟨false, false, [], []⟩ fun s =>
    let done := if c = 0 then (s.accessesOf s.team.uid).isEmpty else s.performedAt c
    if !done then .wait s
    else .ok (if 2 ≤ c.toNat then s.dropLaneCache s.team.mill else s)

/-- LCINV (R288): the mill's lane cache and instruction cache are emptied. -/
def execLcinv : State → Out :=
  execClosing .lcinv ⟨false, false, [], []⟩ fun s => .ok ((s.dropLaneCache s.team.mill).dropICache s.team.mill)

/-- The request of a prefetch of a walk's line through an entry, unless the line is of class Peer, in a Weir range, be it a flow's
source or its destination, or present, which is then kept (R41, R94, R289). -/
def State.prefetch (s : State) (w : WalkReq) (e : TlbEntry) : State :=
  let line := e.pa w.va / 64 * 64
  if e.cls == 3 || s.weirHit w.mill false e.asid (w.va / 64 * 64) 64 true then s
  else if (s.laneLine w.mill (e.cls != 0) line e.key).isSome then s.keepLine w.mill (.mem (e.cls != 0) line e.key false)
  else
    s.send
      { id := 0, access := 0, team := w.team, mill := w.mill, wheel := w.wheel, swath := 0
        loc := .mem (e.cls != 0) line e.key (e.cls == 2 && e.key == 0 && s.bypass e.asid)
        n := 64, op := .prefetch, ea := BitVec.ofNat 64 w.va, stage := .egress, release := false, acquire := false
        fill := w.fill, keep := true }

/-- The walk of a lane's prefetch. -/
def State.prefetchWalk (s : State) (ea : Word) : State :=
  let t := s.team
  if 2 ^ 56 ≤ ea.toNat ||
      s.walks.any fun w => w.fill && w.mill == t.mill && w.asid == t.asid && w.va / 64 == ea.toNat / 64 then s
  else { s with
    walks := s.walks ++ [⟨s.nextId, t.mill, t.asid, ea.toNat, t.uid, t.wheel, true⟩]
    nextId := s.nextId + 1 }

/-- A lane's prefetch: through an entry the lane TLB holds, else after a walk (WALK); an entry that refuses is discarded (R62). -/
def State.prefetchLane (s : State) (ea : Word) : State :=
  let t := s.team
  match (s.tlb (.lane t.mill)).find? (·.covers t.asid ea.toNat) with
  | some e =>
    if (e.refuses .load t.sup).isNone then s.prefetch ⟨0, t.mill, t.asid, ea.toNat, t.uid, t.wheel, true⟩ e
    else (s.setTlb (.lane t.mill) ((s.tlb (.lane t.mill)).erase e)).prefetchWalk ea
  | none => s.prefetchWalk ea

/-- The active lanes of a prefetch with their addresses: without those whose base or index is poisoned (R51), since PREF never traps
(R289). DEDUCED: log 131. -/
def Team.prefetchEas (t : Team) (s x : Nat) : List (Nat × Word) :=
  let poison := t.poisonRead [.u s, .v x]
  if poison.2 then [] else (t.eas s x).filter fun e => !poison.1.contains e.1

/-- PREF (R289): each active lane's line is asked for, after the acquires of the team (R104); nothing traps, so its registers stand with
those that only must be ready. -/
def execPref (s : BitVec 6) (x : BitVec 7) : State → Out :=
  execClosing (.pref s x) ⟨false, false, [], [.u s.toNat, .v x.toNat]⟩ <| State.afterAcquires fun st =>
    .ok ((st.team.prefetchEas s.toNat x.toNat).foldl (fun st e => st.prefetchLane e.2) st)

/-- WALK (R59, R61, R289): the walk of a prefetch ends; its leaf is installed and the line asked for. -/
def execWalk (walk : Nat) (s : State) : Out :=
  match findBy WalkReq.id s.walks walk with
  | none => .fault .notEnabled
  | some w =>
    let s := { s with walks := dropBy WalkReq.id s.walks walk }
    let sup := ((s.teamOf w.team).map Team.sup).getD false
    match s.walkInstall (.lane w.mill) w.va w.asid .load sup with
    | (s, .leaf e) => .next (s.prefetch w e)
    | (s, .touch _ _ _) => .next s
    | (s, .fault c _) => if c = stallCode then .fault .notEnabled else .next s

/-! ## Atomics -/

/-- An atomic as its fields give it. -/
structure AtomicForm where
  op : AtomicOp
  n : Nat
  plain : Bool
  scope : BitVec 2
  ret : Bool
  d : Nat
  s : Nat
  x : Nat
  deriving DecidableEq, Repr

/-- The registers that hold operands (R291). -/
def AtomicForm.data (f : AtomicForm) : List RegRef :=
  let k := f.n / 4 * (if f.op == .cas then 2 else 1)
  (List.range k).map fun i => .v (f.d + i)

/-- The value of n bytes in a lane of a register or a pair. -/
def Team.pairValue (t : Team) (n r l : Nat) : Nat :=
  if n = 8 then (t.v r l).toNat + 2 ^ 32 * (t.v (r + 1) l).toNat else (t.v r l).toNat

/-- The request of a lane (R292, R293). -/
def atomicReq (t : Team) (f : AtomicForm) (l : Nat) (ea : Word) (loc : Loc) : Req :=
  let first := t.pairValue f.n f.d l
  let operand := if f.op == .cas then t.pairValue f.n (f.d + f.n / 4) l else first
  { t.req l ea loc f.n (.atomic f.op operand first f.ret f.d l) with
    release := loc.isPlain && f.scope == 1
    acquire := loc.isPlain && f.scope == 3 }

/-- The requests of an atomic sent, in swath order; the line leaves the mill's lane cache (R40), and the register group is pending
when the old value returns (R292). The team holds behind an atomic that finds poison (R294). -/
def State.sendAtomic (s : State) (f : AtomicForm) (guest : Option (Word × Nat)) (lanes : List (Nat × Word × Loc)) : State :=
  let t := s.team
  let poison := lanes.any fun x => s.poisonedAt x.2.2 f.n || s.keepsPoison x.2.2
  let s1 : State := lanes.foldl (fun (s : State) x => s.removeLine t.mill x.2.2) s
  s1.begin
    { plainAccess t guest with
      dsts := if f.ret then f.data else [], acquire := f.scope != 0, hold := s.heed || poison, atomic := true
      empties := 2 ≤ f.scope.toNat }
    (lanes.map fun x => atomicReq t f x.1 x.2.1 x.2.2)

/-- The effect of an atomic (R292 to R295). -/
def State.doAtomic (f : AtomicForm) (s : State) : Res :=
  let t := s.team
  let eas := t.eas f.s f.x
  let k : AccessKind := ⟨f.plain, .atomic, f.n, if f.ret then .other else .atomic f.op⟩
  if !s.performedAt f.scope || !s.mayAccess t.uid then .wait s
  else
    let (s, ls) := State.checkLanes k s eas
    match s.accessVerdict none f.n none ls with
    | some r => r
    | none =>
      let near := ls.filterMap fun a => match a.out with
        | .at loc _ => some (a.lane, a.ea, loc)
        | _ => none
      let peers := ls.filterMap fun a => match a.out with
        | .peer m addr up _ => some (PeerWrite.mk a.lane a.ea m addr (leBytes f.n (t.pairValue f.n f.d a.lane)) up)
        | _ => none
      match s.peerWrites f.op.kind none peers with
      | .error x => .trap x s
      | .ok (s, packets) =>
        let s := if 2 ≤ f.scope.toNat then s.dropLaneCache t.mill else s
        let guest := guestOf f.n ls
        let s := ((s.sendAtomic f guest near).sendAll packets).mapTeam fun t => t.setPoint (t.pc + 4)
        s.guestPark guest near.isEmpty (some (t.pc + 4))

/-- The issue of an atomic: it is closing, and reads its data, index and base (R295). -/
def execAtomic (i : Instr) (f : AtomicForm) : State → Out :=
  execClosing i ⟨false, false, [.u f.s, .v f.x] ++ f.data, if f.ret then f.data else []⟩ (State.doAtomic f)

/-- ATOM.FADD (R291): m + o in FP32, rounded to nearest even. -/
def execAtomFadd (d : BitVec 7) (s x : BitVec 6) (r : BitVec 1) (c : BitVec 2) (p : BitVec 1) : State → Out :=
  execAtomic (.atomFadd d s x r c p) ⟨.fadd, 4, p == 1, c, r == 1, d.toNat, s.toNat, x.toNat⟩

/-- ATOM.ADD (R291): m + o. -/
def execAtomAdd (d : BitVec 7) (s x : BitVec 6) (r : BitVec 1) (c : BitVec 2) (p sz : BitVec 1) : State → Out :=
  execAtomic (.atomAdd d s x r c p sz) ⟨.add, bytesA sz, p == 1, c, r == 1, d.toNat, s.toNat, x.toNat⟩

/-- ATOM.MIN (R291): the smaller, signed. -/
def execAtomMin (d : BitVec 7) (s x : BitVec 6) (r : BitVec 1) (c : BitVec 2) (p sz : BitVec 1) : State → Out :=
  execAtomic (.atomMin d s x r c p sz) ⟨.min, bytesA sz, p == 1, c, r == 1, d.toNat, s.toNat, x.toNat⟩

/-- ATOM.MAX (R291): the larger, signed. -/
def execAtomMax (d : BitVec 7) (s x : BitVec 6) (r : BitVec 1) (c : BitVec 2) (p sz : BitVec 1) : State → Out :=
  execAtomic (.atomMax d s x r c p sz) ⟨.max, bytesA sz, p == 1, c, r == 1, d.toNat, s.toNat, x.toNat⟩

/-- ATOM.AND (R291): m AND o. -/
def execAtomAnd (d : BitVec 7) (s x : BitVec 6) (r : BitVec 1) (c : BitVec 2) (p sz : BitVec 1) : State → Out :=
  execAtomic (.atomAnd d s x r c p sz) ⟨.and, bytesA sz, p == 1, c, r == 1, d.toNat, s.toNat, x.toNat⟩

/-- ATOM.OR (R291): m OR o. -/
def execAtomOr (d : BitVec 7) (s x : BitVec 6) (r : BitVec 1) (c : BitVec 2) (p sz : BitVec 1) : State → Out :=
  execAtomic (.atomOr d s x r c p sz) ⟨.or, bytesA sz, p == 1, c, r == 1, d.toNat, s.toNat, x.toNat⟩

/-- ATOM.XOR (R291): m XOR o. -/
def execAtomXor (d : BitVec 7) (s x : BitVec 6) (r : BitVec 1) (c : BitVec 2) (p sz : BitVec 1) : State → Out :=
  execAtomic (.atomXor d s x r c p sz) ⟨.xor, bytesA sz, p == 1, c, r == 1, d.toNat, s.toNat, x.toNat⟩

/-- ATOM.XCHG (R291): o. -/
def execAtomXchg (d : BitVec 7) (s x : BitVec 6) (c : BitVec 2) (p sz : BitVec 1) : State → Out :=
  execAtomic (.atomXchg d s x c p sz) ⟨.xchg, bytesA sz, p == 1, c, true, d.toNat, s.toNat, x.toNat⟩

/-- ATOM.CAS (R291): the new value if m equals the compare value. -/
def execAtomCas (d : BitVec 7) (s x : BitVec 6) (c : BitVec 2) (p sz : BitVec 1) : State → Out :=
  execAtomic (.atomCas d s x c p sz) ⟨.cas, bytesA sz, p == 1, c, true, d.toNat, s.toNat, x.toNat⟩

end Sys2Proof.Machine
end

