-- ==== Sys2Proof/Machine/LaneOps.lean ====
section
/-! DEFINITION. The lane integer, comparison and immediate instructions (R257 to R260). -/

namespace Sys2Proof.Machine

/-- The width a width field selects (R221). -/
def widthOf (w : BitVec 2) : Width := if w = 1 then .h2 else if w = 2 then .b4 else .w32

/-- VADD (R257): A + B per element, modulo 2^w. -/
def execVadd (d a b : BitVec 7) (w : BitVec 2) : State → Out :=
  execCapturable (.vadd d a b w) false 0 (.lane (.add (widthOf w)) d.toNat [.v a.toNat, .v b.toNat])

/-- VSUB (R257): A − B per element, modulo 2^w. -/
def execVsub (d a b : BitVec 7) (w : BitVec 2) : State → Out :=
  execCapturable (.vsub d a b w) false 0 (.lane (.sub (widthOf w)) d.toNat [.v a.toNat, .v b.toNat])

/-- vmul (R257): bits [31:0] of A × B. -/
def execVmul (d a b : BitVec 7) : State → Out :=
  execCapturable (.vmul d a b) false 0 (.lane .mul d.toNat [.v a.toNat, .v b.toNat])

/-- vmulHi (R257): bits [63:32] of the signed product. -/
def execVmulHi (d a b : BitVec 7) : State → Out :=
  execCapturable (.vmulHi d a b) false 0 (.lane .mulHi d.toNat [.v a.toNat, .v b.toNat])

/-- vmulHiu (R257): bits [63:32] of the unsigned product. -/
def execVmulHiu (d a b : BitVec 7) : State → Out :=
  execCapturable (.vmulHiu d a b) false 0 (.lane .mulHiu d.toNat [.v a.toNat, .v b.toNat])

/-- vdiv (R257): the signed quotient of `Div`. -/
def execVdiv (d a b : BitVec 7) : State → Out :=
  execCapturable (.vdiv d a b) false 0 (.lane .div d.toNat [.v a.toNat, .v b.toNat])

/-- vdivU (R257): the unsigned quotient. -/
def execVdivU (d a b : BitVec 7) : State → Out :=
  execCapturable (.vdivU d a b) false 0 (.lane .divu d.toNat [.v a.toNat, .v b.toNat])

/-- vrem (R257): the signed remainder. -/
def execVrem (d a b : BitVec 7) : State → Out :=
  execCapturable (.vrem d a b) false 0 (.lane .rem d.toNat [.v a.toNat, .v b.toNat])

/-- vremU (R257): the unsigned remainder. -/
def execVremU (d a b : BitVec 7) : State → Out :=
  execCapturable (.vremU d a b) false 0 (.lane .remu d.toNat [.v a.toNat, .v b.toNat])

/-- vand (R257): A AND B. -/
def execVand (d a b : BitVec 7) : State → Out :=
  execCapturable (.vand d a b) false 0 (.lane .and d.toNat [.v a.toNat, .v b.toNat])

/-- vor (R257): A OR B. -/
def execVor (d a b : BitVec 7) : State → Out :=
  execCapturable (.vor d a b) false 0 (.lane .or d.toNat [.v a.toNat, .v b.toNat])

/-- vxor (R257): A XOR B. -/
def execVxor (d a b : BitVec 7) : State → Out :=
  execCapturable (.vxor d a b) false 0 (.lane .xor d.toNat [.v a.toNat, .v b.toNat])

/-- vandn (R257): A AND NOT B. -/
def execVandn (d a b : BitVec 7) : State → Out :=
  execCapturable (.vandn d a b) false 0 (.lane .andn d.toNat [.v a.toNat, .v b.toNat])

/-- vshl (R257): A shifted left by B[4:0]. -/
def execVshl (d a b : BitVec 7) : State → Out :=
  execCapturable (.vshl d a b) false 0 (.lane .shl d.toNat [.v a.toNat, .v b.toNat])

/-- vshr (R257): A shifted right by B[4:0], zeros in. -/
def execVshr (d a b : BitVec 7) : State → Out :=
  execCapturable (.vshr d a b) false 0 (.lane .shr d.toNat [.v a.toNat, .v b.toNat])

/-- vshrA (R257): A shifted right by B[4:0], copies of A[31] in. -/
def execVshrA (d a b : BitVec 7) : State → Out :=
  execCapturable (.vshrA d a b) false 0 (.lane .sar d.toNat [.v a.toNat, .v b.toNat])

/-- vmad (R257): bits [31:0] of A × B + `v`d. -/
def execVmad (d a b : BitVec 7) : State → Out :=
  execCapturable (.vmad d a b) false 0 (.lane .mad d.toNat [.v a.toNat, .v b.toNat, .v d.toNat])

/-- vmin (R257): the smaller per element, signed or unsigned. -/
def execVmin (d a b : BitVec 7) (u : BitVec 1) (w : BitVec 2) : State → Out :=
  execCapturable (.vmin d a b u w) false 0 (.lane (.min (widthOf w) (u == 1)) d.toNat [.v a.toNat, .v b.toNat])

/-- vmax (R257): the larger per element, signed or unsigned. -/
def execVmax (d a b : BitVec 7) (u : BitVec 1) (w : BitVec 2) : State → Out :=
  execCapturable (.vmax d a b u w) false 0 (.lane (.max (widthOf w) (u == 1)) d.toNat [.v a.toNat, .v b.toNat])

/-- vabs (R258): the absolute value modulo 2^32. -/
def execVabs (d a : BitVec 7) : State → Out :=
  execCapturable (.vabs d a) false 0 (.lane .abs d.toNat [.v a.toNat])

/-- vneg (R258): −A modulo 2^32. -/
def execVneg (d a : BitVec 7) : State → Out :=
  execCapturable (.vneg d a) false 0 (.lane .neg d.toNat [.v a.toNat])

/-- vclz (R258): leading zero bits of A. -/
def execVclz (d a : BitVec 7) : State → Out :=
  execCapturable (.vclz d a) false 0 (.lane .clz d.toNat [.v a.toNat])

/-- vpopc (R258): one bits of A. -/
def execVpopc (d a : BitVec 7) : State → Out :=
  execCapturable (.vpopc d a) false 0 (.lane .popc d.toNat [.v a.toNat])

/-- vbrev (R258): A with its bits reversed. -/
def execVbrev (d a : BitVec 7) : State → Out :=
  execCapturable (.vbrev d a) false 0 (.lane .brev d.toNat [.v a.toNat])

/-- vffs (R258): the index of the lowest one bit of A, 32 for none. -/
def execVffs (d a : BitVec 7) : State → Out :=
  execCapturable (.vffs d a) false 0 (.lane .ffs d.toNat [.v a.toNat])

/-- vbfx (R258): the field of A, zero-extended. -/
def execVbfx (d a b : BitVec 7) : State → Out :=
  execCapturable (.vbfx d a b) false 0 (.lane .bfx d.toNat [.v a.toNat, .v b.toNat])

/-- vbfxS (R258): the field of A, sign-extended. -/
def execVbfxS (d a b : BitVec 7) : State → Out :=
  execCapturable (.vbfxS d a b) false 0 (.lane .bfxs d.toNat [.v a.toNat, .v b.toNat])

/-- vbfi (R258): `v`d with its field replaced. -/
def execVbfi (d a b : BitVec 7) : State → Out :=
  execCapturable (.vbfi d a b) false 0 (.lane .bfi d.toNat [.v a.toNat, .v b.toNat, .v d.toNat])

/-- vsel (R259): A where the predicate holds 1, else B. -/
def execVsel (d a b : BitVec 7) (p : BitVec 3) : State → Out :=
  execCapturable (.vsel d a b p) false 0 (.lane .sel d.toNat [.v a.toNat, .v b.toNat, .p p.toNat])

/-- The condition that a VCMP code names (R221). -/
def integerCondition (c : BitVec 6) : LCmp :=
  match c.toNat with
  | 0 => .eq
  | 1 => .ne
  | 2 => .lt
  | 3 => .le
  | 4 => .gt
  | 5 => .ge
  | 6 => .ltu
  | 7 => .leu
  | 8 => .gtu
  | _ => .geu

/-- VCMP (R259): the predicate := A cond B. -/
def execVcmp (p : BitVec 4) (a b : BitVec 7) (c : BitVec 6) : State → Out :=
  execCapturable (.vcmp p a b c) false 0 (.lcmp (integerCondition c) p.toNat a.toNat b.toNat)

/-- vaddi (R260): A and the immediate, sign-extended. -/
def execVaddi (d a : BitVec 7) (imm : BitVec 10) : State → Out :=
  execCapturable (.vaddi d a imm) false 0 (.lane (.add .w32) d.toNat [.v a.toNat, .imm (imm.signExtend 32)])

/-- vmuli (R260): A and the immediate, sign-extended. -/
def execVmuli (d a : BitVec 7) (imm : BitVec 10) : State → Out :=
  execCapturable (.vmuli d a imm) false 0 (.lane .mul d.toNat [.v a.toNat, .imm (imm.signExtend 32)])

/-- vandi (R260): A and the immediate, zero-extended. -/
def execVandi (d a : BitVec 7) (imm : BitVec 10) : State → Out :=
  execCapturable (.vandi d a imm) false 0 (.lane .and d.toNat [.v a.toNat, .imm (imm.setWidth 32)])

/-- vori (R260): A and the immediate, zero-extended. -/
def execVori (d a : BitVec 7) (imm : BitVec 10) : State → Out :=
  execCapturable (.vori d a imm) false 0 (.lane .or d.toNat [.v a.toNat, .imm (imm.setWidth 32)])

/-- vxori (R260): A and the immediate, zero-extended. -/
def execVxori (d a : BitVec 7) (imm : BitVec 10) : State → Out :=
  execCapturable (.vxori d a imm) false 0 (.lane .xor d.toNat [.v a.toNat, .imm (imm.setWidth 32)])

/-- vshli (R260): A shifted by the immediate. -/
def execVshli (d a : BitVec 7) (k : BitVec 5) : State → Out :=
  execCapturable (.vshli d a k) false 0 (.lane .shl d.toNat [.v a.toNat, .imm (k.setWidth 32)])

/-- vshri (R260): A shifted by the immediate. -/
def execVshri (d a : BitVec 7) (k : BitVec 5) : State → Out :=
  execCapturable (.vshri d a k) false 0 (.lane .shr d.toNat [.v a.toNat, .imm (k.setWidth 32)])

/-- vsari (R260): A shifted by the immediate. -/
def execVsari (d a : BitVec 7) (k : BitVec 5) : State → Out :=
  execCapturable (.vsari d a k) false 0 (.lane .sar d.toNat [.v a.toNat, .imm (k.setWidth 32)])

/-- vmovi (R260): SignExt16 of the 16-bit immediate. -/
def execVmovi (d : BitVec 7) (hi : BitVec 6) (imm : BitVec 10) : State → Out :=
  execCapturable (.vmovi d hi imm) false 0 (.lane .mov d.toNat [.imm ((hi ++ imm).signExtend 32)])

/-- vmovs (R260): `s`a[31:0] in every active lane. -/
def execVmovs (d : BitVec 7) (a : BitVec 6) : State → Out :=
  execCapturable (.vmovs d a) false 0 (.lane .mov d.toNat [.u a.toNat false])

/-- vmovsHi (R260): `s`a[63:32] in every active lane. -/
def execVmovsHi (d : BitVec 7) (a : BitVec 6) : State → Out :=
  execCapturable (.vmovsHi d a) false 0 (.lane .mov d.toNat [.u a.toNat true])

/-- vlane (R260): the lane in the team, in the swath or in the plot, or the swath index. -/
def execVlane (d : BitVec 7) (k : BitVec 10) : State → Out :=
  execCapturable (.vlane d k) false 0 (.lane .mov d.toNat [.index k.toNat])

/-- vlea (R260): (A shifted left by sh) + SignExt(off). -/
def execVlea (d a : BitVec 7) (off : BitVec 8) (sh : BitVec 2) : State → Out :=
  execCapturable (.vlea d a off sh) false 0 (.lane (.lea sh.toNat) d.toNat [.v a.toNat, .imm (off.signExtend 32)])

end Sys2Proof.Machine
end

