-- ==== Sys2Proof/Machine/Uniform.lean ====
section
/-! DEFINITION. The uniform arithmetic, loads and stores (R232 to R235). -/

namespace Sys2Proof.Machine

/-- SADD (R232): `s`d := A + B modulo 2^64. -/
def execSadd (d a b : BitVec 6) : State → Out :=
  execCapturable (.sadd d a b) false 0 (.uni .add d.toNat (.reg a.toNat) (.reg b.toNat))

/-- SSUB (R232): `s`d := A − B modulo 2^64. -/
def execSsub (d a b : BitVec 6) : State → Out :=
  execCapturable (.ssub d a b) false 0 (.uni .sub d.toNat (.reg a.toNat) (.reg b.toNat))

/-- SMUL (R232): `s`d := bits [63:0] of A × B. -/
def execSmul (d a b : BitVec 6) : State → Out :=
  execCapturable (.smul d a b) false 0 (.uni .mul d.toNat (.reg a.toNat) (.reg b.toNat))

/-- SMULH (R232): `s`d := bits [127:64] of the signed product. -/
def execSmulh (d a b : BitVec 6) : State → Out :=
  execCapturable (.smulh d a b) false 0 (.uni .mulh d.toNat (.reg a.toNat) (.reg b.toNat))

/-- SMULHU (R232): `s`d := bits [127:64] of the unsigned product. -/
def execSmulhu (d a b : BitVec 6) : State → Out :=
  execCapturable (.smulhu d a b) false 0 (.uni .mulhu d.toNat (.reg a.toNat) (.reg b.toNat))

/-- SDIV (R232): `s`d := the signed quotient of `Div` (R199). -/
def execSdiv (d a b : BitVec 6) : State → Out :=
  execCapturable (.sdiv d a b) false 0 (.uni .div d.toNat (.reg a.toNat) (.reg b.toNat))

/-- SDIVU (R232): `s`d := the unsigned quotient of `Div`. -/
def execSdivu (d a b : BitVec 6) : State → Out :=
  execCapturable (.sdivu d a b) false 0 (.uni .divu d.toNat (.reg a.toNat) (.reg b.toNat))

/-- SREM (R232): `s`d := the signed remainder of `Div`. -/
def execSrem (d a b : BitVec 6) : State → Out :=
  execCapturable (.srem d a b) false 0 (.uni .rem d.toNat (.reg a.toNat) (.reg b.toNat))

/-- SREMU (R232): `s`d := the unsigned remainder of `Div`. -/
def execSremu (d a b : BitVec 6) : State → Out :=
  execCapturable (.sremu d a b) false 0 (.uni .remu d.toNat (.reg a.toNat) (.reg b.toNat))

/-- SAND (R232): `s`d := A AND B. -/
def execSand (d a b : BitVec 6) : State → Out :=
  execCapturable (.sand d a b) false 0 (.uni .and d.toNat (.reg a.toNat) (.reg b.toNat))

/-- SOR (R232): `s`d := A OR B. -/
def execSor (d a b : BitVec 6) : State → Out :=
  execCapturable (.sor d a b) false 0 (.uni .or d.toNat (.reg a.toNat) (.reg b.toNat))

/-- SXOR (R232): `s`d := A XOR B. -/
def execSxor (d a b : BitVec 6) : State → Out :=
  execCapturable (.sxor d a b) false 0 (.uni .xor d.toNat (.reg a.toNat) (.reg b.toNat))

/-- SSHL (R232): `s`d := A shifted left by B[5:0]. -/
def execSshl (d a b : BitVec 6) : State → Out :=
  execCapturable (.sshl d a b) false 0 (.uni .shl d.toNat (.reg a.toNat) (.reg b.toNat))

/-- SSHR (R232): `s`d := A shifted right by B[5:0], zeros in. -/
def execSshr (d a b : BitVec 6) : State → Out :=
  execCapturable (.sshr d a b) false 0 (.uni .shr d.toNat (.reg a.toNat) (.reg b.toNat))

/-- SSAR (R232): `s`d := A shifted right by B[5:0], copies of A[63] in. -/
def execSsar (d a b : BitVec 6) : State → Out :=
  execCapturable (.ssar d a b) false 0 (.uni .sar d.toNat (.reg a.toNat) (.reg b.toNat))

/-- SMIN (R232): `s`d := the smaller, signed. -/
def execSmin (d a b : BitVec 6) : State → Out :=
  execCapturable (.smin d a b) false 0 (.uni .min d.toNat (.reg a.toNat) (.reg b.toNat))

/-- SMAX (R232): `s`d := the larger, signed. -/
def execSmax (d a b : BitVec 6) : State → Out :=
  execCapturable (.smax d a b) false 0 (.uni .max d.toNat (.reg a.toNat) (.reg b.toNat))

/-- SMINU (R232): `s`d := the smaller, unsigned. -/
def execSminu (d a b : BitVec 6) : State → Out :=
  execCapturable (.sminu d a b) false 0 (.uni .minu d.toNat (.reg a.toNat) (.reg b.toNat))

/-- SMAXU (R232): `s`d := the larger, unsigned. -/
def execSmaxu (d a b : BitVec 6) : State → Out :=
  execCapturable (.smaxu d a b) false 0 (.uni .maxu d.toNat (.reg a.toNat) (.reg b.toNat))

/-- SSLT (R232): `s`d := 1 if A < B signed, else 0. -/
def execSslt (d a b : BitVec 6) : State → Out :=
  execCapturable (.sslt d a b) false 0 (.uni .slt d.toNat (.reg a.toNat) (.reg b.toNat))

/-- SSLTU (R232): `s`d := 1 if A < B unsigned, else 0. -/
def execSsltu (d a b : BitVec 6) : State → Out :=
  execCapturable (.ssltu d a b) false 0 (.uni .sltu d.toNat (.reg a.toNat) (.reg b.toNat))

/-- SSEQ (R232): `s`d := 1 if A = B, else 0. -/
def execSseq (d a b : BitVec 6) : State → Out :=
  execCapturable (.sseq d a b) false 0 (.uni .seq d.toNat (.reg a.toNat) (.reg b.toNat))

/-- SMOV (R232): `s`d := A. -/
def execSmov (d a : BitVec 6) : State → Out :=
  execCapturable (.smov d a) false 0 (.uni .mov d.toNat (.reg a.toNat) (.imm 0))

/-- SCLZ (R232): `s`d := the number of leading zero bits of A. -/
def execSclz (d a : BitVec 6) : State → Out :=
  execCapturable (.sclz d a) false 0 (.uni .clz d.toNat (.reg a.toNat) (.imm 0))

/-- SPOPC (R232): `s`d := the number of one bits of A. -/
def execSpopc (d a : BitVec 6) : State → Out :=
  execCapturable (.spopc d a) false 0 (.uni .popc d.toNat (.reg a.toNat) (.imm 0))

/-- SADDI (R233): `s`d := A + I modulo 2^64. -/
def execSaddi (d a : BitVec 6) (imm : BitVec 12) : State → Out :=
  execCapturable (.saddi d a imm) false 0 (.uni .add d.toNat (.reg a.toNat) (.imm (imm.signExtend 64)))

/-- SANDI (R233): `s`d := A AND I. -/
def execSandi (d a : BitVec 6) (imm : BitVec 12) : State → Out :=
  execCapturable (.sandi d a imm) false 0 (.uni .and d.toNat (.reg a.toNat) (.imm (imm.setWidth 64)))

/-- SORI (R233): `s`d := A OR I. -/
def execSori (d a : BitVec 6) (imm : BitVec 12) : State → Out :=
  execCapturable (.sori d a imm) false 0 (.uni .or d.toNat (.reg a.toNat) (.imm (imm.setWidth 64)))

/-- SXORI (R233): `s`d := A XOR I. -/
def execSxori (d a : BitVec 6) (imm : BitVec 12) : State → Out :=
  execCapturable (.sxori d a imm) false 0 (.uni .xor d.toNat (.reg a.toNat) (.imm (imm.setWidth 64)))

/-- SSLTI (R233): `s`d := 1 if A < I signed, else 0. -/
def execSslti (d a : BitVec 6) (imm : BitVec 12) : State → Out :=
  execCapturable (.sslti d a imm) false 0 (.uni .slt d.toNat (.reg a.toNat) (.imm (imm.signExtend 64)))

/-- SSHLI (R233): A shifted by the immediate, as SSHL. -/
def execSshli (d a k : BitVec 6) : State → Out :=
  execCapturable (.sshli d a k) false 0 (.uni .shl d.toNat (.reg a.toNat) (.imm (k.setWidth 64)))

/-- SSHRI (R233): A shifted by the immediate, as SSHR. -/
def execSshri (d a k : BitVec 6) : State → Out :=
  execCapturable (.sshri d a k) false 0 (.uni .shr d.toNat (.reg a.toNat) (.imm (k.setWidth 64)))

/-- SSARI (R233): A shifted by the immediate, as SSAR. -/
def execSsari (d a k : BitVec 6) : State → Out :=
  execCapturable (.ssari d a k) false 0 (.uni .sar d.toNat (.reg a.toNat) (.imm (k.setWidth 64)))

/-- SLUI (R234): `s`d[31:14] := imm18, zeros below, copies of its top bit above. -/
def execSlui (d : BitVec 6) (imm : BitVec 18) : State → Out :=
  execCapturable (.slui d imm) false 0 (.uni .mov d.toNat (.imm ((imm ++ (0 : BitVec 14)).signExtend 64)) (.imm 0))

/-- SLUIH (R234): `s`d[63:46] := imm18, the other bits unchanged. -/
def execSluih (d : BitVec 6) (imm : BitVec 18) : State → Out :=
  execCapturable (.sluih d imm) false 0 (.uni .insertHigh d.toNat (.reg d.toNat) (.imm (imm.setWidth 64)))

/-- The target of an offset counted in halfwords (R216). -/
def halfwordTarget {w : Nat} (pc : Word) (off : BitVec w) : Word := pc + off.signExtend 64 * 2

/-- SLEA (R234): `s`d := the address of the SLEA + SignExt(imm18) × 2. -/
def execSlea (d : BitVec 6) (imm : BitVec 18) (s : State) : Out :=
  execCapturable (.slea d imm) false 0 (.uni .mov d.toNat (.imm (halfwordTarget s.team.pc imm)) (.imm 0)) s

/-- The byte offset of a uniform access: SignExt(off9) × size (R235). -/
def uniformOffset (off : BitVec 9) (n : Nat) : Word := off.signExtend 64 * BitVec.ofNat 64 n

/-- SLD (R235): a uniform load into `s`d at `s`a + SignExt(off9) × size. -/
def execSld (d a : BitVec 6) (off : BitVec 9) (p : BitVec 1) (sz : BitVec 2) : State → Out :=
  execCapturable (.sld d a off p sz) false 0 (.umem true (p == 1) (2 ^ sz.toNat) (uniformOffset off (2 ^ sz.toNat)) a.toNat d.toNat)

/-- SST (R235): a uniform store of `s`d at `s`a + SignExt(off9) × size. -/
def execSst (d a : BitVec 6) (off : BitVec 9) (p : BitVec 1) (sz : BitVec 2) : State → Out :=
  execCapturable (.sst d a off p sz) false 0 (.umem false (p == 1) (2 ^ sz.toNat) (uniformOffset off (2 ^ sz.toNat)) a.toNat d.toNat)

end Sys2Proof.Machine
end

