-- ==== Sys2Proof/Machine/Dispatch.lean ====
section
/-! DEFINITION. Which meaning each instruction and each step without an encoding has. -/

namespace Sys2Proof.Machine

/-- The meaning of an instruction or an event. -/
def exec (i : Instr) (s : State) : Host.Outcome State Fault Refusal :=
  match i with
  | .sadd d a b => Sys2Proof.Machine.execSadd d a b s
  | .ssub d a b => Sys2Proof.Machine.execSsub d a b s
  | .smul d a b => Sys2Proof.Machine.execSmul d a b s
  | .smulh d a b => Sys2Proof.Machine.execSmulh d a b s
  | .smulhu d a b => Sys2Proof.Machine.execSmulhu d a b s
  | .sdiv d a b => Sys2Proof.Machine.execSdiv d a b s
  | .sdivu d a b => Sys2Proof.Machine.execSdivu d a b s
  | .srem d a b => Sys2Proof.Machine.execSrem d a b s
  | .sremu d a b => Sys2Proof.Machine.execSremu d a b s
  | .sand d a b => Sys2Proof.Machine.execSand d a b s
  | .sor d a b => Sys2Proof.Machine.execSor d a b s
  | .sxor d a b => Sys2Proof.Machine.execSxor d a b s
  | .sshl d a b => Sys2Proof.Machine.execSshl d a b s
  | .sshr d a b => Sys2Proof.Machine.execSshr d a b s
  | .ssar d a b => Sys2Proof.Machine.execSsar d a b s
  | .smin d a b => Sys2Proof.Machine.execSmin d a b s
  | .smax d a b => Sys2Proof.Machine.execSmax d a b s
  | .sminu d a b => Sys2Proof.Machine.execSminu d a b s
  | .smaxu d a b => Sys2Proof.Machine.execSmaxu d a b s
  | .sslt d a b => Sys2Proof.Machine.execSslt d a b s
  | .ssltu d a b => Sys2Proof.Machine.execSsltu d a b s
  | .sseq d a b => Sys2Proof.Machine.execSseq d a b s
  | .smov d a => Sys2Proof.Machine.execSmov d a s
  | .sclz d a => Sys2Proof.Machine.execSclz d a s
  | .spopc d a => Sys2Proof.Machine.execSpopc d a s
  | .saddi d a imm => Sys2Proof.Machine.execSaddi d a imm s
  | .sandi d a imm => Sys2Proof.Machine.execSandi d a imm s
  | .sori d a imm => Sys2Proof.Machine.execSori d a imm s
  | .sxori d a imm => Sys2Proof.Machine.execSxori d a imm s
  | .sshli d a k => Sys2Proof.Machine.execSshli d a k s
  | .sshri d a k => Sys2Proof.Machine.execSshri d a k s
  | .ssari d a k => Sys2Proof.Machine.execSsari d a k s
  | .sslti d a imm => Sys2Proof.Machine.execSslti d a imm s
  | .slui d imm => Sys2Proof.Machine.execSlui d imm s
  | .sluih d imm => Sys2Proof.Machine.execSluih d imm s
  | .slea d imm => Sys2Proof.Machine.execSlea d imm s
  | .sld d a off p sz => Sys2Proof.Machine.execSld d a off p sz s
  | .sst d a off p sz => Sys2Proof.Machine.execSst d a off p sz s
  | .sgets d n => Sys2Proof.Machine.execSgets d n s
  | .ssets a n => Sys2Proof.Machine.execSsets a n s
  | .bra off => Sys2Proof.Machine.execBra off s
  | .call off => Sys2Proof.Machine.execCall off s
  | .jmp a off => Sys2Proof.Machine.execJmp a off s
  | .jmpl d a off => Sys2Proof.Machine.execJmpl d a off s
  | .bsz sr off => Sys2Proof.Machine.execBsz sr off s
  | .bsnz sr off => Sys2Proof.Machine.execBsnz sr off s
  | .bany p off => Sys2Proof.Machine.execBany p off s
  | .ball p off => Sys2Proof.Machine.execBall p off s
  | .bnone p off => Sys2Proof.Machine.execBnone p off s
  | .ifp p => Sys2Proof.Machine.execIfp p s
  | .ifpN p => Sys2Proof.Machine.execIfpN p s
  | .mset p => Sys2Proof.Machine.execMset p s
  | .mget p => Sys2Proof.Machine.execMget p s
  | .sleep n => Sys2Proof.Machine.execSleep n s
  | .defer m => Sys2Proof.Machine.execDefer m s
  | .fbpt n => Sys2Proof.Machine.execFbpt n s
  | .plot sr => Sys2Proof.Machine.execPlot sr s
  | .rdv k => Sys2Proof.Machine.execRdv k s
  | .give g => Sys2Proof.Machine.execGive g s
  | .take g => Sys2Proof.Machine.execTake g s
  | .fork d a => Sys2Proof.Machine.execFork d a s
  | .join d a => Sys2Proof.Machine.execJoin d a s
  | .modeset e r => Sys2Proof.Machine.execModeset e r s
  | .modeclr e => Sys2Proof.Machine.execModeclr e s
  | .time d => Sys2Proof.Machine.execTime d s
  | .vadd d a b w => Sys2Proof.Machine.execVadd d a b w s
  | .vsub d a b w => Sys2Proof.Machine.execVsub d a b w s
  | .vmul d a b => Sys2Proof.Machine.execVmul d a b s
  | .vmulHi d a b => Sys2Proof.Machine.execVmulHi d a b s
  | .vmulHiu d a b => Sys2Proof.Machine.execVmulHiu d a b s
  | .vmad d a b => Sys2Proof.Machine.execVmad d a b s
  | .vdiv d a b => Sys2Proof.Machine.execVdiv d a b s
  | .vdivU d a b => Sys2Proof.Machine.execVdivU d a b s
  | .vrem d a b => Sys2Proof.Machine.execVrem d a b s
  | .vremU d a b => Sys2Proof.Machine.execVremU d a b s
  | .vand d a b => Sys2Proof.Machine.execVand d a b s
  | .vor d a b => Sys2Proof.Machine.execVor d a b s
  | .vxor d a b => Sys2Proof.Machine.execVxor d a b s
  | .vandn d a b => Sys2Proof.Machine.execVandn d a b s
  | .vshl d a b => Sys2Proof.Machine.execVshl d a b s
  | .vshr d a b => Sys2Proof.Machine.execVshr d a b s
  | .vshrA d a b => Sys2Proof.Machine.execVshrA d a b s
  | .vmin d a b u w => Sys2Proof.Machine.execVmin d a b u w s
  | .vmax d a b u w => Sys2Proof.Machine.execVmax d a b u w s
  | .vabs d a => Sys2Proof.Machine.execVabs d a s
  | .vneg d a => Sys2Proof.Machine.execVneg d a s
  | .vclz d a => Sys2Proof.Machine.execVclz d a s
  | .vpopc d a => Sys2Proof.Machine.execVpopc d a s
  | .vbrev d a => Sys2Proof.Machine.execVbrev d a s
  | .vffs d a => Sys2Proof.Machine.execVffs d a s
  | .vbfx d a b => Sys2Proof.Machine.execVbfx d a b s
  | .vbfxS d a b => Sys2Proof.Machine.execVbfxS d a b s
  | .vbfi d a b => Sys2Proof.Machine.execVbfi d a b s
  | .vsel d a b p => Sys2Proof.Machine.execVsel d a b p s
  | .vcmp p a b c => Sys2Proof.Machine.execVcmp p a b c s
  | .vaddi d a imm => Sys2Proof.Machine.execVaddi d a imm s
  | .vandi d a imm => Sys2Proof.Machine.execVandi d a imm s
  | .vori d a imm => Sys2Proof.Machine.execVori d a imm s
  | .vxori d a imm => Sys2Proof.Machine.execVxori d a imm s
  | .vshli d a k => Sys2Proof.Machine.execVshli d a k s
  | .vshri d a k => Sys2Proof.Machine.execVshri d a k s
  | .vsari d a k => Sys2Proof.Machine.execVsari d a k s
  | .vmovi d hi imm => Sys2Proof.Machine.execVmovi d hi imm s
  | .vmovs d sr => Sys2Proof.Machine.execVmovs d sr s
  | .vmovsHi d sr => Sys2Proof.Machine.execVmovsHi d sr s
  | .vlane d k => Sys2Proof.Machine.execVlane d k s
  | .vlea d a off hint => Sys2Proof.Machine.execVlea d a off hint s
  | .vmuli d a imm => Sys2Proof.Machine.execVmuli d a imm s
  | .fadd d a b r => Sys2Proof.Machine.execFadd d a b r s
  | .fsub d a b r => Sys2Proof.Machine.execFsub d a b r s
  | .fmul d a b r => Sys2Proof.Machine.execFmul d a b r s
  | .ffma d a b r => Sys2Proof.Machine.execFfma d a b r s
  | .ffms d a b r => Sys2Proof.Machine.execFfms d a b r s
  | .fdiv d a b r => Sys2Proof.Machine.execFdiv d a b r s
  | .fsqrt d a r => Sys2Proof.Machine.execFsqrt d a r s
  | .fmin d a b => Sys2Proof.Machine.execFmin d a b s
  | .fmax d a b => Sys2Proof.Machine.execFmax d a b s
  | .fabs d a => Sys2Proof.Machine.execFabs d a s
  | .fneg d a => Sys2Proof.Machine.execFneg d a s
  | .fcpsgn d a b => Sys2Proof.Machine.execFcpsgn d a b s
  | .fcmp p a b c => Sys2Proof.Machine.execFcmp p a b c s
  | .fclass d a => Sys2Proof.Machine.execFclass d a s
  | .frcp d a => Sys2Proof.Machine.execFrcp d a s
  | .frsq d a => Sys2Proof.Machine.execFrsq d a s
  | .fex2 d a => Sys2Proof.Machine.execFex2 d a s
  | .flg2 d a => Sys2Proof.Machine.execFlg2 d a s
  | .fsin d a => Sys2Proof.Machine.execFsin d a s
  | .fcos d a => Sys2Proof.Machine.execFcos d a s
  | .ftanh d a => Sys2Proof.Machine.execFtanh d a s
  | .hadd2 d a b f r => Sys2Proof.Machine.execHadd2 d a b f r s
  | .hsub2 d a b f r => Sys2Proof.Machine.execHsub2 d a b f r s
  | .hmul2 d a b f r => Sys2Proof.Machine.execHmul2 d a b f r s
  | .hfma2 d a b f r => Sys2Proof.Machine.execHfma2 d a b f r s
  | .hfms2 d a b f r => Sys2Proof.Machine.execHfms2 d a b f r s
  | .hmin2 d a b f => Sys2Proof.Machine.execHmin2 d a b f s
  | .hmax2 d a b f => Sys2Proof.Machine.execHmax2 d a b f s
  | .cvt d a t f r => Sys2Proof.Machine.execCvt d a t f r s
  | .rnd d => Sys2Proof.Machine.execRnd d s
  | .rndLog d => Sys2Proof.Machine.execRndLog d s
  | .hrnd d a sr => Sys2Proof.Machine.execHrnd d a sr s
  | .packH d a b => Sys2Proof.Machine.execPackH d a b s
  | .packB d a b => Sys2Proof.Machine.execPackB d a b s
  | .unpackH d a b => Sys2Proof.Machine.execUnpackH d a b s
  | .unpackB d a b => Sys2Proof.Machine.execUnpackB d a b s
  | .shflIdx d a b => Sys2Proof.Machine.execShflIdx d a b s
  | .shflUp d a b => Sys2Proof.Machine.execShflUp d a b s
  | .shflDown d a b => Sys2Proof.Machine.execShflDown d a b s
  | .shflXor d a b => Sys2Proof.Machine.execShflXor d a b s
  | .voteAny p q => Sys2Proof.Machine.execVoteAny p q s
  | .voteAll p q => Sys2Proof.Machine.execVoteAll p q s
  | .voteEq p a => Sys2Proof.Machine.execVoteEq p a s
  | .vred d a op => Sys2Proof.Machine.execVred d a op s
  | .vscan d a op => Sys2Proof.Machine.execVscan d a op s
  | .matchBits d a b => Sys2Proof.Machine.execMatchBits d a b s
  | .matchFloat d a b => Sys2Proof.Machine.execMatchFloat d a b s
  | .bcast d a sr => Sys2Proof.Machine.execBcast d a sr s
  | .sread d a b => Sys2Proof.Machine.execSread d a b s
  | .ldg d sr x hint sz => Sys2Proof.Machine.execLdg d sr x hint sz s
  | .stg d sr x hint sz => Sys2Proof.Machine.execStg d sr x hint sz s
  | .ldp d sr x sz => Sys2Proof.Machine.execLdp d sr x sz s
  | .stp d sr x sz => Sys2Proof.Machine.execStp d sr x sz s
  | .lda d sr x c p sz => Sys2Proof.Machine.execLda d sr x c p sz s
  | .stl d sr x c p sz => Sys2Proof.Machine.execStl d sr x c p sz s
  | .fence c => Sys2Proof.Machine.execFence c s
  | .pref sr x => Sys2Proof.Machine.execPref sr x s
  | .atomFadd d sr x r c p => Sys2Proof.Machine.execAtomFadd d sr x r c p s
  | .atomAdd d sr x r c p sz => Sys2Proof.Machine.execAtomAdd d sr x r c p sz s
  | .atomMin d sr x r c p sz => Sys2Proof.Machine.execAtomMin d sr x r c p sz s
  | .atomMax d sr x r c p sz => Sys2Proof.Machine.execAtomMax d sr x r c p sz s
  | .atomAnd d sr x r c p sz => Sys2Proof.Machine.execAtomAnd d sr x r c p sz s
  | .atomOr d sr x r c p sz => Sys2Proof.Machine.execAtomOr d sr x r c p sz s
  | .atomXor d sr x r c p sz => Sys2Proof.Machine.execAtomXor d sr x r c p sz s
  | .atomXchg d sr x c p sz => Sys2Proof.Machine.execAtomXchg d sr x c p sz s
  | .atomCas d sr x c p sz => Sys2Proof.Machine.execAtomCas d sr x c p sz s
  | .claim c a b p v => Sys2Proof.Machine.execClaim c a b p v s
  | .flow c a b all => Sys2Proof.Machine.execFlow c a b all s
  | .unclaim c => Sys2Proof.Machine.execUnclaim c s
  | .clstat d c => Sys2Proof.Machine.execClstat d c s
  | .acarm a b => Sys2Proof.Machine.execAcarm a b s
  | .acwait d a => Sys2Proof.Machine.execAcwait d a s
  | .acadd a b => Sys2Proof.Machine.execAcadd a b s
  | .acrst a => Sys2Proof.Machine.execAcrst a s
  | .acread d a w => Sys2Proof.Machine.execAcread d a w s
  | .stepq d k b => Sys2Proof.Machine.execStepq d k b s
  | .gsubmit d a => Sys2Proof.Machine.execGsubmit d a s
  | .coll n t a b op k => Sys2Proof.Machine.execColl n t a b op k s
  | .a2av a b => Sys2Proof.Machine.execA2av a b s
  | .tld t a b m => Sys2Proof.Machine.execTld t a b m s
  | .tldD t a b m => Sys2Proof.Machine.execTldD t a b m s
  | .tst t a b => Sys2Proof.Machine.execTst t a b s
  | .tstD t a => Sys2Proof.Machine.execTstD t a s
  | .mma c a b sr f => Sys2Proof.Machine.execMma c a b sr f s
  | .aclr d => Sys2Proof.Machine.execAclr d s
  | .ascale d b r => Sys2Proof.Machine.execAscale d b r s
  | .abias d b r => Sys2Proof.Machine.execAbias d b r s
  | .amov d a r => Sys2Proof.Machine.execAmov d a r s
  | .amovQ d a b r => Sys2Proof.Machine.execAmovQ d a b r s
  | .ttrn d a => Sys2Proof.Machine.execTtrn d a s
  | .mlease n => Sys2Proof.Machine.execMlease n s
  | .tzero t => Sys2Proof.Machine.execTzero t s
  | .tlbinv a => Sys2Proof.Machine.execTlbinv a s
  | .keyld a b => Sys2Proof.Machine.execKeyld a b s
  | .keydel a => Sys2Proof.Machine.execKeydel a s
  | .pquota d a b => Sys2Proof.Machine.execPquota d a b s
  | .csrr d a => Sys2Proof.Machine.execCsrr d a s
  | .csrw a b => Sys2Proof.Machine.execCsrw a b s
  | .trap c => Sys2Proof.Machine.execTrap c s
  | .brk c => Sys2Proof.Machine.execBrk c s
  | .vmovC d sr => Sys2Proof.Machine.execVmovC d sr s
  | .vaddC d sr => Sys2Proof.Machine.execVaddC d sr s
  | .vsubC d sr => Sys2Proof.Machine.execVsubC d sr s
  | .vmulC d sr => Sys2Proof.Machine.execVmulC d sr s
  | .vandC d sr => Sys2Proof.Machine.execVandC d sr s
  | .vorC d sr => Sys2Proof.Machine.execVorC d sr s
  | .vxorC d sr => Sys2Proof.Machine.execVxorC d sr s
  | .vshlC d sr => Sys2Proof.Machine.execVshlC d sr s
  | .vshrC d sr => Sys2Proof.Machine.execVshrC d sr s
  | .vshrAC d sr => Sys2Proof.Machine.execVshrAC d sr s
  | .faddC d sr => Sys2Proof.Machine.execFaddC d sr s
  | .hadd2Bf16C d sr => Sys2Proof.Machine.execHadd2Bf16C d sr s
  | .fsubC d sr => Sys2Proof.Machine.execFsubC d sr s
  | .hsub2Bf16C d sr => Sys2Proof.Machine.execHsub2Bf16C d sr s
  | .fmulC d sr => Sys2Proof.Machine.execFmulC d sr s
  | .hmul2Bf16C d sr => Sys2Proof.Machine.execHmul2Bf16C d sr s
  | .vminC d sr => Sys2Proof.Machine.execVminC d sr s
  | .vminUC d sr => Sys2Proof.Machine.execVminUC d sr s
  | .vmaxC d sr => Sys2Proof.Machine.execVmaxC d sr s
  | .vmaxUC d sr => Sys2Proof.Machine.execVmaxUC d sr s
  | .fminC d sr => Sys2Proof.Machine.execFminC d sr s
  | .hmin2Bf16C d sr => Sys2Proof.Machine.execHmin2Bf16C d sr s
  | .fmaxC d sr => Sys2Proof.Machine.execFmaxC d sr s
  | .hmax2Bf16C d sr => Sys2Proof.Machine.execHmax2Bf16C d sr s
  | .sleepExpiry team => Sys2Proof.Machine.execSleepExpiry team s
  | .claimHeld team answer => Sys2Proof.Machine.execClaimHeld team answer s
  | .flowStart team => Sys2Proof.Machine.execFlowStart team s
  | .closureRun team => Sys2Proof.Machine.execClosureRun team s
  | .memoryRequestComplete request ecc => Sys2Proof.Machine.execMemoryRequestComplete request ecc s
  | .bankServe slice bank ecc => Sys2Proof.Machine.execBankServe slice bank ecc s
  | .walk walk => Sys2Proof.Machine.execWalk walk s
  | .basinRebuildDone line parity => Sys2Proof.Machine.execBasinRebuildDone line parity s
  | .migrateOnTouchCopyDone migration => Sys2Proof.Machine.execMigrateOnTouchCopyDone migration s
  | .migrateOnTouchInvalAck migration => Sys2Proof.Machine.execMigrateOnTouchInvalAck migration s
  | .migrationCommand vd => Sys2Proof.Machine.execMigrationCommand vd s
  | .optMigrationCopyDone migration => Sys2Proof.Machine.execOptMigrationCopyDone migration s
  | .optMigrationSwapDone migration => Sys2Proof.Machine.execOptMigrationSwapDone migration s
  | .optMigrationDrainAck migration => Sys2Proof.Machine.execOptMigrationDrainAck migration s
  | .keyRetire index => Sys2Proof.Machine.execKeyRetire index s
  | .peerReservation source vd addresses sizes => Sys2Proof.Machine.execPeerReservation source vd addresses sizes s
  | .flowChunkAccept flow offset => Sys2Proof.Machine.execFlowChunkAccept flow offset s
  | .promotionRequest promotion => Sys2Proof.Machine.execPromotionRequest promotion s
  | .promotionAnswer promotion => Sys2Proof.Machine.execPromotionAnswer promotion s
  | .stepGrant vd target step slines mlines => Sys2Proof.Machine.execStepGrant vd target step slines mlines s
  | .stepPacket entry => Sys2Proof.Machine.execStepPacket entry s
  | .peerLoadRequest source load address bytes step => Sys2Proof.Machine.execPeerLoadRequest source load address bytes step s
  | .boundaryEndMessage vd source step lines => Sys2Proof.Machine.execBoundaryEndMessage vd source step lines s
  | .enterBarrierDone vd step => Sys2Proof.Machine.execEnterBarrierDone vd step s
  | .commitDone vd step => Sys2Proof.Machine.execCommitDone vd step s
  | .commitBarrierDone vd step => Sys2Proof.Machine.execCommitBarrierDone vd step s
  | .reductionSlotGrant collective => Sys2Proof.Machine.execReductionSlotGrant collective s
  | .collectiveLand collective offset others => Sys2Proof.Machine.execCollectiveLand collective offset others s
  | .a2avCounts exchange counts => Sys2Proof.Machine.execA2avCounts exchange counts s
  | .peerDown target => Sys2Proof.Machine.execPeerDown target s
  | .portStateChange port up degraded neighbour => Sys2Proof.Machine.execPortStateChange port up degraded neighbour s
  | .lossNotice target alternate => Sys2Proof.Machine.execLossNotice target alternate s
  | .fabricFlitReceive port good queued source => Sys2Proof.Machine.execFabricFlitReceive port good queued source s
  | .congestionNotice target => Sys2Proof.Machine.execCongestionNotice target s
  | .congestionRecovery target => Sys2Proof.Machine.execCongestionRecovery target s
  | .fabricLaunchPacket source entry args => Sys2Proof.Machine.execFabricLaunchPacket source entry args s
  | .fabricLaunchRefusal vd entry target => Sys2Proof.Machine.execFabricLaunchRefusal vd entry target s
  | .tailLineSnoop vd queue => Sys2Proof.Machine.execTailLineSnoop vd queue s
  | .submissionRead vd queue => Sys2Proof.Machine.execSubmissionRead vd queue s
  | .submission vd => Sys2Proof.Machine.execSubmission vd s
  | .workgroupPlace vd place => Sys2Proof.Machine.execWorkgroupPlace vd place s
  | .copyNodeStart graph node => Sys2Proof.Machine.execCopyNodeStart graph node s
  | .dequeStart mill place => Sys2Proof.Machine.execDequeStart mill place s
  | .dequeSteal thief owner => Sys2Proof.Machine.execDequeSteal thief owner s
  | .sliceExpiry partition => Sys2Proof.Machine.execSliceExpiry partition s
  | .preemptSave team => Sys2Proof.Machine.execPreemptSave team s
  | .teamResume workgroup place => Sys2Proof.Machine.execTeamResume workgroup place s
  | .trapEntry team => Sys2Proof.Machine.execTrapEntry team s
  | .faultRecordWrite team => Sys2Proof.Machine.execFaultRecordWrite team s
  | .eventRecordWrite vd => Sys2Proof.Machine.execEventRecordWrite vd s
  | .invcmdOnePage vd page asid => Sys2Proof.Machine.execInvcmdOnePage vd page asid s
  | .invcmdAsid vd asid => Sys2Proof.Machine.execInvcmdAsid vd asid s
  | .invcmdVirtualDevice vd => Sys2Proof.Machine.execInvcmdVirtualDevice vd s
  | .invalidationAcknowledge invalidation => Sys2Proof.Machine.execInvalidationAcknowledge invalidation s
  | .scrctlGo oldkey => Sys2Proof.Machine.execScrctlGo oldkey s
  | .pwinWrite partition value => Sys2Proof.Machine.execPwinWrite partition value s
  | .addressSpaceRootWrite asid second value => Sys2Proof.Machine.execAddressSpaceRootWrite asid second value s
  | .vdstepWrite vd value => Sys2Proof.Machine.execVdstepWrite vd value s
  | .stepRegionWrite region index value => Sys2Proof.Machine.execStepRegionWrite region index value s
  | .stepRegionEnableDone region => Sys2Proof.Machine.execStepRegionEnableDone region s
  | .lqbaseWrite vd queue value => Sys2Proof.Machine.execLqbaseWrite vd queue value s
  | .vdcmdResume vd seq => Sys2Proof.Machine.execVdcmdResume vd seq s
  | .vdcmdPreempt vd => Sys2Proof.Machine.execVdcmdPreempt vd s
  | .kcmdLoad partition index => Sys2Proof.Machine.execKcmdLoad partition index s
  | .kcmdDestroy partition index => Sys2Proof.Machine.execKcmdDestroy partition index s
  | .vdfrespReissue vd seq => Sys2Proof.Machine.execVdfrespReissue vd seq s
  | .vdfrespContinue vd seq => Sys2Proof.Machine.execVdfrespContinue vd seq s
  | .vdfrespRetire vd seq => Sys2Proof.Machine.execVdfrespRetire vd seq s
  | .peerUpSet target => Sys2Proof.Machine.execPeerUpSet target s
  | .routeWrite target alternate value => Sys2Proof.Machine.execRouteWrite target alternate value s
  | .vdtbaseWrite vd value => Sys2Proof.Machine.execVdtbaseWrite vd value s
  | .registerWrite offset bytes value => Sys2Proof.Machine.execRegisterWrite offset bytes value s
  | .bootcmdRetry report => Sys2Proof.Machine.execBootcmdRetry report s
  | .moduleStart report => Sys2Proof.Machine.execModuleStart report s
  | .attcmdWrite value => Sys2Proof.Machine.execAttcmdWrite value s
  | .attestationComplete random => Sys2Proof.Machine.execAttestationComplete random s
  | .fwcmdWrite value => Sys2Proof.Machine.execFwcmdWrite value s
  | .firmwareUpdateComplete length signature => Sys2Proof.Machine.execFirmwareUpdateComplete length signature s
  | .unitStop kind index => Sys2Proof.Machine.execUnitStop kind index s
  | .millstoneOperationComplete mill => Sys2Proof.Machine.execMillstoneOperationComplete mill s
  | .scrubBlock => Sys2Proof.Machine.execScrubBlock s
  | .ret => Sys2Proof.Machine.execRet s
  | .maskElse => Sys2Proof.Machine.execMaskElse s
  | .endif => Sys2Proof.Machine.execEndif s
  | .barArrive => Sys2Proof.Machine.execBarArrive s
  | .barWait => Sys2Proof.Machine.execBarWait s
  | .barSync => Sys2Proof.Machine.execBarSync s
  | .exit => Sys2Proof.Machine.execExit s
  | .yield => Sys2Proof.Machine.execYield s
  | .nop => Sys2Proof.Machine.execNop s
  | .lcinv => Sys2Proof.Machine.execLcinv s
  | .step => Sys2Proof.Machine.execStep s
  | .grdy => Sys2Proof.Machine.execGrdy s
  | .mrels => Sys2Proof.Machine.execMrels s
  | .eret => Sys2Proof.Machine.execEret s
  | .tlbinvAll => Sys2Proof.Machine.execTlbinvAll s
  | .halt => Sys2Proof.Machine.execHalt s

end Sys2Proof.Machine
end

