-- ==== Sys2Proof/Machine/Schedule.lean ====
section
/-! DEFINITION. Whose turn it is and what a turn does: the group scheduler of a wheel (R178), the fetch and issue of an instruction
(R209 to R213), what the outside does to the module, and the turn that comes when the agenda names none. -/

namespace Sys2Proof.Machine

/-! ## Time (R2, R360) -/

/-- Time goes on: for the module, and for the virtual devices that hold a slice. DESIGN CHOICE: log 83. -/
def State.tick (s : State) : State :=
  let dt := Config.ticks s.steps
  { s with
    time := s.time + dt
    runTime := s.slices.foldl (fun m x => match x.2.vd with
      | some v => mapSet 0 m v (mapGet 0 m v + BitVec.ofNat 64 dt)
      | none => m) s.runTime
    steps := s.steps + 1 }

/-! ## The group scheduler (R178) -/

/-- How soon a team comes: the age first, then the distance from the slot that issued last. -/
def Team.rank (t : Team) (last : Nat) : Nat := (255 - t.age) * 16 + (t.slot + 15 - last) % 16

/-- The team of a list that comes first. -/
def firstTeam (last : Nat) : List Team → Option Team
  | [] => none
  | t :: ts =>
    match firstTeam last ts with
    | none => some t
    | some b => if b.rank last < t.rank last then some b else some t

/-- The team that issues next on a wheel. -/
def State.chosen (s : State) (mill wheel : Nat) : Option Team :=
  firstTeam (mapGet 15 s.lastSlot (wheelKey mill wheel)) (s.teams.filter fun t => t.readyOn mill wheel)

/-- The uniform and predicate registers of a control transfer, if the instruction is one (R239 to R243). -/
def transferReads : Instr → Option (List RegRef)
  | .bra _ => some []
  | .call _ => some [.u 63]
  | .jmp a _ => some [.u a.toNat]
  | .jmpl d a _ => some [.u a.toNat, .u d.toNat]
  | .ret => some [.u 63]
  | .bsz n _ => some [.u n.toNat]
  | .bsnz n _ => some [.u n.toNat]
  | .bany p _ => some [.p p.toNat]
  | .ball p _ => some [.p p.toNat]
  | .bnone p _ => some [.p p.toNat]
  | _ => none

/-- Does the outcome of an instruction show that it waits at issue: the team stands where it stood, and no transfer brought it there?
DESIGN CHOICE: log 107. -/
def State.waited (s : State) (i : Instr) (o : Out) : Bool :=
  match o with
  | .next s' =>
    s'.team.pc == s.team.pc && s'.team.status == s.team.status && s'.team.level == s.team.level &&
      ((transferReads i).map fun rs => rs.any s.unready) != some false
  | _ => false

/-- The instruction of the team whose turn it is: fetched, decoded and executed (R209 to R213), or nothing where it waits at issue. One
that is none raises illegal instruction with its bits; a fetch that fails raises its cause (R210, R211). -/
def State.issue (s : State) : Option Out :=
  if s.holding s.team.uid then none
  else
    match s.fetch s.team.pc with
    | (s, .fault code report tval) =>
      if code = stallCode then none
      else some (.next (s.mainTrap { Trap.bare code tval with report := report, fetch := code != 0x06 } 0))
    | (s, .word nbits bits) =>
      match decodeWord nbits bits with
      | .error _ => some (.next (s.mainTrap (.bare 0x01 (BitVec.ofNat 64 bits)) 0))
      | .ok i => if s.waited i (exec i s) then none else some (exec i s)

/-- A team of a wheel issues, if it does not wait. -/
def State.issueTeam (s : State) (t : Team) : Option Out := ((s.age t).focus t.uid).bind State.issue

/-- The head of a team's closure issues, if it does not wait: the team or its accesses change. DESIGN CHOICE: log 107. -/
def State.closureIssues (s : State) (uid : Nat) : Option Out :=
  let seen := fun (s : State) => (s.teamOf uid).map fun t => (t.closure, t.status, t.level)
  match execClosureRun uid s with
  | .next s' => if seen s' == seen s && s'.accesses.length == s.accesses.length then none else some (.next s')
  | _ => none

/-- The first team that does not wait issues, from its main stream or else from its closure (R178): of a list of as many teams as the
fuel. DESIGN CHOICE: log 107. -/
def State.issueFirst (s : State) (last : Nat) : Nat → List Team → Option Out
  | 0, _ => none
  | n + 1, ts =>
    match firstTeam last ts with
    | none => none
    | some t =>
      match (s.issueTeam t).orElse fun _ => s.closureIssues t.uid with
      | some o => some o
      | none => s.issueFirst last n (ts.filter fun x => x.uid != t.uid)

/-- A clock in which no team of a wheel issues. -/
def State.older (s : State) (mill wheel : Nat) : State := s.mapTeams fun x => if x.agesOn mill wheel then x.older else x

/-- The clock of a wheel: of its READY teams, the first by R178 that does not wait issues. -/
def State.issueOn (s : State) (mill wheel : Nat) : Out :=
  let ts := s.teams.filter fun t => t.readyOn mill wheel
  if ts.isEmpty then .fault .notEnabled
  else (s.issueFirst (mapGet 15 s.lastSlot (wheelKey mill wheel)) ts.length ts).getD (.next (s.older mill wheel))

/-- Could an instruction of the team issue now, from its main stream or from its closure? -/
def State.couldIssue (s : State) (t : Team) : Bool :=
  (s.issueTeam t).isSome || (s.closureIssues t.uid).isSome

/-- May the head of a team's closure issue (R178): no READY team that comes before the team on its wheel could? So it is whether the team
is READY or not (a drain, a save), and a team that stays READY waits for each other of its wheel at most once after 255 clocks.
DESIGN CHOICE: log 107. -/
def State.closureTurn (s : State) (uid : Nat) : Bool :=
  match s.teamOf uid with
  | none => true
  | some t =>
    let last := mapGet 15 s.lastSlot (wheelKey t.mill t.wheel)
    !s.teams.any fun x => x.readyOn t.mill t.wheel && x.rank last < t.rank last && s.couldIssue x

/-- An outcome after which accesses hold their team no more than R51 asks. -/
def unheeded : Out → Out
  | .next s => .next { s with heed := false }
  | o => o

/-! ## What the outside does -/

/-- A soft error that no code corrects in a 64-bit word of a vector register: the word is poisoned, and its bits are free (R51). -/
def State.upsetVector (s : State) (team reg pair : Nat) : Out :=
  match s.focus team with
  | none => .fault .notEnabled
  | some s =>
    if s.team.regs ≤ reg || s.team.lanes ≤ 2 * pair then .fault .notEnabled
    else
      let w := Config.upset s.draws
      .next ({ s with draws := s.draws + 1 }.mapTeam fun t =>
        let t := t.setV reg [(2 * pair, w.setWidth 32), (2 * pair + 1, (w >>> 32).setWidth 32)]
        { t with vpoison := (reg, pair) :: t.vpoison })

/-- The same in a uniform register. -/
def State.upsetUniform (s : State) (team reg : Nat) : Out :=
  match s.focus team with
  | none => .fault .notEnabled
  | some s =>
    if 64 ≤ reg then .fault .notEnabled
    else
      let w := Config.upset s.draws
      .next ({ s with draws := s.draws + 1 }.mapTeam fun t =>
        let t := t.setU reg w
        { t with upoison := reg :: t.upoison })

/-- The same in a 64-bit word of a predicate register, of which only lanes below L have bits. -/
def State.upsetPredicate (s : State) (team reg word : Nat) : Out :=
  match s.focus team with
  | none => .fault .notEnabled
  | some s =>
    if 16 ≤ reg || s.team.lanes ≤ 64 * word then .fault .notEnabled
    else
      let w := Config.upset s.draws
      .next ({ s with draws := s.draws + 1 }.mapTeam fun t =>
        { t.setP reg (setMaskPart (t.p reg) word w &&& allLanes t.lanes) with ppoison := (reg, word) :: t.ppoison })

/-- The same in a 64-bit word of a mill's tiles. -/
def State.upsetTile (s : State) (mill word : Nat) : Out :=
  if 512 ≤ mill || 32768 ≤ word then .fault .noSuchUnit
  else
    let key := tileKey mill 0 0 + 8 * word
    let w := Config.upset s.draws
    .next { s with
      draws := s.draws + 1
      tiles := mapSplice 0 s.tiles key (leBytes 8 w.toNat)
      tilePoison := if s.tilePoison.contains (key / 8) then s.tilePoison else key / 8 :: s.tilePoison }

/-- The same found in a 64-bit word of a Plain slice; the reads of it under way are those of teams that hold. DEDUCED: log 75. -/
def State.upsetPlain (s : State) (slice word : Nat) : Out :=
  if 512 ≤ slice || 262144 ≤ word then .fault .noSuchUnit
  else if !s.calmPlain slice word then .fault .notEnabled
  else .next (s.poisonWord slice word)

/-- An error that no code corrects found in a Basin line by an engine, a walker or a fetch: the rebuild begins, and they stall
(R49, R52). -/
def State.basinError (s : State) (line key : Nat) : Out :=
  if line % 64 != 0 || !s.readsCells line key || s.stalls false line then .fault .notEnabled else .next (s.beginRebuild line key)

/-- An error that the code corrects, counted in the mill status entry (R51). DEDUCED: log 63. -/
def State.corrected (s : State) (mill : Nat) : Out :=
  if 512 ≤ mill then .fault .noSuchUnit
  else .next (s.updReg (millReg mill) fun w => wput w 31 0 (wbits w 31 0 + 1))

/-- Word 2 of a counter with the status that a flow brings: a flow that is severed sets the cause field to its code (R93). -/
def flowWord (w status : Nat) : Nat :=
  if bitOf status 2 then (w ||| status % 16) - bitsOf w 7 4 * 16 + bitsOf status 7 4 * 16 else w ||| status % 16

/-- A chunk of a flow put into a slice; poison reaches every word of it (R53, R91). -/
def State.landChunk (s : State) (slice off : Nat) (bs : List Byte) (poison : Bool) : State :=
  if poison then
    ((List.range ((off + bs.length - 1) / 8 + 1 - off / 8)).map fun i => off / 8 + i).foldl (fun s w => s.poisonWord slice w) s
  else s.plainStore slice off bs

/-- A chunk of another module's flow (R91, R93, R378): written to the window of the partition that the permit names, then counted, both
behind the writes that the banks have queued (R107: log 70). DEDUCED: log 64. -/
def State.peerChunk (s : State) (source addr : Nat) (bs : List Byte) (poison : Bool) (ctr : Option Nat) (status : Nat) : Out :=
  let p := s.reg (permitReg source)
  let part := wbits p 15 8 / 8
  if 4096 ≤ source then .fault .noSuchUnit
  else if !p.getLsbD 63 then .fault .notEnabled
  else
    let place := s.plainPhys (BitVec.ofNat 64 addr) bs.length part 1
    let waits : Bool := match place with
      | .ok x => s.bankBusy x.1 x.2 bs.length ||
          (poison && (List.range ((x.2 + bs.length - 1) / 8 + 1 - x.2 / 8)).any fun i => !s.calmPlain x.1 (x.2 / 8 + i))
      | .error _ => false
    let written : Except (Nat × Bool) State :=
      if bs.isEmpty then .ok s else place.map fun x => s.landChunk x.1 x.2 bs poison
    if !bs.isEmpty && waits then .fault .notEnabled
    else
    match written, ctr with
    | .error _, _ => .fault .notEnabled
    | .ok s, none => .next s
    | .ok s, some c =>
      match s.counterPhys (BitVec.ofNat 64 c) part with
      | .error _ => .fault .notEnabled
      | .ok (slice, off) =>
        if s.bankBusy slice off 16 then .fault .notEnabled
        else .next ((s.setCtrWord slice off 2 (flowWord (s.ctrWord slice off 2) status)).addCounter slice off bs.length)

/-- The fetch of a READY team that holds for nothing, and the instruction that it brings, which may wait. -/
def State.tries (s : State) (t : Team) : List Out :=
  match if t.status == .ready && !s.holding t.uid then s.focus t.uid else none with
  | none => []
  | some s =>
    match s.fetch s.team.pc with
    | (s, .fault _ _ _) => [.next s]
    | (s, .word nbits bits) =>
      .next s :: match decodeWord nbits bits with
        | .ok i => [exec i s]
        | .error _ => []

/-- What an outcome brings about by itself. -/
def settles : Out → Out
  | .next s => .next s.resumeJobs.settleRetiring
  | o => o

/-- The counters of a partition's graphs to which something may add or which something may sever: a flow or a collective that counts
there, or a peer with a permit. -/
def State.openCounters (s : State) (part : Nat) : List (Nat × Nat) :=
  let permits := (List.range 4096).any fun m => s.regBit (permitReg m) 63 && s.regBits (permitReg m) 15 8 / 8 == part
  ((s.graphs.filter fun g => g.vd / 8 == part).flatMap fun g =>
    (g.nodes.flatMap fun n => [n.armctr, n.copyctr]).filterMap fun c =>
      match s.counterPhys c part with
      | .ok p => some p
      | .error _ => none).eraseDups.filter fun c =>
    permits || s.flows.any (fun f => f.countsHere && (f.ctrSlice, f.ctrOff) == c) || s.colls.any fun x => (x.ctrSlice, x.ctrOff) == c

/-- An add to a counter: one that its condition still lacks nothing of, one that fulfils it, and its end by a severed flow. -/
def State.counterMoves (s : State) (c : Nat × Nat) : List Out :=
  [.next (s.addCounter c.1 c.2 0), .next (s.addCounter c.1 c.2 (s.ctrWord c.1 c.2 1 - s.ctrWord c.1 c.2 0)),
    .next (s.doJobs [.sever c.1 c.2 4])]

/-- The accesses of the descriptor engine of die 0 and of the distributor that could come now and walk in an address space (R171, R175):
the claims of copy nodes, also once a peer accepts, submissions and queues read, and the counts and states that the distributor reads and
writes after an instruction of a team of the partition, a request that is served or completes and the retirement that it lets come, a
chunk, an add to a counter, or the end of a rebuild. -/
def State.poolWalkers (s : State) (asid : Nat) : List Out :=
  let vd := (s.asidVd asid).getD 0
  let causes : List Out :=
    .next s :: ((s.teams.filter fun t => t.part == vd / 8).flatMap s.tries) ++
    (s.requests.flatMap fun r => execMemoryRequestComplete r.id .ok s :: match r.loc with
      | .plain slice off => (banksOf off r.n).map fun b => execBankServe slice b .ok s
      | _ => []) ++
    (s.flows.flatMap fun f => f.chunks.map fun off => execFlowChunkAccept f.id off s) ++
    ((s.openCounters (vd / 8)).flatMap s.counterMoves) ++
    (s.rebuilding.map fun l => execBasinRebuildDone l.1 true s)
  ((s.graphs.filter fun g => g.asid == asid).flatMap fun g =>
    (List.range g.nodes.length).map fun n => execCopyNodeStart g.uid n s) ++
  (s.copyWaits.map fun w => execClaimHeld (w.1 + 2 ^ 64) (.accepted 0 0) s) ++
  (execSubmission vd s :: (List.range 16).map fun q => execSubmissionRead vd q s) ++ causes.map settles

/-- The outcomes of the accesses of an address space that could come now and walk at user or supervisor level on a die: the fetch, the
next instruction or the head of the closure of each of its teams, its claims' walks again, also once a peer accepts, and walks of
prefetches. -/
def State.walkers (s : State) (die asid : Nat) (sup : Bool) : List Out :=
  ((s.teams.filter fun t => t.asid == asid && t.die == die && t.sup == sup && !t.isVacant).flatMap fun t =>
    s.tries t ++ [execClosureRun t.uid s, execClaimHeld t.uid .none s, execClaimHeld t.uid (.accepted 0 0) s]) ++
  ((s.walks.filter fun w => w.asid == asid).map fun w => execWalk w.id s)

/-- Does one of some outcomes leave one of some words at a place of memory? -/
def leaves (os : List Out) (at' : Nat) (ws : List Nat) : Bool :=
  os.any fun o => match o with
    | .next x => ws.contains (x.tableWord at')
    | _ => false

/-- The swap of A and D of a walk of a page that an invalidation under way covers: the access falls in its apply clock, the swap performs
in memory, and the access walks again (R73). It must be a swap that an access would make now; of those at user level on die 0, the
distributor's reads of what it then writes are among them. DESIGN CHOICE: log 7. -/
def State.walkSwap (s : State) (die asid va : Nat) (acc : Acc) (sup : Bool) : Out :=
  match s.walkDown va (s.walkStart die asid va).1 (s.walkStart die asid va).2 with
  | .error _ => .fault .notEnabled
  | .ok (lvl, a, w0, w1) =>
    let swapped := (s.walk die va asid acc sup).1
    let w := swapped.tableWord a
    let covered := s.invalidations.any fun v => v.scope.covers (s.entryOf va asid lvl w0 w1)
    if !covered || w == w0 then .fault .notEnabled
    else if leaves (s.walkers die asid sup) a [w] ||
        (die = 0 && !sup && leaves (s.poolWalkers asid) a [w, if acc.writes then w else leafBit w 11 true]) then .next swapped
    else .fault .notEnabled

/-- What a turn of the agenda does. An instruction of a program is no event: only a turn of its wheel issues it. -/
def State.runTurn (s : State) : Turn → Out
  | .issue mill wheel => s.issueOn mill wheel
  | .issueHeld mill wheel => unheeded ({ s with heed := true }.issueOn mill wheel)
  | .closureHeld team =>
    if s.closureTurn team then unheeded (execClosureRun team { s with heed := true }) else .fault .notEnabled
  | .event (.closureRun team) => if s.closureTurn team then exec (.closureRun team) s else .fault .notEnabled
  | .event i => if (encode i).isSome then .fault .notEnabled else exec i s
  | .hostStore addr bytes => .next (s.hostStore addr bytes)
  | .upsetVector team reg pair => s.upsetVector team reg pair
  | .upsetUniform team reg => s.upsetUniform team reg
  | .upsetPredicate team reg word => s.upsetPredicate team reg word
  | .upsetTile mill word => s.upsetTile mill word
  | .upsetPlain slice word => s.upsetPlain slice word
  | .basinError line key => s.basinError line key
  | .corrected mill => s.corrected mill
  | .replaceLine mill host line key => s.replaceLine mill host line key
  | .keepPointer die asid va => .next (s.keepPointer die asid va)
  | .dropPointer die asid => .next (s.dropPointer die asid)
  | .peerChunk source addr bytes poison ctr status => s.peerChunk source addr bytes poison ctr status
  | .freeCapacity page => .next (s.freeCapacity page)
  | .walkSwap die asid va acc sup => s.walkSwap die asid va acc sup
  | .routeLost target route => s.routeLost target route
  | .memberFail vd => s.memberFail vd
  | .loadLost request => s.loadLost request

/-! ## The turn when the agenda names none -/

/-- What the module may do of itself, in an order of the model's own (log 10): requests, walks and flows first, then the teams'
own waits. DESIGN CHOICE: log 62. -/
def State.ownMoves (s : State) : List (State → Out) :=
  (s.requests.flatMap fun r => execMemoryRequestComplete r.id .ok :: match r.loc with
    | .plain slice off => (banksOf off r.n).map fun b => execBankServe slice b .ok
    | _ => []) ++
  (s.promotions.flatMap fun p => [execPromotionRequest p.id, execPromotionAnswer p.id]) ++
  (s.walks.map fun w => execWalk w.id) ++
  (s.rebuilding.map fun l => execBasinRebuildDone l.1 true) ++
  (s.flows.flatMap fun f => f.chunks.map fun off => execFlowChunkAccept f.id off) ++
  (s.migrations.flatMap fun m => [execMigrateOnTouchCopyDone m.id, execMigrateOnTouchInvalAck m.id, execOptMigrationCopyDone m.id,
    execOptMigrationSwapDone m.id, execOptMigrationDrainAck m.id]) ++
  (s.invalidations.map fun v => execInvalidationAcknowledge v.id) ++
  (s.enabling.map execStepRegionEnableDone) ++
  ((s.teams.filter fun t => t.status != .ready || !t.closure.isEmpty).flatMap fun t =>
    (if s.closureTurn t.uid then [execClosureRun t.uid] else []) ++
      [execTrapEntry t.uid, execClaimHeld t.uid .none, execFlowStart t.uid, execPreemptSave t.uid, execSleepExpiry t.uid,
        execFaultRecordWrite t.uid]) ++
  (s.millstones.map fun m => execMillstoneOperationComplete m.1) ++
  (s.teams.filterMap fun t => match t.status with
    | .parked (.keydel index) => some (execKeyRetire index)
    | _ => none) ++
  (s.hostDestroy.toList.map execKeyRetire) ++
  (s.graphs.flatMap fun g => (List.range g.nodes.length).map fun n => execCopyNodeStart g.uid n) ++
  (s.readQueue.map fun e => execSubmission e.1) ++
  (s.deviceQueues.map fun q => execSubmission q.1) ++
  (s.events.filterMap fun e => e.vd.map execEventRecordWrite)

/-- The first of some moves that the state enables. DESIGN CHOICE: log 62. -/
def State.firstMove (s : State) : List (State → Out) → Option Out
  | [] => none
  | m :: ms =>
    match m s with
    | .next s' => some (.next s')
    | _ => s.firstMove ms

/-- With no turn named, the module goes on with what it has under way; else the team whose turn it is issues, or the first that is
READY; else nothing happens. DESIGN CHOICE: log 62. -/
def State.idleTurn (s : State) : Out :=
  match s.firstMove s.ownMoves with
  | some o => o
  | none =>
    if s.team.status == .ready then s.issueOn s.team.mill s.team.wheel
    else
      match s.rest.find? fun t => t.status == .ready with
      | some t => s.issueOn t.mill t.wheel
      | none => .next s

/-- The turn that comes. -/
def State.turn (s : State) : Out :=
  match s.agenda with
  | [] => s.idleTurn
  | t :: rest => { s with agenda := rest }.runTurn t

/-! ## An instruction put where the next step fetches it -/

/-- A table entry of a walk: 16 bytes at a Basin address. -/
def State.putEntry (s : State) (at' w0 w1 : Nat) : State := (s.setTableWord at' w0).setTableWord (at' + 8) w1

/-- Tables that map the pages of an address to frames of the Basin, readable, writable and executable at both levels; they lie in
the first 512 KiB of the Basin. -/
def State.openCode (s : State) (asid : Nat) (pc : Word) : State :=
  let s := s.setReg (rootReg asid) (BitVec.ofNat 64 (2 ^ 63 + asid))
  let page := fun (s : State) (va l2 l1 l0 frame : Nat) =>
    let s := s.putEntry (16 * levelIndex va 3) (l2 + 1) 0
    let s := s.putEntry (l2 + 16 * levelIndex va 2) (l1 + 1) 0
    let s := s.putEntry (l1 + 16 * levelIndex va 1) (l0 + 1) 0
    s.putEntry (l0 + 16 * levelIndex va 0) (frame + 0xC0F) 0
  let s := page s pc.toNat 0x20000 0x40000 0x42000 0x50000
  if (pc + 2).toNat / 65536 = pc.toNat / 65536 then s
  else page s (pc + 2).toNat 0x20000 0x40000 0x42000 0x60000

/-- The team of 32 lanes that issues an instruction when none is READY. -/
def State.freshTeam (s : State) : State :=
  let t : Team := { Team.vacant with uid := s.nextId, status := .ready, asid := 1, regs := 128, mask := allLanes 32 }
  { s with
    nextId := s.nextId + 1
    team := t
    rest := if s.team.isVacant then s.rest else s.team :: s.rest }

/-- A halfword stored behind a leaf, and no line of the instruction cache before it. -/
def State.placeHalf (s : State) (va : Word) (h : Nat) : Option State :=
  match s.translate (.lane s.team.mill) va.toNat s.team.asid .fetch s.team.sup with
  | (s, .leaf e) =>
    if e.cls = 3 then none
    else some { (s.memWrite (e.cls != 0) (e.pa va.toNat) e.key (e.cls == 2 && e.key == 0 && s.bypass e.asid) (leBytes 2 h)).1 with
      icache := [] }
  | _ => none

/-- Four bytes stored at the program counter. -/
def State.placeWord (s : State) (w : Nat) : Option State :=
  (s.placeHalf s.team.pc w).bind fun s => s.placeHalf (s.team.pc + 2) (w / 65536)

end Sys2Proof.Machine
end

