-- ==== Sys2Proof/Machine/Step.lean ====
section
/-! DEFINITION. One step of the module. -/

namespace Sys2Proof.Machine

/-- What comes about before a turn: jobs that waited for a queued write go on, teams that are to retire and may do so, and slices with
no work left end (R185). -/
def State.settled (s : State) : State := s.resumeJobs.settleRetiring.endIdleSlices

/-- One step: time goes on, what comes about by itself is settled, and the turn that comes is taken. -/
def step (s : State) : Host.Outcome State Fault Refusal := s.tick.settled.turn

/-- The state with an instruction of `nbits` bits `w` where the next step fetches: at the program counter of a READY team, whose
turn comes. With no such team, or no page there, a team and a page are made (log 18). -/
def State.withFetchWord (s : State) (nbits w : Nat) : State :=
  let s := if s.team.status == .ready && !s.holding s.team.uid then s else s.freshTeam
  let w := w % 2 ^ nbits
  let s := match s.placeWord w with
    | some s => s
    | none => ((s.openCode s.team.asid s.team.pc).placeWord w).getD s
  let s := s.mapTeam fun t => { t with age := 255 }
  { s with
    lastSlot := mapSet 15 s.lastSlot (wheelKey s.team.mill s.team.wheel) ((s.team.slot + 15) % 16)
    agenda := [.issue s.team.mill s.team.wheel] }

end Sys2Proof.Machine
end

