-- ==== Sys2Proof/Safety.lean ====
section
/-! DEFINITION. The terms in which claims about the module are stated: when an instruction issues, what an instruction leaves
unchanged, the canonical form of memory, and what the rules say that the operations of each family compute. -/

namespace Sys2Proof.Machine

/-! ## When an instruction issues -/

/-- Nothing holds the instruction back (R160, R213): the team is READY, the instruction is well-formed, the team holds the
registers it names, none of them is pending or deferred, and none of those it reads is poisoned. -/
def State.issues (s : State) (i : Instr) (srcs dsts : List RegRef) : Bool :=
  s.team.status == .ready && i.wellFormed && (srcs ++ dsts).all s.team.holds &&
  !(srcs ++ dsts).any s.unready && (s.poisonTrap srcs).isNone

/-- The same for an instruction of the closing class, which also waits for an empty closure; one that is privileged needs the
supervisor level (R160, R213). -/
def State.issuesAlone (s : State) (i : Instr) (priv : Bool) (srcs dsts : List RegRef) : Bool :=
  s.issues i srcs dsts && s.team.closure.isEmpty && (!priv || s.team.level == .supervisor)

/-! ## What stays -/

/-- Nothing but the team whose turn it is differs: all memory, every other team and every register of the device are unchanged. -/
def OnlyTeam (s t : State) : Prop := t = { s with team := t.team }

/-- A byte of the Plain, of the Basin and of host memory. -/
def State.byteOf (s : State) : Loc → Byte
  | .plain slice off => mapGet unlistedByte s.plain (plainKey slice off)
  | .mem host pa _ _ => if host then mapGet unlistedByte s.hostMem pa else mapGet unlistedByte s.basin pa
  | .peer _ _ _ => unlistedByte

/-- Every byte of memory reads as before, under the same keys and with the same poison. -/
def SameMemory (s t : State) : Prop :=
  (∀ loc, t.byteOf loc = s.byteOf loc) ∧ t.basinSeal = s.basinSeal ∧ t.hostSeal = s.hostSeal ∧
  t.plainPoison = s.plainPoison ∧ t.basinPoison = s.basinPoison ∧ t.hostPoison = s.hostPoison

/-- The instruction of `n` bytes wrote `s`d := w, and nothing else but the pc and the flags `fl` of `%status`. -/
def WritesUniform (s t : State) (n d : Nat) (w : Word) (fl : Word) : Prop :=
  t.team.u d = w ∧ (∀ k, k ≠ d → t.team.u k = s.team.u k) ∧
  t = { s with team := { s.team with
    uregs := t.team.uregs
    upoison := s.team.upoison.filter (· != d)
    flags := s.team.flags ||| fl
    pc := s.team.pc + BitVec.ofNat 64 n } }

/-- The instruction of `n` bytes wrote `f l` into each active lane l of `v`d, and nothing else but the pc and the flags `fl` of
`%status`; no other register word became poisoned. -/
def WritesLanes (s t : State) (n d : Nat) (f : Nat → Lane) (fl : Word) : Prop :=
  (∀ r l, l < 1024 → t.team.v r l = if r = d ∧ l ∈ s.team.active then f l else s.team.v r l) ∧
  (∀ p, p ∈ t.team.vpoison → p ∈ s.team.vpoison) ∧ (∀ p ∈ s.team.vpoison, p.1 ≠ d → p ∈ t.team.vpoison) ∧
  t = { s with team := { s.team with
    vregs := t.team.vregs
    vpoison := t.team.vpoison
    flags := s.team.flags ||| fl
    pc := s.team.pc + BitVec.ofNat 64 n } }

/-- The instruction of `n` bytes wrote `f l` into each active lane l of `p`d, and nothing else but the pc and the flags `fl`; no
other predicate word became poisoned. -/
def WritesPredicate (s t : State) (n d : Nat) (f : Nat → Bool) (fl : Word) : Prop :=
  (∀ r l, l < s.team.lanes → (t.team.p r).getLsbD l =
    if r = d ∧ l ∈ s.team.active then f l else (s.team.p r).getLsbD l) ∧
  (∀ p, p ∈ t.team.ppoison → p ∈ s.team.ppoison) ∧ (∀ p ∈ s.team.ppoison, p.1 ≠ d → p ∈ t.team.ppoison) ∧
  t = { s with team := { s.team with
    preds := t.team.preds
    ppoison := t.team.ppoison
    flags := s.team.flags ||| fl
    pc := s.team.pc + BitVec.ofNat 64 n } }

/-- The flags that the active lanes set together (R192). -/
def State.unionFlags (s : State) (f : Nat → Nat) : Nat := (s.team.active.map f).foldl (· ||| ·) 0

/-- The canonical form of all memory. -/
def State.memoryWf (s : State) : Bool := s.plain.wf && s.basin.wf && s.hostMem.wf

/-! ## What the rules say that the operations compute -/

/-- The uniform operations on two registers (R232). -/
def uniformRows : List ((BitVec 6 → BitVec 6 → BitVec 6 → Instr) × (Word → Word → Word)) :=
  [(.sadd, fun a b => a + b), (.ssub, fun a b => a - b), (.smul, fun a b => a * b),
   (.smulh, fun a b => BitVec.ofInt 64 (a.toInt * b.toInt / 2 ^ 64)),
   (.smulhu, fun a b => BitVec.ofNat 64 (a.toNat * b.toNat / 2 ^ 64)),
   (.sand, fun a b => a &&& b), (.sor, fun a b => a ||| b), (.sxor, fun a b => a ^^^ b),
   (.sshl, fun a b => a <<< (b.toNat % 64)), (.sshr, fun a b => a >>> (b.toNat % 64)),
   (.ssar, fun a b => a.sshiftRight (b.toNat % 64)),
   (.smin, fun a b => if b.toInt < a.toInt then b else a), (.smax, fun a b => if a.toInt < b.toInt then b else a),
   (.sminu, fun a b => if b.toNat < a.toNat then b else a), (.smaxu, fun a b => if a.toNat < b.toNat then b else a),
   (.sslt, fun a b => if a.toInt < b.toInt then 1 else 0), (.ssltu, fun a b => if a.toNat < b.toNat then 1 else 0),
   (.sseq, fun a b => if a = b then 1 else 0)]

/-- The uniform operations on one register (R232). -/
def uniformUnaryRows : List ((BitVec 6 → BitVec 6 → Instr) × (Word → Word)) :=
  [(.smov, fun a => a), (.sclz, fun a => BitVec.ofNat 64 ((List.range 64).countP fun i => a.toNat < 2 ^ (63 - i))),
   (.spopc, fun a => BitVec.ofNat 64 ((List.range 64).countP fun i => a.getLsbD i))]

/-- The uniform operations on a register and a 12-bit immediate, sign-extended for SADDI and SSLTI, zero-extended for the others
(R233). -/
def uniformImmediateRows : List ((BitVec 6 → BitVec 6 → BitVec 12 → Instr) × (Word → BitVec 12 → Word)) :=
  [(.saddi, fun a k => a + k.signExtend 64), (.sandi, fun a k => a &&& k.setWidth 64),
   (.sori, fun a k => a ||| k.setWidth 64), (.sxori, fun a k => a ^^^ k.setWidth 64),
   (.sslti, fun a k => if a.toInt < k.toInt then 1 else 0)]

/-- The uniform shifts by an amount in the instruction (R233). -/
def uniformShiftRows : List ((BitVec 6 → BitVec 6 → BitVec 6 → Instr) × (Word → Nat → Word)) :=
  [(.sshli, fun a n => a <<< n), (.sshri, fun a n => a >>> n), (.ssari, fun a n => a.sshiftRight n)]

/-! ### Forms of the lanes -/

/-- A form of an instruction that writes lanes of one vector register: its bytes, the register, the registers it reads, and what the
rules give in lane l, with the flags. -/
structure LaneForm where
  i : Instr
  n : Nat
  d : Nat
  srcs : List RegRef
  value : Team → Nat → Lane × Nat

/-- The form completes: when nothing holds it back and none of the flags its lanes set is enabled (R193, R255), every active lane
gets its value, the flags are gathered, and nothing else changes. -/
def LaneForm.Completes (f : LaneForm) : Prop :=
  ∀ s : State, s.issues f.i f.srcs [.v f.d] = true →
    enabledFlags s.team.mode (s.unionFlags fun l => (f.value s.team l).2) = 0 →
    ∃ t, exec f.i s = .next t ∧
      WritesLanes s t f.n f.d (fun l => (f.value s.team l).1) (BitVec.ofNat 64 (s.unionFlags fun l => (f.value s.team l).2))

/-- A form of two vector registers that sets no flag. -/
def plainForm (i : Instr) (n : Nat) {w : Nat} (d a b : BitVec w) (f : Lane → Lane → Lane) : LaneForm :=
  ⟨i, n, d.toNat, [.v a.toNat, .v b.toNat], fun t l => (f (t.v a.toNat l) (t.v b.toNat l), 0)⟩

/-- A form of one vector register that sets no flag. -/
def plainForm1 (i : Instr) (d a : BitVec 7) (f : Lane → Lane) : LaneForm :=
  ⟨i, 4, d.toNat, [.v a.toNat], fun t l => (f (t.v a.toNat l), 0)⟩

/-- An operation on both INT16 elements (R198). -/
def byHalves (f : BitVec 16 → BitVec 16 → BitVec 16) (a b : Lane) : Lane :=
  f (a.extractLsb' 16 16) (b.extractLsb' 16 16) ++ f (a.extractLsb' 0 16) (b.extractLsb' 0 16)

/-- An operation on all four INT8 elements (R198). -/
def byBytes (f : BitVec 8 → BitVec 8 → BitVec 8) (a b : Lane) : Lane :=
  (f (a.extractLsb' 24 8) (b.extractLsb' 24 8) ++ f (a.extractLsb' 16 8) (b.extractLsb' 16 8)) ++
  (f (a.extractLsb' 8 8) (b.extractLsb' 8 8) ++ f (a.extractLsb' 0 8) (b.extractLsb' 0 8))

/-- The smaller or the larger of two elements, unsigned or signed. -/
def smaller {w : Nat} (unsigned : Bool) (a b : BitVec w) : BitVec w :=
  if (if unsigned then b.toNat < a.toNat else b.toInt < a.toInt) then b else a
/-- The larger. -/
def larger {w : Nat} (unsigned : Bool) (a b : BitVec w) : BitVec w :=
  if (if unsigned then a.toNat < b.toNat else a.toInt < b.toInt) then b else a

/-- Integer operations on two registers that set no flag (R257, R268). -/
def integerForms (d a b : BitVec 7) : List LaneForm :=
  [plainForm (.vadd d a b 0) 4 d a b fun x y => x + y, plainForm (.vadd d a b 1) 4 d a b (byHalves fun x y => x + y),
   plainForm (.vadd d a b 2) 4 d a b (byBytes fun x y => x + y),
   plainForm (.vsub d a b 0) 4 d a b fun x y => x - y, plainForm (.vsub d a b 1) 4 d a b (byHalves fun x y => x - y),
   plainForm (.vsub d a b 2) 4 d a b (byBytes fun x y => x - y),
   plainForm (.vmul d a b) 4 d a b fun x y => x * y,
   plainForm (.vmulHi d a b) 4 d a b fun x y => BitVec.ofInt 32 (x.toInt * y.toInt / 2 ^ 32),
   plainForm (.vmulHiu d a b) 4 d a b fun x y => BitVec.ofNat 32 (x.toNat * y.toNat / 2 ^ 32),
   plainForm (.vand d a b) 4 d a b fun x y => x &&& y, plainForm (.vor d a b) 4 d a b fun x y => x ||| y,
   plainForm (.vxor d a b) 4 d a b fun x y => x ^^^ y, plainForm (.vandn d a b) 4 d a b fun x y => x &&& ~~~y,
   plainForm (.vshl d a b) 4 d a b fun x y => x <<< (y.toNat % 32),
   plainForm (.vshr d a b) 4 d a b fun x y => x >>> (y.toNat % 32),
   plainForm (.vshrA d a b) 4 d a b fun x y => x.sshiftRight (y.toNat % 32),
   plainForm (.vmin d a b 0 0) 4 d a b (smaller false), plainForm (.vmin d a b 1 0) 4 d a b (smaller true),
   plainForm (.vmin d a b 0 1) 4 d a b (byHalves (smaller false)), plainForm (.vmin d a b 1 1) 4 d a b (byHalves (smaller true)),
   plainForm (.vmin d a b 0 2) 4 d a b (byBytes (smaller false)), plainForm (.vmin d a b 1 2) 4 d a b (byBytes (smaller true)),
   plainForm (.vmax d a b 0 0) 4 d a b (larger false), plainForm (.vmax d a b 1 0) 4 d a b (larger true),
   plainForm (.vmax d a b 0 1) 4 d a b (byHalves (larger false)), plainForm (.vmax d a b 1 1) 4 d a b (byHalves (larger true)),
   plainForm (.vmax d a b 0 2) 4 d a b (byBytes (larger false)), plainForm (.vmax d a b 1 2) 4 d a b (byBytes (larger true)),
   plainForm (.packH d a b) 4 d a b fun x y => y.extractLsb' 0 16 ++ x.extractLsb' 0 16,
   plainForm (.packB d a b) 4 d a b fun x y =>
     (y.extractLsb' 16 8 ++ y.extractLsb' 0 8) ++ (x.extractLsb' 16 8 ++ x.extractLsb' 0 8),
   plainForm (.unpackH d a b) 4 d a b fun x y => (x.extractLsb' (16 * (y.toNat % 2)) 16).signExtend 32,
   plainForm (.unpackB d a b) 4 d a b fun x y =>
     (x.extractLsb' (8 * (2 * (y.toNat % 2) + 1)) 8).signExtend 16 ++ (x.extractLsb' (8 * (2 * (y.toNat % 2))) 8).signExtend 16]

/-- The position and length that a control operand of VBFX and VBFI names, as rule R258 gives them. -/
def controlField (c : Lane) : Nat × Nat := (c.toNat % 32, min (c.toNat / 256 % 64) (32 - c.toNat % 32))

/-- Bit operations, selections, immediates and moves (R258 to R260). -/
def bitForms (d a b : BitVec 7) (p : BitVec 3) (s : BitVec 6) (k : BitVec 10) (sh : BitVec 5) (off : BitVec 8)
    (scale : BitVec 2) : List LaneForm :=
  [⟨.vmad d a b, 4, d.toNat, [.v a.toNat, .v b.toNat, .v d.toNat],
     fun t l => (t.v a.toNat l * t.v b.toNat l + t.v d.toNat l, 0)⟩,
   plainForm1 (.vabs d a) d a fun x => if x.toInt < 0 then -x else x, plainForm1 (.vneg d a) d a fun x => -x,
   plainForm1 (.vclz d a) d a fun x => if x = 0 then 32 else BitVec.ofNat 32 (31 - x.toNat.log2),
   plainForm1 (.vpopc d a) d a fun x => BitVec.ofNat 32 ((List.range 32).countP fun i => x.getLsbD i),
   plainForm1 (.vbrev d a) d a fun x => x.reverse,
   plainForm1 (.vffs d a) d a fun x => BitVec.ofNat 32 ((List.range 32).findIdx fun i => x.getLsbD i),
   plainForm (.vbfx d a b) 4 d a b fun x c =>
     BitVec.ofNat 32 (x.toNat / 2 ^ (controlField c).1 % 2 ^ (controlField c).2),
   plainForm (.vbfxS d a b) 4 d a b fun x c =>
     if (controlField c).2 = 0 then 0
     else ((x >>> (controlField c).1).setWidth (controlField c).2).signExtend 32,
   ⟨.vbfi d a b, 4, d.toNat, [.v a.toNat, .v b.toNat, .v d.toNat], fun t l =>
     let c := controlField (t.v b.toNat l)
     let m : Lane := BitVec.ofNat 32 ((2 ^ c.2 - 1) * 2 ^ c.1)
     ((t.v d.toNat l &&& ~~~m) ||| ((t.v a.toNat l <<< c.1) &&& m), 0)⟩,
   ⟨.vsel d a b p, 4, d.toNat, [.v a.toNat, .v b.toNat, .p p.toNat],
     fun t l => (if (t.p p.toNat).getLsbD l then t.v a.toNat l else t.v b.toNat l, 0)⟩,
   plainForm1 (.vaddi d a k) d a fun x => x + k.signExtend 32, plainForm1 (.vmuli d a k) d a fun x => x * k.signExtend 32,
   plainForm1 (.vandi d a k) d a fun x => x &&& k.setWidth 32, plainForm1 (.vori d a k) d a fun x => x ||| k.setWidth 32,
   plainForm1 (.vxori d a k) d a fun x => x ^^^ k.setWidth 32,
   plainForm1 (.vshli d a sh) d a fun x => x <<< sh.toNat, plainForm1 (.vshri d a sh) d a fun x => x >>> sh.toNat,
   plainForm1 (.vsari d a sh) d a fun x => x.sshiftRight sh.toNat,
   ⟨.vmovi d s k, 4, d.toNat, [], fun _ _ => ((s ++ k).signExtend 32, 0)⟩,
   ⟨.vmovs d s, 4, d.toNat, [.u s.toNat], fun t _ => ((t.u s.toNat).extractLsb' 0 32, 0)⟩,
   ⟨.vmovsHi d s, 4, d.toNat, [.u s.toNat], fun t _ => ((t.u s.toNat).extractLsb' 32 32, 0)⟩,
   ⟨.vlane d 0, 4, d.toNat, [], fun _ l => (BitVec.ofNat 32 l, 0)⟩,
   ⟨.vlane d 1, 4, d.toNat, [], fun _ l => (BitVec.ofNat 32 (l % 32), 0)⟩,
   ⟨.vlane d 2, 4, d.toNat, [], fun t l => (BitVec.ofNat 32 (l % 32 % 2 ^ t.plot), 0)⟩,
   ⟨.vlane d 3, 4, d.toNat, [], fun _ l => (BitVec.ofNat 32 (l / 32), 0)⟩,
   plainForm1 (.vlea d a off scale) d a fun x => x <<< scale.toNat + off.signExtend 32,
   plainForm1 (.fabs d a) d a fun x => x &&& 0x7FFFFFFF, plainForm1 (.fneg d a) d a fun x => x ^^^ 0x80000000,
   plainForm (.fcpsgn d a b) 4 d a b fun x y => (x &&& 0x7FFFFFFF) ||| (y &&& 0x80000000),
   plainForm1 (.fclass d a) d a fun x => BitVec.ofNat 32 (fclass x.toNat)]

/-- The compact forms, whose destination is the first source (R217, R342): the operation of the 32-bit instruction on `v`d and
`v`s. -/
def compactForms (d s : BitVec 5) : List LaneForm :=
  let form := fun (i : Instr) (f : Team → Lane → Lane → Lane × Nat) =>
    LaneForm.mk i 2 d.toNat [.v d.toNat, .v s.toNat] fun t l => f t (t.v d.toNat l) (t.v s.toNat l)
  let fp := fun (g : FFmt → Nat → Nat → Nat → Nat × Nat) (t : Team) (x y : Lane) => laneOf (g .fp32 t.rm x.toNat y.toNat)
  let bf := fun (g : FFmt → Nat → Nat → Nat → Nat × Nat) (t : Team) (x y : Lane) => halves (fun a b _ => g .bf16 t.rm a b) x y 0
  [⟨.vmovC d s, 2, d.toNat, [.v s.toNat, .v s.toNat], fun t l => (t.v s.toNat l, 0)⟩,
   form (.vaddC d s) fun _ x y => (x + y, 0), form (.vsubC d s) fun _ x y => (x - y, 0),
   form (.vmulC d s) fun _ x y => (x * y, 0), form (.vandC d s) fun _ x y => (x &&& y, 0),
   form (.vorC d s) fun _ x y => (x ||| y, 0), form (.vxorC d s) fun _ x y => (x ^^^ y, 0),
   form (.vshlC d s) fun _ x y => (x <<< (y.toNat % 32), 0), form (.vshrC d s) fun _ x y => (x >>> (y.toNat % 32), 0),
   form (.vshrAC d s) fun _ x y => (x.sshiftRight (y.toNat % 32), 0),
   form (.vminC d s) fun _ x y => (smaller false x y, 0), form (.vminUC d s) fun _ x y => (smaller true x y, 0),
   form (.vmaxC d s) fun _ x y => (larger false x y, 0), form (.vmaxUC d s) fun _ x y => (larger true x y, 0),
   form (.faddC d s) (fp fadd), form (.fsubC d s) (fp fsub), form (.fmulC d s) (fp fmul),
   form (.hadd2Bf16C d s) (bf fadd), form (.hsub2Bf16C d s) (bf fsub), form (.hmul2Bf16C d s) (bf fmul),
   form (.fminC d s) (fp fun f _ => fminmax f false), form (.fmaxC d s) (fp fun f _ => fminmax f true),
   form (.hmin2Bf16C d s) (bf fun f _ => fminmax f false), form (.hmax2Bf16C d s) (bf fun f _ => fminmax f true)]

/-- The rounding mode of a rounding field (R191, R255). -/
def roundingOf (t : Team) (r : BitVec 3) : Nat := if r.toNat = 0 then t.rm else r.toNat

/-- Divisions (R199, R257): quotient and remainder, and IDZ for a divisor of 0 and for the signed overflow. -/
def divisionForms (d a b : BitVec 7) : List LaneForm :=
  let form := fun (i : Instr) (f : Lane → Lane → Lane × Nat) =>
    LaneForm.mk i 4 d.toNat [.v a.toNat, .v b.toNat] fun t l => f (t.v a.toNat l) (t.v b.toNat l)
  let overflows := fun (x y : Lane) => x = 0x80000000 ∧ y = 0xFFFFFFFF
  [form (.vdiv d a b) fun x y =>
     if y = 0 then (0xFFFFFFFF, fIDZ) else if overflows x y then (x, fIDZ) else (BitVec.ofInt 32 (x.toInt.tdiv y.toInt), 0),
   form (.vdivU d a b) fun x y => if y = 0 then (0xFFFFFFFF, fIDZ) else (BitVec.ofNat 32 (x.toNat / y.toNat), 0),
   form (.vrem d a b) fun x y =>
     if y = 0 then (x, fIDZ) else if overflows x y then (0, fIDZ) else (BitVec.ofInt 32 (x.toInt.tmod y.toInt), 0),
   form (.vremU d a b) fun x y => if y = 0 then (x, fIDZ) else (BitVec.ofNat 32 (x.toNat % y.toNat), 0)]

/-- Floating-point, packed-half and conversion forms (R261 to R267): the FP32 or packed operation of Number Formats, each element
rounded once under the rounding mode of the field. -/
def floatForms (d a b : BitVec 7) (x y : BitVec 6) (h : BitVec 1) (r : BitVec 3) : List LaneForm :=
  let two := [RegRef.v a.toNat, .v b.toNat]
  let fp2 := fun (i : Instr) (g : Nat → Nat → Nat → Nat × Nat) =>
    LaneForm.mk i 4 d.toNat two fun t l => laneOf (g (roundingOf t r) (t.v a.toNat l).toNat (t.v b.toNat l).toNat)
  let fp3 := fun (i : Instr) (g : Nat → Nat → Nat → Nat → Nat × Nat) =>
    LaneForm.mk i 4 d.toNat (two ++ [.v d.toNat]) fun t l =>
      laneOf (g (roundingOf t r) (t.v a.toNat l).toNat (t.v b.toNat l).toNat (t.v d.toNat l).toNat)
  let fmt : FFmt := if h = 1 then .bf16 else .fp16
  let half := fun (i : Instr) (acc : Bool) (g : Nat → Nat → Nat → Nat → Nat × Nat) =>
    LaneForm.mk i 4 d.toNat ([.v x.toNat, .v y.toNat] ++ if acc then [.v d.toNat] else []) fun t l =>
      halves (g (roundingOf t r)) (t.v x.toNat l) (t.v y.toNat l) (if acc then t.v d.toNat l else 0)
  [fp2 (.fadd d a b r) (fadd .fp32), fp2 (.fsub d a b r) (fsub .fp32), fp2 (.fmul d a b r) (fmul .fp32),
   fp2 (.fdiv d a b r) (fdiv .fp32), fp2 (.fmin d a b) (fun _ => fminmax .fp32 false), fp2 (.fmax d a b) (fun _ => fminmax .fp32 true),
   fp3 (.ffma d a b r) (ffma .fp32), fp3 (.ffms d a b r) (ffms .fp32),
   ⟨.fsqrt d a r, 4, d.toNat, [.v a.toNat], fun t l => laneOf (fsqrt .fp32 (roundingOf t r) (t.v a.toNat l).toNat)⟩,
   half (.hadd2 d x y h r) false (fun m u v _ => fadd fmt m u v), half (.hsub2 d x y h r) false (fun m u v _ => fsub fmt m u v),
   half (.hmul2 d x y h r) false (fun m u v _ => fmul fmt m u v), half (.hfma2 d x y h r) true (ffma fmt),
   half (.hfms2 d x y h r) true (ffms fmt), half (.hmin2 d x y h) false (fun _ u v _ => fminmax fmt false u v),
   half (.hmax2 d x y h) false (fun _ u v _ => fminmax fmt true u v)]

/-- The special functions and the conversions (R265, R267). -/
def conversionForms (d a : BitVec 7) (into source r : BitVec 3) : List LaneForm :=
  let special := fun (i : Instr) (f : Nat) =>
    LaneForm.mk i 4 d.toNat [.v a.toNat] fun t l => laneOf (specialFn f (t.v a.toNat l).toNat)
  [special (.frcp d a) 0, special (.frsq d a) 1, special (.fex2 d a) 2, special (.flg2 d a) 3, special (.fsin d a) 4,
   special (.fcos d a) 5, special (.ftanh d a) 6,
   ⟨.cvt d a into source r, 4, d.toNat, [.v a.toNat], fun t l =>
     LOp.eval (.cvt (cvtType source) (cvtType into)) (roundingOf t r) (t.v a.toNat l) 0 0⟩]

/-- The lanes of l's plot of n lanes, from position 0 on (R145, R272). -/
def plotOf (t : Team) (l : Nat) : List Nat := (List.range (2 ^ t.plot)).map fun q => l - l % 32 % 2 ^ t.plot + q

/-- `Peer` (R272): the value of the lane at a position of l's plot, 0 when that lane is inactive or the position is outside. -/
def peerOf (t : Team) (x : Nat → Lane) (l : Nat) (q : Int) : Lane :=
  if 0 ≤ q ∧ q < 2 ^ t.plot ∧ l - l % 32 % 2 ^ t.plot + q.toNat ∈ t.active then x (l - l % 32 % 2 ^ t.plot + q.toNat) else 0

/-- Cross-lane forms (R272 to R277). -/
def crossForms (d a b : BitVec 7) (s : BitVec 6) (op : BitVec 3) : List LaneForm :=
  let two := [RegRef.v a.toNat, .v b.toNat]
  let x := fun (t : Team) => t.v a.toNat
  let y := fun (t : Team) (l : Nat) => (t.v b.toNat l).toNat
  let pos := fun (t : Team) (l : Nat) => l % 32 % 2 ^ t.plot
  let act := fun (t : Team) (l : Nat) => (plotOf t l).filter fun k => t.active.contains k
  let bits := fun (t : Team) (l : Nat) (f : Nat → Bool) =>
    BitVec.ofNat 32 (((List.range (2 ^ t.plot)).filter fun q =>
      t.active.contains (l - pos t l + q) && f (l - pos t l + q)).foldl (fun m q => m + 2 ^ q) 0)
  [⟨.shflIdx d a b, 4, d.toNat, two, fun t l => (peerOf t (x t) l (y t l), 0)⟩,
   ⟨.shflUp d a b, 4, d.toNat, two, fun t l => (peerOf t (x t) l ((pos t l : Int) - y t l), 0)⟩,
   ⟨.shflDown d a b, 4, d.toNat, two, fun t l => (peerOf t (x t) l ((pos t l : Int) + y t l), 0)⟩,
   ⟨.shflXor d a b, 4, d.toNat, two, fun t l => (peerOf t (x t) l ((pos t l ^^^ y t l : Nat) : Int), 0)⟩,
   ⟨.bcast d a s, 4, d.toNat, [.v a.toNat, .u s.toNat], fun t l => (peerOf t (x t) l (t.u s.toNat).toNat, 0)⟩,
   ⟨.vred d a op, 4, d.toNat, [.v a.toNat], fun t l => combine op.toNat t.rm ((act t l).map (x t))⟩,
   ⟨.vscan d a op, 4, d.toNat, [.v a.toNat], fun t l => combine op.toNat t.rm (((act t l).filter fun k => decide (k ≤ l)).map (x t))⟩,
   ⟨.matchBits d a b, 4, d.toNat, [.v a.toNat], fun t l => (bits t l fun k => x t k == x t l, 0)⟩,
   ⟨.matchFloat d a b, 4, d.toNat, [.v a.toNat],
     fun t l => (bits t l fun k => (LCmp.eval .feq (x t k) (x t l)).1, 0)⟩]

/-- The conditions of VCMP (R259). -/
def compares (c : Nat) (x y : Lane) : Bool :=
  match c with
  | 0 => decide (x = y)
  | 1 => decide (x ≠ y)
  | 2 => decide (x.toInt < y.toInt)
  | 3 => decide (x.toInt ≤ y.toInt)
  | 4 => decide (y.toInt < x.toInt)
  | 5 => decide (y.toInt ≤ x.toInt)
  | 6 => decide (x.toNat < y.toNat)
  | 7 => decide (x.toNat ≤ y.toNat)
  | 8 => decide (y.toNat < x.toNat)
  | _ => decide (y.toNat ≤ x.toNat)

/-! ## Closing and control instructions -/

/-- The state after an instruction of four bytes that changes its team by `f` and nothing else but the pc. -/
def State.after (s : State) (f : Team → Team) : State := { s with team := { f s.team with pc := s.team.pc + 4 } }

/-- The state after a control transfer that changes its team by `f` and nothing else but the pc. -/
def State.goes (s : State) (pc : Word) (f : Team → Team) : State := { s with team := { f s.team with pc := pc } }

/-- The state in which the team raises a trap at its instruction, which has not completed: nothing else has changed. -/
def State.raises (s : State) (x : Trap) : State := s.mainTrap x 4

/-- The flashback point that an instruction of four bytes sets after itself (R164), unless the team is at supervisor level. -/
def Team.pointed (t : Team) : Team :=
  if t.level = .supervisor then t
  else { t with point := ⟨t.pc + 4, t.mode, t.plot, t.defer, t.stepNo⟩, unrewindable := false }

/-- The registers of the team that SGETS reads as they stand (R228). -/
def plainSystemRegisters : List (Nat × (Team → Word)) :=
  [(0x000, Team.mode), (0x001, Team.flags), (0x002, fun t => BitVec.ofNat 64 t.plot), (0x008, Team.vdidWord),
   (0x010, Team.cause), (0x011, Team.epc), (0x012, Team.tval), (0x013, fun t => BitVec.ofNat 64 t.frame)]

/-- Nothing of the team is still on its way: no flow of it runs, and every access of it is complete and performed. -/
def State.quiet (s : State) : Bool :=
  !s.flowRuns s.team.uid && (s.accessesOf s.team.uid).isEmpty && s.performedAll s.team.uid true

/-! ## Memory instructions -/

/-- The checks of every lane of an access reach memory: none fails, none reaches a step region, a guest table or a page to be
migrated, and no load under the hint `reads` meets poison (R16, R41, R53). -/
def State.reaches (s : State) (k : AccessKind) (reads : Option Nat) (eas : List (Nat × Word)) : Bool :=
  (State.checkLanes k s eas).2.all fun a => match a.out with
    | .at _ guest => !guest && !(reads.any fun hint => (State.checkLanes k s eas).1.laneFindsPoison hint k.n a)
    | _ => false

/-- The state after the checks, which may walk and set A and D bits (R27). -/
def State.checked (s : State) (k : AccessKind) (eas : List (Nat × Word)) : State := (State.checkLanes k s eas).1

/-- The location of each lane of an access. -/
def State.locations (s : State) (k : AccessKind) (eas : List (Nat × Word)) : List (Nat × Loc) :=
  (State.checkLanes k s eas).2.filterMap fun a => match a.out with
    | .at loc _ => some (a.lane, loc)
    | _ => none

/-- The requests that were under way stand as they stood, save that some may no longer fill a line that a later access finds, and
after them come others for which `new` holds. -/
def RequestsAdded (s t : State) (new : Req → Prop) : Prop :=
  ∃ more, (t.requests.map fun (r : Req) => { r with fill := false }) =
    ((s.requests ++ more).map fun (r : Req) => { r with fill := false }) ∧ ∀ r ∈ more, new r

/-- The lane cache of the team's mill has been emptied and no other, and what its mill issued before fills no line that a later
access finds (R42). -/
def CacheEmptied (s t : State) : Prop :=
  mapGet [] t.laneCache s.team.mill = [] ∧ (∀ m, m ≠ s.team.mill → mapGet [] t.laneCache m = mapGet [] s.laneCache m) ∧
  (t.requests = s.requests.map fun r => if r.mill = s.team.mill then { r with fill := false } else r) ∧
  t.walks = s.walks.map fun w => if w.mill = s.team.mill then { w with fill := false } else w

/-- The requests that were under way stand as before, and after them come exactly those that `view` shows as `new`, in that order. -/
def RequestsSent {β : Type} (s t : State) (view : Req → β) (new : List β) : Prop :=
  ∃ more, (t.requests.map fun (r : Req) => { r with fill := false }) =
    ((s.requests ++ more).map fun (r : Req) => { r with fill := false }) ∧ more.map view = new

/-- The load of `n` bytes a lane into `v`d has been issued: a request reads each lane's location for it, unless the lane cache holds the
bytes; while a request is under way the register is pending. Only the active lanes of the register can have changed, and no byte of
memory has; no other request has come. -/
def LoadIssued (s t : State) (k : AccessKind) (hint d : Nat) (eas : List (Nat × Word)) : Prop :=
  (∀ x ∈ s.locations k eas,
    (∃ r ∈ t.requests, r.team = s.team.uid ∧ r.loc = (spanOf k.n x.2).2 ∧
      ∃ parts ea, r.op = .load d parts ∧ (x.1, ea) ∈ eas ∧ ⟨x.1, ea, (spanOf k.n x.2).1, k.n⟩ ∈ parts) ∨
    ((s.checked k eas).cached s.team.mill hint (spanOf k.n x.2).2 (max 4 k.n)).isSome = true) ∧
  RequestsAdded s t (fun r => r.team = s.team.uid ∧ r.stage = .egress ∧ r.n = max 4 k.n ∧ ∃ parts, r.op = .load d parts) ∧
  (t.requests.length = s.requests.length ∨ ∀ v ∈ pairRegs k.n d, v ∈ t.pending s.team.uid) ∧
  (∀ r l, l < 1024 → t.team.v r l = s.team.v r l ∨ (l ∈ s.team.active ∧ .v r ∈ pairRegs k.n d)) ∧
  t.team = { s.team with vregs := t.team.vregs, vpoison := t.team.vpoison, pc := s.team.pc + 4 } ∧
  SameMemory (s.checked k eas) t ∧ t.rest = s.rest

/-- The store has been issued: one request carries each lane's bytes to its location, in order of the lanes, and there is no other new
one; no register has changed, and no byte of memory until the request is performed. -/
def StoreIssued (s t : State) (k : AccessKind) (release : Bool) (eas : List (Nat × Word)) (data : Nat → List Byte) : Prop :=
  (∀ x ∈ s.locations k eas, ∃ r ∈ t.requests, r.team = s.team.uid ∧ r.loc = x.2 ∧ r.op = .store (data x.1) ∧
    r.release = (release && k.plain)) ∧
  RequestsAdded s t (fun r => ∃ x ∈ s.locations k eas, r.team = s.team.uid ∧ r.loc = x.2 ∧ r.op = .store (data x.1)) ∧
  RequestsSent s t (fun r => (r.team, r.swath, r.loc, r.op))
    ((s.locations k eas).map fun x => (s.team.uid, x.1 / 32, x.2, .store (data x.1))) ∧
  t.team = { s.team with pc := s.team.pc + 4 } ∧ SameMemory (s.checked k eas) t ∧ t.rest = s.rest

/-- The forms of the atomics (R290, R291). -/
def atomicForms (d : BitVec 7) (s x : BitVec 6) (r : BitVec 1) (c : BitVec 2) (p sz : BitVec 1) : List (Instr × AtomicForm) :=
  let f := fun (op : AtomicOp) (n : Nat) (ret : Bool) => AtomicForm.mk op n (p == 1) c ret d.toNat s.toNat x.toNat
  let n := if sz = 1 then 8 else 4
  [(.atomFadd d s x r c p, f .fadd 4 (r == 1)), (.atomAdd d s x r c p sz, f .add n (r == 1)),
   (.atomMin d s x r c p sz, f .min n (r == 1)), (.atomMax d s x r c p sz, f .max n (r == 1)),
   (.atomAnd d s x r c p sz, f .and n (r == 1)), (.atomOr d s x r c p sz, f .or n (r == 1)),
   (.atomXor d s x r c p sz, f .xor n (r == 1)), (.atomXchg d s x c p sz, f .xchg n true),
   (.atomCas d s x c p sz, f .cas n true)]

/-! ## Counters, engines and the Millstone -/

/-- The result `v` of an instruction comes later (R231, R252): its access holds a completion counter of the team, and `s`d is pending
until the turn that lands `v` in it. `kept` says that the instruction is not to be made again. -/
def AnswerComes (u t : State) (kept : Bool) (d : Nat) (v : Word) : Prop :=
  ∃ a r, t.accesses = u.accesses ++ [a] ∧ t.requests = u.requests ++ [r] ∧
    (a.team, a.left, a.dsts, a.atomic) = (u.team.uid, 1, [.u d], kept) ∧ a.data = [] ∧ a.poisoned = [] ∧ a.guest = none ∧
    (a.acquire, a.hold, a.deferred, a.empties) = (false, false, false, false) ∧
    (r.team, r.access, r.stage, r.op) = (u.team.uid, a.id, .served (leBytes 8 v.toNat), .uload d 0 8) ∧
    t = { u with accesses := t.accesses, requests := t.requests, nextId := t.nextId }

/-- Nothing waits on the counter: no parked team, and no graph under way. -/
def State.unwatched (s : State) (slice off : Nat) : Bool :=
  s.graphs.all (·.finished) && s.teams.all fun t => !t.waitsOn slice off

/-- An arrival counter of the team's partition that an instruction may act on: it lies at a byte of a slice, no store is queued
before it, none of its words is poisoned, word 2 has no reserved bit set, and nothing waits on it (R97, R98). -/
def State.counterAt (s : State) (ca : Word) (slice off : Nat) : Prop :=
  s.counterPhys ca s.team.part = .ok (slice, off) ∧ s.plainBusy slice off 16 = false ∧ s.plainPoisoned slice off 16 = false ∧
  s.ctrWord slice off 2 < 256 ∧ s.unwatched slice off = true

/-- Every byte of the Plain outside `n` bytes from a byte of a slice reads as before. -/
def PlainKept (s t : State) (slice off n : Nat) : Prop :=
  ∀ k, ¬(plainKey slice off ≤ k ∧ k < plainKey slice off + n) → mapGet unlistedByte t.plain k = mapGet unlistedByte s.plain k

/-- The instruction has written the counter and nothing else but the team's pc and point: its words are now `w`, in order. -/
def CounterWritten (s t : State) (slice off : Nat) (w : List Nat) : Prop :=
  (List.range 4).map (t.ctrWord slice off) = w ∧ PlainKept s t slice off 16 ∧
  t = { s with plain := t.plain, team := { s.team.pointed with pc := s.team.pc + 4 } }

/-- The group that the descriptor `b` names has these members in rank order (R317). -/
def RankGroup (b : List Byte) (ms : List Nat) : Prop :=
  let f := fun o n => leNat ((b.drop o).take n)
  let count := fun d => f (0x0E + 2 * d) 2
  let stride := fun d => (BitVec.ofNat 16 (f (8 + 2 * d) 2)).toInt
  ms.length = count 0 * count 1 * count 2 ∧ ∀ i0 i1 i2, i0 < count 0 → i1 < count 1 → i2 < count 2 →
    ms[i0 + count 0 * (i1 + count 1 * i2)]?.map Int.ofNat = some ((f 0 2 : Int) + i0 * stride 0 + i1 * stride 1 + i2 * stride 2)

/-- The record of a group instruction that starts in `s` names its virtual device, tag and group, its counter with GEN, and where it
lands (R317, R319, R322). -/
def GroupRecorded (s : State) (b : List Byte) (c : Coll) (ms : List Nat) (ctr dst : Nat × Nat) : Prop :=
  c.vd = s.team.vd ∧ c.domain = s.regBits (vdReg s.team.vd 0x050) 47 32 ∧ c.tag = leNat ((b.drop 2).take 2) ∧ c.members = ms ∧
  RankGroup b ms ∧ ms[c.rank]? = some s.module ∧ (c.ctrSlice, c.ctrOff) = ctr ∧ c.gen = s.ctrWord ctr.1 ctr.2 3 ∧
  (c.slice, c.dst) = dst ∧ c.recvCounts = none ∧ c.slot = false

/-- Bytes that a collective of a kind lands at a member (R320). -/
def landingBytes (kind p rank bytes : Nat) : Nat :=
  match kind with
  | 0 => bytes
  | 1 => bytes / p
  | 2 => p * bytes
  | 3 => bytes
  | _ => if rank = 0 then bytes else 0

/-- A group instruction may arrive: nothing holds it back, every lane below L is active, and what the team has accessed is performed
(R103, R104, R319). -/
def State.arrives (s : State) (i : Instr) (a b : BitVec 6) : Prop :=
  s.issuesAlone i false [.u a.toNat, .u b.toNat] [] = true ∧ (∀ l < s.team.lanes, s.team.mask.getLsbD l = true) ∧
  s.acquiring s.team.uid = false ∧ s.performedAll s.team.uid true = true

/-- The team is alone in its workgroup and its group instruction finds its descriptor `d`, which leaves `s1`, with the group `ms`, and
its counter, with nothing in the way (R98, R318, R319). -/
def State.groupStarts (s s1 : State) (i : Instr) (a b : BitVec 6) (d : List Byte) (ms : List Nat) (ctr : Nat × Nat) : Prop :=
  s.arrives i a b ∧ (s.wgOf s.team.wg).isSome = true ∧ (s.members s.team.wg).length = 1 ∧ (∀ x ∈ s.rest, x.uid ≠ s.team.uid) ∧
  (∀ x ∈ s.workgroups, x.uid = s.team.wg → x.arrivals = []) ∧ (s.team.u b.toNat).toNat % 64 = 0 ∧
  { s with team := { s.team with age := 0 } }.teamRead (s.team.u b.toNat).toNat 64 = (s1, .data d) ∧
  s1.team = { s.team with age := 0 } ∧ s1.acquiring s.team.uid = false ∧ s1.groupMembers s.team.vd d = some ms ∧
  s1.counterPhys (s.team.u a.toNat) s.team.part = .ok ctr ∧ s1.plainBusy ctr.1 ctr.2 16 = false ∧ s1.ctrWord ctr.1 ctr.2 2 < 256

/-- The state with no arrival left in the workgroup, in which each of these teams is to issue its group instruction again (R319). -/
def State.withdrawn (s : State) (uids : List Nat) : State :=
  { s with
    workgroups := updateBy Workgroup.uid s.workgroups s.team.wg fun g => { g with arrivals := [] }
    team := { s.team with age := 0 }
    rest := s.rest.map fun x => if uids.contains x.uid && !x.isVacant then { x with status := .ready, age := 0 } else x }

/-- The row bytes of a tile (R304). -/
def rowBytesOf (x : Shape) : Nat :=
  match x.fmt with
  | 0 => 4 * x.cols
  | 1 => 2 * x.cols
  | 2 => 2 * x.cols
  | 3 => x.cols
  | 4 => 18 * x.cols / 16
  | 5 => 12 * x.cols / 16
  | _ => 8 * x.cols / 16

/-- The resources of PQUOTA (R329): the selector, how many bits of `s`b it uses, the quota, and what is in use. -/
def quotaRows (s : State) (b : Word) : List (Nat × Nat × Nat × Nat) :=
  let part := s.team.part
  let mill := (b.extractLsb' 0 9).toNat
  let wheel := (b.extractLsb' 9 2).toNat
  let here := s.teams.filter fun t => t.resident && t.part == part && t.mill == mill
  [(0, 9, s.regBits (partReg part 0x008) 22 16, here.length), (1, 11, s.regBits (partReg part 0x008) 60 48, s.rowsUsed part mill wheel),
   (2, 9, s.regBits (partReg part 0x010) 25 16,
     ((s.workgroups.filter fun g => g.vd / 8 == part && g.wpRows != 0 && g.wpBase / 2 ^ 21 % 512 == mill).map (·.wpRows)).sum),
   (3, 9, s.regBits (vdReg s.team.vd 0x080) 25 16, s.saveRowsUsed s.team.vd mill),
   (4, 0, 2 * s.regBits (vdReg s.team.vd 0x058) 31 16 * (s.stepMembers s.team.vd).length,
     (s.sluice.filter fun e => s.regionVd e.region == s.team.vd).length),
   (5, 0, 32, (s.colls.filter (·.slot)).length)]

/-- The places of as many records in a log ring of `size` bytes, HEAD standing at `head`, and whether each began anew (R270). -/
def ringPlaces (size : Nat) : Nat → Nat → List (Nat × Bool)
  | _, 0 => []
  | head, n + 1 =>
    let anew := decide (size - 16 < head + 144)
    let place := if anew then 0 else head
    (place, anew) :: ringPlaces size (place + 144) n

/-- The record of swath `w` in the log ring (R270): the bits delivered are those the step draws. -/
def ringRecord (s : State) (w : Nat) : List Byte :=
  leBytes 4 (s.team.lseq % 65536 * 65536 + s.team.vd) ++ leBytes 4 (s.teamWord s.team) ++
  leBytes 4 (s.team.rndLog % 2 ^ 27 * 32 + w) ++ leBytes 4 (s.team.mask.toNat / 2 ^ (32 * w)) ++
  (List.range 32).flatMap fun i => leBytes 4
    (if 32 * w + i ∈ s.team.active then (Config.noise (s.draws + s.team.active.idxOf (32 * w + i))).toNat else 0)

/-- The Millstone takes an instruction that names the tiles and accumulators given (R182, R301). -/
def State.stoneFree (s : State) (tiles accs : List Nat) : Bool :=
  s.ownsStone s.team.part s.team.mill && !tiles.any (s.stoneBusy false) && !accs.any (s.stoneBusy true)

/-- The instruction has written the accumulator's words by `f` from the old ones, with the flags `fl`; it is under way in the
Millstone, and nothing else has changed but the team's pc and its tracked set. -/
def AccumulatorWritten (s t : State) (tracked : Team) (c : Nat) (f : Nat → Nat → Lane) (fl : Nat) : Prop :=
  (∀ i j, i < 64 → j < 64 → t.acc c i j = f i j) ∧
  (∀ k, ¬(accKey s.team.mill c 0 ≤ k ∧ k < accKey s.team.mill c 4096) → mapGet 0 t.accs k = mapGet 0 s.accs k) ∧
  t = { s with
    accs := t.accs
    millstones := (s.stoneStarts true c false).millstones
    team := { tracked with flags := s.team.flags ||| BitVec.ofNat 64 fl, pc := s.team.pc + 4 } }

/-- The flags of all words of an accumulator together. -/
def accumulatorFlags (f : Nat → Nat → Nat) : Nat :=
  ((List.range 64).flatMap fun i => (List.range 64).map fun j => f i j).foldl (· ||| ·) 0

/-! ## Traps and privileged instructions -/

/-- The privileged instructions (R325 to R331), with the registers each reads. -/
def privilegedForms (a b d : BitVec 6) : List Instr :=
  [.eret, .tlbinv a, .tlbinvAll, .keyld a b, .keydel a, .pquota d a b, .csrr d a, .csrw a b, .halt]

/-- The frame of the team lies in the Plain of its partition, at a byte of a slice; its write or read waits for nothing and meets no
poison (R349, R350). -/
def State.frameAt (s : State) (slice off : Nat) : Prop :=
  s.plainPhys (BitVec.ofNat 64 s.team.frame) (frameSize s.team.lanes) s.team.part 1 = .ok (slice, off) ∧
  s.plainBusy slice off (frameSize s.team.lanes) = false ∧ s.plainPoisoned slice off (frameSize s.team.lanes) = false

/-- The form traps (R193): every active lane gets its value, the flags are gathered, and the trap names the enabled flags set and the
lanes that set one. -/
def LaneForm.Traps (f : LaneForm) : Prop :=
  ∀ s : State, s.issues f.i f.srcs [.v f.d] = true →
    let all := s.unionFlags fun l => (f.value s.team l).2
    let en := enabledFlags s.team.mode all
    en ≠ 0 → ∃ t x, exec f.i s = .next (t.mainTrap x f.n) ∧
      WritesLanes s t 0 f.d (fun l => (f.value s.team l).1) (BitVec.ofNat 64 all) ∧
      x.code = (if bitOf en 5 then 0x13 else 0x14) ∧ x.tval = BitVec.ofNat 64 en ∧ x.done = true ∧
      ∀ l, x.mask.getLsbD l = decide (l ∈ s.team.active ∧ enabledFlags s.team.mode (f.value s.team l).2 ≠ 0)

/-! ## Registers of BAR 0 -/

/-- Registers that take the fields a store of 8 bytes gives them, and read 0 elsewhere (R47, R370, R379). -/
def plainHostRegisters : List (Nat × List (Nat × Nat)) :=
  [(scrReg 0, [(38, 12)]), (scrReg 1, [(27, 0)]), (cthreshReg, [(15, 0)]), (0x500000, [(63, 63), (51, 0)]),
   (0x500010, [(31, 0)]), (permitReg 0, [(63, 63), (15, 0)]), (permitReg 4095, [(63, 63), (15, 0)]),
   (launchReg 0 1, [(63, 0)]), (launchReg 4095 2, [(63, 0)])]

/-- Registers of a virtual device whose fields take what the host stores, the others keeping their values (R7, R8, R32). -/
def plainDeviceFields : List (Nat × List (Nat × Nat)) :=
  [(0x000, [(63, 63)]), (0x040, [(55, 8), (1, 0)]), (0x058, [(31, 0)]), (0x060, [(38, 0)]),
   (0x070, [(63, 63), (19, 16), (13, 0)]), (0x088, [(63, 63), (57, 48), (29, 12)]), (0x098, [(63, 63), (51, 0)]),
   (0x0A8, [(31, 0)]), (0x0C0, [(63, 63), (31, 0)]), (0x0D0, [(63, 63), (51, 0)]), (0x0E0, [(31, 0)]),
   (0x0E8, [(63, 63), (51, 0)]), (0x0F0, [(63, 63), (51, 0)]), (0x0F8, [(63, 48), (31, 16)])]

/-- The host's commands change nothing (R381): those of its engines and of one virtual device, partition, index, address space,
queue, peer and register. -/
def CommandsIgnored (s : State) : Prop :=
  ∀ (vd p a q m off n : Nat) (w : Word) (k : BitVec 16) (asid : BitVec 12) (seq : BitVec 32) (alt : Bool),
    vd < 256 → p < 32 → a < 4096 → q < 16 → m < 4096 → 0x100000 ≤ off → ¬(0x500000 ≤ off ∧ off < 0x600000) →
    s.regionBusy off = false →
    exec (.scrctlGo k) s = .next s ∧ exec (.invcmdOnePage vd w asid) s = .next s ∧ exec (.invcmdAsid vd asid) s = .next s ∧
    exec (.invcmdVirtualDevice vd) s = .next s ∧ exec (.kcmdLoad p k) s = .next s ∧ exec (.kcmdDestroy p k) s = .next s ∧
    exec (.vdfrespReissue vd seq) s = .next s ∧ exec (.vdfrespContinue vd seq) s = .next s ∧
    exec (.vdfrespRetire vd seq) s = .next s ∧ exec (.vdcmdResume vd seq) s = .next s ∧ exec (.vdcmdPreempt vd) s = .next s ∧
    exec (.pwinWrite p w) s = .next s ∧ exec (.addressSpaceRootWrite a alt w) s = .next s ∧ exec (.vdstepWrite vd w) s = .next s ∧
    exec (.lqbaseWrite vd q w) s = .next s ∧ exec (.vdtbaseWrite vd w) s = .next s ∧ exec (.peerUpSet m) s = .next s ∧
    exec (.routeWrite m alt w) s = .next s ∧ exec (.registerWrite off n w) s = .next s

/-! ## Placement -/

/-- A workgroup has been placed (R10, R149, R176): its teams, numbered from 0, stand READY at the kernel's entry after the others,
with the arguments in their first uniform registers, every lane active and an empty mask stack, at user level; the lane cache of the
mill is empty, and no byte of memory has changed. -/
def Placed (s t : State) (w : Start) (p : Placement) : Prop :=
  t.rest = s.rest ++ (List.range w.kernel.teams).map (w.team p s.nextId) ∧
  (∀ i < w.kernel.teams,
    let x := w.team p s.nextId i
    x.status = .ready ∧ x.tindex = i ∧ x.vd = w.vd ∧ x.asid = w.asid ∧ x.mill = p.mill ∧
    16 * x.wheel + x.slot = p.slots.getD i 0 ∧ x.pc = w.kernel.entry ∧ x.lanes = 32 * w.kernel.swaths ∧
    x.regs = 8 * w.kernel.granules ∧ (∀ k < 64, x.u k = w.args.getD k 0) ∧ x.mask = allLanes x.lanes ∧ x.stack = [] ∧
    x.level = .user ∧ x.closure = [] ∧ x.plot = 5) ∧
  (∃ g, t.workgroups = s.workgroups ++ [g] ∧ g.uid = s.nextId ∧ g.launch = w.launch ∧ g.nteam = w.kernel.teams ∧
    g.linear = w.linear ∧ (g.x, g.y, g.z, g.stage) = (w.x, w.y, w.z, w.stage) ∧ g.wpRows = w.kernel.wpRows) ∧
  t.team = s.team ∧ mapGet [] t.laneCache p.mill = [] ∧ SameMemory s t

end Sys2Proof.Machine
end

