-- ==== Sys2Proof/Certificates/Slice0/Obligations.lean ====
section
/-! DEFINITION. The statements for the provers. Every hypothesis is one on the state and the operands alone. -/

open Sys2Proof Sys2Proof.Machine

/-! ## Uniform arithmetic -/

/-- R232 to R234: every SALU operation but the divisions completes, writes its result to `s`d, leaves every other register and all
memory alone, and sets no flag. -/
def Obligations.UniformArithmeticWritesResult : Prop :=
  (∀ row ∈ uniformRows, ∀ (s : State) (d a b : BitVec 6), s.issues (row.1 d a b) [.u a.toNat, .u b.toNat] [.u d.toNat] = true →
    ∃ t, exec (row.1 d a b) s = .next t ∧ WritesUniform s t 4 d.toNat (row.2 (s.team.u a.toNat) (s.team.u b.toNat)) 0) ∧
  (∀ row ∈ uniformUnaryRows, ∀ (s : State) (d a : BitVec 6), s.issues (row.1 d a) [.u a.toNat] [.u d.toNat] = true →
    ∃ t, exec (row.1 d a) s = .next t ∧ WritesUniform s t 4 d.toNat (row.2 (s.team.u a.toNat)) 0) ∧
  (∀ row ∈ uniformImmediateRows, ∀ (s : State) (d a : BitVec 6) (k : BitVec 12),
    s.issues (row.1 d a k) [.u a.toNat] [.u d.toNat] = true →
    ∃ t, exec (row.1 d a k) s = .next t ∧ WritesUniform s t 4 d.toNat (row.2 (s.team.u a.toNat) k) 0) ∧
  (∀ row ∈ uniformShiftRows, ∀ (s : State) (d a k : BitVec 6), s.issues (row.1 d a k) [.u a.toNat] [.u d.toNat] = true →
    ∃ t, exec (row.1 d a k) s = .next t ∧ WritesUniform s t 4 d.toNat (row.2 (s.team.u a.toNat) k.toNat) 0) ∧
  (∀ (s : State) (d : BitVec 6) (k : BitVec 18), s.issues (.slui d k) [] [.u d.toNat] = true →
    ∃ t, exec (.slui d k) s = .next t ∧ WritesUniform s t 4 d.toNat ((k ++ (0 : BitVec 14)).signExtend 64) 0) ∧
  (∀ (s : State) (d : BitVec 6) (k : BitVec 18), s.issues (.sluih d k) [.u d.toNat] [.u d.toNat] = true →
    ∃ t, exec (.sluih d k) s = .next t ∧ WritesUniform s t 4 d.toNat (k ++ (s.team.u d.toNat).extractLsb' 0 46) 0) ∧
  (∀ (s : State) (d : BitVec 6) (k : BitVec 18), s.issues (.slea d k) [] [.u d.toNat] = true →
    ∃ t, exec (.slea d k) s = .next t ∧ WritesUniform s t 4 d.toNat (s.team.pc + k.signExtend 64 * 2) 0)

/-- R232, R199: the four uniform divisions, whose IDZ flag traps only when it is enabled. -/
def Obligations.UniformDivisionWritesResultAndFlags : Prop :=
  ∀ (s : State) (d a b : BitVec 6) (i : Instr) (w : Word) (f : Nat),
    let x := s.team.u a.toNat
    let y := s.team.u b.toNat
    let overflows := x = 0x8000000000000000 ∧ y = 0xFFFFFFFFFFFFFFFF
    ((i = .sdiv d a b ∧ (w, f) = if y = 0 then (0xFFFFFFFFFFFFFFFF, fIDZ) else if overflows then (x, fIDZ)
        else (BitVec.ofInt 64 (x.toInt.tdiv y.toInt), 0)) ∨
      (i = .sdivu d a b ∧ (w, f) = if y = 0 then (0xFFFFFFFFFFFFFFFF, fIDZ) else (BitVec.ofNat 64 (x.toNat / y.toNat), 0)) ∨
      (i = .srem d a b ∧ (w, f) = if y = 0 then (x, fIDZ) else if overflows then (0, fIDZ)
        else (BitVec.ofInt 64 (x.toInt.tmod y.toInt), 0)) ∨
      (i = .sremu d a b ∧ (w, f) = if y = 0 then (x, fIDZ) else (BitVec.ofNat 64 (x.toNat % y.toNat), 0))) →
    s.issues i [.u a.toNat, .u b.toNat] [.u d.toNat] = true → enabledFlags s.team.mode f = 0 →
    ∃ t, exec i s = .next t ∧ WritesUniform s t 4 d.toNat w (BitVec.ofNat 64 f)

/-! ## Lane arithmetic -/

/-- R199, R257, R268: the integer and packing operations on two registers, the divisions among them. -/
def Obligations.LaneIntegerWritesActiveLanes : Prop := ∀ d a b : BitVec 7, ∀ f ∈ integerForms d a b ++ divisionForms d a b, f.Completes

/-- R258 to R260, R264: bit operations, selection, immediates, moves, sign operations and FCLASS. -/
def Obligations.LaneBitOperationsWriteActiveLanes : Prop :=
  ∀ (d a b : BitVec 7) (p : BitVec 3) (s : BitVec 6) (k : BitVec 10) (sh : BitVec 5) (off : BitVec 8) (scale : BitVec 2),
    ∀ f ∈ bitForms d a b p s k sh off scale, f.Completes

/-- R217, R342: the compact forms. -/
def Obligations.CompactActsAsItsFullForm : Prop := ∀ d s : BitVec 5, ∀ f ∈ compactForms d s, f.Completes

/-- R261 to R266: floating-point and packed-half arithmetic. -/
def Obligations.LaneFloatWritesRoundedAndFlags : Prop :=
  ∀ (d a b : BitVec 7) (x y : BitVec 6) (h : BitVec 1) (r : BitVec 3), ∀ f ∈ floatForms d a b x y h r, f.Completes

/-- R265, R267: the special functions and the conversions. -/
def Obligations.SpecialAndCvtWriteActiveLanes : Prop := ∀ (d a : BitVec 7) (t f r : BitVec 3), ∀ g ∈ conversionForms d a t f r, g.Completes

/-- R272 to R277: the cross-lane operations. -/
def Obligations.CrossLaneReadsItsPlot : Prop :=
  ∀ (d a b : BitVec 7) (s : BitVec 6) (op : BitVec 3), ∀ f ∈ crossForms d a b s op, f.Completes

/-- R259, R263, R274: comparisons and votes write their predicate in the active lanes alone. -/
def Obligations.PredicatesKeepInactiveBits : Prop :=
  (∀ (s : State) (p : BitVec 4) (a b : BitVec 7) (c : BitVec 6), s.issues (.vcmp p a b c) [.v a.toNat, .v b.toNat] [.p p.toNat] = true →
    ∃ t, exec (.vcmp p a b c) s = .next t ∧
      WritesPredicate s t 4 p.toNat (fun l => compares c.toNat (s.team.v a.toNat l) (s.team.v b.toNat l)) 0) ∧
  (∀ (s : State) (p : BitVec 4) (a b : BitVec 7) (c : BitVec 6), s.issues (.fcmp p a b c) [.v a.toNat, .v b.toNat] [.p p.toNat] = true →
    let g := fun l => (floatCondition c).eval (s.team.v a.toNat l) (s.team.v b.toNat l)
    enabledFlags s.team.mode (s.unionFlags fun l => (g l).2) = 0 →
    ∃ t, exec (.fcmp p a b c) s = .next t ∧
      WritesPredicate s t 4 p.toNat (fun l => (g l).1) (BitVec.ofNat 64 (s.unionFlags fun l => (g l).2))) ∧
  (∀ (s : State) (p q : BitVec 4), s.issues (.voteAny p q) [.p q.toNat] [.p p.toNat] = true →
    ∃ t, exec (.voteAny p q) s = .next t ∧
      WritesPredicate s t 4 p.toNat (fun l => (plotOf s.team l).any fun k =>
        s.team.active.contains k && (s.team.p q.toNat).getLsbD k) 0) ∧
  (∀ (s : State) (p q : BitVec 4), s.issues (.voteAll p q) [.p q.toNat] [.p p.toNat] = true →
    ∃ t, exec (.voteAll p q) s = .next t ∧
      WritesPredicate s t 4 p.toNat (fun l => (plotOf s.team l).all fun k =>
        !s.team.active.contains k || (s.team.p q.toNat).getLsbD k) 0) ∧
  (∀ (s : State) (p : BitVec 4) (a : BitVec 7), s.issues (.voteEq p a) [.v a.toNat] [.p p.toNat] = true →
    ∃ t, exec (.voteEq p a) s = .next t ∧
      WritesPredicate s t 4 p.toNat (fun l => (plotOf s.team l).all fun k => (plotOf s.team l).all fun j =>
        !s.team.active.contains k || !s.team.active.contains j || s.team.v a.toNat k == s.team.v a.toNat j) 0)

/-- R271, R277: SREAD reads one lane; HRND hashes the seed and each lane's index, where PFEAT permits it. -/
def Obligations.LaneReadAndHashWriteResult : Prop :=
  (∀ (s : State) (d : BitVec 6) (a : BitVec 7) (b : BitVec 6), s.issues (.sread d a b) [.v a.toNat, .u b.toNat] [.u d.toNat] = true →
    ∃ t, exec (.sread d a b) s = .next t ∧ WritesUniform s t 4 d.toNat
      (if (s.team.u b.toNat).toNat ∈ s.team.active then (s.team.v a.toNat (s.team.u b.toNat).toNat).setWidth 64 else 0) 0) ∧
  (∀ (s : State) (d a : BitVec 7) (b : BitVec 6), s.regBit (partReg s.team.part 0x018) 0 = true →
    s.issues (.hrnd d a b) [.u b.toNat, .u b.toNat, .v a.toNat] [.v d.toNat] = true →
    ∃ t, exec (.hrnd d a b) s = .next t ∧ WritesLanes s t 4 d.toNat (fun l =>
      BitVec.ofNat 32 (leNat ((sha256 (leBytes 8 (s.team.u b.toNat).toNat ++ leBytes 4 (s.team.v a.toNat l).toNat)).take 4))) 0)

/-! ## System registers -/

/-- R142, R149, R159, R179, R228, R236: SGETS reads each register: `%teamid`, `%wgid` and `%stage` of a team of a workgroup,
`%defer` with the slots in use, `%lease` once the operation that ends it has completed; a shape register only on a Millstone of the
team's partition, and lease (0x17) elsewhere; `%time` as it stands. That the slots of a closure put by count in `%defer` is the
model's reading (log 67). -/
def Obligations.SgetsReadsEachRegister : Prop :=
  (∀ row ∈ plainSystemRegisters, ∀ (s : State) (d : BitVec 6) (n : BitVec 12), n.toNat = row.1 →
    s.issuesAlone (.sgets d n) (supervisorRegister n.toNat) [] [.u d.toNat] = true →
    exec (.sgets d n) s = .next (s.after fun t => t.setU d.toNat (row.2 s.team))) ∧
  (∀ (s : State) (d : BitVec 6) (n : BitVec 12) (i : Nat), i < 16 → n.toNat = 0x040 + i →
    s.issuesAlone (.sgets d n) true [] [.u d.toNat] = true →
    exec (.sgets d n) s = .next (s.after fun t => t.setU d.toNat (s.team.fmask.extractLsb' (64 * i) 64))) ∧
  (∀ (s : State) (d : BitVec 6) (n : BitVec 12) (i : Nat), i < 32 → n.toNat = 0x020 + i →
    s.issuesAlone (.sgets d n) false [] [.u d.toNat] = true → s.ownsStone s.team.part s.team.mill = true →
    exec (.sgets d n) s = .next (s.after fun t => t.setU d.toNat (s.tshapeWord s.team.mill i))) ∧
  (∀ (s : State) (d : BitVec 6) (n : BitVec 12) (i : Nat), i < 32 → n.toNat = 0x020 + i →
    s.issuesAlone (.sgets d n) false [] [.u d.toNat] = true → s.ownsStone s.team.part s.team.mill = false →
    exec (.sgets d n) s = .next ({ s with draws := s.draws + 1 }.raises (.bare 0x17 (Config.trapValue s.draws)))) ∧
  (∀ (s : State) (d : BitVec 6), s.issuesAlone (.sgets d 4) false [] [.u d.toNat] = true →
    exec (.sgets d 4) s = .next ((s.readTime s.team.vd).2.after fun t => t.setU d.toNat (s.readTime s.team.vd).1)) ∧
  (∀ (s : State) (d : BitVec 6), s.issuesAlone (.sgets d 3) false [] [.u d.toNat] = true → s.team.defer < 4 →
    s.team.shelved.length < 256 → (s.team.shelved.map (·.slots)).sum < 256 →
    exec (.sgets d 3) s = .next (s.after fun t => t.setU d.toNat
      ((BitVec.ofNat 8 (t.shelved.map (·.slots)).sum ++ BitVec.ofNat 8 t.shelved.length ++ BitVec.ofNat 8 t.defer).setWidth 64))) ∧
  (∀ (s : State) (d : BitVec 6) (g : Workgroup), s.wgOf s.team.wg = some g → 1 ≤ s.team.swaths → s.team.swaths ≤ 32 →
    s.team.mill < 512 → s.team.wheel < 4 → s.team.tindex < 16 → 1 ≤ g.nteam → g.nteam ≤ 16 → g.wpRows < 128 →
    (s.issuesAlone (.sgets d 5) false [] [.u d.toNat] = true → exec (.sgets d 5) s = .next (s.after fun t => t.setU d.toNat
      (BitVec.ofNat 32 (if g.wpRows = 0 then 0 else g.wpBase) ++ BitVec.ofBool g.forked ++ BitVec.ofNat 7 g.wpRows ++
        BitVec.ofNat 4 (g.nteam - 1) ++ BitVec.ofNat 4 t.tindex ++ BitVec.ofNat 2 t.wheel ++ BitVec.ofNat 9 t.mill ++
        BitVec.ofNat 5 (t.swaths - 1)))) ∧
    (s.issuesAlone (.sgets d 6) false [] [.u d.toNat] = true → exec (.sgets d 6) s = .next (s.after fun t => t.setU d.toNat
      (BitVec.ofNat 24 g.linear ++ BitVec.ofNat 8 g.z ++ BitVec.ofNat 16 g.y ++ BitVec.ofNat 16 g.x))) ∧
    (s.issuesAlone (.sgets d 7) false [] [.u d.toNat] = true → exec (.sgets d 7) s = .next (s.after fun t => t.setU d.toNat
      (BitVec.ofNat 64 g.stage)))) ∧
  (∀ (s : State) (d : BitVec 6), s.issuesAlone (.sgets d 9) false [] [.u d.toNat] = true → s.leaseEnding = false →
    s.team.leaseGrant < 2 ^ 13 → s.team.leaseRemain < 2 ^ 13 →
    exec (.sgets d 9) s = .next (s.after fun t => t.setU d.toNat ((BitVec.ofNat 13 t.leaseGrant ++ (0 : BitVec 3) ++
      BitVec.ofBool t.leaseHeld ++ (0 : BitVec 3) ++ BitVec.ofNat 13 t.leaseRemain).setWidth 64)))

/-- R159, R236, R304: SSETS writes its register field by field, and nothing else; a reserved code of `%mode`, `%plot` or `%defer`
raises illegal instruction, a shape that is not allowed tile shape (0x19), and nothing is written. -/
def Obligations.SsetsWritesEachRegister : Prop :=
  ∀ (s : State) (a : BitVec 6) (n : BitVec 12), s.issuesAlone (.ssets a n) (supervisorRegister n.toNat) [.u a.toNat] [] = true →
    let w := s.team.u a.toNat
    (n = 0x000 → 1 ≤ wbits w 2 0 → wbits w 2 0 ≤ 5 → ∃ m : Word,
      m.extractLsb' 0 3 = w.extractLsb' 0 3 ∧ m.extractLsb' 7 6 = w.extractLsb' 7 6 ∧
      m.extractLsb' 3 4 = s.team.mode.extractLsb' 3 4 ∧ m.extractLsb' 13 51 = s.team.mode.extractLsb' 13 51 ∧
      exec (.ssets a n) s = .next (s.after fun t => { t with mode := m })) ∧
    (n = 0x001 → ∃ f : Word, f.extractLsb' 0 6 = w.extractLsb' 0 6 ∧ f.extractLsb' 6 58 = s.team.flags.extractLsb' 6 58 ∧
      exec (.ssets a n) s = .next (s.after fun t => { t with flags := f })) ∧
    (n = 0x002 → 1 ≤ wbits w 2 0 → wbits w 2 0 ≤ 5 →
      exec (.ssets a n) s = .next (s.after fun t => { t with plot := wbits w 2 0 })) ∧
    (n = 0x003 → wbits w 1 0 ≠ 3 → exec (.ssets a n) s = .next (s.after fun t => { t with defer := wbits w 1 0 })) ∧
    ((n = 0x000 ∨ n = 0x002) → (wbits w 2 0 = 0 ∨ 6 ≤ wbits w 2 0) →
      exec (.ssets a n) s = .next (s.raises (.bare 0x01 (BitVec.ofNat 64 (Instr.ssets a n).bits)))) ∧
    (n = 0x003 → wbits w 1 0 = 3 →
      exec (.ssets a n) s = .next (s.raises (.bare 0x01 (BitVec.ofNat 64 (Instr.ssets a n).bits)))) ∧
    (∀ i < 32, n.toNat = 0x020 + i → s.ownsStone s.team.part s.team.mill = true → (shapeOf w).valid = false →
      exec (.ssets a n) s = .next ({ s with draws := s.draws + 1 }.raises (.bare 0x19 (Config.trapValue s.draws)))) ∧
    (∀ i < 32, n.toNat = 0x020 + i → s.ownsStone s.team.part s.team.mill = false →
      exec (.ssets a n) s = .next ({ s with draws := s.draws + 1 }.raises (.bare 0x17 (Config.trapValue s.draws)))) ∧
    (n = 0x011 → exec (.ssets a n) s = .next (s.after fun t => { t with epc := w })) ∧
    (n = 0x012 → exec (.ssets a n) s = .next (s.after fun t => { t with tval := w })) ∧
    (n = 0x013 → exec (.ssets a n) s = .next (s.after fun t => { t with frame := (w.extractLsb' 0 32).toNat })) ∧
    (n = 0x010 → ∃ c : Word, c.extractLsb' 0 8 = w.extractLsb' 0 8 ∧ c.extractLsb' 8 56 = s.team.cause.extractLsb' 8 56 ∧
      exec (.ssets a n) s = .next (s.after fun t => { t with cause := c })) ∧
    (∀ i < 16, n.toNat = 0x040 + i → ∃ m : Mask,
      (∀ l, m.getLsbD l = if l / 64 = i then w.getLsbD (l % 64) else s.team.fmask.getLsbD l) ∧
      exec (.ssets a n) s = .next (s.after fun t => { t with fmask := m })) ∧
    (∀ i < 32, n.toNat = 0x020 + i → s.ownsStone s.team.part s.team.mill = true → (shapeOf w).valid = true → ∃ v : Word,
      v.extractLsb' 0 20 = w.extractLsb' 0 20 ∧ v.extractLsb' 20 44 = (s.tshapeWord s.team.mill i).extractLsb' 20 44 ∧
      exec (.ssets a n) s = .next ((s.setTshape s.team.mill i v).after fun t => t)) ∧
    (4 ≤ n.toNat → n.toNat ≤ 9 → exec (.ssets a n) s = .next (s.after fun t => t))

/-! ## Control transfers -/

/-- R239, R241, R242: branches go to the instruction's address plus twice their offset when they are taken, else to the next
instruction; CALL writes the link register, and nothing else changes; and their encodings. -/
def Obligations.BranchesMoveOnlyThePc : Prop :=
  (∀ off : BitVec 24, decodeWord 32 (off.toNat * 0x100 + 0x21) = .ok (.bra off) ∧
    decodeWord 32 (off.toNat * 0x100 + 0x23) = .ok (.call off)) ∧
  (∀ (n : BitVec 6) (off : BitVec 17), decodeWord 32 (off.toNat * 0x8000 + n.toNat * 0x100 + 0x27) = .ok (.bsz n off) ∧
    decodeWord 32 (off.toNat * 0x8000 + 0x4000 + n.toNat * 0x100 + 0x27) = .ok (.bsnz n off)) ∧
  (∀ (p : BitVec 4) (off : BitVec 18),
    let w := fun kind => off.toNat * 0x4000 + kind * 0x1000 + p.toNat * 0x100 + 0x29
    decodeWord 32 (w 0) = .ok (.bany p off) ∧ decodeWord 32 (w 1) = .ok (.ball p off) ∧
    decodeWord 32 (w 2) = .ok (.bnone p off) ∧ decodeWord 32 (w 3) = .error .reservedFunction) ∧
  (∀ (s : State) (off : BitVec 24), s.issues (.bra off) [] [] = true →
    exec (.bra off) s = .next (s.goes (s.team.pc + off.signExtend 64 * 2) fun t => t)) ∧
  (∀ (s : State) (off : BitVec 24), s.issues (.call off) [] [.u 63] = true →
    exec (.call off) s = .next (s.goes (s.team.pc + off.signExtend 64 * 2) fun t => t.setU 63 (s.team.pc + 4))) ∧
  (∀ (s : State) (n : BitVec 6) (off : BitVec 17), s.issues (.bsz n off) [.u n.toNat] [] = true →
    exec (.bsz n off) s = .next (s.goes (if s.team.u n.toNat = 0 then s.team.pc + off.signExtend 64 * 2 else s.team.pc + 4) fun t => t)) ∧
  (∀ (s : State) (n : BitVec 6) (off : BitVec 17), s.issues (.bsnz n off) [.u n.toNat] [] = true →
    exec (.bsnz n off) s = .next (s.goes (if s.team.u n.toNat = 0 then s.team.pc + 4 else s.team.pc + off.signExtend 64 * 2) fun t => t)) ∧
  (∀ (s : State) (p : BitVec 4) (off : BitVec 18), s.issues (.bany p off) [.p p.toNat] [] = true →
    exec (.bany p off) s = .next (s.goes (if ∃ l ∈ s.team.active, (s.team.p p.toNat).getLsbD l = true
      then s.team.pc + off.signExtend 64 * 2 else s.team.pc + 4) fun t => t)) ∧
  (∀ (s : State) (p : BitVec 4) (off : BitVec 18), s.issues (.ball p off) [.p p.toNat] [] = true →
    exec (.ball p off) s = .next (s.goes (if ∀ l ∈ s.team.active, (s.team.p p.toNat).getLsbD l = true
      then s.team.pc + off.signExtend 64 * 2 else s.team.pc + 4) fun t => t)) ∧
  (∀ (s : State) (p : BitVec 4) (off : BitVec 18), s.issues (.bnone p off) [.p p.toNat] [] = true →
    exec (.bnone p off) s = .next (s.goes (if ∃ l ∈ s.team.active, (s.team.p p.toNat).getLsbD l = true
      then s.team.pc + 4 else s.team.pc + off.signExtend 64 * 2) fun t => t))

/-- R210, R240: a jump goes to the even address it computes, JMPL reading `s`a before it writes `s`d; an odd address raises
misaligned access with the target in `%tval`, and writes no register; and their encodings. -/
def Obligations.JumpsGoToTargetOrTrap : Prop :=
  (∀ (d a : BitVec 6) (off : BitVec 11),
    decodeWord 32 (off.toNat * 0x100000 + a.toNat * 0x4000 + 0x25) = .ok (.jmp a off) ∧
    decodeWord 32 (0x80000000 + off.toNat * 0x100000 + a.toNat * 0x4000 + d.toNat * 0x100 + 0x25) = .ok (.jmpl d a off)) ∧
  decodeWord 32 0x2B = .ok .ret ∧
  (∀ (s : State) (a : BitVec 6) (off : BitVec 11), s.issues (.jmp a off) [.u a.toNat] [] = true →
    let target := s.team.u a.toNat + off.signExtend 64 * 2
    exec (.jmp a off) s = .next (if target.getLsbD 0 then s.raises (.bare 0x06 target) else s.goes target fun t => t)) ∧
  (∀ (s : State) (d a : BitVec 6) (off : BitVec 11), s.issues (.jmpl d a off) [.u a.toNat] [.u d.toNat] = true →
    let target := s.team.u a.toNat + off.signExtend 64 * 2
    exec (.jmpl d a off) s = .next (if target.getLsbD 0 then s.raises (.bare 0x06 target)
      else s.goes target fun t => t.setU d.toNat (s.team.pc + 4))) ∧
  (∀ s : State, s.issues .ret [.u 63] [] = true →
    exec .ret s = .next (if (s.team.u 63).getLsbD 0 then s.raises (.bare 0x06 (s.team.u 63)) else s.goes (s.team.u 63) fun t => t))

/-! ## The mask stack -/

/-- R244: each mask operation acts on every lane at once and changes only the mask, the stack or its predicate; outside the depths
allowed it raises illegal convergence, with no lane in `%fmask`, and changes neither. -/
def Obligations.MaskStackPushesAndPops : Prop :=
  (∀ (s : State) (p : BitVec 4), s.issues (.ifp p) [.p p.toNat] [] = true →
    exec (.ifp p) s = .next (if s.team.stack.length < 32
      then s.after fun t => { t with stack := t.mask :: t.stack, mask := t.mask &&& t.p p.toNat }
      else s.raises (.plain 0x03 32 0))) ∧
  (∀ (s : State) (p : BitVec 4), s.issues (.ifpN p) [.p p.toNat] [] = true →
    exec (.ifpN p) s = .next (if s.team.stack.length < 32
      then s.after fun t => { t with stack := t.mask :: t.stack, mask := t.mask &&& ~~~(t.p p.toNat) }
      else s.raises (.plain 0x03 32 0))) ∧
  (∀ (s : State) (top : Mask) (below : List Mask), s.issues .maskElse [] [] = true → s.team.stack = top :: below →
    exec .maskElse s = .next (s.after fun t => { t with mask := top &&& ~~~t.mask })) ∧
  (∀ (s : State) (top : Mask) (below : List Mask), s.issues .endif [] [] = true → s.team.stack = top :: below →
    exec .endif s = .next (s.after fun t => { t with mask := top, stack := below })) ∧
  (∀ s : State, s.issues .maskElse [] [] = true → s.team.stack = [] → exec .maskElse s = .next (s.raises (.plain 0x03 0 0))) ∧
  (∀ s : State, s.issues .endif [] [] = true → s.team.stack = [] → exec .endif s = .next (s.raises (.plain 0x03 0 0))) ∧
  (∀ (s : State) (p : BitVec 4), s.issues (.mset p) [.p p.toNat] [] = true →
    exec (.mset p) s = .next (s.after fun t => { t with mask := t.p p.toNat &&& t.stack.headD (allLanes t.lanes) })) ∧
  (∀ (s : State) (p : BitVec 4), s.issues (.mget p) [] [.p p.toNat] = true →
    ∃ t, exec (.mget p) s = .next t ∧
      (∀ l, (t.team.p p.toNat).getLsbD l = ((s.team.p p.toNat).getLsbD l || s.team.mask.getLsbD l)) ∧
      (∀ q, q ≠ p.toNat → t.team.p q = s.team.p q) ∧ (∀ w, w ∈ t.team.ppoison → w ∈ s.team.ppoison) ∧
      (∀ w ∈ s.team.ppoison, w.1 ≠ p.toNat → w ∈ t.team.ppoison) ∧
      t = s.after fun x => { x with preds := t.team.preds, ppoison := t.team.ppoison })

/-! ## Team control, modes and time -/

/-- R248 to R250, R253: NOP, YIELD, SLEEP, DEFER, FBPT, PLOT, MODESET and MODECLR. -/
def Obligations.TeamControlWritesItsField : Prop :=
  (∀ s : State, s.issuesAlone .nop false [] [] = true → exec .nop s = .next (s.after fun t => t)) ∧
  (∀ s : State, s.issuesAlone .yield false [] [] = true → exec .yield s = .next (s.after fun t => { t with age := 0 })) ∧
  (∀ (s : State) (n : BitVec 20), s.issuesAlone (.sleep n) false [] [] = true →
    exec (.sleep n) s = .next { s with team := { s.team with status := .parked (.sleep s.time n.toNat) } }) ∧
  (∀ (s : State) (m : BitVec 2), s.issuesAlone (.defer m) false [] [] = true →
    exec (.defer m) s = .next (s.after fun t => { t with defer := m.toNat })) ∧
  (∀ (s : State) (n : BitVec 12), s.issuesAlone (.fbpt n) false [] [] = true → exec (.fbpt n) s = .next (s.after Team.pointed)) ∧
  (∀ (s : State) (e : BitVec 6) (r : BitVec 3), s.issuesAlone (.modeset e r) false [] [] = true → ∃ m : Word,
    exec (.modeset e r) s = .next (s.after fun t => { t with mode := m }) ∧
    m.extractLsb' 0 3 = (if r = 0 then s.team.mode.extractLsb' 0 3 else r) ∧
    m.extractLsb' 7 6 = s.team.mode.extractLsb' 7 6 ||| e ∧
    m.extractLsb' 3 4 = s.team.mode.extractLsb' 3 4 ∧ m.extractLsb' 13 51 = s.team.mode.extractLsb' 13 51) ∧
  (∀ (s : State) (e : BitVec 6), s.issuesAlone (.modeclr e) false [] [] = true → ∃ m : Word,
    exec (.modeclr e) s = .next (s.after fun t => { t with mode := m }) ∧
    m.extractLsb' 7 6 = s.team.mode.extractLsb' 7 6 &&& ~~~e ∧
    m.extractLsb' 0 7 = s.team.mode.extractLsb' 0 7 ∧ m.extractLsb' 13 51 = s.team.mode.extractLsb' 13 51)

/-- R250: the encoding of PLOT; its effect for the five codes of R145; a reserved code raises illegal instruction with `%plot`
unchanged; with a closure it first drains. -/
def Obligations.PlotSetsItsSize : Prop :=
  (∀ n : BitVec 3, 1 ≤ n.toNat → n.toNat ≤ 5 → decodeTableWord 32 (0x35 + 0x100 * n.toNat) = some (.plot n)) ∧
  (∀ n : BitVec 3, n.toNat = 0 ∨ 6 ≤ n.toNat → decodeTableWord 32 (0x35 + 0x100 * n.toNat) = none) ∧
  (∀ (s : State) (n : BitVec 3), s.issuesAlone (.plot n) false [] [] = true →
    exec (.plot n) s = .next (s.after fun t => { t with plot := n.toNat })) ∧
  (∀ (s : State) (n : BitVec 3), s.team.status = .ready → n.toNat = 0 ∨ 6 ≤ n.toNat →
    exec (.plot n) s = .next (s.raises (.bare 0x01 (BitVec.ofNat 64 (Instr.plot n).bits)))) ∧
  (∀ (s : State) (n : BitVec 3), s.team.status = .ready → (Instr.plot n).wellFormed = true → s.team.closure ≠ [] →
    exec (.plot n) s = .next { s with team := { s.team with status := .draining none } })

/-- R89, R148, R172, R174, R248, R254: EXIT retires a team of which nothing is on its way; its place is empty and its claims go with
it. In a workgroup with other teams the barrier is tested again: a generation that the rest have joined completes, and else nothing
of them changes. With its last team the workgroup ends: its ready flag makes the next stage launchable, and the last stage counts
down its launch. No lease, donation set, group instruction, arrival or step domain stands in the way. TIME waits for the team's
memory instructions, then reads `%time`. -/
def Obligations.ExitWaitsAndTimeIsRead : Prop :=
  (∀ s : State, s.issuesAlone .exit false [] [] = true → s.quiet = true →
    ∃ t, exec .exit s = .next t ∧ (s.wgOf s.team.wg = none → t.team = Team.vacant ∧ SameMemory s t)) ∧
  (∀ s : State, s.issuesAlone .exit false [] [] = true → s.quiet = false → exec .exit s = .next s) ∧
  (∀ (s : State) (g : Workgroup), s.issuesAlone .exit false [] [] = true → s.quiet = true → s.wgOf s.team.wg = some g →
    g.donations = [] → g.arrivals = [] → s.team.arrival = none → s.stepEn s.team.vd = false →
    s.millstone s.team.mill = Millstone.idle → (∀ x ∈ s.rest, x.uid ≠ s.team.uid) →
    let others := s.rest.filter fun x => x.wg == s.team.wg && !x.isVacant
    (others ≠ [] → ∃ t, exec .exit s = .next t ∧ t.team = Team.vacant ∧
      (g.barCount = 0 ∨ g.barCount < others.length → t.wgOf s.team.wg = some g ∧ t.rest = s.rest) ∧
      (0 < g.barCount → others.length ≤ g.barCount →
        t.wgOf s.team.wg = some { g with barGen := g.barGen + 1, barCount := 0 } ∧
        t.rest = s.rest.map fun x =>
          if x.wg = s.team.wg ∧ x.status = .parked .barrier ∧ x.arrival = some g.barGen then x.passBarrier (g.joined g.barGen)
          else x) ∧
      t = { s with team := t.team, rest := t.rest, workgroups := t.workgroups, millstones := t.millstones }) ∧
    (∀ l, others = [] → g.forked = false → g.launch.bind s.launchOf = some l →
      (g.readyFlag = false → g.stage + 1 < l.stages → ∃ t, exec .exit s = .next t ∧ t.team = Team.vacant ∧
        t.wgOf s.team.wg = none ∧ t.launchables = s.launchables ++ [⟨l.vd, l.uid, g.coord, g.stage + 1⟩] ∧
        t = { s with
          team := t.team, workgroups := t.workgroups, launchables := t.launchables, millstones := t.millstones }) ∧
      (g.readyFlag = true → g.stage + 1 < l.stages → ∃ t, exec .exit s = .next t ∧ t.team = Team.vacant ∧
        t.wgOf s.team.wg = none ∧ t = { s with team := t.team, workgroups := t.workgroups, millstones := t.millstones }) ∧
      (g.readyFlag = true → l.stages ≤ g.stage + 1 → 1 < l.left → ∃ t, exec .exit s = .next t ∧ t.team = Team.vacant ∧
        t.wgOf s.team.wg = none ∧ t.launchOf l.uid = some { l with left := l.left - 1 } ∧
        t = { s with team := t.team, workgroups := t.workgroups, launches := t.launches, millstones := t.millstones }))) ∧
  (∀ (s : State) (d : BitVec 6), s.issuesAlone (.time d) false [] [.u d.toNat] = true →
    (s.accessesOf s.team.uid = [] →
      exec (.time d) s = .next ((s.readTime s.team.vd).2.after fun t => t.setU d.toNat (s.readTime s.team.vd).1)) ∧
    (s.accessesOf s.team.uid ≠ [] → exec (.time d) s = .next s))

/-! ## Barriers, donation and noise -/

/-- R104, R246, R247: BAR.ARRIVE, once no acquire of its team is under way and its accesses have performed at mill scope, and not
before, joins the current generation; the last arrival completes it and releases every team that waits on it; a second arrival is
illegal. What each team had under way at its arrival goes with the generation (R114, log 73). BAR.WAIT goes on at once without an
arrival, or when its generation has completed, and parks otherwise; BAR.SYNC waits as BAR.ARRIVE does, arrives, sets a point at itself,
and parks, or passes when it is the last; no donation set stands in the way. -/
def Obligations.BarriersArriveAndRelease : Prop :=
  (∀ (s : State) (g : Workgroup), s.issuesAlone .barArrive false [] [] = true → s.wgOf s.team.wg = some g →
    (s.team.arrival.isSome = true →
      exec .barArrive s = .next (s.raises (.bare 0x01 (BitVec.ofNat 64 Instr.barArrive.bits)))) ∧
    (s.team.arrival = none → s.acquiring s.team.uid = true ∨ s.performedAll s.team.uid false = false →
      exec .barArrive s = .next s) ∧
    (s.team.arrival = none → s.acquiring s.team.uid = false → s.performedAll s.team.uid false = true →
      let reqs := g.barReqs ++ (s.requests.filter fun r => r.team == s.team.uid && !r.performed true).map fun r => (g.barGen, r.id)
      ∃ t, exec .barArrive s = .next t ∧
      t.team = { s.team.pointed with arrival := some g.barGen, pc := s.team.pc + 4 } ∧
      (g.barCount + 1 < (s.members s.team.wg).length →
        t.wgOf s.team.wg = some { g with barCount := g.barCount + 1, barReqs := reqs } ∧ t.rest = s.rest) ∧
      ((s.members s.team.wg).length ≤ g.barCount + 1 →
        t.wgOf s.team.wg = some { g with barGen := g.barGen + 1, barCount := 0, barReqs := reqs } ∧
        t.rest = s.rest.map fun x =>
          if x.wg = s.team.wg ∧ x.status = .parked .barrier ∧ x.arrival = some g.barGen
          then x.passBarrier ((reqs.filter fun q => q.1 == g.barGen).map (·.2)) else x) ∧
      t = { s with team := t.team, rest := t.rest, workgroups := t.workgroups })) ∧
  (∀ (s : State) (g : Workgroup), s.wgOf s.team.wg = some g → g.donations = [] →
    (s.issuesAlone .barWait false [] [] = true →
      exec .barWait s = .next
        (match s.team.arrival with
        | none => s.after Team.pointed
        | some gen =>
          if gen = g.barGen then { s with team := { s.team with status := .parked .barrier } }
          else s.after fun t => { t.pointed with arrival := none, covered := t.covered ++ g.joined gen })) ∧
    (s.issuesAlone .barSync false [] [] = true → s.team.arrival = none →
      s.acquiring s.team.uid = true ∨ s.performedAll s.team.uid false = false → exec .barSync s = .next s) ∧
    (s.issuesAlone .barSync false [] [] = true → s.team.arrival = none → s.acquiring s.team.uid = false →
      s.performedAll s.team.uid false = true → ∃ t, exec .barSync s = .next t ∧ t = { s with team := t.team, rest := t.rest, workgroups := t.workgroups } ∧
        (g.barCount + 1 < (s.members s.team.wg).length →
          t.team.status = .parked .barrier ∧ t.team.pc = s.team.pc ∧ t.team.arrival = some g.barGen ∧ t.rest = s.rest ∧
          (s.team.level = .user → t.team.point.resume = s.team.pc)) ∧
        ((s.members s.team.wg).length ≤ g.barCount + 1 →
          t.team.status = .ready ∧ t.team.pc = s.team.pc + 4 ∧ t.team.arrival = none ∧
          (s.team.level = .user → t.team.point.resume = s.team.pc + 4))))

/-- R152 to R154, R251: RDV joins a set; GIVE and TAKE move the rows of the last registers between the team and the set's pool, the
registers taken reading zero; a TAKE the pool cannot serve blocks. No other TAKE waits in the workgroup. -/
def Obligations.DonationMovesRows : Prop :=
  ∀ (s : State) (g : Workgroup), s.wgOf s.team.wg = some g → (∀ d ∈ g.donations, d.queue = []) →
    (∀ x ∈ s.rest, x.uid ≠ s.team.uid) →
    (∀ k : BitVec 2, s.issuesAlone (.rdv k) false [] [] = true →
      (s.team.donation = none → ∃ t, exec (.rdv k) s = .next t ∧
        t = { s with team := { s.team.pointed with donation := some k.toNat, pc := s.team.pc + 4 }, workgroups := t.workgroups }) ∧
      (s.team.donation = some k.toNat → exec (.rdv k) s = .next (s.after Team.pointed)) ∧
      (∀ j, s.team.donation = some j → j ≠ k.toNat →
        exec (.rdv k) s = .next (s.raises (.bare 0x01 (BitVec.ofNat 64 (Instr.rdv k).bits))))) ∧
    (∀ (n : BitVec 4) (k : Nat), s.issuesAlone (.give n) false [] [] = true → s.team.donation = some k →
      8 * n.toNat + 8 ≤ s.team.regs → (∀ i < 8 * n.toNat, s.unready (.v (s.team.regs - 8 * n.toNat + i)) = false) →
      ∃ t, exec (.give n) s = .next t ∧ t.team.regs = s.team.regs - 8 * n.toNat ∧ t.team.pc = s.team.pc + 4 ∧
        (∀ r l, r < t.team.regs → l < 1024 → t.team.v r l = s.team.v r l) ∧
        ((t.wgOf s.team.wg).map fun w => (w.donation s.team.wheel k).pool) =
          some ((g.donation s.team.wheel k).pool + 8 * n.toNat * s.team.swaths) ∧
        t = { s with team := t.team, workgroups := t.workgroups }) ∧
    (∀ (n : BitVec 4) (k : Nat), s.issuesAlone (.take n) false [] [] = true → s.team.donation = some k → 0 < s.team.swaths →
      s.team.regs + 8 * n.toNat ≤ 128 → s.team.regs + 8 * n.toNat ≤ 8 * s.team.maxG →
      8 * n.toNat * s.team.swaths ≤ (g.donation s.team.wheel k).pool →
      ∃ t, exec (.take n) s = .next t ∧ t.team.regs = s.team.regs + 8 * n.toNat ∧ t.team.pc = s.team.pc + 4 ∧
        t.team.status = .ready ∧ (∀ r l, r < s.team.regs → l < 1024 → t.team.v r l = s.team.v r l) ∧
        (∀ r l, s.team.regs ≤ r → r < t.team.regs → l < 1024 → t.team.v r l = 0) ∧
        ((t.wgOf s.team.wg).map fun w => (w.donation s.team.wheel k).pool) =
          some ((g.donation s.team.wheel k).pool - 8 * n.toNat * s.team.swaths) ∧
        t.plain = s.plain ∧ t.basin = s.basin ∧ t.hostMem = s.hostMem) ∧
    (∀ (n : BitVec 4) (k : Nat) (x : Team), s.issuesAlone (.take n) false [] [] = true → s.team.donation = some k →
      s.team.regs + 8 * n.toNat ≤ 128 → s.team.regs + 8 * n.toNat ≤ 8 * s.team.maxG →
      (g.donation s.team.wheel k).pool < 8 * n.toNat * s.team.swaths →
      x ∈ s.rest → x.wg = s.team.wg → x.wheel = s.team.wheel → x.donation = some k → x.status = .ready →
      ∃ t, exec (.take n) s = .next t ∧ t.team = { s.team with status := .blocked } ∧
        t = { s with team := t.team, workgroups := t.workgroups })

/-- R269, R270: RND writes fresh bits into each active lane; RND.LOG does the same, counts itself, and writes nothing of the Plain at
issue but the two counts of its ring's header; it sends the record of each swath with an active lane to its place in the ring, word by
word, and no other store. The bits are free (log 12). That the places are reserved in one step is a DESIGN CHOICE: log 127. -/
def Obligations.NoiseDrawsFreeBits : Prop :=
  ∀ (s : State) (d : BitVec 7),
    let drawn := fun (t : State) => ∀ r l, l < 1024 →
      t.team.v r l = if r = d.toNat ∧ l ∈ s.team.active then Config.noise (s.draws + s.team.active.idxOf l) else s.team.v r l
    (s.issuesAlone (.rnd d) false [] [.v d.toNat] = true →
      (s.noiseFailed = false ∨ s.team.active = [] → ∃ t, exec (.rnd d) s = .next t ∧ drawn t ∧
        t.draws = s.draws + s.team.active.length ∧
        t = { s with draws := t.draws, team := { s.team with
          vregs := t.team.vregs, vpoison := t.team.vpoison, pc := s.team.pc + 4 } }) ∧
      (s.noiseFailed = true → s.team.active ≠ [] → exec (.rnd d) s = .next (s.raises (.plain 0x12 0 s.team.mask)))) ∧
    (s.issuesAlone (.rndLog d) false [] [.v d.toNat] = true →
      (s.team.active = [] → exec (.rndLog d) s = .next (s.after fun t => { t with rndLog := t.rndLog + 1 })) ∧
      (∀ slice off, s.team.active ≠ [] → s.noiseFailed = false → s.regBit (vdReg s.team.vd 0x088) 63 = true →
        s.regBits (vdReg s.team.vd 0x088) 57 48 ≠ 0 →
        s.plainPhys (BitVec.ofNat 64 (s.regBits (vdReg s.team.vd 0x088) 29 0)) (s.regBits (vdReg s.team.vd 0x088) 57 48 * 4096)
          s.team.part 1 = .ok (slice, off) →
        s.mayAccess s.team.uid = true → s.plainBusy slice off 16 = false →
        ∃ t, exec (.rndLog d) s = .next t ∧ drawn t ∧ t.team.rndLog = s.team.rndLog + 1 ∧ t.team.pc = s.team.pc + 4 ∧
          (∀ k, ¬(plainKey slice off ≤ k ∧ k < plainKey slice off + 8) →
            mapGet unlistedByte t.plain k = mapGet unlistedByte s.plain k) ∧
          t.basin = s.basin ∧ t.hostMem = s.hostMem ∧ t.team.uregs = s.team.uregs ∧ t.team.preds = s.team.preds ∧
          let swaths := (List.range s.team.swaths).filter fun w => s.team.mask.toNat / 2 ^ (32 * w) % 2 ^ 32 != 0
          let places := ringPlaces (s.regBits (vdReg s.team.vd 0x088) 57 48 * 4096) (s.ctrWord slice off 0) swaths.length
          (s.plainPoisoned slice off 8 = false →
            RequestsSent s t (fun r => (r.team, r.loc, r.op)) ((swaths.zip places).flatMap fun x =>
              (wordPieces 144 (off + 16 + x.2.1) (ringRecord s x.1)).map fun p => (s.team.uid, .plain slice p.1, .store p.2)) ∧
            t.ctrWord slice off 1 = (s.ctrWord slice off 1 + places.countP (·.2)) % 2 ^ 32 ∧
            (swaths ≠ [] → places.getLast?.map (fun p => p.1 + 144) = some (t.ctrWord slice off 0)))))

/-! ## Memory instructions -/

/-- R235: a uniform load or store whose access reaches memory is issued. -/
def Obligations.UniformMemoryLoadsAndStores : Prop :=
  ∀ (s : State) (d a : BitVec 6) (off : BitVec 9) (p : BitVec 1) (sz : BitVec 2),
    let n := 2 ^ sz.toNat
    let eas := [(0, s.team.u a.toNat + off.signExtend 64 * BitVec.ofNat 64 n)]
    s.team.defer = 0 ∨ s.team.closure = [] → s.mayAccess s.team.uid = true →
    (s.issues (.sld d a off p sz) [.u a.toNat] [.u d.toNat] = true → s.reaches ⟨p == 1, .load, n, .load⟩ (some 0) eas = true →
      ∃ t, exec (.sld d a off p sz) s = .next t ∧
        (∀ x ∈ s.locations ⟨p == 1, .load, n, .load⟩ eas,
          (∃ r ∈ t.requests, r.loc = (spanOf n x.2).2 ∧ r.op = .uload d.toNat (spanOf n x.2).1 n ∧ .u d.toNat ∈ t.pending s.team.uid) ∨
          ∃ bytes, (s.checked ⟨p == 1, .load, n, .load⟩ eas).cached s.team.mill 0 (spanOf n x.2).2 (max 4 n) = some bytes ∧
            t.team.u d.toNat = BitVec.ofNat 64 (leNat ((bytes.drop (spanOf n x.2).1).take n))) ∧
        RequestsAdded s t (fun r => r.team = s.team.uid ∧ ∃ skip, r.op = .uload d.toNat skip n) ∧
        (∀ k, k ≠ d.toNat → t.team.u k = s.team.u k) ∧
        t.team = { s.team with uregs := t.team.uregs, upoison := t.team.upoison, pc := s.team.pc + 4 } ∧
        SameMemory (s.checked ⟨p == 1, .load, n, .load⟩ eas) t) ∧
    (s.issues (.sst d a off p sz) [.u a.toNat, .u d.toNat] [] = true → s.reaches ⟨p == 1, .store, n, .store⟩ none eas = true →
      ∃ t, exec (.sst d a off p sz) s = .next t ∧
        StoreIssued s t ⟨p == 1, .store, n, .store⟩ false eas fun _ => leBytes n (s.team.u d.toNat).toNat)

/-- R279, R284: LDG, LDP and LDA whose lanes all reach memory are issued. -/
def Obligations.LaneLoadsTakeACounter : Prop :=
  ∀ (s : State) (d : BitVec 7) (b : BitVec 6) (x : BitVec 7) (h sz : BitVec 2) (c : BitVec 2) (p z : BitVec 1),
    let eas := s.team.active.map fun l => (l, s.team.u b.toNat + (s.team.v x.toNat l).setWidth 64)
    let srcs := [RegRef.u b.toNat, .v x.toNat]
    let n := 2 ^ sz.toNat
    let na := if z = 1 then 8 else 4
    s.mayAccess s.team.uid = true →
    (s.team.defer = 0 ∨ s.team.closure = [] →
      (s.issues (.ldg d b x h sz) srcs (pairRegs n d.toNat) = true → s.reaches ⟨false, .load, n, .load⟩ (some h.toNat) eas = true →
        ∃ t, exec (.ldg d b x h sz) s = .next t ∧ LoadIssued s t ⟨false, .load, n, .load⟩ h.toNat d.toNat eas) ∧
      (s.issues (.ldp d b x sz) srcs (pairRegs n d.toNat) = true → s.reaches ⟨true, .load, n, .load⟩ (some 0) eas = true →
        ∃ t, exec (.ldp d b x sz) s = .next t ∧ LoadIssued s t ⟨true, .load, n, .load⟩ 0 d.toNat eas)) ∧
    (s.issuesAlone (.lda d b x c p z) false srcs (pairRegs na d.toNat) = true →
      s.reaches ⟨p == 1, .load, na, .other⟩ (some (if 2 ≤ c.toNat then 3 else 0)) eas = true →
      ∃ t, exec (.lda d b x c p z) s = .next t ∧ LoadIssued s t ⟨p == 1, .load, na, .other⟩ 0 d.toNat eas ∧
        (2 ≤ c.toNat → mapGet [] t.laneCache s.team.mill = []))

/-- R279, R285: STG, STP and STL whose lanes all reach memory are issued with exactly one request for each lane, in order of the lanes,
an STL once every earlier access is performed at its scope. -/
def Obligations.LaneStoresSendTheirBytes : Prop :=
  ∀ (s : State) (d : BitVec 7) (b : BitVec 6) (x : BitVec 7) (h sz : BitVec 2) (c : BitVec 2) (p z : BitVec 1),
    let eas := s.team.active.map fun l => (l, s.team.u b.toNat + (s.team.v x.toNat l).setWidth 64)
    let n := 2 ^ sz.toNat
    let na := if z = 1 then 8 else 4
    let data := fun (n : Nat) (l : Nat) =>
      if n = 8 then leBytes 4 (s.team.v d.toNat l).toNat ++ leBytes 4 (s.team.v (d.toNat + 1) l).toNat
      else leBytes n (s.team.v d.toNat l).toNat
    let srcs := fun (n : Nat) => [RegRef.u b.toNat, .v x.toNat] ++ pairRegs n d.toNat
    s.mayAccess s.team.uid = true →
    (s.team.defer = 0 ∨ s.team.closure = [] →
      (s.issues (.stg d b x h sz) (srcs n) [] = true → s.reaches ⟨false, .store, n, .store⟩ none eas = true →
        ∃ t, exec (.stg d b x h sz) s = .next t ∧ StoreIssued s t ⟨false, .store, n, .store⟩ false eas (data n)) ∧
      (s.issues (.stp d b x sz) (srcs n) [] = true → s.reaches ⟨true, .store, n, .store⟩ none eas = true →
        ∃ t, exec (.stp d b x sz) s = .next t ∧ StoreIssued s t ⟨true, .store, n, .store⟩ false eas (data n))) ∧
    (s.issuesAlone (.stl d b x c p z) false (srcs na) [] = true → s.performedAt c = true →
      s.reaches ⟨p == 1, .store, na, .other⟩ none eas = true →
      ∃ t, exec (.stl d b x c p z) s = .next t ∧ StoreIssued s t ⟨p == 1, .store, na, .other⟩ (c == 1) eas (data na))

/-- R41, R42, R104, R287 to R289: FENCE completes once its accesses have and stays where it is until then, and empties the lane cache at
device scope; LCINV empties both caches of the mill; what was issued before then fills no line, and every request and walk stays. PREF
waits for the acquires of its team, and then only adds: requests of lines, and walks, one for each active lane whose page the lane TLB
does not hold; a line that is present may become one that is kept, and of the lane TLB nothing goes but entries that refuse the read. It
never traps: a lane whose base or index is poisoned asks for nothing, which is DEDUCED: log 131. -/
def Obligations.FencesWaitAndEmptyCaches : Prop :=
  (∀ (s : State) (c : BitVec 2), s.issuesAlone (.fence c) false [] [] = true →
    let done := if c = 0 then s.accessesOf s.team.uid = [] else s.performedAll s.team.uid (2 ≤ c.toNat) = true
    (¬done → exec (.fence c) s = .next s) ∧
    (done → ∃ t, exec (.fence c) s = .next t ∧ (c.toNat < 2 → t = s.after fun x => x) ∧
      (2 ≤ c.toNat → CacheEmptied s t ∧
        t = { s.after (fun x => x) with laneCache := t.laneCache, requests := t.requests, walks := t.walks }))) ∧
  (∀ s : State, s.issuesAlone .lcinv false [] [] = true → ∃ t, exec .lcinv s = .next t ∧
    CacheEmptied s t ∧ mapGet [] t.icache s.team.mill = [] ∧
    (∀ m, m ≠ s.team.mill → mapGet [] t.icache m = mapGet [] s.icache m) ∧
    t = { s.after (fun x => x) with
      laneCache := t.laneCache, icache := t.icache, requests := t.requests, walks := t.walks }) ∧
  (∀ (s : State) (b : BitVec 6) (x : BitVec 7), s.issuesAlone (.pref b x) false [] [.u b.toNat, .v x.toNat] = true →
    (s.acquiring s.team.uid = true → exec (.pref b x) s = .next s) ∧
    (s.acquiring s.team.uid = false → ∃ t, exec (.pref b x) s = .next t ∧
      (∃ more, t.requests = s.requests ++ more ∧
        ∀ r ∈ more, r.team = s.team.uid ∧ r.op = .prefetch ∧ r.stage = .egress ∧ r.loc.isMem = true) ∧
      (∃ more, t.walks = s.walks ++ more ∧
        ∀ w ∈ more, w.team = s.team.uid ∧ w.mill = s.team.mill ∧ w.asid = s.team.asid ∧ w.fill = true) ∧
      (∀ l ∈ s.team.active,
        let ea := s.team.u b.toNat + (s.team.v x.toNat l).setWidth 64
        b.toNat ∉ s.team.upoison → (x.toNat, l / 2) ∉ s.team.vpoison →
        ea.toNat < 2 ^ 56 → (∀ e ∈ s.tlb (.lane s.team.mill), e.covers s.team.asid ea.toNat = false) →
        ∃ w ∈ t.walks, w.mill = s.team.mill ∧ w.asid = s.team.asid ∧ w.va / 64 = ea.toNat / 64 ∧ w.fill = true) ∧
      (b.toNat ∈ s.team.upoison ∨ (∀ l ∈ s.team.active, (x.toNat, l / 2) ∈ s.team.vpoison) → t = s.after fun x => x) ∧
      (∀ e ∈ t.tlb (.lane s.team.mill), e ∈ s.tlb (.lane s.team.mill)) ∧
      (∀ e ∈ s.tlb (.lane s.team.mill), e.refuses .load s.team.sup = none → e ∈ t.tlb (.lane s.team.mill)) ∧
      (∀ m, m ≠ s.team.mill → t.tlb (.lane m) = s.tlb (.lane m)) ∧
      (∃ keep : CacheLine → CacheLine, (∀ c, keep c = c ∨ keep c = { c with keep := true }) ∧
        mapGet [] t.laneCache s.team.mill = (mapGet [] s.laneCache s.team.mill).map keep) ∧
      (∀ m, m ≠ s.team.mill → mapGet [] t.laneCache m = mapGet [] s.laneCache m) ∧
      t = { s.after (fun x => x) with
        requests := t.requests, walks := t.walks, nextId := t.nextId, laneTlb := t.laneTlb, laneCache := t.laneCache }))

/-- R290 to R295: an atomic whose lanes all reach memory sends exactly one request for each, in order of the lanes, with its operands,
and sets a point after itself; no byte of memory changes until a request is performed. -/
def Obligations.AtomicsSendTheirOperation : Prop :=
  ∀ (s : State) (d : BitVec 7) (b x : BitVec 6) (r : BitVec 1) (c : BitVec 2) (p sz : BitVec 1), ∀ f ∈ atomicForms d b x r c p sz,
    let eas := s.team.active.map fun l => (l, s.team.u b.toNat + (s.team.v x.toNat l).setWidth 64)
    let k : AccessKind := ⟨f.2.plain, .atomic, f.2.n, if f.2.ret then .other else .atomic f.2.op⟩
    let value := fun r l => if f.2.n = 8 then (s.team.v r l).toNat + 2 ^ 32 * (s.team.v (r + 1) l).toNat else (s.team.v r l).toNat
    s.issuesAlone f.1 false ([.u b.toNat, .v x.toNat] ++ f.2.data) (if f.2.ret then f.2.data else []) = true →
    s.performedAt c = true → s.mayAccess s.team.uid = true → s.reaches k none eas = true →
    ∃ t, exec f.1 s = .next t ∧
      (∀ y ∈ s.locations k eas, ∃ q ∈ t.requests, q.team = s.team.uid ∧ q.loc = y.2 ∧ q.n = f.2.n ∧
        q.op = .atomic f.2.op (if f.2.op = .cas then value (d.toNat + f.2.n / 4) y.1 else value d.toNat y.1) (value d.toNat y.1)
          f.2.ret d.toNat y.1) ∧
      RequestsAdded s t (fun q => q.team = s.team.uid ∧ (∃ y ∈ s.locations k eas, q.loc = y.2) ∧
        ∃ x y l, q.op = .atomic f.2.op x y f.2.ret d.toNat l) ∧
      RequestsSent s t (fun q => (q.team, q.swath, q.loc, q.op)) ((s.locations k eas).map fun y => (s.team.uid, y.1 / 32, y.2,
        .atomic f.2.op (if f.2.op = .cas then value (d.toNat + f.2.n / 4) y.1 else value d.toNat y.1) (value d.toNat y.1)
          f.2.ret d.toNat y.1)) ∧
      (f.2.ret = true → s.team.active ≠ [] → ∀ v ∈ f.2.data, v ∈ t.pending s.team.uid) ∧
      t.team = { s.team.pointed with pc := s.team.pc + 4 } ∧ SameMemory (s.checked k eas) t ∧ t.rest = s.rest

/-! ## Claims and flows -/

/-- R82 to R84, R104: a CLAIM whose descriptor is read, valid and walked makes the slot CLAIMING with the pinned pages, asks the peer
for the rows of the destination if there is one, and parks; nothing else changes. -/
def Obligations.ClaimTakesItsSlot : Prop :=
  ∀ (s s1 s2 : State) (c : BitVec 4) (a b : BitVec 6) (p v : BitVec 1) (da : Word) (bytes : List Byte) (pins : List TlbEntry),
    s.issuesAlone (.claim c a b p v) false (if v = 1 then [.v a.toNat, .u b.toNat] else [.u a.toNat]) [] = true →
    s.claimAddress a.toNat b.toNat (v == 1) = .ok da → (s.team.claim c.toNat).state.inUse = false → da.toNat % 64 = 0 →
    s.acquiring s.team.uid = false → s.performedAll s.team.uid true = true → s.operand (p == 1) da 64 = .ok (s1, bytes) →
    descInvalid s1.module bytes = false →
    s1.claimWalk (descOf bytes) = .ok (s2, pins) → ∃ t, exec (.claim c a b p v) s = .next t ∧
      (t.team.claim c.toNat).state = .claiming ∧ (t.team.claim c.toNat).desc = descOf bytes ∧
      (t.team.claim c.toNat).pins = pins ∧ (t.team.claim c.toNat).total = (descOf bytes).total ∧
      (∀ k, k ≠ c.toNat → t.team.claim k = s2.team.claim k) ∧ t.team.status = .parked (.claim c.toNat) ∧
      t.outbox = s2.outbox ++ (if (descOf bytes).dpeer then
        [Message.reserve (descOf bytes).pmod s.team.vd (((descOf bytes).pieces false 0 (descOf bytes).total).map (·.2))]
        else []) ∧
      t = { s2 with outbox := t.outbox, team := { s2.team with claims := t.team.claims, status := t.team.status } }

/-- R90 to R92, R94, R96, R104: FLOW over a HELD claim starts, its ranges in the Weir and its slot FLOWING, or parks behind another flow;
UNCLAIM frees a slot over which no flow runs; CLSTAT reads the slot word. -/
def Obligations.FlowUnclaimClstatActOnSlot : Prop :=
  (∀ (s : State) (c : BitVec 4) (a b : BitVec 6) (all : BitVec 1) (off len : Nat),
    let cl := s.team.claim c.toNat
    s.issuesAlone (.flow c a b all) false (if all = 1 then [.u a.toNat] else [.u a.toNat, .u b.toNat]) [] = true →
    s.acquiring s.team.uid = false → s.performedAll s.team.uid true = true → cl.state = .held ∨ cl.state = .flowing →
    s.counterBusy cl.desc.dpeer (s.team.u a.toNat) = false →
    (off, len) = (if all = 1 then (0, cl.total)
      else (((s.team.u b.toNat).extractLsb' 0 32).toNat, ((s.team.u b.toNat).extractLsb' 32 25).toNat)) →
    (all = 0 → (s.team.u b.toNat).extractLsb' 57 7 = 0) →
    0 < len → len ≤ 0x1000000 → off + len ≤ cl.total → off % cl.desc.esize = 0 → len % cl.desc.esize = 0 →
    s.flowCounter cl (s.team.u a.toNat) = none →
    (s.mayFlow c.toNat off len = true → ∃ t f, exec (.flow c a b all) s = .next t ∧ t.flows = s.flows ++ [f] ∧
      f.team = some s.team.uid ∧ f.slot = c.toNat ∧ f.off = off ∧ f.len = len ∧ f.desc = cl.desc ∧ f.pins = cl.pins ∧
      t.weir = s.weir ++ weirEntries s.module s.team.mill f.id s.team.asid cl.desc off len ∧
      t.team.claim c.toNat = { cl with state := .flowing } ∧ (∀ k, k ≠ c.toNat → t.team.claim k = s.team.claim k) ∧
      t = { s with
        flows := t.flows, weir := t.weir, nextId := s.nextId + 1
        team := { s.team.pointed with claims := t.team.claims, pc := s.team.pc + 4 } }) ∧
    (s.mayFlow c.toNat off len = false → exec (.flow c a b all) s =
      .next { s with team := { s.team with status := .parked (.flow c.toNat off len (s.team.u a.toNat)) } })) ∧
  (∀ (s : State) (c : BitVec 4), s.issuesAlone (.unclaim c) false [] [] = true →
    (s.team.claim c.toNat).state ≠ .flowing → (s.team.claim c.toNat).state ≠ .pending →
    ∃ t, exec (.unclaim c) s = .next t ∧ t.team.claim c.toNat = Claim.free ∧
      (∀ k, k ≠ c.toNat → t.team.claim k = s.team.claim k) ∧
      t = { s with team := { s.team.pointed with claims := t.team.claims, pc := s.team.pc + 4 } }) ∧
  (∀ (s : State) (d : BitVec 6) (c : BitVec 4), s.issuesAlone (.clstat d c) false [] [.u d.toNat] = true →
    exec (.clstat d c) s = .next (s.after fun t => t.setU d.toNat (s.team.claim c.toNat).word))

/-! ## Arrival counters -/

/-- R97, R98, R157: ACARM, ACADD and ACRST on a counter on which nothing waits: the words they write, and no other byte of memory.
ACREAD reads a word; ACWAIT and JOIN go on at once when ARRIVED has reached EXPECTED or word 2 is not zero, and park otherwise; each of
the three is an acquire at device scope. No acquire of the team is under way (R104). JOIN takes a completion counter, waits for one, and
its result comes later (R231), which is DEDUCED: log 130. -/
def Obligations.CountersAddReadAndWait : Prop :=
  (∀ (s : State) (a b : BitVec 6) (slice off : Nat), s.counterAt (s.team.u a.toNat) slice off →
    s.acquiring s.team.uid = false → s.performedAll s.team.uid true = true →
    let w := s.ctrWord slice off
    let n := ((s.team.u b.toNat).extractLsb' 0 32).toNat
    (s.issuesAlone (.acarm a b) false [.u a.toNat, .u b.toNat] [] = true →
      ∃ t, exec (.acarm a b) s = .next t ∧ CounterWritten s t slice off [0, n, 0, w 3]) ∧
    (s.issuesAlone (.acadd a b) false [.u a.toNat, .u b.toNat] [] = true →
      ∃ t, exec (.acadd a b) s = .next t ∧ CounterWritten s t slice off
        [min (w 0 + n) 0xFFFFFFFF, w 1, if 0xFFFFFFFF < w 0 + n then w 2 ||| 1 else w 2, w 3]) ∧
    (s.issuesAlone (.acrst a) false [.u a.toNat] [] = true →
      ∃ t, exec (.acrst a) s = .next t ∧ CounterWritten s t slice off [0, w 1, 2, (w 3 + 1) % 2 ^ 32])) ∧
  (∀ (s : State) (d a : BitVec 6) (slice off : Nat), s.counterAt (s.team.u a.toNat) slice off → s.acquiring s.team.uid = false →
    let done := s.ctrWord slice off 1 ≤ s.ctrWord slice off 0 ∨ s.ctrWord slice off 2 ≠ 0
    let reads := fun (t : State) (v : Word) => t.team.u d.toNat = v ∧ CacheEmptied s t ∧
      t = { s.after (fun x => x.setU d.toNat v) with laneCache := t.laneCache, requests := t.requests, walks := t.walks }
    (∀ w : BitVec 6, s.issuesAlone (.acread d a w) false [.u a.toNat] [.u d.toNat] = true →
      ∃ t, exec (.acread d a w) s = .next t ∧ reads t (BitVec.ofNat 64 (s.ctrWord slice off w.toNat))) ∧
    let result := BitVec.ofNat 64 (s.ctrWord slice off 0 + 2 ^ 32 * (s.ctrWord slice off 2))
    let parked := { s with team := { s.team with status := .parked (.counter slice off d.toNat) } }
    (s.issuesAlone (.acwait d a) false [.u a.toNat] [.u d.toNat] = true →
      (done → ∃ t, exec (.acwait d a) s = .next t ∧ reads t result) ∧ (¬done → exec (.acwait d a) s = .next parked)) ∧
    (s.issuesAlone (.join d a) false [.u a.toNat] [.u d.toNat] = true →
      (s.mayAccess s.team.uid = false → exec (.join d a) s = .next s) ∧
      (s.mayAccess s.team.uid = true →
        (done → ∃ t u, exec (.join d a) s = .next t ∧ CacheEmptied s u ∧ AnswerComes u t false d.toNat result ∧
          u = { s.after (fun x => x) with laneCache := u.laneCache, requests := u.requests, walks := u.walks }) ∧
        (¬done → exec (.join d a) s = .next parked))))

/-! ## Fork, submission, step and group instructions -/

/-- R104, R155, R156, R170: FORK pushes the child that its descriptor describes onto the mill's deque, or answers 1 when 64 entries
stand there. The child has the shape, the save room and the arguments of the descriptor, and the coordinates and stage of the
workgroup that forks it (R149). FORK takes a completion counter, waits for one, and its answer comes later (R231), which is DEDUCED:
log 130. -/
def Obligations.ForkPushesOntoTheDeque : Prop :=
  (∀ (s : State) (d a : BitVec 6), s.issuesAlone (.fork d a) false [.u a.toNat] [.u d.toNat] = true →
    s.mayAccess s.team.uid = false ∨ s.performedAll s.team.uid true = false → exec (.fork d a) s = .next s) ∧
  ∀ (s : State) (d a : BitVec 6) (slice off : Nat),
    let ea := s.team.u a.toNat
    let f := fun o n => leNat (((s.plainRead slice off 64).drop o).take n)
    let pointed := { s.team.pointed with pc := s.team.pc + 4 }
    s.issuesAlone (.fork d a) false [.u a.toNat] [.u d.toNat] = true → s.mayAccess s.team.uid = true →
    s.performedAll s.team.uid true = true →
    ea.toNat % 64 = 0 → s.plainPhys ea 64 s.team.part 1 = .ok (slice, off) → s.plainBusy slice off 64 = false →
    s.plainPoisoned slice off 64 = false → f 0 8 % 2 = 0 → f 0x10 4 < 2 ^ 20 → saveBad (f 0x14 4) = false →
    s.counterBusy false (BitVec.ofNat 64 (f 8 8)) = false → s.childCtrBad (BitVec.ofNat 64 (f 8 8)) = false →
    ((s.liveDeque s.team.mill).length < 64 → ∃ t c, exec (.fork d a) s = .next t ∧ t.deque s.team.mill = c :: s.deque s.team.mill ∧
      AnswerComes { s with deques := t.deques, team := pointed } t true d.toNat 0 ∧
      c.vd = s.team.vd ∧ c.asid = s.team.asid ∧ c.lseq = s.team.lseq ∧ c.kernel.entry = BitVec.ofNat 64 (f 0 8) ∧
      c.kernel.nrecipe = 0 ∧ c.kernel.swaths = bitsOf (f 0x10 4) 4 0 + 1 ∧ c.kernel.teams = bitsOf (f 0x10 4) 8 5 + 1 ∧
      c.kernel.granules = bitsOf (f 0x10 4) 12 9 + 1 ∧ c.kernel.wpRows = bitsOf (f 0x10 4) 19 13 ∧
      c.kernel.maxG = max (bitsOf (f 0x14 4) 4 0) (bitsOf (f 0x10 4) 12 9) + 1 ∧ c.kernel.nt = bitsOf (f 0x14 4) 10 5 ∧
      c.kernel.na = bitsOf (f 0x14 4) 15 11 ∧
      (∀ g, s.wgOf s.team.wg = some g → (c.linear, c.x, c.y, c.z, c.stage) = (g.linear, g.x, g.y, g.z, g.stage)) ∧
      c.ctr = BitVec.ofNat 64 (f 8 8) ∧ c.args = (List.range 5).map (fun i => BitVec.ofNat 64 (f (0x18 + 8 * i) 8)) ∧
      (∀ m, m ≠ s.team.mill → t.deque m = s.deque m)) ∧
    (64 ≤ (s.liveDeque s.team.mill).length →
      ∃ t, exec (.fork d a) s = .next t ∧ AnswerComes { s with team := pointed } t true d.toNat 1)

/-- R104, R114, R298, R299: GRDY, once no acquire of the team is under way and its own accesses and what the barriers it passed cover have
performed (log 73), and not before, sets the workgroup's ready flag, which makes its next stage launchable; GSUBMIT, once no acquire is
under way and the team's accesses have performed, and not before, appends to the device queue, or answers 1 when that holds 16. -/
def Obligations.ReadyAndSubmitAreReleases : Prop :=
  (∀ s : State, s.issuesAlone .grdy false [] [] = true → s.acquiring s.team.uid = true ∨ s.groupPerformed s.team = false →
    exec .grdy s = .next s) ∧
  (∀ (s : State) (d a : BitVec 6), s.issuesAlone (.gsubmit d a) false [.u a.toNat] [.u d.toNat] = true →
    s.acquiring s.team.uid = true ∨ ((s.team.u a.toNat).toNat % 128 = 0 ∧ s.performedAll s.team.uid true = false) →
    exec (.gsubmit d a) s = .next s) ∧
  (∀ (s : State) (g : Workgroup) (l : Launch), s.issuesAlone .grdy false [] [] = true → s.acquiring s.team.uid = false →
    s.groupPerformed s.team = true → s.wgOf s.team.wg = some g →
    (g.readyFlag = true → exec .grdy s = .next (s.after Team.pointed)) ∧
    (g.readyFlag = false → g.forked = false → g.launch.bind s.launchOf = some l → g.stage + 1 < l.stages →
      ∃ t, exec .grdy s = .next t ∧ t.wgOf s.team.wg = some { g with readyFlag := true } ∧
        t.launchables = s.launchables ++ [⟨l.vd, l.uid, g.coord, g.stage + 1⟩] ∧
        t = { s.after Team.pointed with workgroups := t.workgroups, launchables := t.launchables })) ∧
  (∀ (s s1 : State) (d a : BitVec 6) (bytes : List Byte), s.issuesAlone (.gsubmit d a) false [.u a.toNat] [.u d.toNat] = true →
    (s.team.u a.toNat).toNat % 128 = 0 → s.acquiring s.team.uid = false → s.performedAll s.team.uid true = true →
    s.operand false (s.team.u a.toNat) 128 = .ok (s1, bytes) →
    let q := mapGet [] s1.deviceQueues s1.team.vd
    (q.length < 16 → s1.team = s.team → ∃ t, exec (.gsubmit d a) s = .next t ∧
      mapGet [] t.deviceQueues s.team.vd = q ++ [⟨s.team.asid, s.team.u a.toNat, bytes⟩] ∧
      t = { s1 with deviceQueues := t.deviceQueues, team := { (s.team.setU d.toNat 0).pointed with pc := s.team.pc + 4 } }) ∧
    (16 ≤ q.length → s1.team = s.team → exec (.gsubmit d a) s =
      .next { s1 with team := { (s.team.setU d.toNat 1).pointed with pc := s.team.pc + 4 } }))

/-- R126 to R128: STEP arrives at the team's next boundary, or parks until the one before is complete; STEPQ reads the step number,
the quota left, or a region's state. -/
def Obligations.StepEndsItsSuperstep : Prop :=
  (∀ s : State, s.issuesAlone .step false [] [] = true → s.stepEn s.team.vd = true → s.stepFail s.team.vd = false →
    (s.team.stepNo ≤ s.complete s.team.vd → ∃ t, exec .step s = .next t ∧ t.team.stepNo = s.team.stepNo + 1 ∧
      t.team.packetSeq = 0 ∧ t.team.pc = s.team.pc + 4 ∧
      (t.boundaryOf s.team.vd (s.team.stepNo + 1)).arrivals = (s.boundaryOf s.team.vd (s.team.stepNo + 1)).arrivals + 1 ∧
      t.team.uregs = s.team.uregs ∧ t.team.vregs = s.team.vregs ∧ t.team.preds = s.team.preds ∧
      t = { s with team := t.team, boundaries := t.boundaries, outbox := t.outbox }) ∧
    (s.complete s.team.vd < s.team.stepNo → exec .step s =
      .next { s with team := { s.team with status := .parked (.step (s.team.stepNo + 1)) } })) ∧
  (∀ (s : State) (d b : BitVec 6), s.issuesAlone (.stepq d 0 b) false [] [.u d.toNat] = true → s.committed s.team.vd < 2 ^ 32 →
    exec (.stepq d 0 b) s = .next (s.after fun t => t.setU d.toNat
      (BitVec.ofNat 32 s.team.stepNo ++ BitVec.ofNat 32 (s.committed s.team.vd)))) ∧
  (∀ (s : State) (d b : BitVec 6), s.issuesAlone (.stepq d 1 b) false [.u b.toNat] [.u d.toNat] = true →
    let m := ((s.team.u b.toNat).extractLsb' 0 12).toNat
    let q := s.quotaOf s.team.vd m (s.team.stepNo + 1)
    exec (.stepq d 1 b) s = .next (s.after fun t => t.setU d.toNat
      (if s.isMember s.team.vd m then BitVec.ofNat 64 (q.1 * 2 ^ 32 + q.2) else 0))) ∧
  (∀ (s : State) (d b : BitVec 6), s.issuesAlone (.stepq d 2 b) false [.u b.toNat] [.u d.toNat] = true →
    let w := s.reg (regionReg ((s.team.u b.toNat).extractLsb' 0 8).toNat 0)
    exec (.stepq d 2 b) s = .next (s.after fun t => t.setU d.toNat
      ((w.extractLsb' 63 1 ++ w.extractLsb' 61 1 ++ w.extractLsb' 62 1).setWidth 64)))

/-- R317 to R320, R323, R324: COLL and A2AV park their team until every team of the workgroup has arrived. With the last arrival the
group instruction starts in the team with the lowest TINDEX, and every arrived team goes on after it with a point there; arrivals that
differ raise uniformity in every arrived team, with no lane in `%fmask`. A started COLL records its kind, its members in rank order, the
bytes of its operand, its counter with GEN and where it lands, and a root that reduces waits for its members; a started A2AV records its
counts and its send buffer, sets its counter, and sends each other member its count and its segment. What the start waits for, and that
the chunk buffers have room, are DEDUCED: logs 44, 45, 76. -/
def Obligations.GroupInstructionsArriveAndPark : Prop :=
  (∀ (s s1 : State) (n : BitVec 5) (acc : BitVec 1) (a b : BitVec 6) (op k : BitVec 3) (d : List Byte) (ms : List Nat)
      (ctr dst : Nat × Nat),
    let f := fun o n => leNat ((d.drop o).take n)
    let bytes := f 0x18 4
    let lands := landingBytes k.toNat ms.length (ms.idxOf s1.module) bytes
    let kind := [CollKind.allReduce, .reduceScatter, .allGather, .broadcast].getD k.toNat .reduce
    let operand := if acc = 1 then ((List.range 4096).flatMap fun w => leBytes 4 (s1.acc n.toNat (w / 64) (w % 64)).toNat).take bytes
      else s1.tileRead n.toNat bytes
    s.groupStarts s1 (.coll n acc a b op k) a b d ms ctr →
    collInvalid d kind op.toNat ms.length (if acc = 1 then 16384 else (s1.shape n.toNat).total) = false →
    (if lands = 0 then dst = (0, 0) else s1.plainPhys (BitVec.ofNat 64 (f 0x14 4)) lands s.team.part 1 = .ok dst) →
    s1.stoneFree (if acc = 1 then [] else [n.toNat]) (if acc = 1 then [n.toNat] else []) = true →
    s1.chunkRoom bytes = true → (acc = 0 → s1.tilePoisoned n.toNat bytes = false) →
    ∃ t c, exec (.coll n acc a b op k) s = .next t ∧ t.colls = s1.colls ++ [c] ∧ GroupRecorded s1 d c ms ctr dst ∧ c.kind = kind ∧
      (c.op, c.bytes, c.operand) = (op.toNat, bytes, operand) ∧ (c.etype, c.alg) = (bitsOf (f 4 4) 3 2, bitsOf (f 4 4) 5 4) ∧
      c.phase = (if kind.reduces = true ∧ c.rank = 0 ∧ c.alg ≠ 2 then .joining else .running) ∧ c.left = c.toLand ∧
      t.outbox = s1.outbox ++ [.collJoin ms c.tag operand] ∧ t.plain = s1.plain ∧
      t.team = { s.team.pointed with pc := s.team.pc + 4, age := 0 }) ∧
  (∀ (s s1 : State) (a b : BitVec 6) (d : List Byte) (ms : List Nat) (ctr cnt src rcnt dst : Nat × Nat),
    let f := fun o n => leNat ((d.drop o).take n)
    let p := ms.length
    let region := fun o n => s1.plainPhys (BitVec.ofNat 64 (f o 4)) n s.team.part 1
    let counts := (List.range p).map fun q => leNat (((s1.plainRead cnt.1 cnt.2 (4 * p)).drop (4 * q)).take 4)
    let esize := 2 ^ bitsOf (f 4 4) 5 4
    let sent := esize * counts.sum
    let buffer := s1.plainRead src.1 src.2 sent
    s.groupStarts s1 (.a2av a b) a b d ms ctr → bitsOf (f 4 4) 3 2 = 0 → (d.drop 0x28).all (· == 0) = true → sent ≤ 0x1000000 →
    f 0x14 4 % 4 = 0 → region 0x14 (4 * p) = .ok cnt → s1.plainBusy cnt.1 cnt.2 (4 * p) = false →
    s1.plainPoisoned cnt.1 cnt.2 (4 * p) = false → region 0x18 sent = .ok src → s1.plainBusy src.1 src.2 sent = false →
    s1.plainPoisoned src.1 src.2 sent = false → f 0x1C 4 % 4 = 0 → region 0x1C (8 * p) = .ok rcnt →
    region 0x20 (f 0x24 4) = .ok dst → s1.chunkRoom (sent + 4 * p) = true → s1.plainPoisoned ctr.1 ctr.2 16 = false →
    s1.unwatched ctr.1 ctr.2 = true →
    ∃ t c, exec (.a2av a b) s = .next t ∧ t.colls = s1.colls ++ [c] ∧ GroupRecorded s1 d c ms ctr dst ∧ c.kind = .exchange ∧
      (c.esize, c.sendCounts, c.operand) = (esize, counts, buffer) ∧ (c.rcntSlice, c.rcnt) = rcnt ∧ c.dcap = f 0x24 4 ∧
      c.phase = .running ∧ (List.range 4).map (t.ctrWord ctr.1 ctr.2) = [0, 0xFFFFFFFF, 0, s1.ctrWord ctr.1 ctr.2 3] ∧
      PlainKept s1 t ctr.1 ctr.2 16 ∧
      t.outbox = s1.outbox ++ ((ms.zipIdx.filter fun m => m.1 != s1.module).flatMap fun m =>
        [.counts m.1 c.tag (counts.getD m.2 0),
          .segment m.1 c.tag ((buffer.drop (esize * (counts.take m.2).sum)).take (esize * counts.getD m.2 0))]) ∧
      t.team = { s.team.pointed with pc := s.team.pc + 4, age := 0 }) ∧
  (∀ (s : State) (g : Workgroup) (i : Instr) (n : BitVec 5) (acc : BitVec 1) (a b : BitVec 6) (op k : BitVec 3),
    let x := s.team.u a.toNat
    let y := s.team.u b.toNat
    let arrived := g.arrivals ++ [⟨s.team.uid, s.team.tindex, i.bits, x, y⟩]
    let uids := arrived.map (·.team)
    let u := s.withdrawn uids
    i = .coll n acc a b op k ∨ i = .a2av a b → s.arrives i a b → s.wgOf s.team.wg = some g →
    (s.members s.team.wg).length ≤ arrived.length → (s.teams.map (·.uid)).Nodup → uids.Nodup →
    (∀ (first : CollArrival) (f s2 : State), (∀ z ∈ arrived, (z.bits, z.a, z.b) = (i.bits, x, y)) → first ∈ arrived →
      (∀ z ∈ arrived, z ≠ first → first.tindex < z.tindex) → u.focus first.team = some f → f.startGroup i.bits x y = .ok s2 →
      s2.team = f.team → s2.rest = f.rest → ∃ t, exec i s = .next t ∧
      (∀ z ∈ arrived, ∀ m, u.teamOf z.team = some m →
        t.teamOf z.team = some { m.pointed with status := .ready, pc := m.pc + 4, age := 0 }) ∧
      (∀ m, m.uid ∉ uids → (m ∈ t.teams ↔ m ∈ s.teams)) ∧ t.colls = s2.colls ∧ t.outbox = s2.outbox ∧ t.plain = s2.plain ∧
      t.workgroups = s2.workgroups) ∧
    ((∃ z ∈ arrived, (z.bits, z.a, z.b) ≠ (i.bits, x, y)) → s.regBit (vdReg s.team.vd 0x040) 0 = false →
      (∀ z ∈ arrived, ∃ m, s.teamOf z.team = some m ∧ m.vd = s.team.vd ∧ m.closure = []) → ∃ t, exec i s = .next t ∧
      t.wgOf s.team.wg = some { g with arrivals := [] } ∧ ∀ z ∈ arrived, ∀ m, s.teamOf z.team = some m →
        ∃ w, t.teamOf z.team = some w ∧ w.status = .parked .fault ∧ w.pc = m.pc ∧
          (w.fault.map fun r => (r.taken.trap.code, r.taken.trap.fmask)) = some (0x05, some 0))) ∧
  ∀ (s : State) (g : Workgroup) (i : Instr) (n : BitVec 5) (acc : BitVec 1) (a b : BitVec 6) (op k : BitVec 3),
    i = .coll n acc a b op k ∨ i = .a2av a b → s.issuesAlone i false [.u a.toNat, .u b.toNat] [] = true →
    (∀ l < s.team.lanes, s.team.mask.getLsbD l = true) → s.acquiring s.team.uid = false →
    s.performedAll s.team.uid true = true → s.wgOf s.team.wg = some g → (∀ x ∈ s.rest, x.uid ≠ s.team.uid) →
    (g.arrivals.length + 1 < (s.members s.team.wg).length → ∃ t, exec i s = .next t ∧
      t.wgOf s.team.wg = some { g with
        arrivals := g.arrivals ++ [⟨s.team.uid, s.team.tindex, i.bits, s.team.u a.toNat, s.team.u b.toNat⟩] } ∧
      t = { s with workgroups := t.workgroups, team := { s.team with status := .parked .collective } }) ∧
    (∀ s2, (∀ x ∈ s.workgroups, x.uid = s.team.wg → x.arrivals = []) → (s.members s.team.wg).length = 1 →
      ({ s with team := { s.team with age := 0 } }.startGroup i.bits (s.team.u a.toNat) (s.team.u b.toNat)) = .ok s2 →
      s2.team.uid = s.team.uid → s2.team.status = .ready →
      ∃ t, exec i s = .next t ∧ t.team = { s2.team.pointed with pc := s2.team.pc + 4, age := 0 } ∧
        t.colls = s2.colls ∧ t.outbox = s2.outbox ∧ t.plain = s2.plain)

/-! ## The Millstone -/

/-- R306 to R309: a tile load whose ranges are free reads them into the tile, under SM each element multiplied by the smoothing value
of its column and rounded to the tile's format (R308); a tile store sends the tile's bytes to its ranges. By stride, range i lies at
`s`a + i times the stride and has the row bytes of R304. What the load waits for and
the order of its checks are DEDUCED: log 39. -/
def Obligations.TileLoadsAndStoresMoveRows : Prop :=
  ∀ (s s1 : State) (n : BitVec 5) (a b : BitVec 6) (rs : List TileRange),
    let sh := s.shape n.toNat
    let ready := fun (w : Bool) => s.stoneFree [n.toNat] [] = true ∧ s1.weirRange w rs = none ∧ s1.mayAccess s1.team.uid = true
    let quiet := (∀ r ∈ rs, s1.rangeBusy r = false ∧ s1.rangePoison r = none)
    let load := fun (i : Instr) => ∀ tracked : Team, ready false → quiet → s1.team.track false n.toNat = some tracked →
      exec i s = .next ((({ s1 with team := tracked }.rangesRead rs).1.tileWrite n.toNat 0
        ({ s1 with team := tracked }.rangesRead rs).2).after fun t => t)
    let smooth := fun (i : Instr) => ∀ (tracked : Team) (v : List Nat),
      let read := { s1 with team := tracked }.rangesRead rs
      let out := sh.loaded read.2 (some v)
      ready false → quiet → s1.team.track false n.toNat = some tracked → sh.fmt ≠ 3 →
      s1.plainVector ((s.team.u b.toNat).extractLsb' 32 32).toNat sh.cols = .ok v → enabledFlags s.team.mode out.2 = 0 →
      exec i s = .next ((read.1.tileWrite n.toNat 0 out.1).after fun t => { t with flags := t.flags ||| BitVec.ofNat 64 out.2 })
    let store := fun (i : Instr) => ready true → s1.tilePoisoned n.toNat sh.total = false →
      exec i s = .next ((s1.sendStore ((tileStores rs (s1.tileRead n.toNat sh.total)).map fun w => (0, w))).after fun t => t)
    let two := [RegRef.u a.toNat, .u b.toNat]
    (s.issuesAlone (.tld n a b 0) false two [] = true →
      s.strideSide (s.team.u a.toNat) ((s.team.u b.toNat).extractLsb' 0 32).toNat true sh = .ok (s1, rs) → load (.tld n a b 0)) ∧
    (s.issuesAlone (.tldD n a b 0) false [.u a.toNat] [] = true →
      s.descriptorSide (s.team.u a.toNat) true sh = .ok (s1, rs) → load (.tldD n a b 0)) ∧
    (s.issuesAlone (.tld n a b 1) false two [] = true →
      s.strideSide (s.team.u a.toNat) ((s.team.u b.toNat).extractLsb' 0 32).toNat true sh = .ok (s1, rs) → smooth (.tld n a b 1)) ∧
    (s.issuesAlone (.tldD n a b 1) false two [] = true →
      s.descriptorSide (s.team.u a.toNat) true sh = .ok (s1, rs) → smooth (.tldD n a b 1)) ∧
    (s.issuesAlone (.tst n a b) false two [] = true →
      s.strideSide (s.team.u a.toNat) ((s.team.u b.toNat).extractLsb' 0 32).toNat false sh = .ok (s1, rs) → store (.tst n a b)) ∧
    (s.issuesAlone (.tstD n a) false [.u a.toNat] [] = true →
      s.descriptorSide (s.team.u a.toNat) false sh = .ok (s1, rs) → store (.tstD n a)) ∧
    (∀ (load : Bool) (loc : Nat → Nat × Nat),
      let st := ((s.team.u b.toNat).extractLsb' 0 32).toNat
      let row := fun i => s.team.u a.toNat + BitVec.ofNat 64 (i * st)
      sh.valid = true → (s.team.u a.toNat).toNat % sh.align = 0 → st % sh.align = 0 →
      (load = false → 1 < sh.rows → rowBytesOf sh ≤ st) →
      (∀ i < sh.rows, s.plainPhys (row i) (rowBytesOf sh) s.team.part 1 = .ok (loc i)) →
      s.strideSide (s.team.u a.toNat) st load sh =
        .ok (s, (List.range sh.rows).map fun i => ⟨.plain (loc i).1 (loc i).2, row i, rowBytesOf sh⟩)) ∧
    (∀ (va : Nat) (v : List Nat), s.plainVector va sh.cols = .ok v → ∃ slice off,
      s.plainPhys (BitVec.ofNat 64 va) (4 * sh.cols) s.team.part 1 = .ok (slice, off) ∧
      v = (List.range sh.cols).map fun c => leNat (s.plainRead slice (off + 4 * c) 4)) ∧
    ∀ (bytes : List Byte) (v : List Nat) (i j : Nat), sh.valid = true → i < sh.rows → j < sh.cols →
      let out := (sh.loaded bytes (some v)).1
      let at' := fun (l : List Byte) (o n : Nat) => (l.drop (i * rowBytesOf sh + o)).take n
      let factor := fun c => decodeFloat .fp32 (v.getD c 0)
      (∀ (f : FFmt) (w : Nat), (sh.fmt, f, w) ∈ [(0, FFmt.fp32, 4), (1, .bf16, 2), (2, .fp16, 2)] →
        at' out (w * j) w = leBytes w (roundWith f 1 (mulVal (decodeFloat f (leNat (at' bytes (w * j) w))) (factor j))).1) ∧
      (∀ m w : Nat, (sh.fmt, m, w) ∈ [(4, 7, 18), (5, 4, 12), (6, 2, 8)] →
        let block := leNat (at' bytes (w * (j / 16)) w)
        at' out (w * (j / 16)) w = leBytes w (quantise m 1 ((List.range 16).map fun e =>
          (mulVal (blockElem m block e) (factor (16 * (j / 16) + e))).1)).1)

/-- R206 to R208, R301, R312: an MMA under a lease, with every lane active, one format word and matching shapes, replaces the
elements of the product's shape and nothing else of any accumulator, and takes one operation from the lease. That a product of integers
that is 0 counts as +0 beside an FP32 accumulator is the model's reading (log 42). -/
def Obligations.MmaWritesOnlyItsProduct : Prop :=
  ∀ (s : State) (c : BitVec 4) (ta tb : BitVec 5) (sem : BitVec 3) (f : BitVec 6) (tracked : Team),
    let w := (s.team.v f.toNat 0).toNat
    let a := s.shape ta.toNat
    let b := s.shape tb.toNat
    let rm := if bitsOf w 10 8 = 0 then s.team.rm else bitsOf w 10 8
    let elem := fun i j => mmaElem w sem.toNat rm (s.acc c.toNat i j) a b (s.tileRead ta.toNat a.total) (s.tileRead tb.toNat b.total) i j
    let fl := ((List.range a.rows).flatMap fun i => (List.range b.cols).map fun j => (elem i j).2).foldl (· ||| ·) 0
    s.issuesAlone (.mma c ta tb sem f) false [.v f.toNat] [] = true →
    (∀ l < s.team.lanes, s.team.mask.getLsbD l = true ∧ (s.team.v f.toNat l).toNat = w) → s.leaseEnding = false →
    s.team.leaseHeld = true → s.stoneFree [ta.toNat, tb.toNat] [c.toNat] = true → mmaAllowed w sem.toNat = true →
    a.fmt = bitsOf w 3 0 → b.fmt = bitsOf w 7 4 → b.rows = a.cols → a.cols ≤ min (elemK a.fmt) (elemK b.fmt) →
    a.rows ≤ 64 → b.cols ≤ 64 → s.tilePoisoned ta.toNat a.total = false → s.tilePoisoned tb.toNat b.total = false →
    s.team.track true c.toNat = some tracked → enabledFlags s.team.mode fl = 0 →
    ∃ t, exec (.mma c ta tb sem f) s = .next t ∧
      (∀ i j, i < 64 → j < 64 → t.acc c.toNat i j = if i < a.rows ∧ j < b.cols then (elem i j).1 else s.acc c.toNat i j) ∧
      (∀ k, ¬(accKey s.team.mill c.toNat 0 ≤ k ∧ k < accKey s.team.mill c.toNat 4096) → mapGet 0 t.accs k = mapGet 0 s.accs k) ∧
      t.team = { tracked with
        leaseRemain := s.team.leaseRemain - 1, flags := s.team.flags ||| BitVec.ofNat 64 fl, pc := s.team.pc + 4 } ∧
      t = { s with
        accs := t.accs, team := t.team
        millstones := (s.stoneStarts true c.toNat (s.team.leaseRemain - 1 == 0)).millstones }

/-- R314: ACLR, ASCALE and ABIAS write every word of their accumulator from the old one. -/
def Obligations.AccumulatorOperationsWriteElements : Prop :=
  ∀ (s : State) (c : BitVec 4) (b : BitVec 5) (r : BitVec 3) (tracked : Team),
    let rm := if r = 0 then s.team.rm else r.toNat
    let old := fun i j => (s.acc c.toNat i j).toNat
    let done := fun (i : Instr) (f : Nat → Nat → Nat × Nat) =>
      enabledFlags s.team.mode (accumulatorFlags fun i j => (f i j).2) = 0 →
      ∃ t, exec i s = .next t ∧ AccumulatorWritten s t tracked c.toNat (fun i j => BitVec.ofNat 32 (f i j).1)
        (accumulatorFlags fun i j => (f i j).2)
    s.stoneFree [] [c.toNat] = true → s.team.track true c.toNat = some tracked →
    (s.issuesAlone (.aclr c) false [] [] = true → done (.aclr c) fun _ _ => (0, 0)) ∧
    (s.issuesAlone (.ascale c b r) false [.u b.toNat] [] = true →
      done (.ascale c b r) fun i j => fmul .fp32 rm (old i j) ((s.team.u b.toNat).extractLsb' 0 32).toNat) ∧
    (∀ v, s.issuesAlone (.abias c b r) false [.u b.toNat] [] = true →
      s.plainVector ((s.team.u b.toNat).extractLsb' 0 32).toNat 64 = .ok v →
      done (.abias c b r) fun i j => fadd .fp32 rm (old i j) (v.getD j 0))

/-- R180, R310, R315: MLEASE asks for a lease, and traps while one is held; MRELS ends it; TZERO, TTRN, AMOV and AMOV.Q, with or without
a lease, write their tile, which the Millstone is then busy with. -/
def Obligations.LeasesAndTileWrites : Prop :=
  (∀ (s : State) (n : BitVec 12), s.issuesAlone (.mlease n) false [] [] = true → s.team.leaseHeld = true →
    ∃ v, exec (.mlease n) s = .next ({ s with draws := s.draws + 1 }.raises (.bare 0x17 v))) ∧
  (∀ (s : State) (n : BitVec 12), s.issuesAlone (.mlease n) false [] [] = true → s.team.heldTrap = none →
    s.team.leaseHeld = false → s.ownsStone s.team.part s.team.mill = true → (∀ x ∈ s.rest, x.uid ≠ s.team.uid) →
    ((s.millstone s.team.mill).holder = none → (s.millstone s.team.mill).queue = [] → s.team.releasing = false →
      ∃ t, exec (.mlease n) s = .next t ∧ (t.millstone s.team.mill).holder = some s.team.uid ∧
        t.team = { s.team with
          leaseHeld := true, leaseGrant := n.toNat + 1, leaseRemain := n.toNat + 1, pc := s.team.pc + 4, age := 0 } ∧
        t = { s with team := t.team, millstones := t.millstones, rest := t.rest }) ∧
    (∀ h, (s.millstone s.team.mill).holder = some h → ∃ t, exec (.mlease n) s = .next t ∧
      t.team = { s.team with status := .parked .lease } ∧
      t.millstone s.team.mill = { s.millstone s.team.mill with
        queue := (s.millstone s.team.mill).queue ++ [(s.team.uid, n.toNat + 1)] } ∧
      t = { s with team := t.team, millstones := t.millstones })) ∧
  (∀ s : State, s.issuesAlone .mrels false [] [] = true →
    (s.team.leaseHeld = false → exec .mrels s = .next (s.after fun t => t)) ∧
    (s.team.leaseHeld = true → (s.millstone s.team.mill).holder = some s.team.uid → (s.millstone s.team.mill).queue = [] →
      ∃ t, exec .mrels s = .next t ∧ (t.millstone s.team.mill).holder = none ∧
        t.team = { s.team with leaseHeld := false, leaseRemain := 0, pc := s.team.pc + 4 } ∧
        t.tiles = s.tiles ∧ t.accs = s.accs ∧ t.plain = s.plain ∧ t.basin = s.basin)) ∧
  (∀ (s : State) (d : BitVec 5) (tracked : Team), s.team.track false d.toNat = some tracked →
    let written := fun (i : Instr) (bytes : List Byte) (fl : Nat) => enabledFlags s.team.mode fl = 0 →
      exec i s = .next (((s.tileWrite d.toNat 0 bytes).stoneStarts false d.toNat false).after fun _ =>
        { tracked with flags := s.team.flags ||| BitVec.ofNat 64 fl })
    (s.issuesAlone (.tzero d) false [] [] = true → s.stoneFree [d.toNat] [] = true →
      written (.tzero d) (List.replicate 8192 0) 0) ∧
    (∀ (a : BitVec 5), s.issuesAlone (.ttrn d a) false [] [] = true → s.stoneFree [d.toNat, a.toNat] [] = true →
      let sh := s.shape a.toNat
      blockK sh.fmt = 0 → s.tilePoisoned a.toNat sh.total = false →
      exec (.ttrn d a) s = .next ((((s.tileWrite d.toNat 0 ((List.range sh.cols).flatMap fun j => (List.range sh.rows).flatMap fun i =>
          leBytes (elemBytes sh.fmt) (sh.elemAt (s.tileRead a.toNat sh.total) i j))).setTshape s.team.mill d.toNat
        (Shape.word ⟨sh.fmt, sh.rows, sh.cols⟩)).stoneStarts false d.toNat false).after fun _ => tracked)) ∧
    (∀ (a : BitVec 4) (b : BitVec 5) (r : BitVec 3) (q : Bool) (v : List Nat),
      let i := if q then .amovQ d a b r else .amov d a r
      let sh := s.shape d.toNat
      let rm := if r = 0 then s.team.rm else r.toNat
      let elem := fun i j => if q then fdiv .fp32 1 (s.acc a.toNat i j).toNat (v.getD j 0) else ((s.acc a.toNat i j).toNat, 0)
      let rows := (List.range sh.rows).map fun i => (List.range sh.cols).map fun j => elem i j
      let out := rows.flatMap fun row => sh.rowFrom rm (row.map (·.1))
      let fl := ((rows.flatMap fun row => row.map (·.2)) ++ out.map (·.2.2)).foldl (· ||| ·) 0
      s.issuesAlone i false (if q then [.u b.toNat] else []) [] = true → s.stoneFree [d.toNat] [a.toNat] = true →
      sh.rows ≤ 64 → sh.cols ≤ 64 →
      (q = true → blockK sh.fmt ≠ 0 ∧ s.plainVector ((s.team.u b.toNat).extractLsb' 0 32).toNat sh.cols = .ok v) →
      written i (out.flatMap fun r => leBytes r.1 r.2.1) fl))

/-! ## Traps -/

/-- R213: an instruction whose fields are not allowed raises illegal instruction, and a privileged one at user level privileged
instruction; `%tval` holds its bits, and nothing else has happened. -/
def Obligations.IllegalAndPrivilegedTakeTheirTrap : Prop :=
  (∀ (s : State) (i : Instr) (n w : Nat), encode i = some (n, w) → i.wellFormed = false → s.team.status = .ready →
    exec i s = .next (s.mainTrap (.bare 0x01 (BitVec.ofNat 64 w)) (n / 8))) ∧
  (∀ (s : State) (a b d : BitVec 6) (n w : Nat), ∀ i ∈ privilegedForms a b d, encode i = some (n, w) →
    s.team.status = .ready → s.team.level = .user → exec i s = .next (s.raises (.bare 0x02 (BitVec.ofNat 64 w))))

/-- R192, R193: a lane operation that sets an enabled flag completes, and then traps. -/
def Obligations.EnabledFlagTrapsAfterWriting : Prop :=
  (∀ d a b : BitVec 7, ∀ f ∈ divisionForms d a b, f.Traps) ∧
  (∀ (d a b : BitVec 7) (x y : BitVec 6) (h : BitVec 1) (r : BitVec 3), ∀ f ∈ floatForms d a b x y h r, f.Traps)

/-- R348, R349: a trap that the lanes handle writes the frame, sets the trap registers, and enters the handler at supervisor level with
every lane active, an empty mask stack, `%plot` of 32 lanes, no deferral and no enabled flag. -/
def Obligations.TrapEntrySavesAndGoesToHandler : Prop :=
  ∀ (s : State) (x : Trap) (m : Mask) (slice off : Nat), s.lanesRoute s.team x = true → x.fmask = some m → s.pending s.team.uid = [] →
    s.team.closure = [] → s.team.stack.length ≤ 32 → s.frameAt slice off → x.done = false →
    let t := s.raises x
    t.team.level = .supervisor ∧ t.team.mask = allLanes s.team.lanes ∧ t.team.stack = [] ∧ t.team.plot = 5 ∧ t.team.defer = 0 ∧
    wbits t.team.mode 12 7 = 0 ∧ wbits t.team.mode 2 0 = wbits s.team.mode 2 0 ∧
    t.team.epc = s.team.pc ∧ t.team.cause = BitVec.ofNat 64 x.code ∧ t.team.tval = x.tval ∧ t.team.fmask = m ∧
    t.team.pc = BitVec.ofNat 64 (s.regBits (vdReg s.team.vd 0x040) 55 8 * 256) ∧ t.team.status = .ready ∧
    t.team.uregs = s.team.uregs ∧ t.team.vregs = s.team.vregs ∧ t.team.preds = s.team.preds ∧ t.team.flags = s.team.flags ∧
    t.plainRead slice off (frameSize s.team.lanes) = s.team.frameBytes ∧ PlainKept s t slice off (frameSize s.team.lanes) ∧
    t = { s with plain := t.plain, team := t.team }

/-- R332, R348: TRAP raises breakpoint after itself with its code, at user level with HEN and the breakpoint's bit of VDHMASK set in the
lanes, else through the fault queue; BRK always parks the team on a fault record, the pc moved on. -/
def Obligations.BreakpointsRouteAsVdhmaskSays : Prop :=
  ∀ (s : State) (c : BitVec 16),
    let x : Trap := ⟨0x1B, c.setWidth 64, some 0, 0, true, false, 0⟩
    (s.issuesAlone (.trap c) false [] [] = true → exec (.trap c) s = .next (s.mainTrap x 4)) ∧
    (s.issuesAlone (.trap c) false [] [] = true → s.team.level = .user → s.regBit (vdReg s.team.vd 0x040) 0 = true →
      s.regBit (vdReg s.team.vd 0x090) 0x1B = true → s.pending s.team.uid = [] → (∃ slice off, s.frameAt slice off) →
      ∃ t, exec (.trap c) s = .next t ∧ t.team.status = .ready ∧ t.team.level = .supervisor ∧
        t.team.cause = BitVec.ofNat 64 (0x1B + 0x80) ∧ t.team.tval = c.setWidth 64 ∧ t.team.epc = s.team.pc ∧
        t.team.pc = BitVec.ofNat 64 (s.regBits (vdReg s.team.vd 0x040) 55 8 * 256)) ∧
    (s.issuesAlone (.trap c) false [] [] = true → s.team.level = .supervisor ∨ s.regBit (vdReg s.team.vd 0x040) 0 = false ∨
        s.regBit (vdReg s.team.vd 0x090) 0x1B = false →
      ∃ t, exec (.trap c) s = .next t ∧ t.team.status = .parked .fault ∧ t.team.pc = s.team.pc + 4 ∧
        (t.team.fault.map fun f => f.taken.trap) = some { x with epc := s.team.pc }) ∧
    (s.issuesAlone (.brk c) false [] [] = true → ∃ t, exec (.brk c) s = .next t ∧ t.team.status = .parked .fault ∧
      t.team.pc = s.team.pc + 4 ∧ (t.team.fault.map fun f => f.taken.trap) = some { x with epc := s.team.pc } ∧
      t.team.uregs = s.team.uregs ∧ t.team.vregs = s.team.vregs ∧ t.team.preds = s.team.preds ∧ t.plain = s.plain ∧
      t.basin = s.basin)

/-! ## Privileged instructions -/

/-- R326, R350: ERET restores the frame (uniform registers, predicates, `v0` to `v7`, the mask and its stack, the modes, the flags and
the latest point), leaves the supervisor level, and goes to `%epc`. Reserved codes of the modes are left out: log 86. -/
def Obligations.EretRestoresTheFrame : Prop :=
  ∀ (s : State) (slice off : Nat), s.issuesAlone .eret true [] [] = true → s.pending s.team.uid = [] → s.frameAt slice off →
    s.team.shelved = [] → s.team.shelvedTrap = none → s.team.pendingTrap = none → s.team.cause.getLsbD 6 = false → s.team.cause.getLsbD 7 = false →
    s.team.epc.getLsbD 0 = false → s.team.lanes ≤ 1024 →
    let w := fun o n => leNat (((s.plainRead slice off (frameSize s.team.lanes)).drop o).take n)
    ∃ t, exec .eret s = .next t ∧ t.team.level = .user ∧ t.team.pc = s.team.epc ∧ t.team.status = .ready ∧
      (∀ i < 64, t.team.u i = BitVec.ofNat 64 (w (0x400 + 8 * i) 8)) ∧
      (∀ i < 16, t.team.p i = BitVec.ofNat 1024 (w (0x600 + 128 * i) 128) &&& allLanes s.team.lanes) ∧
      t.team.mask = BitVec.ofNat 1024 (w 0x100 128) &&& allLanes s.team.lanes ∧
      (1 ≤ w 0x18 8 % 8 → w 0x18 8 % 8 ≤ 5 →
        t.team.mode = BitVec.ofNat 64 (w 0x18 8 / 128 % 64 * 128 + w 0x18 8 % 8)) ∧
      t.team.flags = BitVec.ofNat 64 (w 0x20 8 % 64) ∧
      (1 ≤ w 0x28 8 % 8 → w 0x28 8 % 8 ≤ 5 → t.team.plot = w 0x28 8 % 8) ∧
      (w 0x30 8 % 4 ≤ 2 → t.team.defer = w 0x30 8 % 4) ∧ t.team.point.resume = BitVec.ofNat 64 (w 0x10 8) ∧
      (∀ r l, r < 8 → l < s.team.lanes → t.team.v r l = BitVec.ofNat 32 (w (0x2000 + 32 * l + 4 * r) 4)) ∧
      (w 0 8 / 256 % 64 ≤ 32 → t.team.stack = ((List.range (w 0 8 / 256 % 64)).map fun j =>
        BitVec.ofNat 1024 (w (0xE00 + 128 * j) 128) &&& allLanes s.team.lanes).reverse) ∧
      (∀ r l, 8 ≤ r → l < 1024 → t.team.v r l = s.team.v r l) ∧ t.team.tval = s.team.tval ∧ t.team.fmask = s.team.fmask ∧
      t.plain = s.plain ∧ t.basin = s.basin ∧ t.hostMem = s.hostMem

/-- R327, R328: TLBINV and TLBINV.ALL remove the translations they name from every TLB and park; KEYLD installs material and zeroes
its bytes; KEYDEL destroys a loaded index and parks, and completes at once otherwise. -/
def Obligations.InvalidationAndKeysComplete : Prop :=
  (∀ (s : State) (a : BitVec 6), s.issuesAlone (.tlbinv a) true [.u a.toNat] [] = true →
    ∃ t, exec (.tlbinv a) s = .next t ∧ t.team.status = .parked (.invalidation s.nextId) ∧ t.team.pc = s.team.pc ∧
      (∀ r, ∀ e ∈ t.tlb r, e.covers s.team.asid ((s.team.u a.toNat).toNat / 65536 * 65536) = false) ∧
      (t.invalidations.getLast?.map fun v => (v.id, v.owner)) = some (s.nextId, .team s.team.uid) ∧
      t.team.uregs = s.team.uregs ∧ t.team.vregs = s.team.vregs ∧ t.plain = s.plain ∧ t.basin = s.basin) ∧
  (∀ s : State, s.issuesAlone .tlbinvAll true [] [] = true →
    ∃ t, exec .tlbinvAll s = .next t ∧ t.team.status = .parked (.invalidation s.nextId) ∧ t.team.pc = s.team.pc ∧
      (∀ r, ∀ e ∈ t.tlb r, e.asid ≠ s.team.asid) ∧
      (t.invalidations.getLast?.map fun v => (v.id, v.owner)) = some (s.nextId, .team s.team.uid) ∧
      t.team.uregs = s.team.uregs ∧ t.team.vregs = s.team.vregs ∧ t.plain = s.plain ∧ t.basin = s.basin) ∧
  (∀ (s : State) (a b : BitVec 6) (slice off : Nat), s.issuesAlone (.keyld a b) true [.u a.toNat, .u b.toNat] [] = true →
    (s.team.u a.toNat).extractLsb' 16 48 = 0 → (s.team.u b.toNat).toNat % 64 = 0 →
    s.acquiring s.team.uid = false → s.plainPhys (s.team.u b.toNat) 64 s.team.part 1 = .ok (slice, off) → s.plainBusy slice off 64 = false →
    s.plainPoisoned slice off 64 = false → s.watched = [] → s.team.part < 32 →
    let i := ((s.team.u a.toNat).extractLsb' 0 16).toNat
    ∃ t, exec (.keyld a b) s = .next t ∧ t.plainRead slice off 64 = List.replicate 64 0 ∧ PlainKept s t slice off 64 ∧
      (i ≠ 0 → s.keyState i = 0 ∨ s.keyState i = 3 → t.keyState i = 1 ∧ t.keyOwner i = some s.team.part ∧
        t.material (t.keyMat i) = BitVec.ofNat 512 (leNat (s.plainRead slice off 64))) ∧
      (i = 0 ∨ s.keyState i = 1 ∨ s.keyState i = 2 → t.regBit (kstatReg i) 13 = true ∧ t.keyState i = s.keyState i ∧
        t.materials = s.materials ∧ t.keyMaterial = s.keyMaterial) ∧
      t.team = { s.team with pc := s.team.pc + 4 } ∧ t.basin = s.basin ∧ t.hostMem = s.hostMem) ∧
  (∀ (s : State) (a : BitVec 6), s.issuesAlone (.keydel a) true [.u a.toNat] [] = true →
    (s.team.u a.toNat).extractLsb' 16 48 = 0 →
    let i := ((s.team.u a.toNat).extractLsb' 0 16).toNat
    (i ≠ 0 → s.keyState i = 1 → s.keyOwner i = some s.team.part → ∃ t, exec (.keydel a) s = .next t ∧
      t.team.status = .parked (.keydel i) ∧ t.keyState i = 2 ∧ mapGet 0 t.keyMaterial i = 0 ∧ t.laneCache = [] ∧ t.icache = [] ∧
      t.team.uregs = s.team.uregs ∧ t.plain = s.plain ∧ t.basin = s.basin) ∧
    (i = 0 ∨ s.keyState i = 2 ∨ (s.keyState i ≠ 0 ∧ s.keyOwner i ≠ some s.team.part) → ∃ t, exec (.keydel a) s = .next t ∧
      t.regBit (kstatReg i) 13 = true ∧ t.keyState i = s.keyState i ∧
      t = { s.after (fun x => x) with regs := t.regs }))

/-- R47, R185, R329 to R331: PQUOTA reads the quota and the use of each resource of its table, and is illegal for any other operand;
CSRR reads a register, but none of another partition; CSRW writes QSELq of its virtual device, and the scrub registers from
partition 0, and is privileged elsewhere; HALT clears RUN, posts TYPE 0x0A, and asks every resident team of its virtual device to be
pre-empted, its own after the HALT; a team that is to retire retires. What PQUOTA counts as save rows in use, and as resident, is DEDUCED:
logs 26, 28; that the scrub registers are readable from every partition is DEDUCED: log 108; when the team halts, log 27. That an offset
beyond BAR 0 counts as a reserved one is a DESIGN CHOICE: log 123. -/
def Obligations.QuotaRegistersAndHaltAct : Prop :=
  (∀ (s : State) (d a b : BitVec 6), s.issuesAlone (.pquota d a b) true [.u a.toNat, .u b.toNat] [.u d.toNat] = true →
    (∀ q u, s.quotaWord (s.team.u a.toNat) (s.team.u b.toNat) = some (q, u) → exec (.pquota d a b) s =
      .next (s.after fun t => t.setU d.toNat (BitVec.ofNat 64 (q * 2 ^ 32 + u)))) ∧
    (s.quotaWord (s.team.u a.toNat) (s.team.u b.toNat) = none → exec (.pquota d a b) s =
      .next (s.raises (.bare 0x01 (BitVec.ofNat 64 (Instr.pquota d a b).bits)))) ∧
    let names := fun (row : Nat × Nat × Nat × Nat) => (s.team.u a.toNat).toNat = row.1 ∧ (s.team.u b.toNat).toNat < 2 ^ row.2.1
    (∀ row ∈ quotaRows s (s.team.u b.toNat), names row → exec (.pquota d a b) s =
      .next (s.after fun t => t.setU d.toNat (BitVec.ofNat 64 (row.2.2.1 * 2 ^ 32 + row.2.2.2)))) ∧
    ((∀ row ∈ quotaRows s (s.team.u b.toNat), ¬names row) → exec (.pquota d a b) s =
      .next (s.raises (.bare 0x01 (BitVec.ofNat 64 (Instr.pquota d a b).bits))))) ∧
  (∀ (s : State) (d a : BitVec 6), s.issuesAlone (.csrr d a) true [.u a.toNat] [.u d.toNat] = true →
    let off := s.team.u a.toNat
    (off.toNat % 8 = 0 → reservedOffset off.toNat = false → s.csrForbidden s.team.part off.toNat = false →
      exec (.csrr d a) s = .next (s.after fun t => t.setU d.toNat (s.barRead off.toNat))) ∧
    (off.toNat % 8 ≠ 0 ∨ reservedOffset off.toNat = true → exec (.csrr d a) s = .next (s.raises (.plain 0x01 off 0))) ∧
    (off.toNat % 8 = 0 → reservedOffset off.toNat = false → s.csrForbidden s.team.part off.toNat = true →
      exec (.csrr d a) s = .next (s.raises (.plain 0x02 off 0))) ∧
    (off.toNat % 8 = 0 → (s.csrForbidden s.team.part off.toNat = true ↔
      (∃ p < 32, p ≠ s.team.part ∧ partReg p 0 ≤ off.toNat ∧ off.toNat < partReg p 0x1000) ∨
      (∃ vd < 256, vd / 8 ≠ s.team.part ∧ vdReg vd 0 ≤ off.toNat ∧ off.toNat < vdReg vd 0x1000) ∨
      (∃ asid < 4096, (s.asidVd asid).map (· / 8) ≠ some s.team.part ∧ rootReg asid ≤ off.toNat ∧ off.toNat < rootReg asid + 16) ∨
      (∃ key < 65536, key ≠ 0 ∧ off.toNat = kstatReg key ∧ ∃ p, s.keyOwner key = some p ∧ p ≠ s.team.part))) ∧
    (off.toNat < 0x1000 ∨ (0x100000 ≤ off.toNat ∧ s.boot ≠ .minimal) → s.barRead off.toNat = s.reg off.toNat)) ∧
  (∀ (s : State) (a b : BitVec 6), s.issuesAlone (.csrw a b) true [.u a.toNat, .u b.toNat] [] = true →
    let off := s.team.u a.toNat
    let w := s.team.u b.toNat
    let only := fun (t : State) (o : Nat) => (∀ x, x ≠ o → t.reg x = s.reg x) ∧ t = { s.after (fun x => x) with regs := t.regs }
    (off.toNat % 8 ≠ 0 ∨ reservedOffset off.toNat = true → exec (.csrw a b) s = .next (s.raises (.plain 0x01 off 0))) ∧
    (off.toNat % 8 = 0 → reservedOffset off.toNat = false →
      ¬(vdReg s.team.vd 0x100 ≤ off.toNat ∧ off.toNat < vdReg s.team.vd 0x180) →
      s.team.part ≠ 0 ∨ ¬(scrReg 0 ≤ off.toNat ∧ off.toNat ≤ scrReg 2) → exec (.csrw a b) s = .next (s.raises (.plain 0x02 off 0))) ∧
    (s.team.part = 0 → s.team.vd < 256 →
      (off.toNat = scrReg 0 → ∃ t, exec (.csrw a b) s = .next t ∧ only t (scrReg 0) ∧
        t.reg (scrReg 0) = BitVec.ofNat 64 (wbits w 38 12 * 2 ^ 12)) ∧
      (off.toNat = scrReg 1 → ∃ t, exec (.csrw a b) s = .next t ∧ only t (scrReg 1) ∧
        t.reg (scrReg 1) = BitVec.ofNat 64 (wbits w 27 0)) ∧
      (off.toNat = scrReg 2 → w.getLsbD 0 = false → ∃ t, exec (.csrw a b) s = .next t ∧ only t (scrReg 2) ∧
        t.regBits (scrReg 2) 63 48 = wbits w 63 48 ∧ t.regBits (scrReg 2) 47 0 = s.regBits (scrReg 2) 47 0) ∧
      (off.toNat = scrReg 2 → w.getLsbD 0 = true →
        let base := s.regBits (scrReg 0) 38 12
        let n := s.regBits (scrReg 1) 27 0
        let refused := n = 0 ∨ 0x8000000 < base + n ∨ (wbits w 63 48 ≠ 0 ∧ s.keyState (wbits w 63 48) ≠ 3)
        (refused → ∃ t, exec (.csrw a b) s = .next t ∧ only t (scrReg 2) ∧ t.regBit (scrReg 2) 2 = true ∧
          t.regBit (scrReg 2) 1 = s.regBit (scrReg 2) 1) ∧
        (¬refused → ∃ t, exec (.csrw a b) s = .next t ∧ t.regBit (scrReg 2) 2 = false ∧ t.regBit (scrReg 2) 1 = true ∧
          (∀ x, x ∈ t.scrubMarks ↔ x ∈ s.scrubMarks ∨ (base ≤ x ∧ x < base + n)) ∧
          t = { s.after (fun x => x) with regs := t.regs, scrubMarks := t.scrubMarks })))) ∧
  (∀ (s : State) (a b : BitVec 6) (q : Nat), s.issuesAlone (.csrw a b) true [.u a.toNat, .u b.toNat] [] = true → q < 16 →
    s.team.vd < 256 → (s.team.u a.toNat).toNat = vdReg s.team.vd (0x100 + 8 * q) → ∃ t, exec (.csrw a b) s = .next t ∧
      t.reg (vdReg s.team.vd (0x100 + 8 * q)) = ((s.team.u b.toNat).extractLsb' 0 10).setWidth 64 ∧
      (∀ o, o ≠ vdReg s.team.vd (0x100 + 8 * q) → t.reg o = s.reg o) ∧ t = { s.after (fun x => x) with regs := t.regs }) ∧
  (∀ s : State, s.issuesAlone .halt true [] [] = true → (∀ x ∈ s.rest, x.uid ≠ s.team.uid) → s.team.fault = none → ∃ t, exec .halt s = .next t ∧
    t.regBit (vdReg s.team.vd 0x070) 63 = false ∧
    ((s.teams.map (·.uid)).Nodup → ∀ x ∈ t.teams, x.vd = s.team.vd → x.resident = true →
      x.status = .preempting ∨ x.status = .parked .retire) ∧
    (let posted := (s.updReg (vdReg s.team.vd 0x070) fun w => wput w 63 63 0).post (some s.team.vd) 0x0A 0 s.team.epc 0 none
     t.hostMem = posted.hostMem ∧
     (t.events.map fun e => { e with park := none }) = posted.events.map fun e => { e with park := none }) ∧
    t.team.uid = s.team.uid ∧ t.team.status = .preempting ∧
    t.team.pc = s.team.pc + 4 ∧ t.team.uregs = s.team.uregs ∧ t.team.vregs = s.team.vregs ∧ t.plain = s.plain ∧ t.basin = s.basin)

/-! ## Events of teams and of memory -/

/-- R83, R84, R92, R162, R167, R248, R349, R352, R359, R370: the events by which the waits of a team end; a head of the closure that
waits has not issued (R178), and a team whose context region needs a Millstone resumes only where its partition owns that of the mill (R183). What a
whole save waits for, the discard of a closure whose head faults then, its fault unreported, and what a saved team keeps of its traps are
DEDUCED: log 31; that its lease ends with the save: log 32; where its workgroup resumes: log 34. -/
def Obligations.TeamEventsCompleteWaits : Prop :=
  (∀ (s f : State) (uid : Nat), s.focus uid = some f →
    (∀ since n, f.team.status = .parked (.sleep since n) → 4 * n < 9 * (f.time + 1 - since) → exec (.sleepExpiry uid) s =
      .next { f with team := { f.team with status := .ready, pc := f.team.pc + 4, age := 0 } }) ∧
    (∀ c, f.team.status = .parked (.claim c) → (∀ w ∈ s.copyWaits, w.1 + 2 ^ 64 ≠ uid) → (f.team.claim c).stale = false →
      let d := (f.team.claim c).desc
      let held := fun (t : State) (base count : Nat) =>
        (t.team.claim c).state = .held ∧ (t.team.claim c).desc = d ∧ (t.team.claim c).pins = (f.team.claim c).pins ∧
        (t.team.claim c).peerBase = base ∧ (t.team.claim c).peerCount = count ∧ (∀ k, k ≠ c → t.team.claim k = f.team.claim k) ∧
        t = { f with team := { f.team.pointed with status := .ready, claims := t.team.claims, pc := f.team.pc + 4 } }
      (d.dpeer = false → ∃ t, exec (.claimHeld uid .none) s = .next t ∧ held t 0 0) ∧
      (∀ base count, d.dpeer = true → (f.peer d.pmod).1 = true → (f.anyRoute d.pmod).isSome = true →
        ∃ t, exec (.claimHeld uid (.accepted base count)) s = .next t ∧ held t base count)) ∧
    (∀ slot off len ctr, f.team.status = .parked (.flow slot off len ctr) →
      let cl := f.team.claim slot
      (cl.state = .held → f.mayFlow slot off len = true → ∃ t g, exec (.flowStart uid) s = .next t ∧ t.flows = f.flows ++ [g] ∧
        g.team = some f.team.uid ∧ g.slot = slot ∧ g.off = off ∧ g.len = len ∧ g.desc = cl.desc ∧ g.pins = cl.pins ∧
        t.weir = f.weir ++ weirEntries f.module f.team.mill g.id f.team.asid cl.desc off len ∧
        t.team.claim slot = { cl with state := .flowing } ∧ (∀ k, k ≠ slot → t.team.claim k = f.team.claim k) ∧
        t = { f with
          flows := t.flows, weir := t.weir, nextId := f.nextId + 1
          team := { f.team.pointed with status := .ready, age := 0, claims := t.team.claims, pc := f.team.pc + 4 } }) ∧
      (cl.state ≠ .held → f.flowRuns f.team.uid = false →
        exec (.flowStart uid) s = .next { f with team := { f.team with status := .ready, age := 0 } })) ∧
    (∀ e rest, f.team.closure = e :: rest → f.team.status = .ready → f.team.pendingTrap = none →
      f.holding f.team.uid = false → f.headReady e = true →
      f.team.entryTrap e = none →
      (∀ g, f.runCap e.cap e.frozen e.mask e.rm e.plot true = .ok g →
        exec (.closureRun uid) s = .next (g.age f.team).popClosure) ∧
      (∀ g, f.runCap e.cap e.frozen e.mask e.rm e.plot true = .wait g → g.team.status = f.team.status →
        exec (.closureRun uid) s = .next g) ∧
      (∀ op d a b w fl, e.cap = .uni op d a b → op.eval (Reader.usrc ⟨f.team, e.frozen⟩ a) (Reader.usrc ⟨f.team, e.frozen⟩ b) = (w, fl) →
        enabledFlags f.team.mode fl = 0 → ∃ t, exec (.closureRun uid) s = .next t ∧ t.team.u d = w ∧
          (∀ k, k ≠ d → t.team.u k = f.team.u k) ∧ t.team.flags = f.team.flags ||| BitVec.ofNat 64 fl ∧
          t.team.pc = f.team.pc ∧ t.team.closure.length = rest.length ∧ t.team.vregs = f.team.vregs ∧
          t.team.preds = f.team.preds ∧ t.plain = f.plain ∧ t.basin = f.basin)) ∧
    (∀ x m slice off, f.team.pendingTrap = some x → f.team.status = .trapping → x.trap.fmask = some m →
      f.pending f.team.uid = [] → f.frameAt slice off → f.team.stack.length ≤ 32 → ∃ t, exec (.trapEntry uid) s = .next t ∧
        t.team.level = .supervisor ∧ t.team.status = .ready ∧ t.team.pendingTrap = none ∧ t.team.epc = x.trap.epc ∧
        t.team.tval = x.trap.tval ∧ t.team.fmask = m ∧ t.team.cause = BitVec.ofNat 64 x.causeByte ∧
        t.team.mask = allLanes f.team.lanes ∧ t.team.stack = [] ∧ t.team.shelved = f.team.closure ∧ t.team.closure = [] ∧
        t.team.shelvedTrap = f.team.heldTrap ∧ t.team.heldTrap = none ∧ t.team.age = 0 ∧
        t.team.pc = BitVec.ofNat 64 (f.regBits (vdReg f.team.vd 0x040) 55 8 * 256) ∧
        t.plainRead slice off (frameSize f.team.lanes) = f.team.frameBytes ∧ PlainKept f t slice off (frameSize f.team.lanes) ∧
        t = { f with plain := t.plain, team := t.team }) ∧
    (∀ r, (∀ w ∈ s.lostRecords, w.1 ≠ uid) → f.team.status = .parked .fault → f.team.fault = some r → r.seq = none →
      let ring := faultRing f.team.vd
      let h := f.regBits ring.2.1 31 0
      f.ringRoom ring = true → ∃ t, exec (.faultRecordWrite uid) s = .next t ∧ t.team.fault = some { r with seq := some h } ∧
        t.regBits ring.2.1 31 0 = (h + 1) % 2 ^ 32 ∧
        t.hostRead (f.regBits ring.1 51 12 * 4096 + 64 * (h % max 1 (f.regBits ring.1 11 0))) 64 = faultBytes f f.team r.taken r.time h ∧
        t = { f with team := { f.team with fault := t.team.fault }, hostMem := t.hostMem, hostSeal := t.hostSeal, hostPoison := t.hostPoison, regs := t.regs }) ∧
    (∀ e rest x, f.team.closure = e :: rest → f.team.status = .preempting → f.savesWhole f.team = true →
      f.team.pendingTrap = none → f.holding f.team.uid = false → f.headReady e = true → f.team.entryTrap e = some x →
      ∃ t, exec (.closureRun uid) s = .next t ∧ t.team.closure = [] ∧ t.team.status = .preempting ∧ t.team.fault = f.team.fault ∧
        t.team.cause = f.team.cause ∧ t.team.pc = f.team.pc ∧ t.plain = f.plain ∧ t.basin = f.basin) ∧
    (∀ r slice off, f.rewindTo f.team = r → f.team.status = .preempting → f.mayBeSaved r = true →
      f.sliceStopped f.team.saveSlice = false →
      f.plainPhys f.team.contextAt f.team.contextSize f.team.part 1 = .ok (slice, off) →
      f.plainBusy slice off f.team.contextSize = false → f.watched = [] →
      let bytes := f.contextBytes f.team (f.team.kept r)
      f.plainPoisoned slice off bytes.length = false → ∃ t, exec (.preemptSave uid) s = .next t ∧
        t.team.uid = f.team.uid ∧ t.team.status = .preempted ∧ t.team.rewound = r ∧ t.team.leaseHeld = false ∧
        t.team.releasing = (f.team.releasing || f.team.leaseHeld) ∧ (r.isSome = true → t.team.closure = [] ∧ t.team.heldTrap = none ∧ t.team.pendingTrap = none) ∧
        (r = none → t.team.heldTrap = f.team.heldTrap ∧ t.team.pendingTrap = f.team.pendingTrap) ∧
        t.plainRead slice off bytes.length = bytes ∧
        PlainKept f t slice off bytes.length ∧ t.accessesOf f.team.uid = [] ∧ t.basin = f.basin ∧ t.hostMem = f.hostMem) ∧
    (∀ (wg j : Nat) (place : Placement) (g : Workgroup) (slice off : Nat), s.wgOf wg = some g → g.donations = [] →
      s.membersInOrder wg = [f.team] →
      (s.needsStone f.team = true → s.ownsStone (g.vd / 8) place.mill = false → exec (.teamResume wg place) s = .fault .notEnabled) ∧
      (s.needsStone f.team = false ∨ s.ownsStone (g.vd / 8) place.mill = true →
      place.slots = [j] → place.mill < 512 → f.team.status = .preempted →
      s.sliceStopped place.mill = false → s.holdsSlice g.vd = true → s.slotsFree (g.vd / 8) place.mill [j] = true →
      s.rowsFit (g.vd / 8) place.mill (fun w => if j / 16 = w then f.team.rows else 0) = true →
      s.plainPhys f.team.contextAt f.team.contextSize f.team.part 1 = .ok (slice, off) →
      s.bankBusy slice off f.team.contextSize = false → f.team.heldTrap = none → f.team.rewound = none → f.team.closure = [] →
      let w := fun o n => leNat (((s.plainRead slice off f.team.contextSize).drop o).take n)
      (BitVec.ofNat 64 (w 0x40 8)).getLsbD 16 = false → ∃ t x, exec (.teamResume wg place) s = .next t ∧
        t.teamOf uid = some x ∧ x.status = (if f.team.pendingTrap.isSome then .trapping else .ready) ∧
        (place.mill ≠ f.team.mill → mapGet [] t.laneCache place.mill = []) ∧ x.mill = place.mill ∧ x.wheel = j / 16 ∧ x.slot = j % 16 ∧
        x.pc = BitVec.ofNat 64 (w 8 8) ∧ x.flags = BitVec.ofNat 64 (w 0x20 8 % 64) ∧
        (1 ≤ w 0x18 8 % 8 → w 0x18 8 % 8 ≤ 5 → x.mode = BitVec.ofNat 64 (w 0x18 8 / 128 % 64 * 128 + w 0x18 8 % 8)) ∧
        (∀ i < 64, x.u i = BitVec.ofNat 64 (w (0x400 + 8 * i) 8)) ∧ t.plain = s.plain ∧ t.basin = s.basin ∧
        t.hostMem = s.hostMem))) ∧
  (∀ (s : State) (vd : Nat) (e : EventRecord), (s.events.find? fun x => x.vd == some vd) = some e →
    let ring := eventRing (some vd)
    let h := s.regBits ring.2.1 31 0
    s.ringRoom ring = true → ∃ t, exec (.eventRecordWrite vd) s = .next t ∧ t.events = s.events.erase e ∧
      t.regBits ring.2.1 31 0 = (h + 1) % 2 ^ 32 ∧
      t.hostRead (s.regBits ring.1 51 12 * 4096 + 64 * (h % max 1 (s.regBits ring.1 11 0))) 64 = e.bytes h ∧
      (e.park = none → t.team = s.team ∧ t.rest = s.rest) ∧
      t = { s with
        events := t.events, hostMem := t.hostMem, hostSeal := t.hostSeal, hostPoison := t.hostPoison, regs := t.regs, rest := t.rest
        team := { s.team with guestSeq := t.team.guestSeq } })

/-- R34, R35, R37, R41, R48 to R52, R59, R73, R105, R110, R111, R291: a request enters its bank queue, is performed or lands; a bank serves
the head of its queue; a walk, a rebuild, a promotion and the scrub of a block end. Then the turns that are no opcode: the host stores to
its memory, soft errors poison words or begin a rebuild, a line leaves a lane cache, a walker keeps or drops pointers, and a walk whose
page an invalidation covers swaps A and D in memory only. That a host store of part of a poisoned line leaves no poison there is a DESIGN
CHOICE: log 90. That a count of corrected errors wraps is DEDUCED: log 63; what a poisoned word of
a predicate register is, when a line is replaced, a pointer kept and such a swap made are DESIGN CHOICES: logs 109, 87, 7; which poison may
come beside a read is DEDUCED: log 75. -/
def Obligations.MemoryEventsServeRequests : Prop :=
  (∀ (s : State) (r : Req) (ecc : Ecc), findBy Req.id s.requests r.id = some r →
    let counted := fun (t : State) (a : Access) =>
      t.accesses = (if a.left ≤ 1 then dropBy Access.id s.accesses a.id
        else updateBy Access.id s.accesses a.id fun a => { a with left := a.left - 1 })
    (∀ slice off, r.loc = .plain slice off → r.stage = .egress → r.op.reads = true → s.bankRoom r = true →
      (slice ≠ r.mill → s.firstOnRoute r = true → exec (.memoryRequestComplete r.id ecc) s =
        .next { s with requests := dropBy Req.id s.requests r.id ++ [{ r with stage := .queued }] }) ∧
      (slice = r.mill → s.presented r.mill = some (r.access, r.swath) →
        (s.requests.filter fun x => x.atPort r.mill && x.access == r.access && x.swath == r.swath) = [r] →
        exec (.memoryRequestComplete r.id ecc) s = .next { s with
          requests := dropBy Req.id s.requests r.id ++ [{ r with stage := .queued }]
          ports := mapSet ⟨3, none⟩ s.ports r.mill ⟨r.wheel, none⟩ })) ∧
    (∀ a, findBy Access.id s.accesses r.access = some a → a.poisoned = [] → a.deferred = false → a.guest = none →
      (a.empties = true → a.left ≤ 1 → a.team = s.team.uid → s.team.isVacant = false → (∃ data, r.stage = .served data) →
        ∃ t, exec (.memoryRequestComplete r.id ecc) s = .next t ∧ mapGet [] t.laneCache s.team.mill =
          (mapGet [] s.laneCache s.team.mill).filter fun c => a.fills.contains (c.host, c.line, c.key)) ∧
      (a.empties = false →
      (∀ slice off bs, r.loc = .plain slice off → r.op = .store bs → r.stage = .egress → slice ≠ r.mill →
        s.bankRoom r = true → s.firstOnRoute r = true →
        ∃ t, exec (.memoryRequestComplete r.id ecc) s = .next t ∧ counted t a ∧
          t.requests = dropBy Req.id s.requests r.id ++ [{ r with stage := .queued }] ∧ SameMemory s t) ∧
      (∀ host pa key bypass bs s1, r.loc = .mem host pa key bypass → r.op = .store bs → r.stage = .egress →
        s.firstOnRoute r = true → s.stalls host (pa / 64 * 64) = false → ecc = .ok →
        s.memWrite host pa key bypass bs = (s1, .ok) → ∃ t, exec (.memoryRequestComplete r.id ecc) s = .next t ∧ counted t a ∧
          t.requests = dropBy Req.id s.requests r.id ∧ t.basin = s1.basin ∧ t.hostMem = s1.hostMem ∧ t.plain = s.plain) ∧
      (∀ data, r.stage = .served data → 1 < a.left → exec (.memoryRequestComplete r.id ecc) s = .next { s with
        requests := dropBy Req.id s.requests r.id
        accesses := updateBy Access.id (updateBy Access.id s.accesses r.access fun x => { x with data := x.data ++ [(r.op, data)] })
          r.access fun x => { x with left := a.left - 1, data := a.data ++ [(r.op, data)] } }) ∧
      (∀ d skip n data, r.op = .uload d skip n → r.stage = .served data → a.left = 1 → a.data = [] → a.team = s.team.uid →
        s.team.isVacant = false → ∃ t, exec (.memoryRequestComplete r.id ecc) s = .next t ∧ counted t a ∧ t.requests = dropBy Req.id s.requests r.id ∧
          t.team.u d = BitVec.ofNat 64 (leNat ((data.drop skip).take n)) ∧ (∀ k, k ≠ d → t.team.u k = s.team.u k) ∧
          t.team.vregs = s.team.vregs ∧ t.team.pc = s.team.pc ∧ SameMemory s t)))) ∧
  (∀ (s : State) (r : Req) (slice bank off : Nat), slice < 512 → bank < 32 → s.bankHead slice bank = some r →
    r.loc = .plain slice off → (∀ b ∈ banksOf off r.n, (s.bankHead slice b).map (·.id) = some r.id) →
    (∀ p ∈ s.promotions, p.waiter ≠ r.id) → r.release = false →
    (∀ bs ecc, r.op = .store bs → s.plainPoisoned slice off bs.length = false → s.watched = [] →
      ∃ t, exec (.bankServe slice bank ecc) s = .next t ∧ t.plainRead slice off bs.length = bs ∧
        PlainKept s t slice off bs.length ∧ t = { s with plain := t.plain, requests := dropBy Req.id s.requests r.id }) ∧
    (r.acquire = false → s.plainPoisoned slice off r.n = false →
      let answered := updateBy Req.id s.requests r.id fun q => { q with stage := .served (s.plainRead slice off r.n) }
      ((∃ d parts, r.op = .load d parts) ∨ (∃ d skip n, r.op = .uload d skip n) →
        exec (.bankServe slice bank .ok) s = .next { s with requests := answered } ∧
        exec (.bankServe slice bank .single) s = .next { s with
          requests := answered
          regs := (s.updReg (millReg slice) fun w => wput w 31 0 (wbits w 31 0 + 1)).regs }) ∧
      (∀ op x y ret d l, r.op = .atomic op x y ret d l → s.watched = [] →
        let new := leBytes r.n (op.apply r.n (leNat (s.plainRead slice off r.n)) x y)
        ∃ t, exec (.bankServe slice bank .ok) s = .next t ∧ t.plainRead slice off r.n = new ∧ PlainKept s t slice off r.n ∧
          t = { s with plain := t.plain, requests := answered }))) ∧
  (∀ (s s1 : State) (w : WalkReq) (e : TlbEntry), findBy WalkReq.id s.walks w.id = some w →
    { s with walks := dropBy WalkReq.id s.walks w.id }.walkInstall (.lane w.mill) w.va w.asid .load
      (((s.teamOf w.team).map Team.sup).getD false) = (s1, .leaf e) →
    exec (.walk w.id) s = .next (s1.prefetch w e)) ∧
  (∀ (s : State) (line key : Nat), (s.rebuilding.find? fun x => x.1 == line) = some (line, key) → (∀ r ∈ s.requests, r.stage ≠ .stalled) →
    s.stalledJobs = [] →
    (∃ t, exec (.basinRebuildDone line true) s = .next t ∧ t.rebuilding = s.rebuilding.filter (·.1 != line) ∧ t.basin = s.basin ∧
      t.basinPoison = s.basinPoison ∧
      mapGet 0 t.delayed (bitsOf line 10 8) = mapGet 0 s.delayed (bitsOf line 10 8) + 1 ∧ t.requests = s.requests) ∧
    (s.cleanCopies = [] → s.calmLine false line = true → s.scrubMarks.contains (line / 4096) = false → ∃ t, exec (.basinRebuildDone line false) s = .next t ∧
      t.rebuilding = s.rebuilding.filter (·.1 != line) ∧ t.basin = s.basin ∧ line ∈ t.basinPoison ∧ t.requests = s.requests)) ∧
  (∀ (s : State) (p : Promotion), findBy Promotion.id s.promotions p.id = some p →
    (p.received = false → exec (.promotionRequest p.id) s = .next { s with
      promotions := updateBy Promotion.id s.promotions p.id fun q => { q with
        received := true
        before := (s.requests.filter fun r => r.mill == p.mill && r.op.writes && !r.performed true).map (·.id) } }) ∧
    (p.received = true → (∀ id ∈ p.before, ∀ r, findBy Req.id s.requests id = some r → r.performed true = true) →
      ∃ t, exec (.promotionAnswer p.id) s = .next t ∧ t.promotions = dropBy Promotion.id s.promotions p.id ∧
        (∀ w, p.evict = some w → t.tagOf p.slice w = none) ∧
        (∀ r id data, findBy Req.id s.requests p.waiter = some r → r.stage = .promoting id data →
          (findBy Req.id t.requests p.waiter).map (·.stage) = some (.served data)) ∧
        t = { s with promotions := t.promotions, tags := t.tags, requests := t.requests })) ∧
  (∀ (s : State) (b : Nat) (bs : List Nat), s.scrubMarks = b :: bs →
    let blk := bs.foldl min b
    ∃ t, exec .scrubBlock s = .next t ∧ t.scrubMarks = s.scrubMarks.filter (· != blk) ∧
      (∀ k, mapGet unlistedByte t.basin k = if k / 4096 = blk then 0 else mapGet unlistedByte s.basin k) ∧
      (∀ e ∈ t.basinSeal, e.1 / 4096 ≠ blk) ∧ t.plain = s.plain ∧ t.team = s.team ∧
      (t.scrubMarks = [] → t.regBit (scrReg 2) 1 = false)) ∧
  (∀ (s : State) (a : Nat) (bs : List Byte), ∃ t, s.runTurn (.hostStore a bs) = .next t ∧
    t = { s with hostMem := t.hostMem, hostSeal := t.hostSeal, hostPoison := t.hostPoison } ∧
    (bs ≠ [] → a % 64 + bs.length ≤ 64 → s.hostSealOf (a / 64 * 64) = none → t.hostRead a bs.length = bs ∧
      a / 64 * 64 ∉ t.hostPoison ∧ ∀ k, ¬(a ≤ k ∧ k < a + bs.length) → mapGet unlistedByte t.hostMem k = mapGet unlistedByte s.hostMem k)) ∧
  (∀ (s f : State) (uid : Nat), s.focus uid = some f → f.team.lanes ≤ 1024 →
    (∀ reg pair, reg < f.team.regs → 2 * pair < f.team.lanes → ∃ t, s.runTurn (.upsetVector uid reg pair) = .next t ∧
      (∀ x, x ∈ t.team.vpoison ↔ x = (reg, pair) ∨ x ∈ f.team.vpoison) ∧
      (∀ r l, l < 1024 → (r, l / 2) ≠ (reg, pair) → t.team.v r l = f.team.v r l) ∧
      t = { f with draws := f.draws + 1, team := { f.team with vregs := t.team.vregs, vpoison := t.team.vpoison } }) ∧
    (∀ reg, reg < 64 → ∃ t, s.runTurn (.upsetUniform uid reg) = .next t ∧
      (∀ x, x ∈ t.team.upoison ↔ x = reg ∨ x ∈ f.team.upoison) ∧ (∀ k, k ≠ reg → t.team.u k = f.team.u k) ∧
      t = { f with draws := f.draws + 1, team := { f.team with uregs := t.team.uregs, upoison := t.team.upoison } }) ∧
    (∀ reg word, reg < 16 → 64 * word < f.team.lanes → ∃ t, s.runTurn (.upsetPredicate uid reg word) = .next t ∧
      (∀ x, x ∈ t.team.ppoison ↔ x = (reg, word) ∨ x ∈ f.team.ppoison) ∧ (∀ q, q ≠ reg → t.team.p q = f.team.p q) ∧
      (∀ l, l < f.team.lanes → l / 64 ≠ word → (t.team.p reg).getLsbD l = (f.team.p reg).getLsbD l) ∧
      t = { f with draws := f.draws + 1, team := { f.team with preds := t.team.preds, ppoison := t.team.ppoison } })) ∧
  (∀ s : State,
    (∀ mill word, mill < 512 → word < 32768 → ∃ t, s.runTurn (.upsetTile mill word) = .next t ∧
      let key := tileKey mill 0 0 + 8 * word
      key / 8 ∈ t.tilePoison ∧ (∀ k, ¬(key ≤ k ∧ k < key + 8) → mapGet 0 t.tiles k = mapGet 0 s.tiles k) ∧
      t = { s with draws := s.draws + 1, tiles := t.tiles, tilePoison := t.tilePoison }) ∧
    (∀ slice word, slice < 512 → word < 262144 →
      (s.calmPlain slice word = false → s.runTurn (.upsetPlain slice word) = .fault .notEnabled) ∧
      (s.calmPlain slice word = true → ∃ t, s.runTurn (.upsetPlain slice word) = .next t ∧
        (∀ x, x ∈ t.plainPoison ↔ x = (slice, word) ∨ x ∈ s.plainPoison) ∧ t = { s with plainPoison := t.plainPoison })) ∧
    (∀ line key, line % 64 = 0 → s.readsCells line key = true → s.stalls false line = false →
      s.runTurn (.basinError line key) = .next { s with rebuilding := (line, key) :: s.rebuilding }) ∧
    (∀ mill, mill < 512 → ∃ t, s.runTurn (.corrected mill) = .next t ∧
      t.regBits (millReg mill) 31 0 = (s.regBits (millReg mill) 31 0 + 1) % 2 ^ 32 ∧
      (∀ o, o ≠ millReg mill → t.reg o = s.reg o) ∧ t = { s with regs := t.regs }) ∧
    (∀ mill host line key c, s.laneLine mill host line key = some c →
      let set := s.setLines mill host line
      (c.keep = false ∨ (∀ x ∈ set, x.keep = true) → c ∈ set → ∃ t, s.runTurn (.replaceLine mill host line key) = .next t ∧
        mapGet [] t.laneCache mill = (mapGet [] s.laneCache mill).erase c ∧
        (∀ m, m ≠ mill → mapGet [] t.laneCache m = mapGet [] s.laneCache m) ∧ t = { s with laneCache := t.laneCache }) ∧
      (c.keep = true → (∃ x ∈ set, x.keep = false) → s.runTurn (.replaceLine mill host line key) = .fault .notEnabled)) ∧
    (∀ die asid va, (∃ t, s.runTurn (.keepPointer die asid va) = .next t ∧ t = { s with ptrCache := t.ptrCache } ∧
        ∀ p ∈ s.ptrCache, p ∈ t.ptrCache) ∧
      ∃ t, s.runTurn (.dropPointer die asid) = .next t ∧ t = { s with ptrCache := t.ptrCache } ∧
        ∀ p, p ∈ t.ptrCache ↔ p ∈ s.ptrCache ∧ ¬(p.die = die ∧ p.asid = asid)) ∧
    (∀ die asid va acc sup t, s.runTurn (.walkSwap die asid va acc sup) = .next t →
      t = (s.walk die va asid acc sup).1 ∧ t.team = s.team ∧ (∀ r, t.tlb r = s.tlb r) ∧ t.plain = s.plain ∧
      ∃ lvl a w0 w1, s.walkDown va (s.walkStart die asid va).1 (s.walkStart die asid va).2 = .ok (lvl, a, w0, w1) ∧
        t.tableWord a ≠ w0 ∧ ∃ v ∈ s.invalidations, v.scope.covers (s.entryOf va asid lvl w0 w1) = true))

/-- R52, R55 to R57, R372: the steps of a migration, each of which waits for a line under rebuild: the new frame holds the page's bytes, the leaf names the new frame after the swap, and
how its state, the frame ring and the clean-copy table go on; a capacity page that the host frees is no clean copy any more, which is
DEDUCED: log 105. What ends a migration whose leaf has changed is DEDUCED: log 49. -/
def Obligations.MigrationEventsMoveOnePage : Prop :=
  (∀ (s : State) (m : Migration), findBy Migration.id s.migrations m.id = some m →
    let now := fun (t : State) => (findBy Migration.id t.migrations m.id).map (·.state)
    let cons := fun (t : State) => t.regBits (vdReg m.vd 0x0F8) 47 32
    let removed := fun (t : State) => (t.invalidations.getLast?.map (·.owner)) = some (.migration m.id) ∧
      ∀ r, ∀ e ∈ t.tlb r, e.covers m.asid m.page = false
    let gone := fun (t : State) => t.migrations = dropBy Migration.id s.migrations m.id
    let line := fun (u : State) (host : Bool) (frame i : Nat) => u.memRead host (frame + 64 * i) m.key false 64
    let sound := s.scrubMarks = [] ∧ (∀ i < 1024, (line s m.capacity m.oldFrame i).2 = .ok) ∧
      (∀ i < 1024, s.stackStopped (m.newFrame + 64 * i) = false) ∧ m.oldFrame % 65536 = 0 ∧ m.newFrame % 65536 = 0 ∧
      (m.capacity = true ∨ m.oldFrame ≠ m.newFrame)
    let copied := fun (t : State) => ∀ i < 1024, line t false m.newFrame i = line s m.capacity m.oldFrame i
    let leafSound := s.scrubMarks = [] ∧ m.leafAt % 8 = 0 ∧ (s.basinRead (m.leafAt / 64 * 64) 0).2 = .ok ∧
      m.leafAt / 65536 * 65536 ≠ m.newFrame ∧ m.newFrame % 65536 = 0 ∧ m.newFrame < 2 ^ 52
    let swapped := fun (t : State) => bitsOf (t.tableWord m.leafAt) 51 16 * 65536 = m.newFrame ∧
      bitsOf (t.tableWord m.leafAt) 7 5 = 0 ∧ bitOf (t.tableWord m.leafAt) (if m.onTouch then 13 else 14) = false ∧
      bitOf (t.tableWord m.leafAt) 11 = false
    (m.onTouch = true → m.state = .copying → s.pageStalls m = false →
      (sameLeaf (s.tableWord m.leafAt) m.word0 = true → ∃ t, exec (.migrateOnTouchCopyDone m.id) s = .next t ∧
        now t = some .switching ∧ removed t ∧ t.plain = s.plain ∧ (leafSound → swapped t ∧ (sound → copied t))) ∧
      (sameLeaf (s.tableWord m.leafAt) m.word0 = false → ∃ t, exec (.migrateOnTouchCopyDone m.id) s = .next t ∧ gone t ∧
        (∀ x ∈ t.teams, x.status ≠ .parked (.migration m.id)) ∧ cons t = (cons s + 65535) % 65536 ∧ t.plain = s.plain ∧
        t.basin = s.basin)) ∧
    (∀ v, s.drainedFor (.migration m.id) = some v →
      (m.onTouch = true → m.state = .switching → ∃ t, exec (.migrateOnTouchInvalAck m.id) s = .next t ∧ gone t ∧
        t.cleanCopies.getLast? = some (m.newFrame, m.oldFrame) ∧ (∀ x ∈ t.teams, x.status ≠ .parked (.migration m.id)) ∧
        t.invalidations = dropBy Invalidation.id s.invalidations v.id ∧ SameMemory s t) ∧
      (m.onTouch = false → m.state = .copying → s.pageStalls m = false →
        (m.marked = false → ∃ t, exec (.optMigrationCopyDone m.id) s = .next t ∧ now t = some .switching ∧
          t.invalidations = dropBy Invalidation.id s.invalidations v.id ∧ t.plain = s.plain ∧ (sound → copied t)) ∧
        (m.marked = true → m.attempts < 4 → ∃ t, exec (.optMigrationCopyDone m.id) s = .next t ∧ now t = some .copying ∧
          ((findBy Migration.id t.migrations m.id).map fun x => (x.attempts, x.marked)) = some (m.attempts + 1, false) ∧
          removed t ∧ t.plain = s.plain) ∧
        (m.marked = true → 4 ≤ m.attempts → ∃ t, exec (.optMigrationCopyDone m.id) s = .next t ∧ gone t ∧
          cons t = (cons s + 65535) % 65536 ∧ t.plain = s.plain)) ∧
      (m.onTouch = false → m.state = .draining → ∃ t, exec (.optMigrationDrainAck m.id) s = .next t ∧ gone t ∧
        (m.capacity = true → t.cleanCopies.getLast? = some (m.newFrame, m.oldFrame)) ∧
        (m.capacity = false → t.cleanCopies = s.cleanCopies) ∧
        t.invalidations = dropBy Invalidation.id s.invalidations v.id ∧ t.plain = s.plain ∧ t.basin = s.basin)) ∧
    (s.pageStalls m = true →
      (m.onTouch = true → m.state = .copying → exec (.migrateOnTouchCopyDone m.id) s = .fault .notEnabled) ∧
      (m.onTouch = false → m.state = .copying → exec (.optMigrationCopyDone m.id) s = .fault .notEnabled) ∧
      (m.onTouch = false → m.state = .switching → exec (.optMigrationSwapDone m.id) s = .fault .notEnabled)) ∧
    (m.onTouch = false → m.state = .switching → s.pageStalls m = false →
      let w := s.tableWord m.leafAt
      (sameLeaf w m.word0 = true → m.marked = false → bitOf w 11 = false →
        ∃ t, exec (.optMigrationSwapDone m.id) s = .next t ∧ now t = some .draining ∧ removed t ∧ t.plain = s.plain ∧
          (leafSound → swapped t)) ∧
      (sameLeaf w m.word0 = true → m.marked = true ∨ bitOf w 11 = true → m.attempts < 4 →
        ∃ t, exec (.optMigrationSwapDone m.id) s = .next t ∧ now t = some .copying ∧ removed t ∧ t.plain = s.plain) ∧
      (sameLeaf w m.word0 = false → ∃ t, exec (.optMigrationSwapDone m.id) s = .next t ∧ gone t ∧
        cons t = (cons s + 65535) % 65536 ∧ t.plain = s.plain ∧ t.basin = s.basin))) ∧
  (∀ (s : State) (vd : Nat),
    let ring := s.reg (vdReg vd 0x0F0)
    let idx := s.reg (vdReg vd 0x0F8)
    let e := leNat (s.hostRead (wbits ring 51 12 * 4096 + 16 * (wbits idx 15 0 % max 1 (wbits ring 11 0))) 8)
    let taken := s.setReg (vdReg vd 0x0F8) (wput idx 15 0 (wbits idx 15 0 + 1))
    vd < 256 → ring.getLsbD 63 = true → wbits idx 15 0 ≠ wbits idx 31 16 →
    (s.moveStalls vd (bitsOf e 11 0) (bitsOf e 55 16 * 65536) = true → exec (.migrationCommand vd) s = .fault .notEnabled) ∧
    (s.moveStalls vd (bitsOf e 11 0) (bitsOf e 55 16 * 65536) = false →
    ∃ t, exec (.migrationCommand vd) s = .next t ∧ t.regBits (vdReg vd 0x0F8) 15 0 = (wbits idx 15 0 + 1) % 65536 ∧
      t.plain = s.plain ∧
      (∀ a w key frame s2, s.migrations = [] → taken.movable vd (bitsOf e 11 0) (bitsOf e 55 16 * 65536) = some (a, w, key) →
        State.takeFrame vd 65536 taken = (s2, some frame) →
        (t.migrations.map fun m => (m.vd, m.asid, m.page, m.onTouch, m.state, m.attempts, m.newFrame)) =
          [(vd, bitsOf e 11 0, bitsOf e 55 16 * 65536, false, MigState.copying, 1, frame)]))) ∧
  (∀ (s : State) (page : Nat), ∃ t, s.runTurn (.freeCapacity page) = .next t ∧
    (∀ c, c ∈ t.cleanCopies ↔ c ∈ s.cleanCopies ∧ c.2 / 65536 ≠ page / 65536) ∧ t = { s with cleanCopies := t.cleanCopies })

/-! ## What the host writes -/

/-- R18, R19, R30, R74, R119 to R122, R147, R360, R368, R369, R377: the host's stores to the tables of the module, in a start that is not
minimal; a refused EN sets REF and nothing else but the fields. That the rows a partition takes from another read as unwritten is a
DESIGN CHOICE: log 100; so is that a submission being read keeps a partition busy: log 99; that a region being enabled counts as enabled for
the check of another is DEDUCED: log 102. What a store of 4 bytes does to the other half of a register is DEDUCED: log 61; how a write of PWIN, a root
and VDSTEP takes its fields is DEDUCED: logs 23, 24, 60. -/
def Obligations.HostTableWritesChangeOneEntry : Prop :=
  ∀ s : State, s.boot ≠ .minimal →
    let only := fun (t : State) (o : Nat) => (∀ x, x ≠ o → t.reg x = s.reg x) ∧ t = { s with regs := t.regs }
    (∀ (p : Nat) (w : Word), p < 32 →
      let refused := s.windowRefused p (wbits w 8 0) (wbits w 25 16)
      let row := fun (k : Nat) => k % 2097152 / 4096
      let taken := fun (k : Nat) => wbits w 8 0 ≤ row k ∧ row k < wbits w 8 0 + wbits w 25 16 ∧ mapGet 0 s.rowOwner (row k) ≠ p + 1
      ((s.window p).1 = false → w.getLsbD 31 = false ∨ refused = true → ∃ t, exec (.pwinWrite p w) s = .next t ∧ only t (partReg p 0) ∧
        t.window p = (false, wbits w 8 0, wbits w 25 16) ∧ t.regBit (partReg p 0) 30 = w.getLsbD 31) ∧
      ((s.window p).1 = false → w.getLsbD 31 = true → refused = false → ∃ t, exec (.pwinWrite p w) s = .next t ∧
        t.window p = (true, wbits w 8 0, wbits w 25 16) ∧ t.regBit (partReg p 0) 30 = false ∧
        (∀ o, o ≠ partReg p 0 → t.reg o = s.reg o) ∧
        (∀ k, taken k → mapGet unlistedByte t.plain k = unlistedByte) ∧
        (∀ k, ¬taken k → mapGet unlistedByte t.plain k = mapGet unlistedByte s.plain k) ∧
        t = { s with regs := t.regs, plain := t.plain, plainPoison := t.plainPoison, rowOwner := t.rowOwner }) ∧
      exec (.registerWrite (partReg p 0 + 4) 4 w) s = .next s ∧
      ((s.window p).1 = true → w.getLsbD 31 = true ∨ s.partitionBusy p = true → exec (.pwinWrite p w) s = .next s) ∧
      ((s.window p).1 = true → w.getLsbD 31 = false → s.partitionBusy p = false → ∃ t, exec (.pwinWrite p w) s = .next t ∧
        only t (partReg p 0) ∧ t.window p = (false, (s.window p).2))) ∧
    (∀ (a : Nat) (w : Word), a < 4096 →
      let en := s.regBit (rootReg a) 63
      (∃ t, exec (.addressSpaceRootWrite a false w) s = .next t ∧ only t (rootReg a) ∧
        t.regBits (rootReg a) 51 17 = wbits w 51 17 ∧
        t.regBit (rootReg a) 63 = (w.getLsbD 63 && (en || (a != 0 && wbits w 11 0 == a)))) ∧
      (en = true → exec (.addressSpaceRootWrite a true w) s = .next s) ∧
      (en = false → ∃ t, exec (.addressSpaceRootWrite a true w) s = .next t ∧ only t (rootReg a + 8) ∧
        t.reg (rootReg a + 8) = (w.extractLsb' 0 8).setWidth 64)) ∧
    (∀ (vd : Nat) (w : Word), vd < 256 →
      let refused := s.stepRefused vd (wbits w 47 32) (wbits w 31 16)
      let q := s.reg (vdReg vd 0x058)
      let grants := fun n => ((s.stepMembers vd).filter (· != s.module)).map fun m =>
        Message.grant m vd n (wbits q 31 16) (wbits q 15 0)
      (s.stepEn vd = false → w.getLsbD 63 = false ∨ refused = true → ∃ t, exec (.vdstepWrite vd w) s = .next t ∧
        only t (vdReg vd 0x050) ∧ t.stepEn vd = false ∧ t.regBits (vdReg vd 0x050) 47 16 = wbits w 47 16 ∧
        (w.getLsbD 63 = true → t.regBit (vdReg vd 0x050) 62 = true)) ∧
      (s.stepEn vd = false → w.getLsbD 63 = true → refused = false → ∃ t, exec (.vdstepWrite vd w) s = .next t ∧
        t.stepEn vd = true ∧ t.regBit (vdReg vd 0x050) 62 = false ∧ t.committed vd = 0 ∧ t.complete vd = 0 ∧ t.lseqOf vd = 0 ∧
        (∀ b ∈ t.boundaries, b.vd ≠ vd) ∧ t.outbox = s.outbox ++ grants 1 ++ grants 2 ∧
        t.team = s.team ∧ t.rest = s.rest ∧ SameMemory s t) ∧
      (s.stepEn vd = true → w.getLsbD 63 = true ∨ (∃ x ∈ s.teams, x.vd = vd ∧ x.resident = true) →
        exec (.vdstepWrite vd w) s = .next s) ∧
      (s.stepEn vd = true → w.getLsbD 63 = false → (∀ x ∈ s.teams, x.vd = vd → x.resident = false) →
        ∃ t, exec (.vdstepWrite vd w) s = .next t ∧ t.stepEn vd = false ∧ t.stepFail vd = false ∧
        (∀ b ∈ t.boundaries, b.vd ≠ vd) ∧ t.team = s.team ∧ SameMemory s t)) ∧
    (∀ (g : Nat) (w : Word), g < 256 → s.enabling.contains g = false →
      let off := regionReg g 0
      (s.regBit off 63 = false → ∃ t, exec (.stepRegionWrite g 1 w) s = .next t ∧ only t (off + 8) ∧
        t.reg (off + 8) = (w.extractLsb' 0 8).setWidth 64) ∧
      (s.regBit off 63 = true → exec (.stepRegionWrite g 1 w) s = .next s ∧ ∃ t, exec (.stepRegionWrite g 0 w) s = .next t ∧
        only t off ∧ t.regBit off 63 = w.getLsbD 63 ∧ t.regBits off 60 0 = s.regBits off 60 0 ∧
        t.regBit off 62 = (s.regBit off 62 && !w.getLsbD 62) ∧ t.regBit off 61 = (s.regBit off 61 && !w.getLsbD 61)) ∧
      (s.regBit off 63 = false → w.getLsbD 63 = false → ∃ t, exec (.stepRegionWrite g 0 w) s = .next t ∧ only t off ∧
        t.regBit off 63 = false ∧ t.regBits off 60 56 = wbits w 60 56 ∧ t.regBits off 38 16 = wbits w 38 16 ∧
        t.regBits off 15 0 = wbits w 15 0) ∧
      (s.regBit off 63 = false → w.getLsbD 63 = true → s.regionIgnored g w = true → exec (.stepRegionWrite g 0 w) s = .next s) ∧
      (s.regBit off 63 = false → w.getLsbD 63 = true → s.regionIgnored g w = false →
        ∃ t, exec (.stepRegionWrite g 0 w) s = .next t ∧ t.enabling = g :: s.enabling ∧
        (t.invalidations.getLast?.map (·.owner)) = some (.region g) ∧ t.regBits off 38 16 = wbits w 38 16 ∧
        t.regBits off 15 0 = wbits w 15 0 ∧ SameMemory s t)) ∧
    (∀ (g : Nat) (v : Invalidation), g < 256 → s.drainedFor (.region g) = some v →
      ∃ t, exec (.stepRegionEnableDone g) s = .next t ∧ t.regBit (regionReg g 0) 63 = true ∧
        t.enabling = s.enabling.filter (· != g) ∧ t.invalidations = dropBy Invalidation.id s.invalidations v.id ∧ SameMemory s t ∧
        ∀ i ∈ t.images, ¬(s.regBits (regionReg g 0) 38 16 * 65536 ≤ i.line ∧
          i.line < (s.regBits (regionReg g 0) 38 16 + s.regBits (regionReg g 0) 15 0) * 65536)) ∧
    (∀ (vd q : Nat) (w : Word), vd < 256 → q < 16 →
      let off := lqReg vd q 0
      let ctl := s.reg (lqReg vd q 0x10)
      let refused := wbits ctl 15 0 = 0 ∨ s.ownsAsid vd (wbits ctl 43 32) = false
      let tail := leNat (s.hostRead (s.regBits (lqReg vd q 0x08) 51 6 * 64) 4)
      (s.regBit off 63 = false → w.getLsbD 63 = false ∨ refused → ∃ t, exec (.lqbaseWrite vd q w) s = .next t ∧ only t off ∧
        t.regBit off 63 = false ∧ t.regBits off 55 12 = wbits w 55 12 ∧ (w.getLsbD 63 = true → t.regBit off 62 = true)) ∧
      (s.regBit off 63 = false → w.getLsbD 63 = true → ¬refused → tail ≤ wbits ctl 15 0 →
        ∃ t, exec (.lqbaseWrite vd q w) s = .next t ∧ t.regBit off 63 = true ∧ t.regBits off 55 12 = wbits w 55 12 ∧
        t.reg (lqReg vd q 0x18) = 0 ∧ t.tailOf vd q = tail ∧ t = { s with regs := t.regs, tails := t.tails }) ∧
      (s.regBit off 63 = true → w.getLsbD 63 = true → exec (.lqbaseWrite vd q w) s = .next s) ∧
      (s.regBit off 63 = true → w.getLsbD 63 = false → ∃ t, exec (.lqbaseWrite vd q w) s = .next t ∧ t.regBit off 63 = false ∧
        t.regBits off 62 0 = s.regBits off 62 0 ∧ t = { s with regs := t.regs, fabricQueue := t.fabricQueue })) ∧
    (∀ (vd : Nat) (w : Word), vd < 256 → ∃ t, exec (.vdtbaseWrite vd w) s = .next t ∧ t.reg (vdReg vd 0x0B8) = w ∧
      (mapGet 0 t.drefs vd).toNat = s.clockOf vd % 2 ^ 64 ∧ t = { s with regs := t.regs, drefs := t.drefs }) ∧
    (∀ m, m < 4096 → ∃ t, exec (.peerUpSet m) s = .next t ∧ t.peer m = (true, (s.peer m).2) ∧ only t (peerReg m)) ∧
    (∀ (m : Nat) (alt : Bool) (w : Word), m < 4096 →
      let new := s.setReg (routeReg m alt) (BitVec.ofNat 64 (wbits w 63 63 * 2 ^ 63 + wbits w 34 0))
      (m = s.module ∨ (new.anyRoute m).isSome = true → exec (.routeWrite m alt w) s = .next new) ∧
      (m ≠ s.module → new.anyRoute m = none → exec (.routeWrite m alt w) s = .next ((new.severMember m 4).losePeer m))) ∧
    (∀ (off n : Nat) (w : Word), n ∉ [4, 8] ∨ off % n ≠ 0 → exec (.registerWrite off n w) s = .next s) ∧
    (∀ (off n : Nat) (w : Word), n ∈ [4, 8] → off % n = 0 → reservedOffset off = true → s.regionBusy off = false →
      exec (.registerWrite off n w) s = .next s) ∧
    (∀ row ∈ plainHostRegisters, ∀ w : Word, ∃ t, exec (.registerWrite row.1 8 w) s = .next t ∧ only t row.1 ∧
      ∀ i < 64, (t.reg row.1).getLsbD i = (w.getLsbD i && row.2.any fun f => decide (f.2 ≤ i ∧ i ≤ f.1))) ∧
    (∀ (vd : Nat) (w : Word), vd < 256 → s.stepEn vd = true → ∀ o ∈ [0x058, 0x060], ∀ x ∈ [(o, 8), (o, 4), (o + 4, 4)],
      ∃ t, exec (.registerWrite (vdReg vd x.1) x.2 w) s = .next t ∧ (∀ o, t.reg o = s.reg o) ∧ t = { s with regs := t.regs }) ∧
    (∀ (vd : Nat) (w : Word), vd < 256 → ∀ row ∈ plainDeviceFields, (row.1 = 0x058 ∨ row.1 = 0x060 → s.stepEn vd = false) →
      let off := vdReg vd row.1
      let writable := fun i => row.2.any fun f => decide (f.2 ≤ i ∧ i ≤ f.1)
      (∃ t, exec (.registerWrite off 8 w) s = .next t ∧ only t off ∧
        ∀ i < 64, (t.reg off).getLsbD i = if writable i then w.getLsbD i else s.regBit off i) ∧
      (∃ t, exec (.registerWrite off 4 w) s = .next t ∧ only t off ∧
        ∀ i < 64, (t.reg off).getLsbD i = if writable i && decide (i < 32) then w.getLsbD i else s.regBit off i) ∧
      (∃ t, exec (.registerWrite (off + 4) 4 w) s = .next t ∧ only t off ∧
        ∀ i < 64, (t.reg off).getLsbD i = if writable i && decide (32 ≤ i) then w.getLsbD (i - 32) else s.regBit off i))

/-- R45, R48, R68, R69, R71, R72, R186, R327, R328, R354, R373, R374, R381: the host's commands and what ends them; minimal mode
ignores them. The destroy of an index that holds no material, the instruction that CONTINUE passes over and the wait of a RETIRE are
DEDUCED: logs 21, 29, 35. -/
def Obligations.HostCommandsDoTheirCommand : Prop :=
  (∀ s : State, s.boot = .minimal → CommandsIgnored s) ∧
  (∀ s : State, s.boot ≠ .minimal →
    (∀ key : BitVec 16,
      let base := s.regBits (scrReg 0) 38 12
      let n := s.regBits (scrReg 1) 27 0
      let refused := n = 0 ∨ 0x8000000 < base + n ∨ (key ≠ 0 ∧ s.keyState key.toNat ≠ 3)
      (refused → ∃ t, exec (.scrctlGo key) s = .next t ∧ t.regBit (scrReg 2) 2 = true ∧
        t.regBit (scrReg 2) 1 = s.regBit (scrReg 2) 1 ∧ t = { s with regs := t.regs }) ∧
      (¬refused → ∃ t, exec (.scrctlGo key) s = .next t ∧ t.regBit (scrReg 2) 2 = false ∧ t.regBit (scrReg 2) 1 = true ∧
        (∀ b, b ∈ t.scrubMarks ↔ b ∈ s.scrubMarks ∨ (base ≤ b ∧ b < base + n)) ∧
        t = { s with regs := t.regs, scrubMarks := t.scrubMarks })) ∧
    (∀ (vd : Nat) (page : Word) (asid : BitVec 12), vd < 256 →
      let off := vdReg vd 0x048
      let begun := fun (t : State) => t.regBit off 63 = true ∧ t.regBit off 62 = false ∧
        (t.invalidations.getLast?.map fun v => (v.id, v.owner)) = some (s.nextId, .host vd) ∧
        t.invalidations.length = s.invalidations.length + 1 ∧ SameMemory s t
      let refused := fun (t : State) => t.regBit off 62 = true ∧ t.regBit off 63 = s.regBit off 63 ∧ t = { s with regs := t.regs }
      (s.regBit off 63 = false → s.ownsAsid vd asid.toNat = true →
        (∃ t, exec (.invcmdOnePage vd page asid) s = .next t ∧ begun t ∧
          ∀ r, ∀ e ∈ t.tlb r, e.covers asid.toNat (wbits page 55 16 * 65536) = false) ∧
        (∃ t, exec (.invcmdAsid vd asid) s = .next t ∧ begun t ∧ ∀ r, ∀ e ∈ t.tlb r, e.asid ≠ asid.toNat)) ∧
      (s.regBit off 63 = true ∨ s.ownsAsid vd asid.toNat = false →
        (∃ t, exec (.invcmdOnePage vd page asid) s = .next t ∧ refused t) ∧
        (∃ t, exec (.invcmdAsid vd asid) s = .next t ∧ refused t)) ∧
      (s.regBit off 63 = false → ∃ t, exec (.invcmdVirtualDevice vd) s = .next t ∧ begun t ∧
        ∀ r, ∀ e ∈ t.tlb r, e.asid < 4096 → s.asidVd e.asid ≠ some vd) ∧
      (s.regBit off 63 = true → ∃ t, exec (.invcmdVirtualDevice vd) s = .next t ∧ refused t)) ∧
    (∀ (p : Nat) (i : BitVec 16), p < 32 →
      (s.regBit kcmdReg 63 = true → exec (.kcmdLoad p i) s = .next s ∧ exec (.kcmdDestroy p i) s = .next s) ∧
      (s.regBit kcmdReg 63 = false → i ≠ 0 → s.keyState i.toNat = 0 ∨ s.keyState i.toNat = 3 →
        ∃ t, exec (.kcmdLoad p i) s = .next t ∧ t.keyState i.toNat = 1 ∧ t.keyOwner i.toNat = some p ∧
        t.material (t.keyMat i.toNat) = BitVec.ofNat 512 s.kmat ∧ t.kmat = 0 ∧ t.regBit kcmdReg 63 = false ∧ SameMemory s t) ∧
      (s.regBit kcmdReg 63 = false → i = 0 ∨ s.keyState i.toNat = 1 ∨ s.keyState i.toNat = 2 →
        ∃ t, exec (.kcmdLoad p i) s = .next t ∧ t.regBit (kstatReg i.toNat) 13 = true ∧ t.keyState i.toNat = s.keyState i.toNat ∧
        t.keyMaterial = s.keyMaterial ∧ t.kmat = 0 ∧ t.regBit kcmdReg 63 = false ∧ SameMemory s t) ∧
      (s.regBit kcmdReg 63 = false → i ≠ 0 → s.keyState i.toNat = 1 → s.keyOwner i.toNat = some p →
        ∃ t, exec (.kcmdDestroy p i) s = .next t ∧ t.keyState i.toNat = 2 ∧ t.hostDestroy = some i.toNat ∧
        t.regBit kcmdReg 63 = true ∧ mapGet 0 t.keyMaterial i.toNat = 0 ∧ t.laneCache = [] ∧ t.icache = [] ∧ SameMemory s t)) ∧
    (∀ (vd : Nat) (n : BitVec 32) (r : FaultRecord), vd < 256 → s.team.vd = vd → s.team.status = .parked .fault →
      s.team.fault = some r → r.seq = some n.toNat → s.team.heldTrap = none → s.team.pendingTrap = none →
      let goes := fun (t : State) (pc : Word) =>
        t.team.status = (if s.team.closure.isEmpty then .ready else .draining none) ∧ t.team.fault = none ∧ t.team.pc = pc ∧
        t.team.uregs = s.team.uregs ∧ t.team.vregs = s.team.vregs ∧ t.team.preds = s.team.preds ∧
        t.team.closure.length = s.team.closure.length
      (r.taken.deferred = false →
        (∃ t, exec (.vdfrespReissue vd n) s = .next t ∧ goes t s.team.pc ∧ SameMemory s t) ∧
        (r.taken.trap.done = true → ∃ t, exec (.vdfrespContinue vd n) s = .next t ∧ goes t s.team.pc ∧ SameMemory s t) ∧
        (r.taken.trap.done = false → r.taken.trap.epc.getLsbD 0 = true → exec (.vdfrespContinue vd n) s =
          .next ({ s with team := { s.team with fault := none, pc := r.taken.trap.epc } }.takeTrap
            ⟨{ Trap.bare 0x06 r.taken.trap.epc with epc := r.taken.trap.epc }, false⟩)) ∧
        (∀ s1 h, r.taken.trap.done = false → r.taken.trap.epc.getLsbD 0 = false →
          { s with team := { s.team with fault := none } }.fetchHalf r.taken.trap.epc.toNat = (s1, .ok h) →
          s1.team = { s.team with fault := none } → ∃ t, exec (.vdfrespContinue vd n) s = .next t ∧
            goes t (r.taken.trap.epc + BitVec.ofNat 64 (lengthOf h)) ∧ SameMemory s1 t)) ∧
      (s.mayRetire s.team.uid = false → s.rest = [] → ∃ t, exec (.vdfrespRetire vd n) s = .next t ∧
        t.team.status = .parked .retire ∧ t.team.fault = none ∧ t.team.closure = [] ∧ SameMemory s t) ∧
      (s.mayRetire s.team.uid = true → s.rest = [] → s.wgOf s.team.wg = none →
        ∃ t, exec (.vdfrespRetire vd n) s = .next t ∧ t.team = Team.vacant ∧ SameMemory s t)) ∧
    (∀ (vd : Nat) (n : BitVec 32), vd < 256 → s.team.vd = vd → s.team.guestSeq = some n.toNat →
      (∀ pc, s.team.status = .parked (.guest (some pc)) → s.team.heldTrap = none → s.team.pendingTrap = none → s.team.drains = false →
        ∃ t, exec (.vdcmdResume vd n) s = .next t ∧
        t.team = { s.team with guestSeq := none, status := .ready, age := 0 } ∧ t = { s with team := t.team, rest := t.rest }) ∧
      (s.team.status = .parked .shadow → ∃ t, exec (.vdcmdResume vd n) s = .next t ∧
        t.team = { s.team.pointed with guestSeq := none, status := .ready, pc := s.team.pc + 4, age := 0 } ∧
        t = { s with team := t.team, rest := t.rest })) ∧
    (∀ vd, vd < 256 →
      (s.holdsSlice vd = false → exec (.vdcmdPreempt vd) s = .next s) ∧
      (s.holdsSlice vd = true → s.rest = [] → s.team.vd = vd → s.team.status = .ready → s.team.fault = none →
        ∃ t, exec (.vdcmdPreempt vd) s = .next t ∧ t.team.status = .preempting ∧ t.team.pc = s.team.pc ∧
        (t.slice (vd / 8)).preemptAsked = true ∧ (∀ c, (t.team.claim c).state ≠ .held) ∧ t.team.uregs = s.team.uregs ∧
        t.team.vregs = s.team.vregs ∧ t.regs = s.regs ∧ SameMemory s t))) ∧
  (∀ (s : State) (i : Nat), i < 65536 → s.keyState i = 2 → ∃ t, exec (.keyRetire i) s = .next t ∧ t.keyState i = 3 ∧
    (s.team.status = .parked (.keydel i) →
      t.team = { s.team.pointed with status := .ready, pc := s.team.pc + 4, age := 0 }) ∧
    (s.hostDestroy = some i → t.regBit kcmdReg 63 = false ∧ t.kmat = 0 ∧ t.hostDestroy = none) ∧ SameMemory s t) ∧
  (∀ (s : State) (v : Invalidation), findBy Invalidation.id s.invalidations v.id = some v → s.drained v = true →
    (∀ vd, vd < 256 → v.owner = .host vd → ∃ t, exec (.invalidationAcknowledge v.id) s = .next t ∧
      t.invalidations = dropBy Invalidation.id s.invalidations v.id ∧ t.regBit (vdReg vd 0x048) 63 = false ∧
      t.team = s.team ∧ t.plain = s.plain ∧ t.basin = s.basin) ∧
    (v.owner = .team s.team.uid → s.team.status = .parked (.invalidation v.id) →
      s.regBit (vdReg s.team.vd 0x040) 1 = false → ∃ t, exec (.invalidationAcknowledge v.id) s = .next t ∧
      t.invalidations = dropBy Invalidation.id s.invalidations v.id ∧
      t.team = { s.team.pointed with status := .ready, pc := s.team.pc + 4, age := 0 } ∧ SameMemory s t))

/-! ## Fabric, supersteps and collectives -/

/-- R74, R84, R91, R93, R376 to R379: what the fabric brings; among the turns that are no opcode, a chunk of another module's flow, and
the loss of a route that claims copied and the table holds no more. What a chunk carries and where it is counted is DEDUCED: log 64; that
it waits for the writes that the banks have queued is DEDUCED: log 70. -/
def Obligations.FabricEventsActOnTheirPort : Prop :=
  (∀ (s : State) (m : Nat), m < 4096 →
    ((s.peer m).1 = false → exec (.peerDown m) s = .next s) ∧
    ((s.peer m).1 = true → s.flows = [] → s.colls = [] → s.requests = [] → (∀ vd < 256, s.stepEn vd = false) →
      ∃ t, exec (.peerDown m) s = .next t ∧ t.peer m = (false, ((s.peer m).2 + 1) % 65536) ∧
        (∀ c, (t.team.claim c).toPeer m = true → (t.team.claim c).state ≠ .held) ∧
        (∀ c, (s.team.claim c).toPeer m = false → t.team.claim c = s.team.claim c) ∧
        (∀ o, o ≠ peerReg m → t.reg o = s.reg o) ∧ SameMemory s t) ∧
    (∃ t, exec (.congestionNotice m) s = .next t ∧ mapGet 0 t.rates m = min 6 (mapGet 0 s.rates m + 1) ∧
      mapGet 0 t.recoverAt m = s.time + 10000 ∧
      (∀ x, x ≠ m → mapGet 0 t.rates x = mapGet 0 s.rates x ∧ mapGet 0 t.recoverAt x = mapGet 0 s.recoverAt x) ∧
      t = { s with rates := t.rates, recoverAt := t.recoverAt }) ∧
    (mapGet 0 s.rates m ≠ 0 → mapGet 0 s.recoverAt m ≤ s.time → ∃ t, exec (.congestionRecovery m) s = .next t ∧
      mapGet 0 t.rates m = mapGet 0 s.rates m - 1 ∧ mapGet 0 t.recoverAt m = mapGet 0 s.recoverAt m + 10000 ∧
      (∀ x, x ≠ m → mapGet 0 t.rates x = mapGet 0 s.rates x ∧ mapGet 0 t.recoverAt x = mapGet 0 s.recoverAt x) ∧
      t = { s with rates := t.rates, recoverAt := t.recoverAt })) ∧
  (∀ (s : State) (port n : Nat) (up deg : Bool), port < 16 → n < 4096 → up = false ∨ s.regBit (fportReg port) 63 = true →
    s.regBit (fportReg port) 62 = false ∨ up = true → ∃ t, exec (.portStateChange port up deg n) s = .next t ∧
      t.regBit (fportReg port) 62 = up ∧ t.regBit (fportReg port) 61 = (up && deg) ∧ t.regBits (fportReg port) 43 32 = n ∧
      t.regBits (fportReg port) 15 0 = s.regBits (fportReg port) 15 0 ∧
      t = { s with regs := t.regs, hostMem := t.hostMem, hostSeal := t.hostSeal, hostPoison := t.hostPoison }) ∧
  (∀ (s : State) (m : Nat) (alt : Bool), m < 4096 → (s.liveRoute m alt).isSome = true → (s.liveRoute m (!alt)).isSome = true →
    s.flows = [] → (∀ w ∈ s.copyWaits, w.2.toPeer m = false) →
    (∀ x ∈ s.teams, ∀ c ∈ x.claims, c.2.toPeer m = false) → ∃ t, exec (.lossNotice m alt) s = .next t ∧
      t.regBit (routeReg m alt) 62 = true ∧ (∀ o, o ≠ routeReg m alt → t.reg o = s.reg o) ∧ t = { s with regs := t.regs }) ∧
  (∀ (s : State) (port n src : Nat) (good : Bool), port < 16 → src < 4096 → s.regBit (fportReg port) 62 = true →
    ∃ t, exec (.fabricFlitReceive port good n src) s = .next t ∧ mapGet 0 t.portQueues port = n ∧
      t.regBits (fportReg port) 15 0 = (if good then s.regBits (fportReg port) 15 0
        else min 0xFFFF (s.regBits (fportReg port) 15 0 + 1)) ∧
      (s.regBits cthreshReg 15 0 < n ∧ mapGet 0 s.notices src ≤ s.time → t.outbox = s.outbox ++ [.congestion src] ∧
        mapGet 0 t.notices src = s.time + 1000) ∧
      (n ≤ s.regBits cthreshReg 15 0 ∨ s.time < mapGet 0 s.notices src → t.outbox = s.outbox ∧ t.notices = s.notices) ∧
      t = { s with regs := t.regs, portQueues := t.portQueues, outbox := t.outbox, notices := t.notices }) ∧
  (∀ (s : State) (src vd : Nat) (as ns : List Nat), src < 4096 → (∀ r ∈ as.zip ns, r.1 < 2 ^ 64) →
    let p := s.reg (permitReg src)
    let w := s.window (wbits p 15 8 / 8)
    let permit := p.getLsbD 63 = true ∧ wbits p 7 0 = vd
    let inside := ∀ r ∈ as.zip ns, r.1 < 2 ^ 30 ∧ w.1 = true ∧ bitsOf r.1 20 0 + r.2 ≤ w.2.2 * 4096 ∧
      s.sliceStopped (bitsOf r.1 29 21) = false
    (¬permit → exec (.peerReservation src vd as ns) s = .next { s with outbox := s.outbox ++ [.reserveAnswer src .noPermit] }) ∧
    (permit → ¬inside → exec (.peerReservation src vd as ns) s =
      .next { s with outbox := s.outbox ++ [.reserveAnswer src .outside] }) ∧
    (permit → inside → exec (.peerReservation src vd as ns) s =
      .next { s with outbox := s.outbox ++ [.reserveAnswer src (.accepted w.2.1 w.2.2)] })) ∧
  (∀ (s : State) (f : Flow) (o so sa na do_ da nd ss soff ds doff : Nat) (more more' : List (Nat × Nat × Nat)),
    findBy Machine.Flow.id s.flows f.id = some f → o ∈ f.chunks → f.desc.sspace = true → f.desc.dspace = true → f.desc.dpeer = false →
    f.peer = none → f.error = false →
    let n := f.desc.chunkAt o (f.off + f.len - 1)
    f.desc.pieces true o n = (so, sa, na) :: more → f.desc.pieces false o n = (do_, da, nd) :: more' →
    s.plainPhys (BitVec.ofNat 64 sa) n (f.vd / 8) 1 = .ok (ss, soff) →
    s.plainPhys (BitVec.ofNat 64 da) n (f.vd / 8) 1 = .ok (ds, doff) →
    s.bankBusy ss soff n = false → s.bankBusy ds doff n = false → s.plainPoisoned ss soff n = false →
    s.plainPoisoned ds doff n = false → s.plainPoisoned f.ctrSlice f.ctrOff 16 = false →
    (plainKey ds doff + n ≤ plainKey f.ctrSlice f.ctrOff ∨ plainKey f.ctrSlice f.ctrOff + 16 ≤ plainKey ds doff) →
    s.bankBusy f.ctrSlice f.ctrOff 16 = false → s.watched = [] → s.unwatched f.ctrSlice f.ctrOff = true →
    ∃ t, exec (.flowChunkAccept f.id o) s = .next t ∧
      t.plainRead ds doff n = s.plainRead ss soff n ∧
      t.ctrWord f.ctrSlice f.ctrOff 0 = min (s.ctrWord f.ctrSlice f.ctrOff 0 + n) 0xFFFFFFFF ∧
      (∀ k, ¬(plainKey ds doff ≤ k ∧ k < plainKey ds doff + n) →
        ¬(plainKey f.ctrSlice f.ctrOff ≤ k ∧ k < plainKey f.ctrSlice f.ctrOff + 16) →
        mapGet unlistedByte t.plain k = mapGet unlistedByte s.plain k) ∧
      (f.chunks.filter (· != o) ≠ [] →
        (findBy Machine.Flow.id t.flows f.id).map (·.chunks) = some (f.chunks.filter (· != o)) ∧ t.weir = s.weir ∧ t.team = s.team) ∧
      (f.chunks.filter (· != o) = [] → findBy Machine.Flow.id t.flows f.id = none ∧ (∀ w ∈ t.weir, w.flow ≠ f.id) ∧
        (f.team = some s.team.uid → s.team.isVacant = false →
          t.team = s.team.setClaim f.slot (s.team.claim f.slot).afterFlow)) ∧
      t.basin = s.basin ∧ t.hostMem = s.hostMem) ∧
  (∀ (s : State) (f : Flow) (o : Nat), findBy Machine.Flow.id s.flows f.id = some f → f.countsHere = true →
    s.bankBusy f.ctrSlice f.ctrOff 16 = true → exec (.flowChunkAccept f.id o) s = .fault .notEnabled) ∧
  (∀ (s : State) (src addr : Nat) (bs : List Byte) (status : Nat), src < 4096 →
    let p := s.reg (permitReg src)
    let part := wbits p 15 8 / 8
    (p.getLsbD 63 = false → ∀ poison ctr, s.runTurn (.peerChunk src addr bs poison ctr status) = .fault .notEnabled) ∧
    (∀ slice off, p.getLsbD 63 = true → bs ≠ [] → s.plainPhys (BitVec.ofNat 64 addr) bs.length part 1 = .ok (slice, off) →
      s.bankBusy slice off bs.length = false → s.plainPoisoned slice off bs.length = false → s.watched = [] →
      (∃ t, s.runTurn (.peerChunk src addr bs false none status) = .next t ∧ t.plainRead slice off bs.length = bs ∧
        PlainKept s t slice off bs.length ∧ t = { s with plain := t.plain }) ∧
      (∀ c cs co, s.counterPhys (BitVec.ofNat 64 c) part = .ok (cs, co) → s.bankBusy cs co 16 = false → s.plainPoisoned cs co 16 = false →
        (plainKey slice off + bs.length ≤ plainKey cs co ∨ plainKey cs co + 16 ≤ plainKey slice off) → s.unwatched cs co = true →
        let sum := s.ctrWord cs co 0 + bs.length
        let word := flowWord (s.ctrWord cs co 2) status
        ∃ t, s.runTurn (.peerChunk src addr bs false (some c) status) = .next t ∧ t.plainRead slice off bs.length = bs ∧
          t.ctrWord cs co 0 = min sum 0xFFFFFFFF ∧
          t.ctrWord cs co 2 = (if 0xFFFFFFFF < sum then word % 2 ^ 32 ||| 1 else word % 2 ^ 32) ∧ t = { s with plain := t.plain }))) ∧
  (∀ (s : State) (m : Nat) (r : Word), m < 4096 → s.flows = [] →
    (∀ alt, ∀ w, s.liveRoute m alt = some w → wbits w 34 0 ≠ wbits r 34 0) → ∃ t, s.runTurn (.routeLost m r) = .next t ∧
      t.regs = s.regs ∧ SameMemory s t ∧
      (∀ c, (s.team.claim c).toPeer m = false → t.team.claim c = s.team.claim c) ∧
      (∀ c x, (s.team.claim c).toPeer m = true → (s.team.claim c).state = .held → (s.team.claim c).route = some x →
        wbits x 34 0 = wbits r 34 0 →
        ((s.team.claim c).alternate = none → (t.team.claim c).state = .revoked ∧ (t.team.claim c).cause = 4) ∧
        (∀ y, (s.team.claim c).alternate = some y → wbits y 34 0 ≠ wbits r 34 0 →
          t.team.claim c = { s.team.claim c with route := some y, alternate := none })))

/-- R52, R121, R124, R127, R129, R131, R132, R134, R365: what moves a boundary of a domain on; a packet, a load and a commit wait for a
line under rebuild; among the turns that are no opcode, the FAIL of another member and its answer that loads are lost. The answer to a
load outside every region is DEDUCED: log 77; that FAIL waits, for the whole domain, until a commit under way has ended is a DESIGN CHOICE:
log 110. -/
def Obligations.StepEventsAdvanceTheBoundary : Prop :=
  (∀ (s : State) (vd m n sl ml : Nat), vd < 256 → s.stepEn vd = true → s.isMember vd m = true →
    ∃ t, exec (.stepGrant vd m n sl ml) s = .next t ∧ t.quotaOf vd m n = (sl, ml) ∧
      (∀ v x k, (v, x, k) ≠ (vd, m, n) → t.quotaOf v x k = s.quotaOf v x k) ∧ t = { s with quotas := t.quotas }) ∧
  (∀ (s : State) (e : StepEntry),
    let off := regionReg e.region 0
    let vd := s.regionVd e.region
    let inside := s.regBits off 38 16 * 65536 ≤ e.line ∧ e.line < (s.regBits off 38 16 + s.regBits off 15 0) * 65536
    let waits := e.spill = true ∧ s.regBit off 63 = true ∧
      (s.stalls false (s.pondNext e) = true ∨ s.stalls false (s.pondNext e + 64) = true)
    (waits → exec (.stepPacket e) s = .fault .notEnabled) ∧
    (¬waits → ∃ t, exec (.stepPacket e) s = .next t ∧
      countFor (t.boundaryOf vd e.step).got e.src = countFor (s.boundaryOf vd e.step).got e.src + 1 ∧ t.team = s.team ∧
      t.plain = s.plain ∧
      (s.regBit off 63 = true → inside → e.spill = false → t.sluice = s.sluice ++ [e] ∧
        t = { s with sluice := t.sluice, boundaries := t.boundaries }) ∧
      (s.regBit off 63 = true → inside → e.spill = true → t.sluice = s.sluice ∧
        t.millpond.length = s.millpond.length + 1) ∧
      (s.regBit off 63 = true → ¬inside → t.regBit off 62 = true ∧
        t = { s with regs := t.regs, boundaries := t.boundaries }) ∧
      (s.regBit off 63 = false → t = { s with boundaries := t.boundaries }))) ∧
  (∀ (s : State) (src load a n k : Nat),
    (∀ g, (s.regions.find? fun r => r.2.1 ≤ a && a < r.2.2) = some g →
      (k ≤ s.committed (s.regionVd g.1) → s.stalls false a = false → exec (.peerLoadRequest src load a n k) s =
        .next { s with outbox := s.outbox ++ [.peerData src load (s.imageRead (s.regionVd g.1) k a n)] }) ∧
      (s.committed (s.regionVd g.1) < k → s.stepFail (s.regionVd g.1) = true → exec (.peerLoadRequest src load a n k) s = .next s) ∧
      ((k ≤ s.committed (s.regionVd g.1) ∧ s.stalls false a = true) ∨
          (s.committed (s.regionVd g.1) < k ∧ s.stepFail (s.regionVd g.1) = false) → exec (.peerLoadRequest src load a n k) s =
        .next { s with heldLoads := s.heldLoads ++ [⟨s.regionVd g.1, k, src, load, a, n⟩] })) ∧
    ((s.regions.find? fun r => r.2.1 ≤ a && a < r.2.2) = none → ∃ t bs, exec (.peerLoadRequest src load a n k) s = .next t ∧
      t = { s with draws := t.draws, outbox := s.outbox ++ [.peerData src load bs] })) ∧
  (∀ (s : State) (vd m k n : Nat), vd < 256 → s.stepEn vd = true → s.isMember vd m = true → m ≠ s.module →
    (s.boundaryOf vd k).state = .collecting ∨ (s.boundaryOf vd k).state = .entered →
    (∀ e ∈ (s.boundaryOf vd k).ends, e.1 ≠ m) → ∃ t, exec (.boundaryEndMessage vd m k n) s = .next t ∧
      (m, n) ∈ (t.boundaryOf vd k).ends ∧ (t.boundaryOf vd k).arrivals = (s.boundaryOf vd k).arrivals ∧
      t = { s with boundaries := t.boundaries, outbox := t.outbox }) ∧
  (∀ (s : State) (vd k : Nat),
    let b := s.boundaryOf vd k
    (b.state = .entered → b.enterDone = false → ∃ t, exec (.enterBarrierDone vd k) s = .next t ∧
      t.boundaryOf vd k = { b with enterDone := true, state := if s.linesIn b then .applying else .entered } ∧
      t = { s with boundaries := t.boundaries }) ∧
    (b.state = .applying → s.commitStalls vd k = true → exec (.commitDone vd k) s = .fault .notEnabled) ∧
    (vd < 256 → b.state = .applying → s.commitStalls vd k = false → b.lost = false → (∀ r ∈ s.requests, ∀ m a x, r.loc ≠ .peer m a x) →
      ∃ t, exec (.commitDone vd k) s = .next t ∧ t.committed vd = k % 2 ^ 32 ∧ t.complete vd = s.complete vd ∧
        (t.boundaryOf vd k).state = .committed ∧ t.basin = (s.commit vd k).basin ∧ t.images = (s.keepImage vd k).images ∧ t.plain = s.plain ∧
        t.team = s.team ∧ (∀ h ∈ t.heldLoads, t.committed h.vd < h.step ∨ t.stalls false h.addr = true) ∧ t.outbox.getLast? = some (.joinCommit vd k)) ∧
    (vd < 256 → b.state = .committed → ∃ t, exec (.commitBarrierDone vd k) s = .next t ∧ t.complete vd = k % 2 ^ 32 ∧
      t.committed vd = s.committed vd ∧ (t.boundaryOf vd k).state = .done ∧
      (∀ e ∈ t.sluice, ¬(e.step = k ∧ s.regionVd e.region = vd)) ∧
      (∀ n, s.team.status = .parked (.step n) → s.team.vd = vd → n ≤ k + 1 →
        t.team = { s.team with status := .ready, age := 0 }) ∧
      (∀ n, s.team.status = .parked (.step n) → s.team.vd ≠ vd ∨ k + 1 < n → t.team = s.team) ∧ SameMemory s t)) ∧
  (∀ (s : State) (vd : Nat), vd < 256 → s.stepEn vd = true → s.stepFail vd = false →
    ((∀ b ∈ s.boundaries, b.vd = vd → b.state ≠ .applying) → s.requests = [] →
      (∀ x ∈ s.teams, x.vd = vd → ∀ n, x.status ≠ .parked (.step n)) → ∃ t, s.runTurn (.memberFail vd) = .next t ∧
        t.stepFail vd = true ∧ (∀ o, o ≠ vdReg vd 0x050 → t.reg o = s.reg o) ∧ t.outbox = s.outbox ++ [.fail vd] ∧
        (∀ b ∈ t.boundaries, b.vd = vd → b.state = .done ∨ b.state = .failed) ∧ t.quotas = s.quotas ∧ t.team = s.team ∧ t.rest = s.rest ∧ SameMemory s t) ∧
    ((∃ b ∈ s.boundaries, b.vd = vd ∧ b.state = .applying) → ∃ t, s.runTurn (.memberFail vd) = .next t ∧
      (∀ b ∈ t.boundaries, b.vd = vd → b.state = .applying → b.lost = true) ∧ t = { s with boundaries := t.boundaries })) ∧
  (∀ (s : State) (r : Req) (m addr st : Nat), findBy Req.id s.requests r.id = some r → r.loc = .peer m addr st →
    (m = s.module ∨ r.op.reads = false → s.runTurn (.loadLost r.id) = .fault .notEnabled) ∧
    (m ≠ s.module → r.op.reads = true → (∃ a ∈ s.accesses, a.id = r.access) → ∃ t, s.runTurn (.loadLost r.id) = .next t ∧
      ∀ x ∈ t.requests, x.access ≠ r.access))

/-- R180, R301, R320 to R322, R324: a reduction slot is granted, a chunk lands and is counted unless the counter's GEN has changed, the
counts of an exchange arrive, and an operation of a Millstone ends. The chunks, the fields written under a changed GEN and the joining of
a reduction are DEDUCED: log 46; that what lands waits for the writes that the banks have queued: log 70; that the last operation ends the
lease: log 43. -/
def Obligations.CollectiveEventsLandAndCount : Prop :=
  (∀ (s : State) (c : Coll), findBy Coll.id s.colls c.id = some c → c.left ≠ [] →
    let first := ∀ x ∈ s.colls, x.phase = .asking → x.id ≠ c.id → s.slotKey c.vd ≤ s.slotKey x.vd
    let ahead := (s.colls.filter fun x => x.phase == .asking && x.id != c.id && decide (s.slotKey x.vd < s.slotKey c.vd)).length
    let set := fun (d : Coll) => updateBy Coll.id s.colls c.id fun _ => d
    (c.phase ≠ .running → s.slotsUsed < 32 → first → exec (.reductionSlotGrant c.id) s =
      .next { s with slotPointer := c.vd, colls := set { c with phase := .running, slot := true } }) ∧
    (c.phase = .joining → ¬(s.slotsUsed < 32 ∧ first) → 32 ≤ s.slotsUsed + ahead → exec (.reductionSlotGrant c.id) s =
      .next { s with colls := set { c with phase := if c.alg = 1 then .running else .asking } })) ∧
  (∀ (s : State) (c : Coll) (o base len : Nat) (src : Option Nat) (others : List (List Byte)) (bs : List Byte),
    findBy Coll.id s.colls c.id = some c → (c.segments.find? fun g => g.1 ≤ o && o < g.1 + g.2.1) = some (base, len, src) →
    c.chunkBytes o (min 64 (base + len - o)) src base others = some bs → bs.length = min 64 (base + len - o) →
    c.phase = .running → o ∈ c.left → s.bankBusy c.slice (c.dst + o) bs.length = false → s.counterQueued c = false →
    s.plainPoisoned c.slice (c.dst + o) bs.length = false → s.plainPoisoned c.ctrSlice c.ctrOff 16 = false →
    (plainKey c.slice (c.dst + o) + bs.length ≤ plainKey c.ctrSlice c.ctrOff ∨
      plainKey c.ctrSlice c.ctrOff + 16 ≤ plainKey c.slice (c.dst + o)) →
    s.watched = [] → s.unwatched c.ctrSlice c.ctrOff = true → ∃ t, exec (.collectiveLand c.id o others) s = .next t ∧
      t.plainRead c.slice (c.dst + o) bs.length = bs ∧
      t.ctrWord c.ctrSlice c.ctrOff 0 = (if s.ctrWord c.ctrSlice c.ctrOff 3 = c.gen
        then min (s.ctrWord c.ctrSlice c.ctrOff 0 + bs.length) 0xFFFFFFFF else s.ctrWord c.ctrSlice c.ctrOff 0) ∧
      (∀ d, findBy Coll.id t.colls c.id = some d → d.left = c.left.filter (· != o)) ∧
      (c.left.filter (· != o) = [] → c.kind ≠ .exchange → findBy Coll.id t.colls c.id = none) ∧
      t = { s with plain := t.plain, colls := t.colls }) ∧
  (∀ (s : State) (c : Coll) (counts : List Nat), findBy Coll.id s.colls c.id = some c → c.kind = .exchange → c.recvCounts = none →
    counts.length = c.members.length → counts.getD c.rank 0 = c.sendCounts.getD c.rank 0 →
    let p := c.members.length
    let total := c.esize * counts.sum
    let ctr := s.ctrWord c.ctrSlice c.ctrOff
    let words := counts ++ (List.range p).map fun q => (counts.take q).sum
    s.bankBusy c.rcntSlice c.rcnt (8 * p) = false → s.counterQueued c = false → s.plainPoisoned c.rcntSlice c.rcnt (8 * p) = false →
    s.plainPoisoned c.ctrSlice c.ctrOff 16 = false →
    (plainKey c.rcntSlice c.rcnt + 8 * p ≤ plainKey c.ctrSlice c.ctrOff ∨
      plainKey c.ctrSlice c.ctrOff + 16 ≤ plainKey c.rcntSlice c.rcnt) →
    s.watched = [] → s.unwatched c.ctrSlice c.ctrOff = true → ctr 3 = c.gen → ctr 0 + 8 * p ≤ 0xFFFFFFFF →
    8 * p + total < 2 ^ 32 → ∃ t, exec (.a2avCounts c.id counts) s = .next t ∧
      t.plainRead c.rcntSlice c.rcnt (8 * p) = (words.flatMap fun w => leBytes 4 w) ∧
      (List.range 4).map (t.ctrWord c.ctrSlice c.ctrOff) = [ctr 0 + 8 * p, if c.dcap < total then 8 * p else 8 * p + total,
        if c.dcap < total then ctr 2 ||| 8 else ctr 2, ctr 3] ∧
      (∀ d, findBy Coll.id t.colls c.id = some d → d.recvCounts = some counts) ∧
      t = { s with plain := t.plain, colls := t.colls }) ∧
  (∀ (s : State) (m : Nat) (o : StoneOp) (rest : List StoneOp), (s.millstone m).busy = o :: rest →
    (o.ends = false ∨ (s.millstone m).holder = none → ∃ t, exec (.millstoneOperationComplete m) s = .next t ∧
      t.millstone m = { s.millstone m with busy := rest } ∧ t = { s with millstones := t.millstones }) ∧
    (o.ends = true → (s.millstone m).holder = some s.team.uid → s.team.isVacant = false → s.team.mill = m →
      (s.millstone m).queue = [] → ∃ t, exec (.millstoneOperationComplete m) s = .next t ∧
        (t.millstone m).holder = none ∧ t.team = { s.team with leaseHeld := false, leaseRemain := 0 } ∧
        t = { s with team := t.team, rest := t.rest, millstones := t.millstones }))

/-! ## The distributor -/

/-- R158, R170 to R173, R175 to R177, R185, R186, R188, R189, R369: what the distributor does with submissions, launchable
workgroups, deque entries, copy nodes and slices. The order of a submission's checks, the reading of WORK, a copy node's claim and
counter, the deque's ends and the ends of slices are DEDUCED: logs 53, 54, 55, 57, 33; that a stolen entry stands at the tail of the
thief's deque, and that a full deque takes none, is a DESIGN CHOICE: log 119. -/
def Obligations.DistributorAcceptsOrRefuses : Prop :=
  (∀ (s : State) (source entry : Nat) (args : List Word), source < 4096 → entry < 4096 →
    let w := s.reg (launchReg entry 0)
    let key := wbits w 7 0 * 16 + wbits w 11 8
    let accepted := w.getLsbD 63 = true ∧ wbits w 43 32 = source ∧ s.regBit (vdReg (wbits w 7 0) 0x070) 63 = true ∧
      (s.window (wbits w 7 0 / 8)).1 = true
    (accepted → ∃ t ahead sub, exec (.fabricLaunchPacket source entry args) s = .next t ∧
      mapGet [] t.fabricQueue key = mapGet [] s.fabricQueue key ++ [(ahead, sub)] ∧
      sub.bytes.length = 128 ∧ fieldAt sub.bytes 0 8 = 0 ∧ fieldAt sub.bytes 8 8 = (s.reg (launchReg entry 1)).toNat ∧
      fieldAt sub.bytes 0x10 8 = (s.reg (launchReg entry 2)).toNat ∧
      (∀ i < 8, fieldAt sub.bytes (0x40 + 8 * i) 8 = (args.getD i 0).toNat) ∧
      t = { s with fabricQueue := t.fabricQueue, draws := t.draws }) ∧
    (¬accepted → exec (.fabricLaunchPacket source entry args) s = .next { s with
      launchRefusals := s.launchRefusals + 1, outbox := s.outbox ++ [.launchRefused source entry] })) ∧
  (∀ (s : State) (vd entry target : Nat), vd < 256 → entry < 4096 → target < 4096 →
    exec (.fabricLaunchRefusal vd entry target) s =
      .next (s.post (some vd) 0x0B 0 (BitVec.ofNat 64 entry) (BitVec.ofNat 64 target) none)) ∧
  (∀ (s : State) (vd q : Nat), vd < 256 → q < 16 → s.regBit (lqReg vd q 0) 63 = true →
    let tail := leNat (s.hostRead (s.regBits (lqReg vd q 0x08) 51 6 * 64) 4)
    let holds := (tail + 2 ^ 32 - s.regBits (lqReg vd q 0x18) 31 0) % 2 ^ 32
    ∃ t, exec (.tailLineSnoop vd q) s = .next t ∧ t.tailOf vd q = tail ∧ t.team = s.team ∧ t.plain = s.plain ∧ t.basin = s.basin ∧
      (holds ≤ s.regBits (lqReg vd q 0x10) 15 0 → t = { s with tails := t.tails }) ∧
      (s.regBits (lqReg vd q 0x10) 15 0 < holds → t.regBit (lqReg vd q 0) 63 = false ∧ t.regBit (lqReg vd q 0) 62 = true)) ∧
  (∀ (s : State) (vd q left : Nat), vd < 256 → q < 16 → s.queueNext vd = some (q, left) → s.holdsSlice vd = true →
    mapGet [] s.deviceQueues vd = [] → s.distStall = false →
    let key := vd * 16 + q
    let head := s.regBits (lqReg vd q 0x18) 31 0
    let addr := s.regBits (lqReg vd q 0) 55 12 * 4096 + 128 * (head % max 1 (s.regBits (lqReg vd q 0x10) 15 0))
    ((s.distRead (s.queueAsid vd q) addr 128).1.distStall = false ∨ ∃ sub rest, mapGet [] s.fabricQueue key = (0, sub) :: rest) →
    ∃ t, exec (.submissionRead vd q) s = .next t ∧ mapGet 0 t.queueTurn vd = (q + 1) * 256 + (left - 1) ∧
      (∀ sub rest, mapGet [] s.fabricQueue key = (0, sub) :: rest →
        t.readQueue = s.readQueue ++ [(vd, { sub with asid := s.queueAsid vd q }, s.room vd)] ∧ mapGet [] t.fabricQueue key = rest ∧
        t = { s with fabricQueue := t.fabricQueue, readQueue := t.readQueue, queueTurn := t.queueTurn }) ∧
      ((∀ sub rest, mapGet [] s.fabricQueue key ≠ (0, sub) :: rest) →
        t.regBits (lqReg vd q 0x18) 31 0 = (head + 1) % 2 ^ 32 ∧ t.team = s.team ∧ t.plain = s.plain ∧
        ∃ bytes room, t.readQueue = s.readQueue ++ [(vd, ⟨s.queueAsid vd q, BitVec.ofNat 64 addr, bytes⟩, room)] ∧
          ∀ s1 bs, s.distRead (s.queueAsid vd q) addr 128 = (s1, .data bs) → bytes = bs ∧ room = s1.room vd)) ∧
  (∀ (s s0 : State) (vd : Nat) (sub : Submitted) (room : Room), vd < 256 → s.holdsSlice vd = true →
    ((∃ e, s.readQueue.find? (fun e => e.1 == vd) = some e ∧ sub = e.2.1 ∧ room = e.2.2 ∧
        s0 = { s with readQueue := s.readQueue.erase e }) ∨
      (s.readQueue.find? (fun e => e.1 == vd) = none ∧ room = s.room vd ∧ ∃ rest, mapGet [] s.deviceQueues vd = sub :: rest ∧
        s0 = { s with deviceQueues := mapSet [] s.deviceQueues vd rest })) →
    let f := fieldAt sub.bytes
    let refused := fun (s1 : State) (reason : Nat) => s1.distStall = false → exec (.submission vd) s =
      .next (s1.post (some vd) 0x01 0 sub.addr (BitVec.ofNat 64 reason) none)
    (sub.bytes.length ≠ 128 → refused s0 2) ∧
    (sub.bytes.length = 128 → submissionBad sub.bytes = true → refused s0 1) ∧
    (sub.bytes.length = 128 → submissionBad sub.bytes = false →
      (f 0 1 % 4 = 0 →
        (∀ s1 r, s0.checkLaunch room sub.asid sub.bytes = (s1, .error r) → refused s1 r) ∧
        (∀ s1 r, s0.checkLaunch room sub.asid sub.bytes = (s1, .ok r) → s1.distStall = false → ∃ t l, exec (.submission vd) s = .next t ∧
          t.launches = s1.launches ++ [l] ∧ l.vd = vd ∧ l.asid = sub.asid ∧ l.kernel = r.kernel ∧ l.args = r.args ∧
          (l.gx, l.gy, l.gz, l.stages) = (r.gx, r.gy, r.gz, r.stages) ∧ l.lseq = (s1.lseqOf vd + 1) % 65536 ∧
          t.lseqOf vd = (s1.lseqOf vd + 1) % 65536 ∧
          t.launchables = s1.launchables ++ (List.range (r.gx * r.gy * r.gz)).map (fun c => ⟨vd, l.uid, c, 0⟩) ∧
          t = { s1 with launches := t.launches, launchables := t.launchables, lseqs := t.lseqs, nextId := s1.nextId + 1 })) ∧
      (f 0 1 % 4 = 1 →
        (∀ s1, s0.distBytes sub.asid (f 8 8) (64 * f 0x10 2) = (s1, none) → refused s1 2) ∧
        (∀ s1 bs, s0.distBytes sub.asid (f 8 8) (64 * f 0x10 2) = (s1, some bs) →
          let table := pieces 64 (f 0x10 2) bs
          ((table.any fun b => fieldAt b 2 6 != 0 || fieldAt b 0x30 16 != 0) = true → refused s1 1) ∧
          ((table.any fun b => fieldAt b 2 6 != 0 || fieldAt b 0x30 16 != 0) = false →
            let t := s1.acceptGraph vd sub.asid sub table
            exec (.submission vd) s = if t.distStall then .fault .notEnabled else .next t))) ∧
      (f 0 1 % 4 = 2 →
        let dest := f 8 8 % 4096
        let entry := bitsOf (f 8 8) 27 16
        (dest ≠ s.module → (s.anyRoute dest).isSome = true → exec (.submission vd) s = .next { s0 with outbox := s.outbox ++
          [.launch dest entry ((List.range 8).map fun i => BitVec.ofNat 64 (f (0x40 + 8 * i) 8))] }) ∧
        (dest = s.module ∨ s.anyRoute dest = none → exec (.submission vd) s =
          .next (s0.post (some vd) 0x0B 0 (BitVec.ofNat 64 entry) (BitVec.ofNat 64 s.module) none))))) ∧
  (∀ (s : State) (vd : Nat) (place : Placement) (x : Launchable) (l : Launch), vd < 256 →
    s.launchables.find? (fun x => x.vd == vd) = some x → s.launchOf x.launch = some l → s.holdsSlice vd = true →
    (s.liveDeque place.mill).any (fun c => c.vd / 8 == vd / 8) = false → s.placeOk vd l.kernel place = true →
    ∃ t, exec (.workgroupPlace vd place) s = .next t ∧ Placed s t (l.start x.coord x.stage) place ∧
      t.launchables = s.launchables.erase x ∧ t.deques = s.deques) ∧
  (∀ (s : State) (g n : Nat) (gr : Graph) (nd : Node), s.node g n = some (gr, nd) → nd.copy = true → nd.state = .running →
    let touched := s.copyTouched.find? fun w => w.1 == copyKey g n
    (∀ w slice off, touched = some w → s.copyCounter gr nd = .ok (slice, off) →
      (∀ s1 c r, s.copyClaim gr w.2 = (s1, .fault c r) → c ≠ stallCode →
        exec (.copyNodeStart g n) s = .next (s1.doJobs [.reach g n .failed (4 + c * 256) r])) ∧
      (∀ s1 pins, s.copyClaim gr w.2 = (s1, .pins pins) → w.2.dpeer = false →
        exec (.copyNodeStart g n) s = .next (s1.copyFlow g n gr w.2 pins none none slice off))) ∧
    (touched = none → s.copyClaims.contains (copyKey g n) = false → s.copyClaims.length < 16 →
    let fails := fun (s1 : State) (code report : Nat) =>
      exec (.copyNodeStart g n) s = .next (s1.doJobs [.reach g n .failed (4 + code * 256) report])
    (nd.work.toNat % 64 ≠ 0 → fails s 0x06 0) ∧
    (nd.work.toNat % 64 = 0 →
      (∀ s1 c r, s.engineRead 0 gr.asid nd.work.toNat 64 .load false = (s1, .fault c r) → c ≠ stallCode → fails s1 c r) ∧
      (∀ s1 bytes, s.engineRead 0 gr.asid nd.work.toNat 64 .load false = (s1, .data bytes) →
        (∀ c r, s1.copyCounter gr nd = .error (c, r) → fails s1 c r) ∧
        (∀ slice off, s1.copyCounter gr nd = .ok (slice, off) → s1.bankBusy slice off 16 = false →
          let d := descOf bytes
          let s2 := s1.copyArm d slice off
          (descInvalid s1.module bytes = true → fails s2 0x0E 0) ∧
          (descInvalid s1.module bytes = false →
            (∀ s3 c r, s2.copyClaim gr d = (s3, .fault c r) → c ≠ stallCode → fails s3 c r) ∧
            (∀ s3 pins, s2.copyClaim gr d = (s3, .pins pins) → d.dpeer = false →
              exec (.copyNodeStart g n) s = .next (s3.copyFlow g n gr d pins none none slice off)))))))) ∧
  (∀ (s : State) (mill : Nat) (place : Placement) (c : Child) (cs : List Child), mill < 512 → s.liveDeque mill = c :: cs →
    place.mill = mill → s.holdsSlice c.vd = true → s.placeOk c.vd c.kernel place = true →
    ∃ t, exec (.dequeStart mill place) s = .next t ∧ Placed s t c.start place ∧ t.deque mill = (s.deque mill).erase c ∧
      t.launchables = s.launchables) ∧
  (∀ (s : State) (thief owner : Nat) (c : Child), thief < 512 → owner < 512 → (s.liveDeque owner).getLast? = some c →
    meshNeighbours thief owner = true → s.sliceStopped thief = false → s.holdsSlice c.vd = true →
    (s.room c.vd).fits c.kernel = true → (s.liveDeque thief).any (fun x => x.vd / 8 == c.vd / 8) = false →
    (s.liveDeque thief).length < 64 → ∃ t, exec (.dequeSteal thief owner) s = .next t ∧
      t.deque thief = s.deque thief ++ [c] ∧ t.deque owner = eraseLast (s.deque owner) c ∧ t = { s with deques := t.deques }) ∧
  (∀ (s : State) (p : Nat), p < 32 →
    let x := s.slice p
    let gives := fun (t : State) (v : Nat) (left : Nat) => t.slice p = ⟨some v, left, false, s.time⟩ ∧ t.regBit (vdReg v 0x070) 62 = true
    let next := fun (t : State) (after : Option Nat) =>
      (s.nextVd p after = none → t.slice p = Slice.idle) ∧ (∀ v, s.nextVd p after = some v → gives t v (s.weight v))
    let frame := fun (t : State) => t = { s with regs := t.regs, slices := t.slices }
    (∀ v, x.vd = some v → v / 8 = p → x.preemptAsked = false → s.hasWork v = false →
      next (s.endIdleSlice p) (some v) ∧ frame (s.endIdleSlice p) ∧ (s.endIdleSlice p).regBit (vdReg v 0x070) 62 = false) ∧
    (x.vd = none → ∃ t, exec (.sliceExpiry p) s = .next t ∧ next t none ∧ frame t) ∧
    let ends := fun (v : Nat) => x.since + 1000 * min 10000 (max 10 (s.regBits (vdReg v 0x070) 13 0))
    (∀ v, x.vd = some v → x.preemptAsked = false → s.time < ends v → exec (.sliceExpiry p) s = .fault .notEnabled) ∧
    (∀ v, x.vd = some v → v / 8 = p → x.preemptAsked = false → ends v ≤ s.time →
      (s.takesPart v = true → 1 < x.left → ∃ t, exec (.sliceExpiry p) s = .next t ∧
        t.slice p = ⟨some v, x.left - 1, false, s.time⟩ ∧ t = { s with slices := t.slices }) ∧
      (s.takesPart v = true → x.left ≤ 1 → s.nextVd p (some v) = some v → ∃ t, exec (.sliceExpiry p) s = .next t ∧
        t.slice p = ⟨some v, s.weight v, false, s.time⟩ ∧ t = { s with slices := t.slices }) ∧
      (s.takesPart v = false ∨ (x.left ≤ 1 ∧ s.nextVd p (some v) ≠ some v) →
        (∀ y ∈ s.teams, y.vd = v → y.resident = false) → ∃ t, exec (.sliceExpiry p) s = .next t ∧ next t (some v) ∧
        t.regBit (vdReg v 0x070) 62 = false ∧ frame t) ∧
      (s.takesPart v = false ∨ (x.left ≤ 1 ∧ s.nextVd p (some v) ≠ some v) → s.rest = [] → s.team.vd = v →
        s.team.status = .ready → s.team.fault = none → ∃ t, exec (.sliceExpiry p) s = .next t ∧
        t.slice p = ⟨some v, 0, true, x.since⟩ ∧ t.team.status = .preempting ∧ (∀ c, (t.team.claim c).state ≠ .held) ∧
        t.team.uregs = s.team.uregs ∧ t.team.vregs = s.team.vregs ∧ SameMemory s t)) ∧
    (∀ v, x.vd = some v → v / 8 = p → x.preemptAsked = true → (∀ y ∈ s.teams, y.vd = v → y.resident = false) →
      (x.left ≠ 0 → s.takesPart v = true → ∃ t, exec (.sliceExpiry p) s = .next t ∧ gives t v x.left ∧ frame t) ∧
      (x.left = 0 ∨ s.takesPart v = false → ∃ t, exec (.sliceExpiry p) s = .next t ∧ next t (some v) ∧ frame t)))

/-! ## The module -/

/-- R17, R380 to R386: the start of the module, attestation, firmware updates, the entries of the images, and the stop of a unit. What a
restart keeps and which units a failed stage stops, and what ATTCMD and FWCMD take, are DEDUCED: logs 58, 59; where an image holds its
key, signature and version is a DESIGN CHOICE: log 106; that an update adds no image is DEDUCED: log 30; a signature is made and checked as FIPS 205 says, PRESUMED:
log 122. -/
def Obligations.ModuleEventsStartAndReport : Prop :=
  (∀ (s : State) (r : StartReport),
    (firstFailure r = none → ∃ t, exec (.moduleStart r) s = .next t ∧ t.boot = .ready ∧ t.regBits bootrec 7 0 = 8 ∧
      t.regBit bootrec 62 = true ∧ t.regBit bootrec 63 = false ∧ t.regBits bootrec 57 56 = 0 ∧ t.team = Team.vacant ∧
      t.rest = [] ∧ t.plain = [] ∧ t.basin = [] ∧ t.hostMem = s.hostMem ∧ t.flows = [] ∧ t.launches = []) ∧
    (∀ k, firstFailure r = some k →
      let n := if r.powerLost then 0 else s.regBits bootrec 57 56
      ∃ t, exec (.moduleStart r) s = .next t ∧ t.regBits bootrec 7 0 = k - 1 ∧ t.regBits bootrec 15 8 = k ∧
        t.regBit bootrec 62 = false ∧ t.team = Team.vacant ∧ t.hostMem = s.hostMem ∧
        (n < 2 → t.boot = .starting ∧ t.regBits bootrec 57 56 = n + 1 ∧ t.regBit bootrec 63 = false) ∧
        (2 ≤ n → t.boot = .minimal ∧ t.regBits bootrec 57 56 = 3 ∧ t.regBit bootrec 63 = true)) ∧
    (s.boot = .minimal → exec (.bootcmdRetry r) s =
      exec (.moduleStart r) (s.updReg bootrec fun w => wput (wput w 57 56 0) 63 63 0)) ∧
    (s.boot ≠ .minimal → exec (.bootcmdRetry r) s = .next s) ∧
    ∃ t, exec (.moduleStart r) s = .next t ∧ t.updatedImages = s.storedImages ++ s.updatedImages ∧ t.storedImages = []) ∧
  (∀ (s : State) (i : Nat), i < imageCount →
    s.barRead (0x1100 + 16 * i) = BitVec.ofNat 64 (s.imageSecurityOf i + 2 ^ 32 * s.imageNumberOf i) ∧
    s.barRead (0x1108 + 16 * i) = 0 ∧
    (∀ x, s.updatedImages.find? (·.image == i) = some x →
      s.imageSecurityOf i = x.security.toNat ∧ s.imageNumberOf i = x.version.toNat ∧ s.digestOf i = x.digest)) ∧
  (∀ (s : State) (w : Word),
    (s.attesting = true → exec (.attcmdWrite w) s = .next s) ∧
    (s.attesting = false → ∃ t, exec (.attcmdWrite w) s = .next t ∧ t.attesting = true ∧
      t.reg attcmdReg = BitVec.ofNat 64 (wbits w 51 12 * 4096) ∧ (∀ o, o ≠ attcmdReg → t.reg o = s.reg o) ∧
      t = { s with regs := t.regs, attesting := true }) ∧
    ∃ t, exec (.fwcmdWrite w) s = .next t ∧ t.updating = true ∧ t.reg fwcmdReg = BitVec.ofNat 64 (wbits w 51 12 * 4096) ∧
      (∀ o, o ≠ fwcmdReg → t.reg o = s.reg o) ∧ t = { s with regs := t.regs, updating := true }) ∧
  (∀ (s : State) (random : List Byte), s.attesting = true → random.length = 32 →
    let buffer := (s.reg attcmdReg).toNat
    let given := s.hostRead buffer 33
    let report := s.attestation (given.take 32) (leNat (given.drop 32))
    ∃ t signature, exec (.attestationComplete random) s = .next t ∧ t.attesting = false ∧ t.team = s.team ∧ t.plain = s.plain ∧
      t.basin = s.basin ∧ signature.length = 29792 ∧ slhVerify (identityKey s.imageGen) report signature = true ∧
      (s.regBit 0x500000 63 = false → t.hostMem = (s.hostStore (buffer + 64) (report ++ signature)).hostMem)) ∧
  (∀ (s : State) (length at' : Nat), s.updating = true →
    let image := s.hostRead (s.reg fwcmdReg).toNat length
    let version := (Config.imageSecurity image).toNat
    let key := Config.imageKey image
    let signed := slhVerify (leBytes 64 key.toNat) (image.take at' ++ image.drop (at' + 29792)) ((image.drop at').take 29792)
    let accepted := Config.fused (sha256 (leBytes 64 key.toNat)) = true ∧ at' + 29792 ≤ length ∧ signed = true ∧
      max s.imageVersion (s.storedUpdate.getD 0) ≤ version ∧ ∀ i < imageCount, s.imageSecurityOf i ≤ version
    ∃ t, exec (.firmwareUpdateComplete length at') s = .next t ∧ t.updating = false ∧ t.imageVersion = s.imageVersion ∧
      (accepted → t.storedUpdate = some version ∧
        t.storedImages = ⟨Config.imageIndex image % imageCount, BitVec.ofNat 256 (leNat (sha256 image)),
          Config.imageSecurity image, Config.imageNumber image⟩ :: s.storedImages) ∧
      (¬accepted → t.storedUpdate = s.storedUpdate ∧ t.storedImages = s.storedImages) ∧
      t.team = s.team ∧ t.plain = s.plain ∧ t.basin = s.basin) ∧
  (∀ (s : State) (kind i : Nat), s.flows = [] → s.colls = [] →
    let lostMore := fun (n : Nat) (t : State) => s.regBit 0x500000 63 = false →
      t.regBits (eventRing none).2.1 63 32 = (s.regBits (eventRing none).2.1 63 32 + n) % 2 ^ 32 ∧ t.hostMem = s.hostMem
    let lost := lostMore 2
    (kind = 1 → i < 512 → ∃ t, exec (.unitStop kind i) s = .next t ∧ t.sliceStopped i = true ∧
      (∀ c, (s.team.claim c).desc.inSlice i = true → (t.team.claim c).state ≠ .held) ∧ t.plain = s.plain ∧ lost t) ∧
    (kind = 2 → i < 8 → ∃ t, exec (.unitStop kind i) s = .next t ∧ t.stoppedStacks = i :: s.stoppedStacks ∧ t.team = s.team ∧
      t.plain = s.plain ∧ lost t) ∧
    (kind = 3 → i < 16 → s.routesBy i = [] → s.copyWaits = [] → (∀ x ∈ s.teams, ∀ c ∈ x.claims, c.2.desc.dpeer = false) →
      ∃ t, exec (.unitStop kind i) s = .next t ∧ t.regBit (fportReg i) 62 = false ∧ t.team = s.team ∧ t.plain = s.plain ∧
      lostMore (if s.regBit (fportReg i) 62 then 3 else 2) t) ∧
    (kind = 4 → i < 512 → ∃ t, exec (.unitStop kind i) s = .next t ∧ t.regBit (millReg i) 62 = true ∧
      t.sliceStopped i = s.sliceStopped i ∧ t.team = s.team ∧ t.plain = s.plain ∧ lost t) ∧
    (kind = 5 → i < 64 → ∃ t, exec (.unitStop kind i) s = .next t ∧ t.stoppedAlus = i :: s.stoppedAlus ∧ t.team = s.team ∧
      t.plain = s.plain ∧ lost t))

/-! ## Decoding, a step, and what every step keeps -/

/-- R178, R209 to R213: a step takes the turn that the agenda names. A turn of a wheel executes the instruction that the chosen team's
fetch brings, or raises illegal instruction with its bits; a turn of an event carries it out, but for an instruction of a program, and for
the head of a closure where a READY team that comes before its team could issue. Which team tries after one that waits, and that the head
of its closure does, is the model's choice: log 107. -/
def Obligations.StepRunsTheDecodedInstruction : Prop :=
  ∀ (s : State) (rest : List Turn),
    let a := { s.tick.settled with agenda := rest }
    (∀ x, s.tick.settled.agenda = x :: rest → step s = a.runTurn x) ∧
    (∀ i, s.tick.settled.agenda = .event i :: rest →
      (encode i = none → (∀ team, i = .closureRun team → a.closureTurn team = true) → step s = exec i a) ∧
      ((encode i).isSome = true ∨ (∃ team, i = .closureRun team ∧ a.closureTurn team = false) → step s = .fault .notEnabled)) ∧
    (∀ (m w : Nat) (t : Team) (s2 s3 : State), s.tick.settled.agenda = .issue m w :: rest → a.chosen m w = some t →
      (a.age t).focus t.uid = some s2 → s2.holding s2.team.uid = false →
      (∀ n bits, s2.fetch s2.team.pc = (s3, .word n bits) →
        (∀ i, decodeWord n bits = .ok i → s3.waited i (exec i s3) = false → step s = exec i s3) ∧
        (∀ e, decodeWord n bits = .error e → step s = .next (s3.mainTrap (.bare 0x01 (BitVec.ofNat 64 bits)) 0))) ∧
      ((∀ x ∈ a.teams, x.readyOn m w = true → x.uid = t.uid) → ∀ n bits i,
        s2.fetch s2.team.pc = (s3, .word n bits) → decodeWord n bits = .ok i → s3.waited i (exec i s3) = true →
        (∀ o, a.closureIssues t.uid = some o → step s = o) ∧ (a.closureIssues t.uid = none → step s = .next (a.older m w))) ∧
      (∀ code report tval, s2.fetch s2.team.pc = (s3, .fault code report tval) → code ≠ stallCode →
        step s = .next (s3.mainTrap { Trap.bare code tval with report := report, fetch := code != 0x06 } 0)))

/-- Encoding: words written out from the encoding tables decode to the instructions they stand for. -/
def Obligations.DecodeReadsManualWords : Prop :=
  decodeWord 32 0b00000000010100000100001000000001 = .ok (.sadd 2 1 5) ∧
  decodeWord 32 0b11111111111100010000001100000011 = .ok (.saddi 3 4 0xFFF) ∧
  decodeWord 32 0b11111111111111111111110000100001 = .ok (.bra 0xFFFFFC) ∧
  decodeWord 32 0b00000000000000000000001100110101 = .ok (.plot 3) ∧
  decodeWord 32 0b01000000010000010000001101000001 = .ok (.vadd 3 2 1 1) ∧
  decodeWord 32 0b01000000010000010000001110000001 = .ok (.fadd 3 2 1 2) ∧
  decodeWord 32 0b01100000010000010000001110110001 = .ok (.shflXor 3 2 1) ∧
  decodeWord 32 0b10010000011000100000011011000001 = .ok (.ldg 6 4 3 1 2) ∧
  decodeWord 32 0b00001000010100011000011111100001 = .ok (.claim 7 6 5 0 1) ∧
  decodeWord 32 0b00000101000011000100000111110101 = .ok (.mma 1 2 3 2 1) ∧
  decodeWord 32 0b00001100000100001000000011111101 = .ok (.keyld 2 1) ∧
  decodeWord 32 0b10111110111011110000000011111111 = .ok (.trap 0xBEEF) ∧
  decodeWord 16 0b0000010001000010 = .ok (.vaddC 2 1) ∧
  decodeWord 32 0b00000000000000000000000000111111 = .error .reservedOpcode ∧
  decodeWord 32 0b00000000000000000000001100110001 = .error .reservedValue

/-- R209 to R231: for every well-formed instruction, decoding its words gives it back; and whatever a word decodes to is well-formed
and has that word. -/
def Obligations.DecodeOfEncodeIsIdentity : Prop :=
  (∀ (i : Instr) (n w : Nat), i.wellFormed = true → encode i = some (n, w) →
    (n = 16 ∨ n = 32) ∧ w < 2 ^ n ∧ decodeWord n w = .ok i) ∧
  (∀ (n w : Nat) (i : Instr), n = 16 ∨ n = 32 → w < 2 ^ n → decodeWord n w = .ok i →
    i.wellFormed = true ∧ encode i = some (n, w))

/-- What reset leaves (R18, R30, R44, R74, R120, R182, R185, R238, R271, R303, R348, R360, R368, R370, R376 to R380): no team and no byte of
memory written, key 0 loaded and every other index EMPTY, launch sequence counters at 0; every register of BAR 0 is 0, so that every
window, root, domain, queue, ring, port, route, permit, peer and region is disabled, but for those whose reset value the spec gives
otherwise; and every tile has the shape of its reset. That a register whose reset value the spec does not give reads 0 is a DESIGN CHOICE:
log 3. -/
def Obligations.ResetHoldsStatedValues : Prop :=
  let s := State.reset
  s.team.isVacant = true ∧ s.rest = [] ∧ s.plain = [] ∧ s.basin = [] ∧ s.workgroups = [] ∧ s.boot = .starting ∧
  (∀ p, p < 32 → (s.window p).1 = false ∧ s.regBit (partReg p 0x018) 0 = false) ∧
  (∀ a, a < 4096 → s.regBit (rootReg a) 63 = false) ∧
  (∀ i, i < 65536 → s.keyState i = if i = 0 then 1 else 0) ∧
  (∀ vd, vd < 256 → s.lseqOf vd = 0 ∧ s.reg (vdReg vd 0x090) = 0x08000C00 ∧ s.regBit (vdReg vd 0x0D0) 63 = false ∧
    s.reg (vdReg vd 0x0C0) = 0x10000 ∧ (∀ q < 16, s.reg (vdReg vd (0x100 + 8 * q)) = 1) ∧
    (∀ o, o < 0x1000 → o ≠ 0x090 → o ≠ 0x0C0 → ¬(0x100 ≤ o ∧ o < 0x180) → s.reg (vdReg vd o) = 0)) ∧
  (∀ o, ¬(0x200000 ≤ o ∧ o < 0x300000) → o ≠ kstatReg 0 → o ≠ cthreshReg → s.reg o = 0) ∧
  (∀ mill n, mill < 512 → n < 32 → s.tshapeWord mill n = BitVec.ofNat 64 (1 * 2 ^ 16 + 64 * 2 ^ 8 + 64)) ∧
  s.reg cthreshReg = 0x100 ∧ s.reg bootrec = 0 ∧ s.reg 0x500000 = 0

/-- The memory of the module after reset has its canonical form. -/
def Obligations.MemoryWfHoldsAtReset : Prop := State.reset.memoryWf = true

/-- Every step keeps the canonical form of memory. -/
def Obligations.EveryStepKeepsMemoryWf : Prop := ∀ s t : State, s.memoryWf = true → step s = .next t → t.memoryWf = true
end

