-- ==== Sys2Proof/Laws/Map.lean ====
section
/-! SUPPORT. What reading, writing, splicing and clearing sparse data do, and that each keeps the canonical form. -/

namespace Sys2Proof.Machine

variable {β : Type} [DecidableEq β]

omit [DecidableEq β] in
theorem mapGet_none {d : β} {j : Nat} : ∀ {m : FMap β}, (∀ e ∈ m, e.1 ≠ j) → mapGet d m j = d
  | [], _ => rfl
  | e :: m, h => by
    simp only [mapGet]
    rw [if_neg (h e List.mem_cons_self), mapGet_none fun x hx => h x (List.mem_cons_of_mem _ hx)]

omit [DecidableEq β] in
theorem mapGet_append_left {d : β} {j : Nat} {b : FMap β} : ∀ {a : FMap β}, (∀ e ∈ a, e.1 ≠ j) →
    mapGet d (a ++ b) j = mapGet d b j
  | [], _ => rfl
  | e :: a, h => by
    simp only [List.cons_append, mapGet]
    rw [if_neg (h e List.mem_cons_self), mapGet_append_left fun x hx => h x (List.mem_cons_of_mem _ hx)]

omit [DecidableEq β] in
theorem mapGet_append_right {d : β} {j : Nat} {b : FMap β} (hb : ∀ e ∈ b, e.1 ≠ j) : ∀ {a : FMap β},
    mapGet d (a ++ b) j = mapGet d a j
  | [] => mapGet_none hb
  | e :: a => by
    simp only [List.cons_append, mapGet]
    rw [mapGet_append_right hb]

omit [DecidableEq β] in
/-- A part that keeps every entry of a key reads the key as the whole does. -/
theorem mapGet_filter {d : β} {j : Nat} {p : Nat × β → Bool} : ∀ {m : FMap β}, (∀ e ∈ m, e.1 = j → p e = true) →
    mapGet d (m.filter p) j = mapGet d m j
  | [], _ => rfl
  | e :: m, h => by
    have ih := mapGet_filter (d := d) fun x hx => h x (List.mem_cons_of_mem _ hx)
    simp only [List.filter_cons]
    split
    · simp only [mapGet]; rw [ih]
    · next hp =>
      simp only [mapGet]
      rw [ih, if_neg fun e' => hp (h e List.mem_cons_self e')]

omit [DecidableEq β] in
theorem mapGet_mapErase {d : β} {m : FMap β} {k j : Nat} : mapGet d (mapErase m k) j = if j = k then d else mapGet d m j := by
  unfold mapErase
  split
  · next h =>
    apply mapGet_none
    intro e he hj
    have := (List.mem_filter.mp he).2
    simp_all
  · next h =>
    apply mapGet_filter
    intro e _ he
    simpa [he] using h

omit [DecidableEq β] in
theorem mapGet_mapInsert {d v : β} {k j : Nat} : ∀ m : FMap β,
    mapGet d (mapInsert m k v) j = if j = k then v else mapGet d m j
  | [] => by simp only [mapInsert, mapGet, eq_comm]
  | (k', w) :: m => by
    simp only [mapInsert]
    split
    · simp only [mapGet, eq_comm]
    · split
      · next e => subst e; simp only [mapGet, eq_comm]; split <;> simp_all
      · simp only [mapGet]
        rw [mapGet_mapInsert m]
        split <;> split <;> simp_all

/-- Reading after a write: the value written there, and the old value elsewhere. -/
theorem mapGet_mapSet {d v : β} (m : FMap β) (k j : Nat) :
    mapGet d (mapSet d m k v) j = if j = k then v else mapGet d m j := by
  simp only [mapSet]
  split
  · next e => rw [mapGet_mapErase, e]
  · exact mapGet_mapInsert m

/-- The canonical form as a pairwise relation. -/
theorem mapOrdered_iff {d : β} : ∀ {m : FMap β} {lo : Option Nat}, mapOrdered d lo m = true ↔
    m.Pairwise (fun a b => a.1 < b.1) ∧ (∀ e ∈ m, e.2 ≠ d) ∧ (∀ e ∈ m, ∀ b, lo = some b → b < e.1)
  | [], lo => by simp [mapOrdered]
  | (k, v) :: m, lo => by
    simp only [mapOrdered, Bool.and_eq_true, decide_eq_true_eq, mapOrdered_iff (m := m), List.pairwise_cons, List.mem_cons]
    constructor
    · rintro ⟨⟨h1, h2⟩, h3, h4, h5⟩
      refine ⟨⟨fun e he => h5 e he k rfl, h3⟩, ?_, ?_⟩
      · rintro e (rfl | he)
        · exact h2
        · exact h4 e he
      · rintro e (rfl | he) b rfl
        · simpa using h1
        · have := h5 e he k rfl
          simp only [decide_eq_true_eq] at h1
          omega
    · rintro ⟨⟨h1, h2⟩, h3, h4⟩
      refine ⟨⟨?_, h3 _ (.inl rfl)⟩, h2, fun e he => h3 e (.inr he), ?_⟩
      · cases lo with
        | none => rfl
        | some b => simpa using h4 (k, v) (.inl rfl) b rfl
      · intro e he b hb
        cases hb
        exact h1 e he

theorem mapOrdered_mapErase {d : β} {k : Nat} {m : FMap β} {lo : Option Nat} (h : mapOrdered d lo m = true) :
    mapOrdered d lo (mapErase m k) = true := by
  rw [mapOrdered_iff] at *
  exact ⟨h.1.filter _, fun e he => h.2.1 e (List.mem_filter.mp he).1, fun e he => h.2.2 e (List.mem_filter.mp he).1⟩

theorem mapOrdered_mapInsert {d v : β} {k : Nat} (hv : v ≠ d) : ∀ {m : FMap β} {lo : Option Nat},
    mapOrdered d lo m = true → (∀ b, lo = some b → b < k) → mapOrdered d lo (mapInsert m k v) = true
  | [], lo, _, hk => by
    cases lo with
    | none => simp [mapInsert, mapOrdered, hv]
    | some b => simp [mapInsert, mapOrdered, hv, hk b rfl]
  | (k', w) :: m, lo, h, hk => by
    simp only [mapOrdered, Bool.and_eq_true, decide_eq_true_eq] at h
    simp only [mapInsert]
    split
    · next e =>
      simp only [mapOrdered, Bool.and_eq_true, decide_eq_true_eq]
      refine ⟨⟨?_, hv⟩, ⟨e, h.1.2⟩, h.2⟩
      cases lo with
      | none => rfl
      | some b => exact decide_eq_true (hk b rfl)
    · split
      · next e =>
        subst e
        simp only [mapOrdered, Bool.and_eq_true, decide_eq_true_eq]
        refine ⟨⟨?_, hv⟩, h.2⟩
        cases lo with
        | none => rfl
        | some b => exact decide_eq_true (hk b rfl)
      · simp only [mapOrdered, Bool.and_eq_true, decide_eq_true_eq]
        refine ⟨h.1, mapOrdered_mapInsert hv h.2 ?_⟩
        intro b e
        cases e
        omega

/-- A write keeps the canonical form. -/
theorem mapWf_mapSet {d v : β} {m : FMap β} (h : mapWf d m = true) (k : Nat) : mapWf d (mapSet d m k v) = true := by
  simp only [mapWf, mapSet] at *
  split
  · exact mapOrdered_mapErase h
  · next e => exact mapOrdered_mapInsert e h (by simp)

/-- Several writes keep the canonical form. -/
theorem mapWf_mapSetMany {d : β} (ws : List (Nat × β)) : ∀ {m : FMap β}, mapWf d m = true → mapWf d (mapSetMany d m ws) = true := by
  induction ws with
  | nil => exact fun h => h
  | cons w ws ih => exact fun h => ih (mapWf_mapSet h w.1)

/-- Several writes leave every other key alone. -/
theorem mapGet_mapSetMany_other {d : β} (ws : List (Nat × β)) {j : Nat} : ∀ {m : FMap β}, (∀ w ∈ ws, w.1 ≠ j) →
    mapGet d (mapSetMany d m ws) j = mapGet d m j := by
  induction ws with
  | nil => exact fun _ => rfl
  | cons w ws ih =>
    intro m h
    show mapGet d (mapSetMany d (mapSet d m w.1 w.2) ws) j = mapGet d m j
    rw [ih fun x hx => h x (List.mem_cons_of_mem _ hx), mapGet_mapSet, if_neg]
    exact fun e => h w List.mem_cons_self e.symm

/-- Several writes to distinct keys: each key holds its value. -/
theorem mapGet_mapSetMany_mem {d : β} (ws : List (Nat × β)) : ∀ {m : FMap β} {w : Nat × β},
    (ws.map (·.1)).Nodup → w ∈ ws → mapGet d (mapSetMany d m ws) w.1 = w.2 := by
  induction ws with
  | nil => intro m w _ h; cases h
  | cons x ws ih =>
    intro m w hn h
    simp only [List.map_cons, List.nodup_cons] at hn
    show mapGet d (mapSetMany d (mapSet d m x.1 x.2) ws) w.1 = w.2
    cases List.mem_cons.mp h with
    | inl e =>
      subst e
      rw [mapGet_mapSetMany_other ws, mapGet_mapSet, if_pos rfl]
      exact fun y hy e => hn.1 (List.mem_map.mpr ⟨y, hy, e⟩)
    | inr h => exact ih hn.2 h

/-! ## Splice and clear -/

theorem mapWf_iff {d : β} {m : FMap β} : mapWf d m = true ↔ m.Pairwise (fun a b => a.1 < b.1) ∧ ∀ e ∈ m, e.2 ≠ d := by
  simp [mapWf, mapOrdered_iff]

/-- A part of a map in canonical form is in canonical form. -/
theorem mapWf_filter {d : β} {m : FMap β} (h : mapWf d m = true) (p : Nat × β → Bool) : mapWf d (m.filter p) = true := by
  rw [mapWf_iff] at *
  exact ⟨h.1.filter _, fun e he => h.2 e (List.mem_filter.mp he).1⟩

/-- Clearing keys keeps the canonical form. -/
theorem mapWf_mapClear {d : β} {m : FMap β} (h : mapWf d m = true) (lo hi : Nat) : mapWf d (mapClear m lo hi) = true :=
  mapWf_filter h _

omit [DecidableEq β] in
theorem zipIdx_pairwise (vs : List β) (lo : Nat) : (vs.zipIdx lo).Pairwise fun a b => a.2 < b.2 := by
  induction vs generalizing lo with
  | nil => exact List.Pairwise.nil
  | cons v vs ih =>
    rw [List.zipIdx_cons, List.pairwise_cons]
    refine ⟨fun e he => ?_, ih (lo + 1)⟩
    have := List.mem_zipIdx he
    omega

/-- A splice keeps the canonical form. -/
theorem mapWf_mapSplice {d : β} {m : FMap β} (h : mapWf d m = true) (lo : Nat) (vs : List β) :
    mapWf d (mapSplice d m lo vs) = true := by
  rw [mapWf_iff] at *
  simp only [mapSplice, List.pairwise_append, List.mem_append, List.mem_filter, List.mem_map, decide_eq_true_eq]
  refine ⟨⟨⟨h.1.filter _, ?_, ?_⟩, h.1.filter _, ?_⟩, ?_⟩
  · rw [List.pairwise_map]
    exact ((zipIdx_pairwise vs lo).filter _).imp fun h => h
  · rintro a ⟨-, ha⟩ b ⟨e, ⟨he, -⟩, rfl⟩
    have := List.mem_zipIdx he
    omega
  · rintro a (⟨-, ha⟩ | ⟨e, ⟨he, -⟩, rfl⟩) b ⟨-, hb⟩
    · omega
    · have := List.mem_zipIdx he
      simp only []
      omega
  · rintro e ((⟨he, -⟩ | ⟨x, ⟨-, hx⟩, rfl⟩) | ⟨he, -⟩)
    · exact h.2 e he
    · exact hx
    · exact h.2 e he

omit [DecidableEq β] in
/-- Reading after clearing: what an unlisted key reads as in the range, the old value elsewhere. -/
theorem mapGet_mapClear {d : β} {m : FMap β} {lo hi j : Nat} :
    mapGet d (mapClear m lo hi) j = if lo ≤ j ∧ j < hi then d else mapGet d m j := by
  unfold mapClear
  split
  · next h =>
    apply mapGet_none
    intro e he hj
    have := (List.mem_filter.mp he).2
    simp only [Bool.or_eq_true, decide_eq_true_eq] at this
    omega
  · next h =>
    apply mapGet_filter
    intro e _ hj
    simp only [Bool.or_eq_true, decide_eq_true_eq]
    omega

theorem mapGet_zip {d : β} {j : Nat} : ∀ (vs : List β) (lo : Nat),
    mapGet d (((vs.zipIdx lo).filter fun e => decide (e.1 ≠ d)).map fun e => (e.2, e.1)) j =
      if lo ≤ j then vs.getD (j - lo) d else d
  | [], lo => by simp [mapGet]
  | v :: vs, lo => by
    have ih := mapGet_zip (d := d) (j := j) vs (lo + 1)
    rw [List.zipIdx_cons, List.filter_cons]
    by_cases hv : v = d
    · rw [if_neg (by simpa using hv), ih]
      by_cases h : lo + 1 ≤ j
      · rw [if_pos h, if_pos (by omega), show j - lo = (j - (lo + 1)) + 1 by omega]
        rfl
      · rw [if_neg h]
        split
        · rw [show j - lo = 0 by omega]
          exact hv.symm
        · rfl
    · rw [if_pos (by simpa using hv), List.map_cons]
      simp only [mapGet]
      by_cases hj : lo = j
      · rw [if_pos hj, if_pos (by omega), show j - lo = 0 by omega]
        rfl
      · rw [if_neg hj, ih]
        by_cases h : lo + 1 ≤ j
        · rw [if_pos h, if_pos (by omega), show j - lo = (j - (lo + 1)) + 1 by omega]
          rfl
        · rw [if_neg h, if_neg (by omega)]

/-- Reading after a splice: the new values in the range, the old ones elsewhere. -/
theorem mapGet_mapSplice {d : β} {m : FMap β} {lo : Nat} {vs : List β} {j : Nat} :
    mapGet d (mapSplice d m lo vs) j = if lo ≤ j ∧ j < lo + vs.length then vs.getD (j - lo) d else mapGet d m j := by
  unfold mapSplice
  split
  · next h =>
    rw [mapGet_append_right, mapGet_append_left, mapGet_zip, if_pos h.1]
    · intro e he hj
      have := (List.mem_filter.mp he).2
      simp only [decide_eq_true_eq] at this
      omega
    · intro e he hj
      have := (List.mem_filter.mp he).2
      simp only [decide_eq_true_eq] at this
      omega
  · next h =>
    have mid : ∀ e ∈ ((vs.zipIdx lo).filter fun e => decide (e.1 ≠ d)).map (fun e => (e.2, e.1)), e.1 ≠ j := by
      intro e he hj
      obtain ⟨x, hx, rfl⟩ := List.mem_map.mp he
      have := List.mem_zipIdx (List.mem_filter.mp hx).1
      simp only at hj
      omega
    by_cases hj : j < lo
    · rw [mapGet_append_right, mapGet_append_right mid]
      · apply mapGet_filter
        intro e _ he
        simpa [he] using hj
      · intro e he hj
        have := (List.mem_filter.mp he).2
        simp only [decide_eq_true_eq] at this
        omega
    · rw [List.append_assoc, mapGet_append_left, mapGet_append_left mid]
      · apply mapGet_filter
        intro e _ he
        simp only [decide_eq_true_eq]
        omega
      · intro e he hj
        have := (List.mem_filter.mp he).2
        simp only [decide_eq_true_eq] at this
        omega

end Sys2Proof.Machine
end

