-- ==== Sys2Proof/Laws/State.lean ====
section
/-! SUPPORT. What each update of a team and of the module does to each field: one lemma for a field and an update. -/

namespace Sys2Proof.Machine

/-! ## A team's registers -/

@[simp] theorem Team.setU_uid (x : Team) (n : Nat) (w : Word) : (x.setU n w).uid = x.uid := rfl
@[simp] theorem Team.setU_status (x : Team) (n : Nat) (w : Word) : (x.setU n w).status = x.status := rfl
@[simp] theorem Team.setU_vd (x : Team) (n : Nat) (w : Word) : (x.setU n w).vd = x.vd := rfl
@[simp] theorem Team.setU_asid (x : Team) (n : Nat) (w : Word) : (x.setU n w).asid = x.asid := rfl
@[simp] theorem Team.setU_mill (x : Team) (n : Nat) (w : Word) : (x.setU n w).mill = x.mill := rfl
@[simp] theorem Team.setU_wheel (x : Team) (n : Nat) (w : Word) : (x.setU n w).wheel = x.wheel := rfl
@[simp] theorem Team.setU_slot (x : Team) (n : Nat) (w : Word) : (x.setU n w).slot = x.slot := rfl
@[simp] theorem Team.setU_wg (x : Team) (n : Nat) (w : Word) : (x.setU n w).wg = x.wg := rfl
@[simp] theorem Team.setU_tindex (x : Team) (n : Nat) (w : Word) : (x.setU n w).tindex = x.tindex := rfl
@[simp] theorem Team.setU_lseq (x : Team) (n : Nat) (w : Word) : (x.setU n w).lseq = x.lseq := rfl
@[simp] theorem Team.setU_level (x : Team) (n : Nat) (w : Word) : (x.setU n w).level = x.level := rfl
@[simp] theorem Team.setU_lanes (x : Team) (n : Nat) (w : Word) : (x.setU n w).lanes = x.lanes := rfl
@[simp] theorem Team.setU_regs (x : Team) (n : Nat) (w : Word) : (x.setU n w).regs = x.regs := rfl
@[simp] theorem Team.setU_pc (x : Team) (n : Nat) (w : Word) : (x.setU n w).pc = x.pc := rfl
@[simp] theorem Team.setU_uregs (x : Team) (n : Nat) (w : Word) : (x.setU n w).uregs = mapSet 0 x.uregs n w := rfl
@[simp] theorem Team.setU_vregs (x : Team) (n : Nat) (w : Word) : (x.setU n w).vregs = x.vregs := rfl
@[simp] theorem Team.setU_preds (x : Team) (n : Nat) (w : Word) : (x.setU n w).preds = x.preds := rfl
@[simp] theorem Team.setU_mask (x : Team) (n : Nat) (w : Word) : (x.setU n w).mask = x.mask := rfl
@[simp] theorem Team.setU_stack (x : Team) (n : Nat) (w : Word) : (x.setU n w).stack = x.stack := rfl
@[simp] theorem Team.setU_mode (x : Team) (n : Nat) (w : Word) : (x.setU n w).mode = x.mode := rfl
@[simp] theorem Team.setU_flags (x : Team) (n : Nat) (w : Word) : (x.setU n w).flags = x.flags := rfl
@[simp] theorem Team.setU_plot (x : Team) (n : Nat) (w : Word) : (x.setU n w).plot = x.plot := rfl
@[simp] theorem Team.setU_defer (x : Team) (n : Nat) (w : Word) : (x.setU n w).defer = x.defer := rfl
@[simp] theorem Team.setU_closure (x : Team) (n : Nat) (w : Word) : (x.setU n w).closure = x.closure := rfl
@[simp] theorem Team.setU_shelved (x : Team) (n : Nat) (w : Word) : (x.setU n w).shelved = x.shelved := rfl
@[simp] theorem Team.setU_mainPc (x : Team) (n : Nat) (w : Word) : (x.setU n w).mainPc = x.mainPc := rfl
@[simp] theorem Team.setU_cause (x : Team) (n : Nat) (w : Word) : (x.setU n w).cause = x.cause := rfl
@[simp] theorem Team.setU_epc (x : Team) (n : Nat) (w : Word) : (x.setU n w).epc = x.epc := rfl
@[simp] theorem Team.setU_tval (x : Team) (n : Nat) (w : Word) : (x.setU n w).tval = x.tval := rfl
@[simp] theorem Team.setU_fmask (x : Team) (n : Nat) (w : Word) : (x.setU n w).fmask = x.fmask := rfl
@[simp] theorem Team.setU_frame (x : Team) (n : Nat) (w : Word) : (x.setU n w).frame = x.frame := rfl
@[simp] theorem Team.setU_leaseHeld (x : Team) (n : Nat) (w : Word) : (x.setU n w).leaseHeld = x.leaseHeld := rfl
@[simp] theorem Team.setU_leaseGrant (x : Team) (n : Nat) (w : Word) : (x.setU n w).leaseGrant = x.leaseGrant := rfl
@[simp] theorem Team.setU_leaseRemain (x : Team) (n : Nat) (w : Word) : (x.setU n w).leaseRemain = x.leaseRemain := rfl
@[simp] theorem Team.setU_releasing (x : Team) (n : Nat) (w : Word) : (x.setU n w).releasing = x.releasing := rfl
@[simp] theorem Team.setU_stepNo (x : Team) (n : Nat) (w : Word) : (x.setU n w).stepNo = x.stepNo := rfl
@[simp] theorem Team.setU_packetSeq (x : Team) (n : Nat) (w : Word) : (x.setU n w).packetSeq = x.packetSeq := rfl
@[simp] theorem Team.setU_rndLog (x : Team) (n : Nat) (w : Word) : (x.setU n w).rndLog = x.rndLog := rfl
@[simp] theorem Team.setU_claims (x : Team) (n : Nat) (w : Word) : (x.setU n w).claims = x.claims := rfl
@[simp] theorem Team.setU_point (x : Team) (n : Nat) (w : Word) : (x.setU n w).point = x.point := rfl
@[simp] theorem Team.setU_unrewindable (x : Team) (n : Nat) (w : Word) : (x.setU n w).unrewindable = x.unrewindable := rfl
@[simp] theorem Team.setU_rewound (x : Team) (n : Nat) (w : Word) : (x.setU n w).rewound = x.rewound := rfl
@[simp] theorem Team.setU_age (x : Team) (n : Nat) (w : Word) : (x.setU n w).age = x.age := rfl
@[simp] theorem Team.setU_arrival (x : Team) (n : Nat) (w : Word) : (x.setU n w).arrival = x.arrival := rfl
@[simp] theorem Team.setU_donation (x : Team) (n : Nat) (w : Word) : (x.setU n w).donation = x.donation := rfl
@[simp] theorem Team.setU_maxG (x : Team) (n : Nat) (w : Word) : (x.setU n w).maxG = x.maxG := rfl
@[simp] theorem Team.setU_maxT (x : Team) (n : Nat) (w : Word) : (x.setU n w).maxT = x.maxT := rfl
@[simp] theorem Team.setU_maxA (x : Team) (n : Nat) (w : Word) : (x.setU n w).maxA = x.maxA := rfl
@[simp] theorem Team.setU_tiles (x : Team) (n : Nat) (w : Word) : (x.setU n w).tiles = x.tiles := rfl
@[simp] theorem Team.setU_accs (x : Team) (n : Nat) (w : Word) : (x.setU n w).accs = x.accs := rfl
@[simp] theorem Team.setU_saveSlice (x : Team) (n : Nat) (w : Word) : (x.setU n w).saveSlice = x.saveSlice := rfl
@[simp] theorem Team.setU_saveOff (x : Team) (n : Nat) (w : Word) : (x.setU n w).saveOff = x.saveOff := rfl
@[simp] theorem Team.setU_pendingTrap (x : Team) (n : Nat) (w : Word) : (x.setU n w).pendingTrap = x.pendingTrap := rfl
@[simp] theorem Team.setU_heldTrap (x : Team) (n : Nat) (w : Word) : (x.setU n w).heldTrap = x.heldTrap := rfl
@[simp] theorem Team.setU_shelvedTrap (x : Team) (n : Nat) (w : Word) : (x.setU n w).shelvedTrap = x.shelvedTrap := rfl
@[simp] theorem Team.setU_ppoison (x : Team) (n : Nat) (w : Word) : (x.setU n w).ppoison = x.ppoison := rfl
@[simp] theorem Team.setU_covered (x : Team) (n : Nat) (w : Word) : (x.setU n w).covered = x.covered := rfl
@[simp] theorem Team.setU_drains (x : Team) (n : Nat) (w : Word) : (x.setU n w).drains = x.drains := rfl
@[simp] theorem Team.setU_fault (x : Team) (n : Nat) (w : Word) : (x.setU n w).fault = x.fault := rfl
@[simp] theorem Team.setU_guestSeq (x : Team) (n : Nat) (w : Word) : (x.setU n w).guestSeq = x.guestSeq := rfl
@[simp] theorem Team.setU_vpoison (x : Team) (n : Nat) (w : Word) : (x.setU n w).vpoison = x.vpoison := rfl
@[simp] theorem Team.setU_upoison (x : Team) (n : Nat) (w : Word) : (x.setU n w).upoison = x.upoison.filter (· != n) := rfl

/-! ## A team's vector registers -/

@[simp] theorem Team.setV_uid (x : Team) (r : Nat) (ws : List (Nat × Lane)) : (x.setV r ws).uid = x.uid := rfl
@[simp] theorem Team.setV_status (x : Team) (r : Nat) (ws : List (Nat × Lane)) : (x.setV r ws).status = x.status := rfl
@[simp] theorem Team.setV_vd (x : Team) (r : Nat) (ws : List (Nat × Lane)) : (x.setV r ws).vd = x.vd := rfl
@[simp] theorem Team.setV_asid (x : Team) (r : Nat) (ws : List (Nat × Lane)) : (x.setV r ws).asid = x.asid := rfl
@[simp] theorem Team.setV_mill (x : Team) (r : Nat) (ws : List (Nat × Lane)) : (x.setV r ws).mill = x.mill := rfl
@[simp] theorem Team.setV_wheel (x : Team) (r : Nat) (ws : List (Nat × Lane)) : (x.setV r ws).wheel = x.wheel := rfl
@[simp] theorem Team.setV_slot (x : Team) (r : Nat) (ws : List (Nat × Lane)) : (x.setV r ws).slot = x.slot := rfl
@[simp] theorem Team.setV_wg (x : Team) (r : Nat) (ws : List (Nat × Lane)) : (x.setV r ws).wg = x.wg := rfl
@[simp] theorem Team.setV_tindex (x : Team) (r : Nat) (ws : List (Nat × Lane)) : (x.setV r ws).tindex = x.tindex := rfl
@[simp] theorem Team.setV_lseq (x : Team) (r : Nat) (ws : List (Nat × Lane)) : (x.setV r ws).lseq = x.lseq := rfl
@[simp] theorem Team.setV_level (x : Team) (r : Nat) (ws : List (Nat × Lane)) : (x.setV r ws).level = x.level := rfl
@[simp] theorem Team.setV_lanes (x : Team) (r : Nat) (ws : List (Nat × Lane)) : (x.setV r ws).lanes = x.lanes := rfl
@[simp] theorem Team.setV_regs (x : Team) (r : Nat) (ws : List (Nat × Lane)) : (x.setV r ws).regs = x.regs := rfl
@[simp] theorem Team.setV_pc (x : Team) (r : Nat) (ws : List (Nat × Lane)) : (x.setV r ws).pc = x.pc := rfl
@[simp] theorem Team.setV_uregs (x : Team) (r : Nat) (ws : List (Nat × Lane)) : (x.setV r ws).uregs = x.uregs := rfl
@[simp] theorem Team.setV_preds (x : Team) (r : Nat) (ws : List (Nat × Lane)) : (x.setV r ws).preds = x.preds := rfl
@[simp] theorem Team.setV_mask (x : Team) (r : Nat) (ws : List (Nat × Lane)) : (x.setV r ws).mask = x.mask := rfl
@[simp] theorem Team.setV_stack (x : Team) (r : Nat) (ws : List (Nat × Lane)) : (x.setV r ws).stack = x.stack := rfl
@[simp] theorem Team.setV_mode (x : Team) (r : Nat) (ws : List (Nat × Lane)) : (x.setV r ws).mode = x.mode := rfl
@[simp] theorem Team.setV_flags (x : Team) (r : Nat) (ws : List (Nat × Lane)) : (x.setV r ws).flags = x.flags := rfl
@[simp] theorem Team.setV_plot (x : Team) (r : Nat) (ws : List (Nat × Lane)) : (x.setV r ws).plot = x.plot := rfl
@[simp] theorem Team.setV_defer (x : Team) (r : Nat) (ws : List (Nat × Lane)) : (x.setV r ws).defer = x.defer := rfl
@[simp] theorem Team.setV_closure (x : Team) (r : Nat) (ws : List (Nat × Lane)) : (x.setV r ws).closure = x.closure := rfl
@[simp] theorem Team.setV_shelved (x : Team) (r : Nat) (ws : List (Nat × Lane)) : (x.setV r ws).shelved = x.shelved := rfl
@[simp] theorem Team.setV_mainPc (x : Team) (r : Nat) (ws : List (Nat × Lane)) : (x.setV r ws).mainPc = x.mainPc := rfl
@[simp] theorem Team.setV_cause (x : Team) (r : Nat) (ws : List (Nat × Lane)) : (x.setV r ws).cause = x.cause := rfl
@[simp] theorem Team.setV_epc (x : Team) (r : Nat) (ws : List (Nat × Lane)) : (x.setV r ws).epc = x.epc := rfl
@[simp] theorem Team.setV_tval (x : Team) (r : Nat) (ws : List (Nat × Lane)) : (x.setV r ws).tval = x.tval := rfl
@[simp] theorem Team.setV_fmask (x : Team) (r : Nat) (ws : List (Nat × Lane)) : (x.setV r ws).fmask = x.fmask := rfl
@[simp] theorem Team.setV_frame (x : Team) (r : Nat) (ws : List (Nat × Lane)) : (x.setV r ws).frame = x.frame := rfl
@[simp] theorem Team.setV_leaseHeld (x : Team) (r : Nat) (ws : List (Nat × Lane)) : (x.setV r ws).leaseHeld = x.leaseHeld := rfl
@[simp] theorem Team.setV_leaseGrant (x : Team) (r : Nat) (ws : List (Nat × Lane)) : (x.setV r ws).leaseGrant = x.leaseGrant := rfl
@[simp] theorem Team.setV_leaseRemain (x : Team) (r : Nat) (ws : List (Nat × Lane)) : (x.setV r ws).leaseRemain = x.leaseRemain := rfl
@[simp] theorem Team.setV_releasing (x : Team) (r : Nat) (ws : List (Nat × Lane)) : (x.setV r ws).releasing = x.releasing := rfl
@[simp] theorem Team.setV_stepNo (x : Team) (r : Nat) (ws : List (Nat × Lane)) : (x.setV r ws).stepNo = x.stepNo := rfl
@[simp] theorem Team.setV_packetSeq (x : Team) (r : Nat) (ws : List (Nat × Lane)) : (x.setV r ws).packetSeq = x.packetSeq := rfl
@[simp] theorem Team.setV_rndLog (x : Team) (r : Nat) (ws : List (Nat × Lane)) : (x.setV r ws).rndLog = x.rndLog := rfl
@[simp] theorem Team.setV_claims (x : Team) (r : Nat) (ws : List (Nat × Lane)) : (x.setV r ws).claims = x.claims := rfl
@[simp] theorem Team.setV_point (x : Team) (r : Nat) (ws : List (Nat × Lane)) : (x.setV r ws).point = x.point := rfl
@[simp] theorem Team.setV_unrewindable (x : Team) (r : Nat) (ws : List (Nat × Lane)) : (x.setV r ws).unrewindable = x.unrewindable := rfl
@[simp] theorem Team.setV_rewound (x : Team) (r : Nat) (ws : List (Nat × Lane)) : (x.setV r ws).rewound = x.rewound := rfl
@[simp] theorem Team.setV_age (x : Team) (r : Nat) (ws : List (Nat × Lane)) : (x.setV r ws).age = x.age := rfl
@[simp] theorem Team.setV_arrival (x : Team) (r : Nat) (ws : List (Nat × Lane)) : (x.setV r ws).arrival = x.arrival := rfl
@[simp] theorem Team.setV_donation (x : Team) (r : Nat) (ws : List (Nat × Lane)) : (x.setV r ws).donation = x.donation := rfl
@[simp] theorem Team.setV_maxG (x : Team) (r : Nat) (ws : List (Nat × Lane)) : (x.setV r ws).maxG = x.maxG := rfl
@[simp] theorem Team.setV_maxT (x : Team) (r : Nat) (ws : List (Nat × Lane)) : (x.setV r ws).maxT = x.maxT := rfl
@[simp] theorem Team.setV_maxA (x : Team) (r : Nat) (ws : List (Nat × Lane)) : (x.setV r ws).maxA = x.maxA := rfl
@[simp] theorem Team.setV_tiles (x : Team) (r : Nat) (ws : List (Nat × Lane)) : (x.setV r ws).tiles = x.tiles := rfl
@[simp] theorem Team.setV_accs (x : Team) (r : Nat) (ws : List (Nat × Lane)) : (x.setV r ws).accs = x.accs := rfl
@[simp] theorem Team.setV_saveSlice (x : Team) (r : Nat) (ws : List (Nat × Lane)) : (x.setV r ws).saveSlice = x.saveSlice := rfl
@[simp] theorem Team.setV_saveOff (x : Team) (r : Nat) (ws : List (Nat × Lane)) : (x.setV r ws).saveOff = x.saveOff := rfl
@[simp] theorem Team.setV_pendingTrap (x : Team) (r : Nat) (ws : List (Nat × Lane)) : (x.setV r ws).pendingTrap = x.pendingTrap := rfl
@[simp] theorem Team.setV_heldTrap (x : Team) (r : Nat) (ws : List (Nat × Lane)) : (x.setV r ws).heldTrap = x.heldTrap := rfl
@[simp] theorem Team.setV_shelvedTrap (x : Team) (r : Nat) (ws : List (Nat × Lane)) : (x.setV r ws).shelvedTrap = x.shelvedTrap := rfl
@[simp] theorem Team.setV_ppoison (x : Team) (r : Nat) (ws : List (Nat × Lane)) : (x.setV r ws).ppoison = x.ppoison := rfl
@[simp] theorem Team.setV_covered (x : Team) (r : Nat) (ws : List (Nat × Lane)) : (x.setV r ws).covered = x.covered := rfl
@[simp] theorem Team.setV_drains (x : Team) (r : Nat) (ws : List (Nat × Lane)) : (x.setV r ws).drains = x.drains := rfl
@[simp] theorem Team.setV_fault (x : Team) (r : Nat) (ws : List (Nat × Lane)) : (x.setV r ws).fault = x.fault := rfl
@[simp] theorem Team.setV_guestSeq (x : Team) (r : Nat) (ws : List (Nat × Lane)) : (x.setV r ws).guestSeq = x.guestSeq := rfl
@[simp] theorem Team.setV_upoison (x : Team) (r : Nat) (ws : List (Nat × Lane)) : (x.setV r ws).upoison = x.upoison := rfl

/-! ## A team's predicates -/

@[simp] theorem Team.setP_uid (x : Team) (n : Nat) (m : Mask) : (x.setP n m).uid = x.uid := rfl
@[simp] theorem Team.setP_status (x : Team) (n : Nat) (m : Mask) : (x.setP n m).status = x.status := rfl
@[simp] theorem Team.setP_vd (x : Team) (n : Nat) (m : Mask) : (x.setP n m).vd = x.vd := rfl
@[simp] theorem Team.setP_asid (x : Team) (n : Nat) (m : Mask) : (x.setP n m).asid = x.asid := rfl
@[simp] theorem Team.setP_mill (x : Team) (n : Nat) (m : Mask) : (x.setP n m).mill = x.mill := rfl
@[simp] theorem Team.setP_wheel (x : Team) (n : Nat) (m : Mask) : (x.setP n m).wheel = x.wheel := rfl
@[simp] theorem Team.setP_slot (x : Team) (n : Nat) (m : Mask) : (x.setP n m).slot = x.slot := rfl
@[simp] theorem Team.setP_wg (x : Team) (n : Nat) (m : Mask) : (x.setP n m).wg = x.wg := rfl
@[simp] theorem Team.setP_tindex (x : Team) (n : Nat) (m : Mask) : (x.setP n m).tindex = x.tindex := rfl
@[simp] theorem Team.setP_lseq (x : Team) (n : Nat) (m : Mask) : (x.setP n m).lseq = x.lseq := rfl
@[simp] theorem Team.setP_level (x : Team) (n : Nat) (m : Mask) : (x.setP n m).level = x.level := rfl
@[simp] theorem Team.setP_lanes (x : Team) (n : Nat) (m : Mask) : (x.setP n m).lanes = x.lanes := rfl
@[simp] theorem Team.setP_regs (x : Team) (n : Nat) (m : Mask) : (x.setP n m).regs = x.regs := rfl
@[simp] theorem Team.setP_pc (x : Team) (n : Nat) (m : Mask) : (x.setP n m).pc = x.pc := rfl
@[simp] theorem Team.setP_uregs (x : Team) (n : Nat) (m : Mask) : (x.setP n m).uregs = x.uregs := rfl
@[simp] theorem Team.setP_vregs (x : Team) (n : Nat) (m : Mask) : (x.setP n m).vregs = x.vregs := rfl
@[simp] theorem Team.setP_preds (x : Team) (n : Nat) (m : Mask) : (x.setP n m).preds = mapSet 0 x.preds n m := rfl
@[simp] theorem Team.setP_mask (x : Team) (n : Nat) (m : Mask) : (x.setP n m).mask = x.mask := rfl
@[simp] theorem Team.setP_stack (x : Team) (n : Nat) (m : Mask) : (x.setP n m).stack = x.stack := rfl
@[simp] theorem Team.setP_mode (x : Team) (n : Nat) (m : Mask) : (x.setP n m).mode = x.mode := rfl
@[simp] theorem Team.setP_flags (x : Team) (n : Nat) (m : Mask) : (x.setP n m).flags = x.flags := rfl
@[simp] theorem Team.setP_plot (x : Team) (n : Nat) (m : Mask) : (x.setP n m).plot = x.plot := rfl
@[simp] theorem Team.setP_defer (x : Team) (n : Nat) (m : Mask) : (x.setP n m).defer = x.defer := rfl
@[simp] theorem Team.setP_closure (x : Team) (n : Nat) (m : Mask) : (x.setP n m).closure = x.closure := rfl
@[simp] theorem Team.setP_shelved (x : Team) (n : Nat) (m : Mask) : (x.setP n m).shelved = x.shelved := rfl
@[simp] theorem Team.setP_mainPc (x : Team) (n : Nat) (m : Mask) : (x.setP n m).mainPc = x.mainPc := rfl
@[simp] theorem Team.setP_cause (x : Team) (n : Nat) (m : Mask) : (x.setP n m).cause = x.cause := rfl
@[simp] theorem Team.setP_epc (x : Team) (n : Nat) (m : Mask) : (x.setP n m).epc = x.epc := rfl
@[simp] theorem Team.setP_tval (x : Team) (n : Nat) (m : Mask) : (x.setP n m).tval = x.tval := rfl
@[simp] theorem Team.setP_fmask (x : Team) (n : Nat) (m : Mask) : (x.setP n m).fmask = x.fmask := rfl
@[simp] theorem Team.setP_frame (x : Team) (n : Nat) (m : Mask) : (x.setP n m).frame = x.frame := rfl
@[simp] theorem Team.setP_leaseHeld (x : Team) (n : Nat) (m : Mask) : (x.setP n m).leaseHeld = x.leaseHeld := rfl
@[simp] theorem Team.setP_leaseGrant (x : Team) (n : Nat) (m : Mask) : (x.setP n m).leaseGrant = x.leaseGrant := rfl
@[simp] theorem Team.setP_leaseRemain (x : Team) (n : Nat) (m : Mask) : (x.setP n m).leaseRemain = x.leaseRemain := rfl
@[simp] theorem Team.setP_releasing (x : Team) (n : Nat) (m : Mask) : (x.setP n m).releasing = x.releasing := rfl
@[simp] theorem Team.setP_stepNo (x : Team) (n : Nat) (m : Mask) : (x.setP n m).stepNo = x.stepNo := rfl
@[simp] theorem Team.setP_packetSeq (x : Team) (n : Nat) (m : Mask) : (x.setP n m).packetSeq = x.packetSeq := rfl
@[simp] theorem Team.setP_rndLog (x : Team) (n : Nat) (m : Mask) : (x.setP n m).rndLog = x.rndLog := rfl
@[simp] theorem Team.setP_claims (x : Team) (n : Nat) (m : Mask) : (x.setP n m).claims = x.claims := rfl
@[simp] theorem Team.setP_point (x : Team) (n : Nat) (m : Mask) : (x.setP n m).point = x.point := rfl
@[simp] theorem Team.setP_unrewindable (x : Team) (n : Nat) (m : Mask) : (x.setP n m).unrewindable = x.unrewindable := rfl
@[simp] theorem Team.setP_rewound (x : Team) (n : Nat) (m : Mask) : (x.setP n m).rewound = x.rewound := rfl
@[simp] theorem Team.setP_age (x : Team) (n : Nat) (m : Mask) : (x.setP n m).age = x.age := rfl
@[simp] theorem Team.setP_arrival (x : Team) (n : Nat) (m : Mask) : (x.setP n m).arrival = x.arrival := rfl
@[simp] theorem Team.setP_donation (x : Team) (n : Nat) (m : Mask) : (x.setP n m).donation = x.donation := rfl
@[simp] theorem Team.setP_maxG (x : Team) (n : Nat) (m : Mask) : (x.setP n m).maxG = x.maxG := rfl
@[simp] theorem Team.setP_maxT (x : Team) (n : Nat) (m : Mask) : (x.setP n m).maxT = x.maxT := rfl
@[simp] theorem Team.setP_maxA (x : Team) (n : Nat) (m : Mask) : (x.setP n m).maxA = x.maxA := rfl
@[simp] theorem Team.setP_tiles (x : Team) (n : Nat) (m : Mask) : (x.setP n m).tiles = x.tiles := rfl
@[simp] theorem Team.setP_accs (x : Team) (n : Nat) (m : Mask) : (x.setP n m).accs = x.accs := rfl
@[simp] theorem Team.setP_saveSlice (x : Team) (n : Nat) (m : Mask) : (x.setP n m).saveSlice = x.saveSlice := rfl
@[simp] theorem Team.setP_saveOff (x : Team) (n : Nat) (m : Mask) : (x.setP n m).saveOff = x.saveOff := rfl
@[simp] theorem Team.setP_pendingTrap (x : Team) (n : Nat) (m : Mask) : (x.setP n m).pendingTrap = x.pendingTrap := rfl
@[simp] theorem Team.setP_heldTrap (x : Team) (n : Nat) (m : Mask) : (x.setP n m).heldTrap = x.heldTrap := rfl
@[simp] theorem Team.setP_shelvedTrap (x : Team) (n : Nat) (m : Mask) : (x.setP n m).shelvedTrap = x.shelvedTrap := rfl
@[simp] theorem Team.setP_ppoison (x : Team) (n : Nat) (m : Mask) : (x.setP n m).ppoison = x.ppoison := rfl
@[simp] theorem Team.setP_covered (x : Team) (n : Nat) (m : Mask) : (x.setP n m).covered = x.covered := rfl
@[simp] theorem Team.setP_drains (x : Team) (n : Nat) (m : Mask) : (x.setP n m).drains = x.drains := rfl
@[simp] theorem Team.setP_fault (x : Team) (n : Nat) (m : Mask) : (x.setP n m).fault = x.fault := rfl
@[simp] theorem Team.setP_guestSeq (x : Team) (n : Nat) (m : Mask) : (x.setP n m).guestSeq = x.guestSeq := rfl
@[simp] theorem Team.setP_vpoison (x : Team) (n : Nat) (m : Mask) : (x.setP n m).vpoison = x.vpoison := rfl
@[simp] theorem Team.setP_upoison (x : Team) (n : Nat) (m : Mask) : (x.setP n m).upoison = x.upoison := rfl

/-! ## A team's predicate poison -/

@[simp] theorem Team.soundP_uid (x : Team) (n : Nat) (ls : List Nat) : (x.soundP n ls).uid = x.uid := rfl
@[simp] theorem Team.soundP_status (x : Team) (n : Nat) (ls : List Nat) : (x.soundP n ls).status = x.status := rfl
@[simp] theorem Team.soundP_vd (x : Team) (n : Nat) (ls : List Nat) : (x.soundP n ls).vd = x.vd := rfl
@[simp] theorem Team.soundP_asid (x : Team) (n : Nat) (ls : List Nat) : (x.soundP n ls).asid = x.asid := rfl
@[simp] theorem Team.soundP_mill (x : Team) (n : Nat) (ls : List Nat) : (x.soundP n ls).mill = x.mill := rfl
@[simp] theorem Team.soundP_wheel (x : Team) (n : Nat) (ls : List Nat) : (x.soundP n ls).wheel = x.wheel := rfl
@[simp] theorem Team.soundP_slot (x : Team) (n : Nat) (ls : List Nat) : (x.soundP n ls).slot = x.slot := rfl
@[simp] theorem Team.soundP_wg (x : Team) (n : Nat) (ls : List Nat) : (x.soundP n ls).wg = x.wg := rfl
@[simp] theorem Team.soundP_tindex (x : Team) (n : Nat) (ls : List Nat) : (x.soundP n ls).tindex = x.tindex := rfl
@[simp] theorem Team.soundP_lseq (x : Team) (n : Nat) (ls : List Nat) : (x.soundP n ls).lseq = x.lseq := rfl
@[simp] theorem Team.soundP_level (x : Team) (n : Nat) (ls : List Nat) : (x.soundP n ls).level = x.level := rfl
@[simp] theorem Team.soundP_lanes (x : Team) (n : Nat) (ls : List Nat) : (x.soundP n ls).lanes = x.lanes := rfl
@[simp] theorem Team.soundP_regs (x : Team) (n : Nat) (ls : List Nat) : (x.soundP n ls).regs = x.regs := rfl
@[simp] theorem Team.soundP_pc (x : Team) (n : Nat) (ls : List Nat) : (x.soundP n ls).pc = x.pc := rfl
@[simp] theorem Team.soundP_uregs (x : Team) (n : Nat) (ls : List Nat) : (x.soundP n ls).uregs = x.uregs := rfl
@[simp] theorem Team.soundP_vregs (x : Team) (n : Nat) (ls : List Nat) : (x.soundP n ls).vregs = x.vregs := rfl
@[simp] theorem Team.soundP_preds (x : Team) (n : Nat) (ls : List Nat) : (x.soundP n ls).preds = x.preds := rfl
@[simp] theorem Team.soundP_mask (x : Team) (n : Nat) (ls : List Nat) : (x.soundP n ls).mask = x.mask := rfl
@[simp] theorem Team.soundP_stack (x : Team) (n : Nat) (ls : List Nat) : (x.soundP n ls).stack = x.stack := rfl
@[simp] theorem Team.soundP_mode (x : Team) (n : Nat) (ls : List Nat) : (x.soundP n ls).mode = x.mode := rfl
@[simp] theorem Team.soundP_flags (x : Team) (n : Nat) (ls : List Nat) : (x.soundP n ls).flags = x.flags := rfl
@[simp] theorem Team.soundP_plot (x : Team) (n : Nat) (ls : List Nat) : (x.soundP n ls).plot = x.plot := rfl
@[simp] theorem Team.soundP_defer (x : Team) (n : Nat) (ls : List Nat) : (x.soundP n ls).defer = x.defer := rfl
@[simp] theorem Team.soundP_closure (x : Team) (n : Nat) (ls : List Nat) : (x.soundP n ls).closure = x.closure := rfl
@[simp] theorem Team.soundP_shelved (x : Team) (n : Nat) (ls : List Nat) : (x.soundP n ls).shelved = x.shelved := rfl
@[simp] theorem Team.soundP_mainPc (x : Team) (n : Nat) (ls : List Nat) : (x.soundP n ls).mainPc = x.mainPc := rfl
@[simp] theorem Team.soundP_cause (x : Team) (n : Nat) (ls : List Nat) : (x.soundP n ls).cause = x.cause := rfl
@[simp] theorem Team.soundP_epc (x : Team) (n : Nat) (ls : List Nat) : (x.soundP n ls).epc = x.epc := rfl
@[simp] theorem Team.soundP_tval (x : Team) (n : Nat) (ls : List Nat) : (x.soundP n ls).tval = x.tval := rfl
@[simp] theorem Team.soundP_fmask (x : Team) (n : Nat) (ls : List Nat) : (x.soundP n ls).fmask = x.fmask := rfl
@[simp] theorem Team.soundP_frame (x : Team) (n : Nat) (ls : List Nat) : (x.soundP n ls).frame = x.frame := rfl
@[simp] theorem Team.soundP_leaseHeld (x : Team) (n : Nat) (ls : List Nat) : (x.soundP n ls).leaseHeld = x.leaseHeld := rfl
@[simp] theorem Team.soundP_leaseGrant (x : Team) (n : Nat) (ls : List Nat) : (x.soundP n ls).leaseGrant = x.leaseGrant := rfl
@[simp] theorem Team.soundP_leaseRemain (x : Team) (n : Nat) (ls : List Nat) : (x.soundP n ls).leaseRemain = x.leaseRemain := rfl
@[simp] theorem Team.soundP_releasing (x : Team) (n : Nat) (ls : List Nat) : (x.soundP n ls).releasing = x.releasing := rfl
@[simp] theorem Team.soundP_stepNo (x : Team) (n : Nat) (ls : List Nat) : (x.soundP n ls).stepNo = x.stepNo := rfl
@[simp] theorem Team.soundP_packetSeq (x : Team) (n : Nat) (ls : List Nat) : (x.soundP n ls).packetSeq = x.packetSeq := rfl
@[simp] theorem Team.soundP_rndLog (x : Team) (n : Nat) (ls : List Nat) : (x.soundP n ls).rndLog = x.rndLog := rfl
@[simp] theorem Team.soundP_claims (x : Team) (n : Nat) (ls : List Nat) : (x.soundP n ls).claims = x.claims := rfl
@[simp] theorem Team.soundP_point (x : Team) (n : Nat) (ls : List Nat) : (x.soundP n ls).point = x.point := rfl
@[simp] theorem Team.soundP_unrewindable (x : Team) (n : Nat) (ls : List Nat) : (x.soundP n ls).unrewindable = x.unrewindable := rfl
@[simp] theorem Team.soundP_rewound (x : Team) (n : Nat) (ls : List Nat) : (x.soundP n ls).rewound = x.rewound := rfl
@[simp] theorem Team.soundP_age (x : Team) (n : Nat) (ls : List Nat) : (x.soundP n ls).age = x.age := rfl
@[simp] theorem Team.soundP_arrival (x : Team) (n : Nat) (ls : List Nat) : (x.soundP n ls).arrival = x.arrival := rfl
@[simp] theorem Team.soundP_donation (x : Team) (n : Nat) (ls : List Nat) : (x.soundP n ls).donation = x.donation := rfl
@[simp] theorem Team.soundP_maxG (x : Team) (n : Nat) (ls : List Nat) : (x.soundP n ls).maxG = x.maxG := rfl
@[simp] theorem Team.soundP_maxT (x : Team) (n : Nat) (ls : List Nat) : (x.soundP n ls).maxT = x.maxT := rfl
@[simp] theorem Team.soundP_maxA (x : Team) (n : Nat) (ls : List Nat) : (x.soundP n ls).maxA = x.maxA := rfl
@[simp] theorem Team.soundP_tiles (x : Team) (n : Nat) (ls : List Nat) : (x.soundP n ls).tiles = x.tiles := rfl
@[simp] theorem Team.soundP_accs (x : Team) (n : Nat) (ls : List Nat) : (x.soundP n ls).accs = x.accs := rfl
@[simp] theorem Team.soundP_saveSlice (x : Team) (n : Nat) (ls : List Nat) : (x.soundP n ls).saveSlice = x.saveSlice := rfl
@[simp] theorem Team.soundP_saveOff (x : Team) (n : Nat) (ls : List Nat) : (x.soundP n ls).saveOff = x.saveOff := rfl
@[simp] theorem Team.soundP_pendingTrap (x : Team) (n : Nat) (ls : List Nat) : (x.soundP n ls).pendingTrap = x.pendingTrap := rfl
@[simp] theorem Team.soundP_heldTrap (x : Team) (n : Nat) (ls : List Nat) : (x.soundP n ls).heldTrap = x.heldTrap := rfl
@[simp] theorem Team.soundP_shelvedTrap (x : Team) (n : Nat) (ls : List Nat) : (x.soundP n ls).shelvedTrap = x.shelvedTrap := rfl
@[simp] theorem Team.soundP_ppoison (x : Team) (n : Nat) (ls : List Nat) : (x.soundP n ls).ppoison =
    x.ppoison.filter fun w => !(w.1 == n && (List.range 64).all fun i => x.lanes ≤ 64 * w.2 + i || ls.contains (64 * w.2 + i)) := rfl
@[simp] theorem Team.soundP_covered (x : Team) (n : Nat) (ls : List Nat) : (x.soundP n ls).covered = x.covered := rfl
@[simp] theorem Team.soundP_drains (x : Team) (n : Nat) (ls : List Nat) : (x.soundP n ls).drains = x.drains := rfl
@[simp] theorem Team.soundP_fault (x : Team) (n : Nat) (ls : List Nat) : (x.soundP n ls).fault = x.fault := rfl
@[simp] theorem Team.soundP_guestSeq (x : Team) (n : Nat) (ls : List Nat) : (x.soundP n ls).guestSeq = x.guestSeq := rfl
@[simp] theorem Team.soundP_vpoison (x : Team) (n : Nat) (ls : List Nat) : (x.soundP n ls).vpoison = x.vpoison := rfl
@[simp] theorem Team.soundP_upoison (x : Team) (n : Nat) (ls : List Nat) : (x.soundP n ls).upoison = x.upoison := rfl

/-! ## A team's flags -/

@[simp] theorem Team.orFlags_uid (x : Team) (f : Nat) : (x.orFlags f).uid = x.uid := rfl
@[simp] theorem Team.orFlags_status (x : Team) (f : Nat) : (x.orFlags f).status = x.status := rfl
@[simp] theorem Team.orFlags_vd (x : Team) (f : Nat) : (x.orFlags f).vd = x.vd := rfl
@[simp] theorem Team.orFlags_asid (x : Team) (f : Nat) : (x.orFlags f).asid = x.asid := rfl
@[simp] theorem Team.orFlags_mill (x : Team) (f : Nat) : (x.orFlags f).mill = x.mill := rfl
@[simp] theorem Team.orFlags_wheel (x : Team) (f : Nat) : (x.orFlags f).wheel = x.wheel := rfl
@[simp] theorem Team.orFlags_slot (x : Team) (f : Nat) : (x.orFlags f).slot = x.slot := rfl
@[simp] theorem Team.orFlags_wg (x : Team) (f : Nat) : (x.orFlags f).wg = x.wg := rfl
@[simp] theorem Team.orFlags_tindex (x : Team) (f : Nat) : (x.orFlags f).tindex = x.tindex := rfl
@[simp] theorem Team.orFlags_lseq (x : Team) (f : Nat) : (x.orFlags f).lseq = x.lseq := rfl
@[simp] theorem Team.orFlags_level (x : Team) (f : Nat) : (x.orFlags f).level = x.level := rfl
@[simp] theorem Team.orFlags_lanes (x : Team) (f : Nat) : (x.orFlags f).lanes = x.lanes := rfl
@[simp] theorem Team.orFlags_regs (x : Team) (f : Nat) : (x.orFlags f).regs = x.regs := rfl
@[simp] theorem Team.orFlags_pc (x : Team) (f : Nat) : (x.orFlags f).pc = x.pc := rfl
@[simp] theorem Team.orFlags_uregs (x : Team) (f : Nat) : (x.orFlags f).uregs = x.uregs := rfl
@[simp] theorem Team.orFlags_vregs (x : Team) (f : Nat) : (x.orFlags f).vregs = x.vregs := rfl
@[simp] theorem Team.orFlags_preds (x : Team) (f : Nat) : (x.orFlags f).preds = x.preds := rfl
@[simp] theorem Team.orFlags_mask (x : Team) (f : Nat) : (x.orFlags f).mask = x.mask := rfl
@[simp] theorem Team.orFlags_stack (x : Team) (f : Nat) : (x.orFlags f).stack = x.stack := rfl
@[simp] theorem Team.orFlags_mode (x : Team) (f : Nat) : (x.orFlags f).mode = x.mode := rfl
@[simp] theorem Team.orFlags_flags (x : Team) (f : Nat) : (x.orFlags f).flags = x.flags ||| BitVec.ofNat 64 f := rfl
@[simp] theorem Team.orFlags_plot (x : Team) (f : Nat) : (x.orFlags f).plot = x.plot := rfl
@[simp] theorem Team.orFlags_defer (x : Team) (f : Nat) : (x.orFlags f).defer = x.defer := rfl
@[simp] theorem Team.orFlags_closure (x : Team) (f : Nat) : (x.orFlags f).closure = x.closure := rfl
@[simp] theorem Team.orFlags_shelved (x : Team) (f : Nat) : (x.orFlags f).shelved = x.shelved := rfl
@[simp] theorem Team.orFlags_mainPc (x : Team) (f : Nat) : (x.orFlags f).mainPc = x.mainPc := rfl
@[simp] theorem Team.orFlags_cause (x : Team) (f : Nat) : (x.orFlags f).cause = x.cause := rfl
@[simp] theorem Team.orFlags_epc (x : Team) (f : Nat) : (x.orFlags f).epc = x.epc := rfl
@[simp] theorem Team.orFlags_tval (x : Team) (f : Nat) : (x.orFlags f).tval = x.tval := rfl
@[simp] theorem Team.orFlags_fmask (x : Team) (f : Nat) : (x.orFlags f).fmask = x.fmask := rfl
@[simp] theorem Team.orFlags_frame (x : Team) (f : Nat) : (x.orFlags f).frame = x.frame := rfl
@[simp] theorem Team.orFlags_leaseHeld (x : Team) (f : Nat) : (x.orFlags f).leaseHeld = x.leaseHeld := rfl
@[simp] theorem Team.orFlags_leaseGrant (x : Team) (f : Nat) : (x.orFlags f).leaseGrant = x.leaseGrant := rfl
@[simp] theorem Team.orFlags_leaseRemain (x : Team) (f : Nat) : (x.orFlags f).leaseRemain = x.leaseRemain := rfl
@[simp] theorem Team.orFlags_releasing (x : Team) (f : Nat) : (x.orFlags f).releasing = x.releasing := rfl
@[simp] theorem Team.orFlags_stepNo (x : Team) (f : Nat) : (x.orFlags f).stepNo = x.stepNo := rfl
@[simp] theorem Team.orFlags_packetSeq (x : Team) (f : Nat) : (x.orFlags f).packetSeq = x.packetSeq := rfl
@[simp] theorem Team.orFlags_rndLog (x : Team) (f : Nat) : (x.orFlags f).rndLog = x.rndLog := rfl
@[simp] theorem Team.orFlags_claims (x : Team) (f : Nat) : (x.orFlags f).claims = x.claims := rfl
@[simp] theorem Team.orFlags_point (x : Team) (f : Nat) : (x.orFlags f).point = x.point := rfl
@[simp] theorem Team.orFlags_unrewindable (x : Team) (f : Nat) : (x.orFlags f).unrewindable = x.unrewindable := rfl
@[simp] theorem Team.orFlags_rewound (x : Team) (f : Nat) : (x.orFlags f).rewound = x.rewound := rfl
@[simp] theorem Team.orFlags_age (x : Team) (f : Nat) : (x.orFlags f).age = x.age := rfl
@[simp] theorem Team.orFlags_arrival (x : Team) (f : Nat) : (x.orFlags f).arrival = x.arrival := rfl
@[simp] theorem Team.orFlags_donation (x : Team) (f : Nat) : (x.orFlags f).donation = x.donation := rfl
@[simp] theorem Team.orFlags_maxG (x : Team) (f : Nat) : (x.orFlags f).maxG = x.maxG := rfl
@[simp] theorem Team.orFlags_maxT (x : Team) (f : Nat) : (x.orFlags f).maxT = x.maxT := rfl
@[simp] theorem Team.orFlags_maxA (x : Team) (f : Nat) : (x.orFlags f).maxA = x.maxA := rfl
@[simp] theorem Team.orFlags_tiles (x : Team) (f : Nat) : (x.orFlags f).tiles = x.tiles := rfl
@[simp] theorem Team.orFlags_accs (x : Team) (f : Nat) : (x.orFlags f).accs = x.accs := rfl
@[simp] theorem Team.orFlags_saveSlice (x : Team) (f : Nat) : (x.orFlags f).saveSlice = x.saveSlice := rfl
@[simp] theorem Team.orFlags_saveOff (x : Team) (f : Nat) : (x.orFlags f).saveOff = x.saveOff := rfl
@[simp] theorem Team.orFlags_pendingTrap (x : Team) (f : Nat) : (x.orFlags f).pendingTrap = x.pendingTrap := rfl
@[simp] theorem Team.orFlags_heldTrap (x : Team) (f : Nat) : (x.orFlags f).heldTrap = x.heldTrap := rfl
@[simp] theorem Team.orFlags_shelvedTrap (x : Team) (f : Nat) : (x.orFlags f).shelvedTrap = x.shelvedTrap := rfl
@[simp] theorem Team.orFlags_ppoison (x : Team) (f : Nat) : (x.orFlags f).ppoison = x.ppoison := rfl
@[simp] theorem Team.orFlags_covered (x : Team) (f : Nat) : (x.orFlags f).covered = x.covered := rfl
@[simp] theorem Team.orFlags_drains (x : Team) (f : Nat) : (x.orFlags f).drains = x.drains := rfl
@[simp] theorem Team.orFlags_fault (x : Team) (f : Nat) : (x.orFlags f).fault = x.fault := rfl
@[simp] theorem Team.orFlags_guestSeq (x : Team) (f : Nat) : (x.orFlags f).guestSeq = x.guestSeq := rfl
@[simp] theorem Team.orFlags_vpoison (x : Team) (f : Nat) : (x.orFlags f).vpoison = x.vpoison := rfl
@[simp] theorem Team.orFlags_upoison (x : Team) (f : Nat) : (x.orFlags f).upoison = x.upoison := rfl

/-! ## The team whose turn it is -/

@[simp] theorem State.mapTeam_team (x : State) (f : Team → Team) : (x.mapTeam f).team = f x.team := rfl
@[simp] theorem State.mapTeam_rest (x : State) (f : Team → Team) : (x.mapTeam f).rest = x.rest := rfl
@[simp] theorem State.mapTeam_workgroups (x : State) (f : Team → Team) : (x.mapTeam f).workgroups = x.workgroups := rfl
@[simp] theorem State.mapTeam_launches (x : State) (f : Team → Team) : (x.mapTeam f).launches = x.launches := rfl
@[simp] theorem State.mapTeam_launchables (x : State) (f : Team → Team) : (x.mapTeam f).launchables = x.launchables := rfl
@[simp] theorem State.mapTeam_graphs (x : State) (f : Team → Team) : (x.mapTeam f).graphs = x.graphs := rfl
@[simp] theorem State.mapTeam_deques (x : State) (f : Team → Team) : (x.mapTeam f).deques = x.deques := rfl
@[simp] theorem State.mapTeam_deviceQueues (x : State) (f : Team → Team) : (x.mapTeam f).deviceQueues = x.deviceQueues := rfl
@[simp] theorem State.mapTeam_readQueue (x : State) (f : Team → Team) : (x.mapTeam f).readQueue = x.readQueue := rfl
@[simp] theorem State.mapTeam_fabricQueue (x : State) (f : Team → Team) : (x.mapTeam f).fabricQueue = x.fabricQueue := rfl
@[simp] theorem State.mapTeam_queueTurn (x : State) (f : Team → Team) : (x.mapTeam f).queueTurn = x.queueTurn := rfl
@[simp] theorem State.mapTeam_lostRecords (x : State) (f : Team → Team) : (x.mapTeam f).lostRecords = x.lostRecords := rfl
@[simp] theorem State.mapTeam_lseqs (x : State) (f : Team → Team) : (x.mapTeam f).lseqs = x.lseqs := rfl
@[simp] theorem State.mapTeam_slices (x : State) (f : Team → Team) : (x.mapTeam f).slices = x.slices := rfl
@[simp] theorem State.mapTeam_lastSlot (x : State) (f : Team → Team) : (x.mapTeam f).lastSlot = x.lastSlot := rfl
@[simp] theorem State.mapTeam_regs (x : State) (f : Team → Team) : (x.mapTeam f).regs = x.regs := rfl
@[simp] theorem State.mapTeam_drefs (x : State) (f : Team → Team) : (x.mapTeam f).drefs = x.drefs := rfl
@[simp] theorem State.mapTeam_runTime (x : State) (f : Team → Team) : (x.mapTeam f).runTime = x.runTime := rfl
@[simp] theorem State.mapTeam_kmat (x : State) (f : Team → Team) : (x.mapTeam f).kmat = x.kmat := rfl
@[simp] theorem State.mapTeam_hostDestroy (x : State) (f : Team → Team) : (x.mapTeam f).hostDestroy = x.hostDestroy := rfl
@[simp] theorem State.mapTeam_materials (x : State) (f : Team → Team) : (x.mapTeam f).materials = x.materials := rfl
@[simp] theorem State.mapTeam_keyMaterial (x : State) (f : Team → Team) : (x.mapTeam f).keyMaterial = x.keyMaterial := rfl
@[simp] theorem State.mapTeam_nextMaterial (x : State) (f : Team → Team) : (x.mapTeam f).nextMaterial = x.nextMaterial := rfl
@[simp] theorem State.mapTeam_plain (x : State) (f : Team → Team) : (x.mapTeam f).plain = x.plain := rfl
@[simp] theorem State.mapTeam_plainPoison (x : State) (f : Team → Team) : (x.mapTeam f).plainPoison = x.plainPoison := rfl
@[simp] theorem State.mapTeam_tags (x : State) (f : Team → Team) : (x.mapTeam f).tags = x.tags := rfl
@[simp] theorem State.mapTeam_promotions (x : State) (f : Team → Team) : (x.mapTeam f).promotions = x.promotions := rfl
@[simp] theorem State.mapTeam_basin (x : State) (f : Team → Team) : (x.mapTeam f).basin = x.basin := rfl
@[simp] theorem State.mapTeam_basinSeal (x : State) (f : Team → Team) : (x.mapTeam f).basinSeal = x.basinSeal := rfl
@[simp] theorem State.mapTeam_basinPoison (x : State) (f : Team → Team) : (x.mapTeam f).basinPoison = x.basinPoison := rfl
@[simp] theorem State.mapTeam_rebuilding (x : State) (f : Team → Team) : (x.mapTeam f).rebuilding = x.rebuilding := rfl
@[simp] theorem State.mapTeam_scrubMarks (x : State) (f : Team → Team) : (x.mapTeam f).scrubMarks = x.scrubMarks := rfl
@[simp] theorem State.mapTeam_cleanCopies (x : State) (f : Team → Team) : (x.mapTeam f).cleanCopies = x.cleanCopies := rfl
@[simp] theorem State.mapTeam_delayed (x : State) (f : Team → Team) : (x.mapTeam f).delayed = x.delayed := rfl
@[simp] theorem State.mapTeam_poisonedWrites (x : State) (f : Team → Team) : (x.mapTeam f).poisonedWrites = x.poisonedWrites := rfl
@[simp] theorem State.mapTeam_hostMem (x : State) (f : Team → Team) : (x.mapTeam f).hostMem = x.hostMem := rfl
@[simp] theorem State.mapTeam_hostSeal (x : State) (f : Team → Team) : (x.mapTeam f).hostSeal = x.hostSeal := rfl
@[simp] theorem State.mapTeam_rowOwner (x : State) (f : Team → Team) : (x.mapTeam f).rowOwner = x.rowOwner := rfl
@[simp] theorem State.mapTeam_hostPoison (x : State) (f : Team → Team) : (x.mapTeam f).hostPoison = x.hostPoison := rfl
@[simp] theorem State.mapTeam_ptrCache (x : State) (f : Team → Team) : (x.mapTeam f).ptrCache = x.ptrCache := rfl
@[simp] theorem State.mapTeam_ports (x : State) (f : Team → Team) : (x.mapTeam f).ports = x.ports := rfl
@[simp] theorem State.mapTeam_images (x : State) (f : Team → Team) : (x.mapTeam f).images = x.images := rfl
@[simp] theorem State.mapTeam_recoverAt (x : State) (f : Team → Team) : (x.mapTeam f).recoverAt = x.recoverAt := rfl
@[simp] theorem State.mapTeam_heed (x : State) (f : Team → Team) : (x.mapTeam f).heed = x.heed := rfl
@[simp] theorem State.mapTeam_laneTlb (x : State) (f : Team → Team) : (x.mapTeam f).laneTlb = x.laneTlb := rfl
@[simp] theorem State.mapTeam_walkAhead (x : State) (f : Team → Team) : (x.mapTeam f).walkAhead = x.walkAhead := rfl
@[simp] theorem State.mapTeam_walks (x : State) (f : Team → Team) : (x.mapTeam f).walks = x.walks := rfl
@[simp] theorem State.mapTeam_laneCache (x : State) (f : Team → Team) : (x.mapTeam f).laneCache = x.laneCache := rfl
@[simp] theorem State.mapTeam_icache (x : State) (f : Team → Team) : (x.mapTeam f).icache = x.icache := rfl
@[simp] theorem State.mapTeam_requests (x : State) (f : Team → Team) : (x.mapTeam f).requests = x.requests := rfl
@[simp] theorem State.mapTeam_accesses (x : State) (f : Team → Team) : (x.mapTeam f).accesses = x.accesses := rfl
@[simp] theorem State.mapTeam_flows (x : State) (f : Team → Team) : (x.mapTeam f).flows = x.flows := rfl
@[simp] theorem State.mapTeam_weir (x : State) (f : Team → Team) : (x.mapTeam f).weir = x.weir := rfl
@[simp] theorem State.mapTeam_copyClaims (x : State) (f : Team → Team) : (x.mapTeam f).copyClaims = x.copyClaims := rfl
@[simp] theorem State.mapTeam_copyWaits (x : State) (f : Team → Team) : (x.mapTeam f).copyWaits = x.copyWaits := rfl
@[simp] theorem State.mapTeam_tiles (x : State) (f : Team → Team) : (x.mapTeam f).tiles = x.tiles := rfl
@[simp] theorem State.mapTeam_tilePoison (x : State) (f : Team → Team) : (x.mapTeam f).tilePoison = x.tilePoison := rfl
@[simp] theorem State.mapTeam_accs (x : State) (f : Team → Team) : (x.mapTeam f).accs = x.accs := rfl
@[simp] theorem State.mapTeam_tshape (x : State) (f : Team → Team) : (x.mapTeam f).tshape = x.tshape := rfl
@[simp] theorem State.mapTeam_millstones (x : State) (f : Team → Team) : (x.mapTeam f).millstones = x.millstones := rfl
@[simp] theorem State.mapTeam_colls (x : State) (f : Team → Team) : (x.mapTeam f).colls = x.colls := rfl
@[simp] theorem State.mapTeam_slotPointer (x : State) (f : Team → Team) : (x.mapTeam f).slotPointer = x.slotPointer := rfl
@[simp] theorem State.mapTeam_boundaries (x : State) (f : Team → Team) : (x.mapTeam f).boundaries = x.boundaries := rfl
@[simp] theorem State.mapTeam_exits (x : State) (f : Team → Team) : (x.mapTeam f).exits = x.exits := rfl
@[simp] theorem State.mapTeam_sluice (x : State) (f : Team → Team) : (x.mapTeam f).sluice = x.sluice := rfl
@[simp] theorem State.mapTeam_millpond (x : State) (f : Team → Team) : (x.mapTeam f).millpond = x.millpond := rfl
@[simp] theorem State.mapTeam_quotas (x : State) (f : Team → Team) : (x.mapTeam f).quotas = x.quotas := rfl
@[simp] theorem State.mapTeam_heldLoads (x : State) (f : Team → Team) : (x.mapTeam f).heldLoads = x.heldLoads := rfl
@[simp] theorem State.mapTeam_migrations (x : State) (f : Team → Team) : (x.mapTeam f).migrations = x.migrations := rfl
@[simp] theorem State.mapTeam_invalidations (x : State) (f : Team → Team) : (x.mapTeam f).invalidations = x.invalidations := rfl
@[simp] theorem State.mapTeam_enabling (x : State) (f : Team → Team) : (x.mapTeam f).enabling = x.enabling := rfl
@[simp] theorem State.mapTeam_events (x : State) (f : Team → Team) : (x.mapTeam f).events = x.events := rfl
@[simp] theorem State.mapTeam_outbox (x : State) (f : Team → Team) : (x.mapTeam f).outbox = x.outbox := rfl
@[simp] theorem State.mapTeam_stalledJobs (x : State) (f : Team → Team) : (x.mapTeam f).stalledJobs = x.stalledJobs := rfl
@[simp] theorem State.mapTeam_distStall (x : State) (f : Team → Team) : (x.mapTeam f).distStall = x.distStall := rfl
@[simp] theorem State.mapTeam_tails (x : State) (f : Team → Team) : (x.mapTeam f).tails = x.tails := rfl
@[simp] theorem State.mapTeam_rates (x : State) (f : Team → Team) : (x.mapTeam f).rates = x.rates := rfl
@[simp] theorem State.mapTeam_portQueues (x : State) (f : Team → Team) : (x.mapTeam f).portQueues = x.portQueues := rfl
@[simp] theorem State.mapTeam_notices (x : State) (f : Team → Team) : (x.mapTeam f).notices = x.notices := rfl
@[simp] theorem State.mapTeam_launchRefusals (x : State) (f : Team → Team) : (x.mapTeam f).launchRefusals = x.launchRefusals := rfl
@[simp] theorem State.mapTeam_boot (x : State) (f : Team → Team) : (x.mapTeam f).boot = x.boot := rfl
@[simp] theorem State.mapTeam_imageVersion (x : State) (f : Team → Team) : (x.mapTeam f).imageVersion = x.imageVersion := rfl
@[simp] theorem State.mapTeam_imageGen (x : State) (f : Team → Team) : (x.mapTeam f).imageGen = x.imageGen := rfl
@[simp] theorem State.mapTeam_storedUpdate (x : State) (f : Team → Team) : (x.mapTeam f).storedUpdate = x.storedUpdate := rfl
@[simp] theorem State.mapTeam_storedImages (x : State) (f : Team → Team) : (x.mapTeam f).storedImages = x.storedImages := rfl
@[simp] theorem State.mapTeam_updatedImages (x : State) (f : Team → Team) : (x.mapTeam f).updatedImages = x.updatedImages := rfl
@[simp] theorem State.mapTeam_copyTouched (x : State) (f : Team → Team) : (x.mapTeam f).copyTouched = x.copyTouched := rfl
@[simp] theorem State.mapTeam_attesting (x : State) (f : Team → Team) : (x.mapTeam f).attesting = x.attesting := rfl
@[simp] theorem State.mapTeam_updating (x : State) (f : Team → Team) : (x.mapTeam f).updating = x.updating := rfl
@[simp] theorem State.mapTeam_stoppedStacks (x : State) (f : Team → Team) : (x.mapTeam f).stoppedStacks = x.stoppedStacks := rfl
@[simp] theorem State.mapTeam_stoppedAlus (x : State) (f : Team → Team) : (x.mapTeam f).stoppedAlus = x.stoppedAlus := rfl
@[simp] theorem State.mapTeam_module (x : State) (f : Team → Team) : (x.mapTeam f).module = x.module := rfl
@[simp] theorem State.mapTeam_time (x : State) (f : Team → Team) : (x.mapTeam f).time = x.time := rfl
@[simp] theorem State.mapTeam_agenda (x : State) (f : Team → Team) : (x.mapTeam f).agenda = x.agenda := rfl
@[simp] theorem State.mapTeam_draws (x : State) (f : Team → Team) : (x.mapTeam f).draws = x.draws := rfl
@[simp] theorem State.mapTeam_nextId (x : State) (f : Team → Team) : (x.mapTeam f).nextId = x.nextId := rfl
@[simp] theorem State.mapTeam_steps (x : State) (f : Team → Team) : (x.mapTeam f).steps = x.steps := rfl

/-! ## The pc moved on -/

@[simp] theorem State.advance_rest (x : State) (n : Nat) : (x.advance n).rest = x.rest := rfl
@[simp] theorem State.advance_workgroups (x : State) (n : Nat) : (x.advance n).workgroups = x.workgroups := rfl
@[simp] theorem State.advance_launches (x : State) (n : Nat) : (x.advance n).launches = x.launches := rfl
@[simp] theorem State.advance_launchables (x : State) (n : Nat) : (x.advance n).launchables = x.launchables := rfl
@[simp] theorem State.advance_graphs (x : State) (n : Nat) : (x.advance n).graphs = x.graphs := rfl
@[simp] theorem State.advance_deques (x : State) (n : Nat) : (x.advance n).deques = x.deques := rfl
@[simp] theorem State.advance_deviceQueues (x : State) (n : Nat) : (x.advance n).deviceQueues = x.deviceQueues := rfl
@[simp] theorem State.advance_readQueue (x : State) (n : Nat) : (x.advance n).readQueue = x.readQueue := rfl
@[simp] theorem State.advance_fabricQueue (x : State) (n : Nat) : (x.advance n).fabricQueue = x.fabricQueue := rfl
@[simp] theorem State.advance_queueTurn (x : State) (n : Nat) : (x.advance n).queueTurn = x.queueTurn := rfl
@[simp] theorem State.advance_lostRecords (x : State) (n : Nat) : (x.advance n).lostRecords = x.lostRecords := rfl
@[simp] theorem State.advance_lseqs (x : State) (n : Nat) : (x.advance n).lseqs = x.lseqs := rfl
@[simp] theorem State.advance_slices (x : State) (n : Nat) : (x.advance n).slices = x.slices := rfl
@[simp] theorem State.advance_lastSlot (x : State) (n : Nat) : (x.advance n).lastSlot = x.lastSlot := rfl
@[simp] theorem State.advance_regs (x : State) (n : Nat) : (x.advance n).regs = x.regs := rfl
@[simp] theorem State.advance_drefs (x : State) (n : Nat) : (x.advance n).drefs = x.drefs := rfl
@[simp] theorem State.advance_runTime (x : State) (n : Nat) : (x.advance n).runTime = x.runTime := rfl
@[simp] theorem State.advance_kmat (x : State) (n : Nat) : (x.advance n).kmat = x.kmat := rfl
@[simp] theorem State.advance_hostDestroy (x : State) (n : Nat) : (x.advance n).hostDestroy = x.hostDestroy := rfl
@[simp] theorem State.advance_materials (x : State) (n : Nat) : (x.advance n).materials = x.materials := rfl
@[simp] theorem State.advance_keyMaterial (x : State) (n : Nat) : (x.advance n).keyMaterial = x.keyMaterial := rfl
@[simp] theorem State.advance_nextMaterial (x : State) (n : Nat) : (x.advance n).nextMaterial = x.nextMaterial := rfl
@[simp] theorem State.advance_plain (x : State) (n : Nat) : (x.advance n).plain = x.plain := rfl
@[simp] theorem State.advance_plainPoison (x : State) (n : Nat) : (x.advance n).plainPoison = x.plainPoison := rfl
@[simp] theorem State.advance_tags (x : State) (n : Nat) : (x.advance n).tags = x.tags := rfl
@[simp] theorem State.advance_promotions (x : State) (n : Nat) : (x.advance n).promotions = x.promotions := rfl
@[simp] theorem State.advance_basin (x : State) (n : Nat) : (x.advance n).basin = x.basin := rfl
@[simp] theorem State.advance_basinSeal (x : State) (n : Nat) : (x.advance n).basinSeal = x.basinSeal := rfl
@[simp] theorem State.advance_basinPoison (x : State) (n : Nat) : (x.advance n).basinPoison = x.basinPoison := rfl
@[simp] theorem State.advance_rebuilding (x : State) (n : Nat) : (x.advance n).rebuilding = x.rebuilding := rfl
@[simp] theorem State.advance_scrubMarks (x : State) (n : Nat) : (x.advance n).scrubMarks = x.scrubMarks := rfl
@[simp] theorem State.advance_cleanCopies (x : State) (n : Nat) : (x.advance n).cleanCopies = x.cleanCopies := rfl
@[simp] theorem State.advance_delayed (x : State) (n : Nat) : (x.advance n).delayed = x.delayed := rfl
@[simp] theorem State.advance_poisonedWrites (x : State) (n : Nat) : (x.advance n).poisonedWrites = x.poisonedWrites := rfl
@[simp] theorem State.advance_hostMem (x : State) (n : Nat) : (x.advance n).hostMem = x.hostMem := rfl
@[simp] theorem State.advance_hostSeal (x : State) (n : Nat) : (x.advance n).hostSeal = x.hostSeal := rfl
@[simp] theorem State.advance_rowOwner (x : State) (n : Nat) : (x.advance n).rowOwner = x.rowOwner := rfl
@[simp] theorem State.advance_hostPoison (x : State) (n : Nat) : (x.advance n).hostPoison = x.hostPoison := rfl
@[simp] theorem State.advance_ptrCache (x : State) (n : Nat) : (x.advance n).ptrCache = x.ptrCache := rfl
@[simp] theorem State.advance_ports (x : State) (n : Nat) : (x.advance n).ports = x.ports := rfl
@[simp] theorem State.advance_images (x : State) (n : Nat) : (x.advance n).images = x.images := rfl
@[simp] theorem State.advance_recoverAt (x : State) (n : Nat) : (x.advance n).recoverAt = x.recoverAt := rfl
@[simp] theorem State.advance_heed (x : State) (n : Nat) : (x.advance n).heed = x.heed := rfl
@[simp] theorem State.advance_laneTlb (x : State) (n : Nat) : (x.advance n).laneTlb = x.laneTlb := rfl
@[simp] theorem State.advance_walkAhead (x : State) (n : Nat) : (x.advance n).walkAhead = x.walkAhead := rfl
@[simp] theorem State.advance_walks (x : State) (n : Nat) : (x.advance n).walks = x.walks := rfl
@[simp] theorem State.advance_laneCache (x : State) (n : Nat) : (x.advance n).laneCache = x.laneCache := rfl
@[simp] theorem State.advance_icache (x : State) (n : Nat) : (x.advance n).icache = x.icache := rfl
@[simp] theorem State.advance_requests (x : State) (n : Nat) : (x.advance n).requests = x.requests := rfl
@[simp] theorem State.advance_accesses (x : State) (n : Nat) : (x.advance n).accesses = x.accesses := rfl
@[simp] theorem State.advance_flows (x : State) (n : Nat) : (x.advance n).flows = x.flows := rfl
@[simp] theorem State.advance_weir (x : State) (n : Nat) : (x.advance n).weir = x.weir := rfl
@[simp] theorem State.advance_copyClaims (x : State) (n : Nat) : (x.advance n).copyClaims = x.copyClaims := rfl
@[simp] theorem State.advance_copyWaits (x : State) (n : Nat) : (x.advance n).copyWaits = x.copyWaits := rfl
@[simp] theorem State.advance_tiles (x : State) (n : Nat) : (x.advance n).tiles = x.tiles := rfl
@[simp] theorem State.advance_tilePoison (x : State) (n : Nat) : (x.advance n).tilePoison = x.tilePoison := rfl
@[simp] theorem State.advance_accs (x : State) (n : Nat) : (x.advance n).accs = x.accs := rfl
@[simp] theorem State.advance_tshape (x : State) (n : Nat) : (x.advance n).tshape = x.tshape := rfl
@[simp] theorem State.advance_millstones (x : State) (n : Nat) : (x.advance n).millstones = x.millstones := rfl
@[simp] theorem State.advance_colls (x : State) (n : Nat) : (x.advance n).colls = x.colls := rfl
@[simp] theorem State.advance_slotPointer (x : State) (n : Nat) : (x.advance n).slotPointer = x.slotPointer := rfl
@[simp] theorem State.advance_boundaries (x : State) (n : Nat) : (x.advance n).boundaries = x.boundaries := rfl
@[simp] theorem State.advance_exits (x : State) (n : Nat) : (x.advance n).exits = x.exits := rfl
@[simp] theorem State.advance_sluice (x : State) (n : Nat) : (x.advance n).sluice = x.sluice := rfl
@[simp] theorem State.advance_millpond (x : State) (n : Nat) : (x.advance n).millpond = x.millpond := rfl
@[simp] theorem State.advance_quotas (x : State) (n : Nat) : (x.advance n).quotas = x.quotas := rfl
@[simp] theorem State.advance_heldLoads (x : State) (n : Nat) : (x.advance n).heldLoads = x.heldLoads := rfl
@[simp] theorem State.advance_migrations (x : State) (n : Nat) : (x.advance n).migrations = x.migrations := rfl
@[simp] theorem State.advance_invalidations (x : State) (n : Nat) : (x.advance n).invalidations = x.invalidations := rfl
@[simp] theorem State.advance_enabling (x : State) (n : Nat) : (x.advance n).enabling = x.enabling := rfl
@[simp] theorem State.advance_events (x : State) (n : Nat) : (x.advance n).events = x.events := rfl
@[simp] theorem State.advance_outbox (x : State) (n : Nat) : (x.advance n).outbox = x.outbox := rfl
@[simp] theorem State.advance_stalledJobs (x : State) (n : Nat) : (x.advance n).stalledJobs = x.stalledJobs := rfl
@[simp] theorem State.advance_distStall (x : State) (n : Nat) : (x.advance n).distStall = x.distStall := rfl
@[simp] theorem State.advance_tails (x : State) (n : Nat) : (x.advance n).tails = x.tails := rfl
@[simp] theorem State.advance_rates (x : State) (n : Nat) : (x.advance n).rates = x.rates := rfl
@[simp] theorem State.advance_portQueues (x : State) (n : Nat) : (x.advance n).portQueues = x.portQueues := rfl
@[simp] theorem State.advance_notices (x : State) (n : Nat) : (x.advance n).notices = x.notices := rfl
@[simp] theorem State.advance_launchRefusals (x : State) (n : Nat) : (x.advance n).launchRefusals = x.launchRefusals := rfl
@[simp] theorem State.advance_boot (x : State) (n : Nat) : (x.advance n).boot = x.boot := rfl
@[simp] theorem State.advance_imageVersion (x : State) (n : Nat) : (x.advance n).imageVersion = x.imageVersion := rfl
@[simp] theorem State.advance_imageGen (x : State) (n : Nat) : (x.advance n).imageGen = x.imageGen := rfl
@[simp] theorem State.advance_storedUpdate (x : State) (n : Nat) : (x.advance n).storedUpdate = x.storedUpdate := rfl
@[simp] theorem State.advance_storedImages (x : State) (n : Nat) : (x.advance n).storedImages = x.storedImages := rfl
@[simp] theorem State.advance_updatedImages (x : State) (n : Nat) : (x.advance n).updatedImages = x.updatedImages := rfl
@[simp] theorem State.advance_copyTouched (x : State) (n : Nat) : (x.advance n).copyTouched = x.copyTouched := rfl
@[simp] theorem State.advance_attesting (x : State) (n : Nat) : (x.advance n).attesting = x.attesting := rfl
@[simp] theorem State.advance_updating (x : State) (n : Nat) : (x.advance n).updating = x.updating := rfl
@[simp] theorem State.advance_stoppedStacks (x : State) (n : Nat) : (x.advance n).stoppedStacks = x.stoppedStacks := rfl
@[simp] theorem State.advance_stoppedAlus (x : State) (n : Nat) : (x.advance n).stoppedAlus = x.stoppedAlus := rfl
@[simp] theorem State.advance_module (x : State) (n : Nat) : (x.advance n).module = x.module := rfl
@[simp] theorem State.advance_time (x : State) (n : Nat) : (x.advance n).time = x.time := rfl
@[simp] theorem State.advance_agenda (x : State) (n : Nat) : (x.advance n).agenda = x.agenda := rfl
@[simp] theorem State.advance_draws (x : State) (n : Nat) : (x.advance n).draws = x.draws := rfl
@[simp] theorem State.advance_nextId (x : State) (n : Nat) : (x.advance n).nextId = x.nextId := rfl
@[simp] theorem State.advance_steps (x : State) (n : Nat) : (x.advance n).steps = x.steps := rfl

/-! ## A register of BAR 0 -/

@[simp] theorem State.setReg_team (x : State) (off : Nat) (w : Word) : (x.setReg off w).team = x.team := rfl
@[simp] theorem State.setReg_rest (x : State) (off : Nat) (w : Word) : (x.setReg off w).rest = x.rest := rfl
@[simp] theorem State.setReg_workgroups (x : State) (off : Nat) (w : Word) : (x.setReg off w).workgroups = x.workgroups := rfl
@[simp] theorem State.setReg_launches (x : State) (off : Nat) (w : Word) : (x.setReg off w).launches = x.launches := rfl
@[simp] theorem State.setReg_launchables (x : State) (off : Nat) (w : Word) : (x.setReg off w).launchables = x.launchables := rfl
@[simp] theorem State.setReg_graphs (x : State) (off : Nat) (w : Word) : (x.setReg off w).graphs = x.graphs := rfl
@[simp] theorem State.setReg_deques (x : State) (off : Nat) (w : Word) : (x.setReg off w).deques = x.deques := rfl
@[simp] theorem State.setReg_deviceQueues (x : State) (off : Nat) (w : Word) : (x.setReg off w).deviceQueues = x.deviceQueues := rfl
@[simp] theorem State.setReg_readQueue (x : State) (off : Nat) (w : Word) : (x.setReg off w).readQueue = x.readQueue := rfl
@[simp] theorem State.setReg_fabricQueue (x : State) (off : Nat) (w : Word) : (x.setReg off w).fabricQueue = x.fabricQueue := rfl
@[simp] theorem State.setReg_queueTurn (x : State) (off : Nat) (w : Word) : (x.setReg off w).queueTurn = x.queueTurn := rfl
@[simp] theorem State.setReg_lostRecords (x : State) (off : Nat) (w : Word) : (x.setReg off w).lostRecords = x.lostRecords := rfl
@[simp] theorem State.setReg_lseqs (x : State) (off : Nat) (w : Word) : (x.setReg off w).lseqs = x.lseqs := rfl
@[simp] theorem State.setReg_slices (x : State) (off : Nat) (w : Word) : (x.setReg off w).slices = x.slices := rfl
@[simp] theorem State.setReg_lastSlot (x : State) (off : Nat) (w : Word) : (x.setReg off w).lastSlot = x.lastSlot := rfl
@[simp] theorem State.setReg_drefs (x : State) (off : Nat) (w : Word) : (x.setReg off w).drefs = x.drefs := rfl
@[simp] theorem State.setReg_runTime (x : State) (off : Nat) (w : Word) : (x.setReg off w).runTime = x.runTime := rfl
@[simp] theorem State.setReg_kmat (x : State) (off : Nat) (w : Word) : (x.setReg off w).kmat = x.kmat := rfl
@[simp] theorem State.setReg_hostDestroy (x : State) (off : Nat) (w : Word) : (x.setReg off w).hostDestroy = x.hostDestroy := rfl
@[simp] theorem State.setReg_materials (x : State) (off : Nat) (w : Word) : (x.setReg off w).materials = x.materials := rfl
@[simp] theorem State.setReg_keyMaterial (x : State) (off : Nat) (w : Word) : (x.setReg off w).keyMaterial = x.keyMaterial := rfl
@[simp] theorem State.setReg_nextMaterial (x : State) (off : Nat) (w : Word) : (x.setReg off w).nextMaterial = x.nextMaterial := rfl
@[simp] theorem State.setReg_plain (x : State) (off : Nat) (w : Word) : (x.setReg off w).plain = x.plain := rfl
@[simp] theorem State.setReg_plainPoison (x : State) (off : Nat) (w : Word) : (x.setReg off w).plainPoison = x.plainPoison := rfl
@[simp] theorem State.setReg_tags (x : State) (off : Nat) (w : Word) : (x.setReg off w).tags = x.tags := rfl
@[simp] theorem State.setReg_promotions (x : State) (off : Nat) (w : Word) : (x.setReg off w).promotions = x.promotions := rfl
@[simp] theorem State.setReg_basin (x : State) (off : Nat) (w : Word) : (x.setReg off w).basin = x.basin := rfl
@[simp] theorem State.setReg_basinSeal (x : State) (off : Nat) (w : Word) : (x.setReg off w).basinSeal = x.basinSeal := rfl
@[simp] theorem State.setReg_basinPoison (x : State) (off : Nat) (w : Word) : (x.setReg off w).basinPoison = x.basinPoison := rfl
@[simp] theorem State.setReg_rebuilding (x : State) (off : Nat) (w : Word) : (x.setReg off w).rebuilding = x.rebuilding := rfl
@[simp] theorem State.setReg_scrubMarks (x : State) (off : Nat) (w : Word) : (x.setReg off w).scrubMarks = x.scrubMarks := rfl
@[simp] theorem State.setReg_cleanCopies (x : State) (off : Nat) (w : Word) : (x.setReg off w).cleanCopies = x.cleanCopies := rfl
@[simp] theorem State.setReg_delayed (x : State) (off : Nat) (w : Word) : (x.setReg off w).delayed = x.delayed := rfl
@[simp] theorem State.setReg_poisonedWrites (x : State) (off : Nat) (w : Word) : (x.setReg off w).poisonedWrites = x.poisonedWrites := rfl
@[simp] theorem State.setReg_hostMem (x : State) (off : Nat) (w : Word) : (x.setReg off w).hostMem = x.hostMem := rfl
@[simp] theorem State.setReg_hostSeal (x : State) (off : Nat) (w : Word) : (x.setReg off w).hostSeal = x.hostSeal := rfl
@[simp] theorem State.setReg_rowOwner (x : State) (off : Nat) (w : Word) : (x.setReg off w).rowOwner = x.rowOwner := rfl
@[simp] theorem State.setReg_hostPoison (x : State) (off : Nat) (w : Word) : (x.setReg off w).hostPoison = x.hostPoison := rfl
@[simp] theorem State.setReg_ptrCache (x : State) (off : Nat) (w : Word) : (x.setReg off w).ptrCache = x.ptrCache := rfl
@[simp] theorem State.setReg_ports (x : State) (off : Nat) (w : Word) : (x.setReg off w).ports = x.ports := rfl
@[simp] theorem State.setReg_images (x : State) (off : Nat) (w : Word) : (x.setReg off w).images = x.images := rfl
@[simp] theorem State.setReg_recoverAt (x : State) (off : Nat) (w : Word) : (x.setReg off w).recoverAt = x.recoverAt := rfl
@[simp] theorem State.setReg_heed (x : State) (off : Nat) (w : Word) : (x.setReg off w).heed = x.heed := rfl
@[simp] theorem State.setReg_laneTlb (x : State) (off : Nat) (w : Word) : (x.setReg off w).laneTlb = x.laneTlb := rfl
@[simp] theorem State.setReg_walkAhead (x : State) (off : Nat) (w : Word) : (x.setReg off w).walkAhead = x.walkAhead := rfl
@[simp] theorem State.setReg_walks (x : State) (off : Nat) (w : Word) : (x.setReg off w).walks = x.walks := rfl
@[simp] theorem State.setReg_laneCache (x : State) (off : Nat) (w : Word) : (x.setReg off w).laneCache = x.laneCache := rfl
@[simp] theorem State.setReg_icache (x : State) (off : Nat) (w : Word) : (x.setReg off w).icache = x.icache := rfl
@[simp] theorem State.setReg_requests (x : State) (off : Nat) (w : Word) : (x.setReg off w).requests = x.requests := rfl
@[simp] theorem State.setReg_accesses (x : State) (off : Nat) (w : Word) : (x.setReg off w).accesses = x.accesses := rfl
@[simp] theorem State.setReg_flows (x : State) (off : Nat) (w : Word) : (x.setReg off w).flows = x.flows := rfl
@[simp] theorem State.setReg_weir (x : State) (off : Nat) (w : Word) : (x.setReg off w).weir = x.weir := rfl
@[simp] theorem State.setReg_copyClaims (x : State) (off : Nat) (w : Word) : (x.setReg off w).copyClaims = x.copyClaims := rfl
@[simp] theorem State.setReg_copyWaits (x : State) (off : Nat) (w : Word) : (x.setReg off w).copyWaits = x.copyWaits := rfl
@[simp] theorem State.setReg_tiles (x : State) (off : Nat) (w : Word) : (x.setReg off w).tiles = x.tiles := rfl
@[simp] theorem State.setReg_tilePoison (x : State) (off : Nat) (w : Word) : (x.setReg off w).tilePoison = x.tilePoison := rfl
@[simp] theorem State.setReg_accs (x : State) (off : Nat) (w : Word) : (x.setReg off w).accs = x.accs := rfl
@[simp] theorem State.setReg_tshape (x : State) (off : Nat) (w : Word) : (x.setReg off w).tshape = x.tshape := rfl
@[simp] theorem State.setReg_millstones (x : State) (off : Nat) (w : Word) : (x.setReg off w).millstones = x.millstones := rfl
@[simp] theorem State.setReg_colls (x : State) (off : Nat) (w : Word) : (x.setReg off w).colls = x.colls := rfl
@[simp] theorem State.setReg_slotPointer (x : State) (off : Nat) (w : Word) : (x.setReg off w).slotPointer = x.slotPointer := rfl
@[simp] theorem State.setReg_boundaries (x : State) (off : Nat) (w : Word) : (x.setReg off w).boundaries = x.boundaries := rfl
@[simp] theorem State.setReg_exits (x : State) (off : Nat) (w : Word) : (x.setReg off w).exits = x.exits := rfl
@[simp] theorem State.setReg_sluice (x : State) (off : Nat) (w : Word) : (x.setReg off w).sluice = x.sluice := rfl
@[simp] theorem State.setReg_millpond (x : State) (off : Nat) (w : Word) : (x.setReg off w).millpond = x.millpond := rfl
@[simp] theorem State.setReg_quotas (x : State) (off : Nat) (w : Word) : (x.setReg off w).quotas = x.quotas := rfl
@[simp] theorem State.setReg_heldLoads (x : State) (off : Nat) (w : Word) : (x.setReg off w).heldLoads = x.heldLoads := rfl
@[simp] theorem State.setReg_migrations (x : State) (off : Nat) (w : Word) : (x.setReg off w).migrations = x.migrations := rfl
@[simp] theorem State.setReg_invalidations (x : State) (off : Nat) (w : Word) : (x.setReg off w).invalidations = x.invalidations := rfl
@[simp] theorem State.setReg_enabling (x : State) (off : Nat) (w : Word) : (x.setReg off w).enabling = x.enabling := rfl
@[simp] theorem State.setReg_events (x : State) (off : Nat) (w : Word) : (x.setReg off w).events = x.events := rfl
@[simp] theorem State.setReg_outbox (x : State) (off : Nat) (w : Word) : (x.setReg off w).outbox = x.outbox := rfl
@[simp] theorem State.setReg_stalledJobs (x : State) (off : Nat) (w : Word) : (x.setReg off w).stalledJobs = x.stalledJobs := rfl
@[simp] theorem State.setReg_distStall (x : State) (off : Nat) (w : Word) : (x.setReg off w).distStall = x.distStall := rfl
@[simp] theorem State.setReg_tails (x : State) (off : Nat) (w : Word) : (x.setReg off w).tails = x.tails := rfl
@[simp] theorem State.setReg_rates (x : State) (off : Nat) (w : Word) : (x.setReg off w).rates = x.rates := rfl
@[simp] theorem State.setReg_portQueues (x : State) (off : Nat) (w : Word) : (x.setReg off w).portQueues = x.portQueues := rfl
@[simp] theorem State.setReg_notices (x : State) (off : Nat) (w : Word) : (x.setReg off w).notices = x.notices := rfl
@[simp] theorem State.setReg_launchRefusals (x : State) (off : Nat) (w : Word) : (x.setReg off w).launchRefusals = x.launchRefusals := rfl
@[simp] theorem State.setReg_boot (x : State) (off : Nat) (w : Word) : (x.setReg off w).boot = x.boot := rfl
@[simp] theorem State.setReg_imageVersion (x : State) (off : Nat) (w : Word) : (x.setReg off w).imageVersion = x.imageVersion := rfl
@[simp] theorem State.setReg_imageGen (x : State) (off : Nat) (w : Word) : (x.setReg off w).imageGen = x.imageGen := rfl
@[simp] theorem State.setReg_storedUpdate (x : State) (off : Nat) (w : Word) : (x.setReg off w).storedUpdate = x.storedUpdate := rfl
@[simp] theorem State.setReg_storedImages (x : State) (off : Nat) (w : Word) : (x.setReg off w).storedImages = x.storedImages := rfl
@[simp] theorem State.setReg_updatedImages (x : State) (off : Nat) (w : Word) : (x.setReg off w).updatedImages = x.updatedImages := rfl
@[simp] theorem State.setReg_copyTouched (x : State) (off : Nat) (w : Word) : (x.setReg off w).copyTouched = x.copyTouched := rfl
@[simp] theorem State.setReg_attesting (x : State) (off : Nat) (w : Word) : (x.setReg off w).attesting = x.attesting := rfl
@[simp] theorem State.setReg_updating (x : State) (off : Nat) (w : Word) : (x.setReg off w).updating = x.updating := rfl
@[simp] theorem State.setReg_stoppedStacks (x : State) (off : Nat) (w : Word) : (x.setReg off w).stoppedStacks = x.stoppedStacks := rfl
@[simp] theorem State.setReg_stoppedAlus (x : State) (off : Nat) (w : Word) : (x.setReg off w).stoppedAlus = x.stoppedAlus := rfl
@[simp] theorem State.setReg_module (x : State) (off : Nat) (w : Word) : (x.setReg off w).module = x.module := rfl
@[simp] theorem State.setReg_time (x : State) (off : Nat) (w : Word) : (x.setReg off w).time = x.time := rfl
@[simp] theorem State.setReg_agenda (x : State) (off : Nat) (w : Word) : (x.setReg off w).agenda = x.agenda := rfl
@[simp] theorem State.setReg_draws (x : State) (off : Nat) (w : Word) : (x.setReg off w).draws = x.draws := rfl
@[simp] theorem State.setReg_nextId (x : State) (off : Nat) (w : Word) : (x.setReg off w).nextId = x.nextId := rfl
@[simp] theorem State.setReg_steps (x : State) (off : Nat) (w : Word) : (x.setReg off w).steps = x.steps := rfl

end Sys2Proof.Machine
end

