-- ==== Sys2Proof/Laws/Issue.lean ====
section
/-! SUPPORT. How an instruction that nothing holds back issues, and what the shared updates of registers leave to be read. -/

namespace Sys2Proof.Machine

/-! ## Registers read after a write -/

theorem Team.u_setU (t : Team) (n k : Nat) (w : Word) : (t.setU n w).u k = if k = n then w else t.u k :=
  mapGet_mapSet t.uregs n k

theorem Team.p_setP (t : Team) (n k : Nat) (m : Mask) : (t.setP n m).p k = if k = n then m else t.p k :=
  mapGet_mapSet t.preds n k

theorem Team.v_setU (t : Team) (n : Nat) (w : Word) (r l : Nat) : (t.setU n w).v r l = t.v r l := rfl
theorem Team.v_setP (t : Team) (n : Nat) (m : Mask) (r l : Nat) : (t.setP n m).v r l = t.v r l := rfl
theorem Team.u_setV (t : Team) (r : Nat) (ws : List (Nat × Lane)) (k : Nat) : (t.setV r ws).u k = t.u k := rfl
theorem Team.p_setV (t : Team) (r : Nat) (ws : List (Nat × Lane)) (k : Nat) : (t.setV r ws).p k = t.p k := rfl

theorem vkey_inj {r l r' l' : Nat} (h : l < 1024) (h' : l' < 1024) : vkey r l = vkey r' l' ↔ r = r' ∧ l = l' := by
  unfold vkey
  omega

theorem nodup_map_vkey (r : Nat) : ∀ ls : List Nat, ls.Nodup → (ls.map fun k => vkey r k).Nodup
  | [], _ => List.nodup_nil
  | l :: ls, h => by
    rw [List.nodup_cons] at h
    rw [List.map_cons, List.nodup_cons]
    refine ⟨fun hm => ?_, nodup_map_vkey r ls h.2⟩
    obtain ⟨k, hk, e⟩ := List.mem_map.mp hm
    unfold vkey at e
    exact h.1 ((by omega : k = l) ▸ hk)

/-- The lanes that a write lists hold their values; every other lane and register keeps its own. -/
theorem Team.v_setV (t : Team) (r : Nat) (ls : List Nat) (f : Nat → Lane) (hn : ls.Nodup) (hb : ∀ l ∈ ls, l < 1024)
    (r' l : Nat) (hl : l < 1024) :
    (t.setV r (ls.map fun k => (k, f k))).v r' l = if r' = r ∧ l ∈ ls then f l else t.v r' l := by
  show mapGet 0 (mapSetMany 0 t.vregs ((ls.map fun k => (k, f k)).map fun w => (vkey r w.1, w.2))) (vkey r' l) = _
  simp only [List.map_map, Function.comp_def]
  split
  · next h =>
    obtain ⟨rfl, hm⟩ := h
    have := mapGet_mapSetMany_mem (d := (0 : Lane)) (m := t.vregs) (ls.map fun k => (vkey r' k, f k)) (w := (vkey r' l, f l)) ?_
      (List.mem_map.mpr ⟨l, hm, rfl⟩)
    · exact this
    · simp only [List.map_map, Function.comp_def]
      exact nodup_map_vkey r' ls hn
  · next h =>
    apply mapGet_mapSetMany_other
    intro w hw e
    obtain ⟨k, hk, rfl⟩ := List.mem_map.mp hw
    have := (vkey_inj (hb k hk) hl).mp e
    exact h ⟨this.1.symm, this.2 ▸ hk⟩

theorem lanesOf_nodup (n : Nat) (m : Mask) : (lanesOf n m).Nodup := List.nodup_range.filter _

theorem mem_lanesOf {n : Nat} {m : Mask} {l : Nat} : l ∈ lanesOf n m ↔ l < n ∧ m.getLsbD l = true := by
  simp [lanesOf]

theorem Team.active_lt {t : Team} {l : Nat} (h : l ∈ t.active) : l < 1024 := by
  refine Nat.lt_of_not_le fun hl => ?_
  have := (mem_lanesOf.mp h).2
  rw [BitVec.getLsbD_of_ge _ _ hl] at this
  exact Bool.false_ne_true this

theorem Team.active_nodup (t : Team) : t.active.Nodup := lanesOf_nodup _ _

/-! ## Issue -/

/-- A 32-bit instruction has four bytes. -/
theorem len_of_32 {i : Instr} (h : i.nbits = 32) : i.len = 4 := by rw [Instr.len, h]

/-- A compact instruction has two bytes. -/
theorem len_of_16 {i : Instr} (h : i.nbits = 16) : i.len = 2 := by rw [Instr.len, h]

theorem State.issues_iff {s : State} {i : Instr} {srcs dsts : List RegRef} : s.issues i srcs dsts = true ↔
    s.team.status = .ready ∧ i.wellFormed = true ∧ (srcs ++ dsts).all s.team.holds = true ∧
    (srcs ++ dsts).any s.unready = false ∧ s.poisonTrap srcs = none := by
  simp [State.issues, and_assoc]

theorem State.issuesAlone_iff {s : State} {i : Instr} {priv : Bool} {srcs dsts : List RegRef} :
    s.issuesAlone i priv srcs dsts = true ↔
    s.issues i srcs dsts = true ∧ s.team.closure.isEmpty = true ∧ (priv = true → s.team.level = .supervisor) := by
  cases priv <;> simp [State.issuesAlone, and_assoc]

theorem State.rejects_none {s : State} {i : Instr} {c : Issue} (h : s.issues i c.srcs c.dsts = true) (hi : c.illegal = false)
    (hp : c.priv = true → s.team.level = .supervisor) : s.rejects i c = none := by
  obtain ⟨-, hw, hh, -, -⟩ := State.issues_iff.mp h
  unfold State.rejects
  rw [hw, hh, hi]
  cases hc : c.priv with
  | false => simp
  | true => simp [hp hc]

/-- A closing instruction that issues has its effect. -/
theorem execClosing_issues {s : State} {i : Instr} {c : Issue} {f : State → Res}
    (h : s.issuesAlone i c.priv c.srcs c.dsts = true) (hi : c.illegal = false) : execClosing i c f s = (f s).finish i.len := by
  obtain ⟨h1, h2, h3⟩ := State.issuesAlone_iff.mp h
  obtain ⟨hs, -, -, hu, hp⟩ := State.issues_iff.mp h1
  simp [execClosing, State.rejects_none h1 hi h3, hs, h2, hu, State.perform, hp]

/-- A control instruction whose registers are all settled does not wait. -/
theorem State.controlWaits_settled {s : State} {c : Issue} (h : (c.srcs ++ c.dsts).any s.unready = false) :
    s.controlWaits c = false := by
  rw [List.any_append, Bool.or_eq_false_iff] at h
  refine Bool.or_eq_false_iff.mpr ⟨h.1, List.any_eq_false.mpr fun r hr => ?_⟩
  simp [Bool.eq_false_iff.mpr (List.any_eq_false.mp h.2 r hr)]

/-- A control instruction that issues has its effect. -/
theorem execControl_issues {s : State} {i : Instr} {c : Issue} {f : State → Res} (h : s.issues i c.srcs c.dsts = true)
    (hi : c.illegal = false) (hp : c.priv = false) : execControl i c f s = (f s).finish i.len := by
  obtain ⟨hs, -, -, hu, hx⟩ := State.issues_iff.mp h
  simp [execControl, State.rejects_none h hi (by simp [hp]), hs, State.controlWaits_settled hu, State.perform, hx]

theorem filter_unready {s : State} {rs : List RegRef} (h : rs.any s.unready = false) : (rs.filter fun r => !s.unready r) = rs := by
  rw [List.filter_eq_self]
  intro r hr
  have := List.any_eq_false.mp h r hr
  simpa using this

/-- A capturable instruction that issues runs in the main stream, unless an earlier captured store holds it (R161). -/
theorem execCapturable_issues {s : State} {i : Instr} {r : Nat} {c : Cap} (h : s.issues i c.srcs c.dsts = true)
    (hc : s.team.defer = 0 ∨ s.mustCapture c = false) :
    execCapturable i false r c s =
      (s.runCap c [] s.team.mask (if r = 0 then s.team.rm else r) s.team.plot false).finish i.len := by
  obtain ⟨hs, -, -, hu, hx⟩ := State.issues_iff.mp h
  have hu' := hu
  rw [List.any_append, Bool.or_eq_false_iff] at hu'
  have hw : (c.dsts.any fun d => (s.pending s.team.uid).contains d && !s.team.deferred.contains d) = false := by
    rw [List.any_eq_false]
    intro d hd
    have := List.any_eq_false.mp hu'.2 d hd
    simp only [State.unready, Bool.or_eq_true, not_or, Bool.not_eq_true] at this
    rw [this.1]
    simp
  unfold execCapturable
  rw [State.rejects_none (c := ⟨false, false, c.srcs, c.dsts⟩) h rfl (by simp)]
  simp only [hs, hu, hw, filter_unready hu'.1, hx]
  cases hc with
  | inl h => simp [h]
  | inr h => simp [h]

/-- An instruction that neither loads nor stores is never captured for a store's sake. -/
theorem State.mustCapture_register {s : State} {c : Cap} (hl : c.isLoad = false) (hs : c.isStore = false) :
    s.mustCapture c = false := by
  simp [State.mustCapture, hl, hs]

/-- Flags none of which raises a trap are only gathered (R192, R193). -/
theorem State.flagged_ok {s : State} {lanes : List (Nat × Nat)} {u : Bool}
    (h : enabledFlags s.team.mode (lanes.foldl (fun f l => f ||| l.2) 0) = 0) :
    s.flagged lanes u = .ok (s.mapTeam fun t => t.orFlags (lanes.foldl (fun f l => f ||| l.2) 0)) := by
  simp [State.flagged, h]

end Sys2Proof.Machine
end

