-- ==== Sys2Proof/Laws/Jobs.lean ====
section
/-! SUPPORT. What a job on a counter can do, and when nothing stands before an engine's access to the Plain or holds a wheel port. -/

namespace Sys2Proof.Machine

/-- With no request under way, the banks keep no engine's access waiting. -/
theorem State.bankBusy_idle {s : State} (h : s.requests = []) (slice off n : Nat) : s.bankBusy slice off n = false := by
  simp [State.bankBusy, h]

/-- The same of an access for a team. -/
theorem State.plainBusy_idle {s : State} (h : s.requests = []) (slice off n : Nat) : s.plainBusy slice off n = false := by
  simp [State.plainBusy, State.bankBusy_idle h, h]

/-- An access that the banks keep waiting is kept waiting for a team as well. -/
theorem State.plainBusy_of_bankBusy {s : State} {slice off n : Nat} (h : s.bankBusy slice off n = true) :
    s.plainBusy slice off n = true := by simp [State.plainBusy, h]

/-- With no job that waits, nothing is tried again. -/
theorem State.resumeJobs_idle {s : State} (h : s.stalledJobs = []) : s.resumeJobs = s := by simp [State.resumeJobs, h]

/-- A job done: it keeps waiting, in the state as it was, or it is tried. -/
theorem State.runJob_cases (s : State) (j : Job) :
    ((s.tryJob j).1.distStall = true ∧ s.runJob j = ({ s with stalledJobs := s.stalledJobs ++ [j] }, [])) ∨
    ((s.tryJob j).1.distStall = false ∧ s.runJob j = s.tryJob j) := by
  cases h : (s.tryJob j).1.distStall
  · exact .inr ⟨rfl, by simp [State.runJob, h]⟩
  · exact .inl ⟨rfl, by simp [State.runJob, h]⟩

/-- The end of a flow or a collective in its counter: it waits for a queued write (R107), or sets SEVERED and the cause (R93, R322). -/
theorem State.tryJob_sever (s : State) (slice off code : Nat) :
    s.tryJob (.sever slice off code) = if s.bankBusy slice off 16 then ({ s with distStall := true }, [])
      else (s.setCtrWord slice off 2 (severedWord (s.ctrWord slice off 2) code), [.counter slice off]) := rfl

/-- A wheel port that no swath holds presents the oldest of the wheel whose turn it is (R34). -/
theorem State.heldSwath_free {s : State} {mill : Nat} (h : (s.port mill).swath = none) : s.heldSwath mill = none := by
  simp [State.heldSwath, h]

/-- What holds a wheel port has a request there (R34). -/
theorem State.heldSwath_some {s : State} {mill : Nat} {x : Nat × Nat} (h : s.heldSwath mill = some x) :
    ∃ r ∈ s.requests, r.atPort mill = true ∧ (r.access, r.swath) = x := by
  obtain ⟨-, h⟩ := Option.filter_eq_some_iff.mp h
  obtain ⟨r, hr, h⟩ := List.any_eq_true.mp h
  simp only [Bool.and_eq_true, beq_iff_eq] at h
  exact ⟨r, hr, h.1, h.2⟩

/-- A READY team of a wheel grows older there (R178). -/
theorem Team.agesOn_ready {t : Team} {mill wheel : Nat} (h : t.readyOn mill wheel = true) : t.agesOn mill wheel = true := by
  simp only [Team.readyOn, Bool.and_eq_true] at h
  simp [Team.agesOn, h.1.1, h.1.2, h.2]

end Sys2Proof.Machine
end

