-- ==== Sys2Proof/Laws/Memory.lean ====
section
/-! SUPPORT. Every memory operation keeps the canonical form of memory, and what the operations on whole lines and on the rings can do
to it. -/

namespace Sys2Proof.Machine

theorem State.memoryWf_iff {s : State} :
    s.memoryWf = true ↔ mapWf 0 s.plain = true ∧ mapWf 0 s.basin = true ∧ mapWf 0 s.hostMem = true := by
  simp [State.memoryWf, Memory.wf, unlistedByte, and_assoc]

/-- The form depends on the three memories alone. -/
theorem State.memoryWf_congr {s t : State} (hp : t.plain = s.plain) (hb : t.basin = s.basin) (hm : t.hostMem = s.hostMem)
    (h : s.memoryWf = true) : t.memoryWf = true := by
  rw [State.memoryWf_iff] at *; rw [hp, hb, hm]; exact h

/-- A fold of operations that each keep the form keeps it. -/
theorem State.memoryWf_foldl {β : Type} {f : State → β → State} (hf : ∀ s x, s.memoryWf = true → (f s x).memoryWf = true) :
    ∀ (l : List β) {s : State}, s.memoryWf = true → (l.foldl f s).memoryWf = true
  | [], _, h => h
  | x :: l, _, h => State.memoryWf_foldl hf l (hf _ x h)

/-! ## The Plain -/

theorem State.memoryWf_plainPut {s : State} (h : s.memoryWf = true) (slice off : Nat) (bs : List Byte) :
    (s.plainPut slice off bs).memoryWf = true := by
  rw [State.memoryWf_iff] at *; exact ⟨mapWf_mapSplice h.1 _ _, h.2⟩

theorem State.memoryWf_plainPiece {s : State} (h : s.memoryWf = true) (slice off : Nat) (bs : List Byte) :
    (s.plainPiece slice off bs).memoryWf = true := by
  unfold State.plainPiece
  split
  · split
    · exact State.memoryWf_congr rfl rfl rfl (State.memoryWf_plainPut h slice off bs)
    · exact State.memoryWf_congr rfl rfl rfl h
  · exact State.memoryWf_plainPut h slice off bs

theorem State.memoryWf_plainWrite {s : State} (h : s.memoryWf = true) (slice off : Nat) (bs : List Byte) :
    (s.plainWrite slice off bs).memoryWf = true := by
  unfold State.plainWrite
  split
  · exact State.memoryWf_foldl (fun s x h => State.memoryWf_plainPiece h slice x.1 x.2) _ h
  · exact State.memoryWf_plainPut h slice off bs

theorem State.memoryWf_poisonWord {s : State} (h : s.memoryWf = true) (slice w : Nat) : (s.poisonWord slice w).memoryWf = true := by
  unfold State.poisonWord
  split
  · exact h
  · exact State.memoryWf_congr rfl rfl rfl h

/-! ## The Basin -/

theorem State.memoryWf_scrubBlock {s : State} (h : s.memoryWf = true) (blk : Nat) : (s.scrubBlock blk).memoryWf = true := by
  rw [State.memoryWf_iff] at *; exact ⟨h.1, mapWf_mapClear h.2.1 _ _, h.2.2⟩

theorem State.memoryWf_basinPut {s : State} (h : s.memoryWf = true) (line id : Nat) (bs : List Byte) :
    (s.basinPut line id bs).memoryWf = true := by
  rw [State.memoryWf_iff] at *; exact ⟨h.1, mapWf_mapSplice h.2.1 _ _, h.2.2⟩

theorem State.memoryWf_poisonLine {s : State} (h : s.memoryWf = true) (line : Nat) : (s.poisonLine line).memoryWf = true := by
  have marked : (if s.scrubMarks.contains (line / 4096) then s.scrubBlock (line / 4096) else s).memoryWf = true := by
    split
    · exact State.memoryWf_scrubBlock h _
    · exact h
  exact State.memoryWf_congr rfl rfl rfl marked

theorem State.memoryWf_basinWrite {s : State} (h : s.memoryWf = true) (pa key : Nat) (bs : List Byte) :
    (s.basinWrite pa key bs).1.memoryWf = true := by
  have after : ∀ x : State, x.memoryWf = true → (if !x.keyLoaded key then (x, ReadStatus.keyAbsent) else
      if (x.basinRead (pa / 64 * 64) key).2 == .poisoned && (bs.length != 64 || x.stackStopped (pa / 64 * 64)) then
        ({ x with poisonedWrites := x.poisonedWrites + 1 }, .poisoned)
      else (x.basinPut (pa / 64 * 64) (x.keyMat key) (overlay (x.basinRead (pa / 64 * 64) key).1 (pa % 64) bs), .ok)).1.memoryWf
        = true := by
    intro x hx
    split
    · exact hx
    · split
      · exact State.memoryWf_congr rfl rfl rfl hx
      · exact State.memoryWf_basinPut hx _ _ _
  refine after (if s.scrubMarks.contains (pa / 64 * 64 / 4096) then s.scrubBlock (pa / 64 * 64 / 4096) else s) ?_
  split
  · exact State.memoryWf_scrubBlock h _
  · exact h

/-! ## Host memory -/

theorem State.memoryWf_hostPut {s : State} (h : s.memoryWf = true) (line : Nat) (under : Option Nat) (bs : List Byte) :
    (s.hostPut line under bs).memoryWf = true := by
  rw [State.memoryWf_iff] at *; exact ⟨h.1, h.2.1, mapWf_mapSplice h.2.2 _ _⟩

theorem State.memoryWf_hostWrite {s : State} (h : s.memoryWf = true) (pa key : Nat) (bypass : Bool) (bs : List Byte) :
    (s.hostWrite pa key bypass bs).memoryWf = true := State.memoryWf_hostPut h _ _ _

theorem State.memoryWf_poisonHost {s : State} (h : s.memoryWf = true) (line : Nat) : (s.poisonHost line).memoryWf = true := by
  unfold State.poisonHost
  split
  · exact h
  · exact State.memoryWf_congr rfl rfl rfl h

theorem State.memoryWf_cleanHost {s : State} (h : s.memoryWf = true) (line : Nat) : (s.cleanHost line).memoryWf = true :=
  State.memoryWf_congr rfl rfl rfl h

theorem State.memoryWf_hostStore {s : State} (h : s.memoryWf = true) (pa : Nat) (bs : List Byte) :
    (s.hostStore pa bs).memoryWf = true :=
  State.memoryWf_foldl (fun _ x h => State.memoryWf_cleanHost (State.memoryWf_hostWrite h x.1 0 true x.2) _) _ h

/-! ## Registers, rings and events -/

theorem State.memoryWf_setReg {s : State} (h : s.memoryWf = true) (off : Nat) (w : Word) : (s.setReg off w).memoryWf = true :=
  State.memoryWf_congr rfl rfl rfl h

theorem State.memoryWf_updReg {s : State} (h : s.memoryWf = true) (off : Nat) (f : Word → Word) : (s.updReg off f).memoryWf = true :=
  State.memoryWf_setReg h _ _

theorem State.memoryWf_readTime {s : State} (h : s.memoryWf = true) (vd : Nat) : (s.readTime vd).2.memoryWf = true :=
  State.memoryWf_setReg h _ _

theorem State.memoryWf_mapTeam {s : State} (h : s.memoryWf = true) (f : Team → Team) : (s.mapTeam f).memoryWf = true :=
  State.memoryWf_congr rfl rfl rfl h

theorem State.memoryWf_mapTeams {s : State} (h : s.memoryWf = true) (f : Team → Team) : (s.mapTeams f).memoryWf = true :=
  State.memoryWf_congr rfl rfl rfl h

theorem State.memoryWf_updTeam {s : State} (h : s.memoryWf = true) (uid : Nat) (f : Team → Team) :
    (s.updTeam uid f).memoryWf = true := State.memoryWf_mapTeams h _

theorem State.memoryWf_ringPush {s : State} (h : s.memoryWf = true) (ring : Nat × Nat × Nat) (record : Nat → List Byte) :
    (s.ringPush ring record).2.memoryWf = true :=
  State.memoryWf_updReg (State.memoryWf_hostStore h _ _) _ _

/-- What an event does once its time is read. -/
theorem State.memoryWf_posted {s : State} (h : s.memoryWf = true) (e : EventRecord) (ring : Nat × Nat × Nat) (c : Bool) :
    (if c then
      match e.park with
      | some uid => (s.ringPush ring e.bytes).2.updTeam uid fun t => { t with guestSeq := some (s.ringPush ring e.bytes).1 }
      | none => (s.ringPush ring e.bytes).2
    else if e.park.isSome then { s with events := s.events ++ [e] }
    else s.updReg ring.2.1 fun w => wput w 63 32 (wbits w 63 32 + 1)).memoryWf = true := by
  have hp := State.memoryWf_ringPush h ring e.bytes
  split
  · split
    · exact State.memoryWf_updTeam hp _ _
    · exact hp
  · split
    · exact State.memoryWf_congr rfl rfl rfl h
    · exact State.memoryWf_updReg h _ _

theorem State.memoryWf_post {s : State} (h : s.memoryWf = true) (vd : Option Nat) (type report : Nat) (addr data : Word)
    (park : Option Nat) : (s.post vd type report addr data park).memoryWf = true := by
  cases vd with
  | none => exact State.memoryWf_posted h ⟨none, type, report, addr, data, park, BitVec.ofNat 64 s.time⟩ _ _
  | some v =>
    exact State.memoryWf_posted (State.memoryWf_readTime h v) ⟨some v, type, report, addr, data, park, (s.readTime v).1⟩ _ _

theorem State.memoryWf_postKeyAbsent {s : State} (h : s.memoryWf = true) (vd line key : Nat) :
    (s.postKeyAbsent vd line key).memoryWf = true := State.memoryWf_post h _ _ _ _ _ _

theorem State.memoryWf_scrubEnd {s : State} (h : s.memoryWf = true) : s.scrubEnd.memoryWf = true := by
  unfold State.scrubEnd
  split
  · exact State.memoryWf_post (State.memoryWf_updReg h _ _) _ _ _ _ _ _
  · exact h

theorem State.memoryWf_memWrite {s : State} (h : s.memoryWf = true) (host : Bool) (pa key : Nat) (bypass : Bool) (bs : List Byte) :
    (s.memWrite host pa key bypass bs).1.memoryWf = true := by
  have after : ∀ (x : State) (st : ReadStatus), x.memoryWf = true → (if st == .poisoned then
      (x.post none 0x22 0 (BitVec.ofNat 64 (pa / 64 * 64)) (BitVec.ofNat 64 (bitsOf pa 10 8)) none, st)
    else (x, st)).1.memoryWf = true := by
    intro x st hx
    split
    · exact State.memoryWf_post hx _ _ _ _ _ _
    · exact hx
  unfold State.memWrite
  split
  · split
    · exact h
    · split
      · exact State.memoryWf_congr rfl rfl rfl h
      · exact State.memoryWf_cleanHost (State.memoryWf_hostWrite h _ _ _ _) _
  · have hb := State.memoryWf_basinWrite h pa key bs
    refine after (if s.scrubMarks.isEmpty then (s.basinWrite pa key bs).1 else (s.basinWrite pa key bs).1.scrubEnd) _ ?_
    split
    · exact hb
    · exact State.memoryWf_scrubEnd hb

theorem State.memoryWf_poisonBasin {s : State} (h : s.memoryWf = true) (line : Nat) : (s.poisonBasin line).memoryWf = true := by
  have hp := State.memoryWf_poisonLine h line
  unfold State.poisonBasin
  split
  · exact hp
  · exact State.memoryWf_scrubEnd hp

theorem State.memoryWf_memPoison {s : State} (h : s.memoryWf = true) (host : Bool) (pa key : Nat) (bypass : Bool) :
    (s.memPoison host pa key bypass).1.memoryWf = true := by
  unfold State.memPoison
  split
  · exact h
  · split
    · exact State.memoryWf_poisonHost h _
    · exact State.memoryWf_poisonBasin h _

/-- The rows that a partition takes over read as unwritten. -/
theorem State.memoryWf_takeRows {s : State} (h : s.memoryWf = true) (p base count : Nat) :
    (s.takeRows p base count).memoryWf = true := by
  rw [State.memoryWf_iff] at *; exact ⟨mapWf_filter h.1 _, h.2⟩

theorem State.memoryWf_setTableWord {s : State} (h : s.memoryWf = true) (pa v : Nat) : (s.setTableWord pa v).memoryWf = true :=
  State.memoryWf_memWrite h _ _ _ _ _

end Sys2Proof.Machine
end

