-- ==== Sys2Proof/Laws/Run.lean ====
section
/-! SUPPORT. What the run of each form of capturable instruction that touches no memory leaves, once for all its instructions. -/

namespace Sys2Proof.Machine

/-- A uniform operation writes its result and its flags, and nothing else. -/
theorem execCapturable_uniform {s : State} {i : Instr} {op : UOp} {d : Nat} {a b : USrc} {w : Word} {f n : Nat} (hl : i.len = n)
    (h : s.issues i (a.regs ++ b.regs) [.u d] = true)
    (hw : op.eval (Reader.usrc ⟨s.team, []⟩ a) (Reader.usrc ⟨s.team, []⟩ b) = (w, f)) (he : enabledFlags s.team.mode f = 0) :
    ∃ t, execCapturable i false 0 (.uni op d a b) s = .next t ∧ WritesUniform s t n d w (BitVec.ofNat 64 f) := by
  rw [execCapturable_issues (c := .uni op d a b) h (.inr (State.mustCapture_register rfl rfl)), hl]
  simp only [State.runCap, hw]
  rw [State.flagged_ok (by simpa using he)]
  refine ⟨_, rfl, ?_, ?_, ?_⟩
  · exact (mapGet_mapSet _ _ _).trans (if_pos rfl)
  · intro k hk
    exact (mapGet_mapSet _ _ _).trans (if_neg hk)
  · simp [State.advance, State.mapTeam, Team.orFlags, Team.setU]

/-- A uniform operation that sets no flag. -/
theorem execCapturable_uniform_noFlag {s : State} {i : Instr} {op : UOp} {d : Nat} {a b : USrc} {w : Word} {n : Nat}
    (hl : i.len = n) (h : s.issues i (a.regs ++ b.regs) [.u d] = true)
    (hw : op.eval (Reader.usrc ⟨s.team, []⟩ a) (Reader.usrc ⟨s.team, []⟩ b) = (w, 0)) :
    ∃ t, execCapturable i false 0 (.uni op d a b) s = .next t ∧ WritesUniform s t n d w 0 :=
  execCapturable_uniform hl h hw (by simp [enabledFlags])

theorem lanesOf_mask (t : Team) : lanesOf t.lanes t.mask = t.active := rfl

/-- Lanes written, then flags gathered and the pc moved on. -/
theorem writesLanes_of_setV {s : State} {d n f : Nat} {g : Nat → Lane} :
    WritesLanes s (State.advance ((s.mapTeam fun t => t.setV d (s.team.active.map fun l => (l, g l))).mapTeam fun t => t.orFlags f) n)
      n d g (BitVec.ofNat 64 f) := by
  refine ⟨?_, ?_, ?_, ?_⟩
  · intro r l hl
    exact Team.v_setV s.team d s.team.active g s.team.active_nodup (fun _ h => Team.active_lt h) r l hl
  · intro p hp
    exact (List.mem_filter.mp hp).1
  · intro p hp hd
    refine List.mem_filter.mpr ⟨hp, ?_⟩
    simp [hd]
  · simp [State.advance, State.mapTeam, Team.orFlags, Team.setV]

theorem foldl_map_snd {β : Type} (ls : List Nat) (g : Nat → β × Nat) (a : Nat) :
    (ls.map fun l => (l, (g l).2)).foldl (fun f (x : Nat × Nat) => f ||| x.2) a = (ls.map fun l => (g l).2).foldl (· ||| ·) a := by
  induction ls generalizing a with
  | nil => rfl
  | cons l ls ih => exact ih _

/-- A lane operation writes its result in the active lanes and gathers their flags, and nothing else. -/
theorem execCapturable_lane {s : State} {i : Instr} {r d n : Nat} {op : LOp} {xs : List VSrc} {g : Nat → Lane × Nat}
    (hl : i.len = n) (h : s.issues i (xs.flatMap VSrc.regs) [.v d] = true)
    (hg : ∀ l, op.eval (if r = 0 then s.team.rm else r) (Reader.nth ⟨s.team, []⟩ s.team.plot xs 0 l) (Reader.nth ⟨s.team, []⟩ s.team.plot xs 1 l) (Reader.nth ⟨s.team, []⟩ s.team.plot xs 2 l) = g l)
    (he : enabledFlags s.team.mode (s.unionFlags fun l => (g l).2) = 0) :
    ∃ t, execCapturable i false r (.lane op d xs) s = .next t ∧
      WritesLanes s t n d (fun l => (g l).1) (BitVec.ofNat 64 (s.unionFlags fun l => (g l).2)) := by
  rw [execCapturable_issues (c := .lane op d xs) h (.inr (State.mustCapture_register rfl rfl)), hl]
  have e : (lanesOf s.team.lanes s.team.mask).map (fun l => (l, op.eval (if r = 0 then s.team.rm else r)
      (Reader.nth ⟨s.team, []⟩ s.team.plot xs 0 l) (Reader.nth ⟨s.team, []⟩ s.team.plot xs 1 l) (Reader.nth ⟨s.team, []⟩ s.team.plot xs 2 l))) = s.team.active.map fun l => (l, g l) := by
    simp only [hg, Team.active]
  simp only [State.runCap]
  rw [e]
  simp only [List.map_map, Function.comp_def]
  rw [State.flagged_ok (by rw [foldl_map_snd]; exact he), foldl_map_snd]
  exact ⟨_, rfl, writesLanes_of_setV⟩

/-- A lane operation that sets no flag. -/
theorem execCapturable_lane_noFlag {s : State} {i : Instr} {r d n : Nat} {op : LOp} {xs : List VSrc} {g : Nat → Lane}
    (hl : i.len = n) (h : s.issues i (xs.flatMap VSrc.regs) [.v d] = true)
    (hg : ∀ l, op.eval (if r = 0 then s.team.rm else r) (Reader.nth ⟨s.team, []⟩ s.team.plot xs 0 l) (Reader.nth ⟨s.team, []⟩ s.team.plot xs 1 l) (Reader.nth ⟨s.team, []⟩ s.team.plot xs 2 l) = (g l, 0)) :
    ∃ t, execCapturable i false r (.lane op d xs) s = .next t ∧ WritesLanes s t n d g 0 := by
  have z : s.unionFlags (fun _ => 0) = 0 := by
    unfold State.unionFlags
    induction s.team.active with
    | nil => rfl
    | cons l ls ih => simpa using ih
  have := execCapturable_lane (g := fun l => (g l, 0)) hl h hg (by rw [z]; simp [enabledFlags])
  rwa [z] at this

/-- A cross-lane operation writes its result in the active lanes and gathers their flags, and nothing else. -/
theorem execCapturable_cross {s : State} {i : Instr} {d a n : Nat} {op : XOp} {b : VSrc} {y : Nat → Nat} {g : Nat → Lane × Nat}
    (hl : i.len = n) (h : s.issues i (.v a :: b.regs) [.v d] = true)
    (hy : ∀ l, Reader.position ⟨s.team, []⟩ s.team.plot b l = y l)
    (hg : ∀ l, op.eval s.team.rm (plotSize s.team.plot) s.team.active (s.team.v a) y l = g l)
    (he : enabledFlags s.team.mode (s.unionFlags fun l => (g l).2) = 0) :
    ∃ t, execCapturable i false 0 (.cross op d a b) s = .next t ∧
      WritesLanes s t n d (fun l => (g l).1) (BitVec.ofNat 64 (s.unionFlags fun l => (g l).2)) := by
  rw [execCapturable_issues (c := .cross op d a b) h (.inr (State.mustCapture_register rfl rfl)), hl]
  simp only [State.runCap]
  have hx : Reader.v ⟨s.team, []⟩ a = s.team.v a := rfl
  have hy' : Reader.position ⟨s.team, []⟩ s.team.plot b = y := funext hy
  rw [hx, hy']
  simp only [if_true]
  simp only [lanesOf_mask]
  simp only [hg, List.map_map, Function.comp_def]
  rw [State.flagged_ok (by rw [foldl_map_snd]; exact he), foldl_map_snd]
  exact ⟨_, rfl, writesLanes_of_setV⟩

/-- The bits of a mask of listed lanes. -/
theorem getLsbD_maskOf (ls : List Nat) {l : Nat} (hl : l < 1024) : (maskOf ls).getLsbD l = decide (l ∈ ls) := by
  have fold : ∀ (ls : List Nat) (m : Mask), (ls.foldl (fun m l => m ||| BitVec.ofNat 1024 (2 ^ l)) m).getLsbD l =
      (m.getLsbD l || decide (l ∈ ls)) := by
    intro ls
    induction ls with
    | nil => simp
    | cons k ls ih =>
      intro m
      rw [List.foldl_cons, ih]
      have : (BitVec.ofNat 1024 (2 ^ k)).getLsbD l = decide (l = k) := by
        rw [BitVec.getLsbD_ofNat, Nat.testBit_two_pow]
        simp [hl, eq_comm]
      rw [BitVec.getLsbD_or, this]
      cases m.getLsbD l <;> by_cases h : l = k <;> simp [h]
  simpa [maskOf] using fold ls 0

/-- A predicate written in the active lanes. -/
theorem writesPredicate_of_setP {s : State} {d n f : Nat} {g : Nat → Bool} (yes : List Nat)
    (hyes : ∀ l, l ∈ yes ↔ l ∈ s.team.active ∧ g l = true) :
    WritesPredicate s (State.advance ((s.mapTeam fun t =>
      (t.setP d ((t.p d &&& ~~~(maskOf s.team.active)) ||| maskOf yes)).soundP d s.team.active).mapTeam fun t => t.orFlags f) n)
      n d g (BitVec.ofNat 64 f) := by
  refine ⟨?_, fun p hp => (List.mem_filter.mp hp).1, fun p hp hd => List.mem_filter.mpr ⟨hp, by simp [hd]⟩, ?_⟩
  · intro r l hl
    show ((s.team.setP d _).p r).getLsbD l = _
    rw [Team.p_setP]
    by_cases hr : r = d
    · subst hr
      by_cases hb : l < 1024
      · rw [if_pos rfl, BitVec.getLsbD_or, BitVec.getLsbD_and, BitVec.getLsbD_not, getLsbD_maskOf _ hb, getLsbD_maskOf _ hb]
        by_cases ha : l ∈ s.team.active
        · have : decide (l ∈ yes) = g l := by
            rw [Bool.eq_iff_iff, decide_eq_true_eq, hyes]
            simp [ha]
          simp [ha, hb, this]
        · have : decide (l ∈ yes) = false := by simp [hyes, ha]
          simp [ha, hb, this]
      · have ha : l ∉ s.team.active := fun h => hb (Team.active_lt h)
        rw [if_pos rfl, if_neg (by simp [ha]), BitVec.getLsbD_of_ge _ _ (by omega), BitVec.getLsbD_of_ge _ _ (by omega)]
    · rw [if_neg hr, if_neg (by simp [hr])]
  · simp [State.advance, State.mapTeam, Team.orFlags, Team.setP, Team.soundP]

/-- A lane comparison writes its predicate in the active lanes and gathers their flags, and nothing else. -/
theorem execCapturable_compare {s : State} {i : Instr} {op : LCmp} {pd a b n : Nat} {g : Nat → Bool × Nat} (hl : i.len = n)
    (h : s.issues i [.v a, .v b] [.p pd] = true) (hg : ∀ l, op.eval (s.team.v a l) (s.team.v b l) = g l)
    (he : enabledFlags s.team.mode (s.unionFlags fun l => (g l).2) = 0) :
    ∃ t, execCapturable i false 0 (.lcmp op pd a b) s = .next t ∧
      WritesPredicate s t n pd (fun l => (g l).1) (BitVec.ofNat 64 (s.unionFlags fun l => (g l).2)) := by
  rw [execCapturable_issues (c := .lcmp op pd a b) h (.inr (State.mustCapture_register rfl rfl)), hl]
  simp only [State.runCap]
  have ha : Reader.v ⟨s.team, []⟩ a = s.team.v a := rfl
  have hb : Reader.v ⟨s.team, []⟩ b = s.team.v b := rfl
  rw [ha, hb]
  simp only [lanesOf_mask]
  simp only [hg, List.map_map, Function.comp_def]
  rw [State.flagged_ok (by rw [foldl_map_snd]; exact he), foldl_map_snd]
  refine ⟨_, rfl, writesPredicate_of_setP _ ?_⟩
  intro l
  simp only [List.mem_map, List.mem_filter]
  constructor
  · rintro ⟨x, ⟨⟨k, hk, rfl⟩, hx⟩, rfl⟩
    exact ⟨hk, hx⟩
  · rintro ⟨h1, h2⟩
    exact ⟨(l, g l), ⟨⟨l, h1, rfl⟩, h2⟩, rfl⟩

/-- SREAD writes one uniform register, and nothing else. -/
theorem execCapturable_sread {s : State} {i : Instr} {d a b n : Nat} (hl : i.len = n)
    (h : s.issues i [.v a, .u b] [.u d] = true) :
    ∃ t, execCapturable i false 0 (.sread d a b) s = .next t ∧
      WritesUniform s t n d (if (s.team.u b).toNat ∈ s.team.active then (s.team.v a (s.team.u b).toNat).setWidth 64 else 0) 0 := by
  rw [execCapturable_issues (c := .sread d a b) h (.inr (State.mustCapture_register rfl rfl)), hl]
  have ha : Reader.v ⟨s.team, []⟩ a = s.team.v a := rfl
  have hb : Reader.u ⟨s.team, []⟩ b = s.team.u b := rfl
  simp only [State.runCap, ha, hb, lanesOf_mask, List.contains_iff_mem]
  refine ⟨_, rfl, ?_, ?_, ?_⟩
  · exact (mapGet_mapSet _ _ _).trans (if_pos rfl)
  · intro k hk
    exact (mapGet_mapSet _ _ _).trans (if_neg hk)
  · simp [State.advance, State.mapTeam, Team.setU]

end Sys2Proof.Machine
end

