-- ==== Sys2Proof/Laws/SlhDsa.lean ====
section
/-! SUPPORT. A signature that is made holds: signing and checking of SLH-DSA-SHA2-256s agree. -/

namespace Sys2Proof.Machine

/-! ## Lengths -/

theorem length_leBytes : ∀ n v, (leBytes n v).length = n
  | 0, _ => rfl
  | n + 1, v => by simp [leBytes, length_leBytes n]

theorem length_shaRound {w : Nat} (h : Sha w) (v : List (BitVec w)) (k : BitVec w × BitVec w) : (shaRound h v k).length = v.length := by
  unfold shaRound; split <;> simp

theorem length_foldl_shaRound {w : Nat} (h : Sha w) (ks : List (BitVec w × BitVec w)) :
    ∀ v : List (BitVec w), (ks.foldl (shaRound h) v).length = v.length := by
  induction ks with
  | nil => intro v; rfl
  | cons k ks ih => intro v; rw [List.foldl_cons, ih, length_shaRound]

theorem length_shaBlocks {w : Nat} (h : Sha w) (ks : List (BitVec w)) :
    ∀ n hs m, (shaBlocks h ks n hs m).length = hs.length
  | 0, _, _ => rfl
  | n + 1, hs, m => by
    rw [shaBlocks, length_shaBlocks h ks n]
    simp [shaBlock, length_foldl_shaRound]

theorem length_shaDigest {w : Nat} (h : Sha w) (ks init : List (BitVec w)) (m : List Byte) :
    (shaDigest h ks init m).length = init.length * (w / 8) := by
  simp only [shaDigest, List.length_flatMap, List.length_reverse, length_leBytes, List.map_const', List.sum_replicate_nat,
    length_shaBlocks]

theorem length_shaInit (w : Nat) : (shaInit w).length = 8 := by
  have h : 8 ≤ shaPrimes.length := by decide +kernel
  simp [shaInit, h]

theorem length_sha256 (m : List Byte) : (sha256 m).length = 32 := by
  simp [sha256, length_shaDigest, constants256, length_shaInit]

theorem length_sha512 (m : List Byte) : (sha512 m).length = 64 := by
  simp [sha512, length_shaDigest, constants512, length_shaInit]

theorem length_slhF (seed : List Byte) (a : SlhAddress) (x : List Byte) : (slhF seed a x).length = 32 := length_sha256 _

theorem length_slhT (seed : List Byte) (a : SlhAddress) (x : List Byte) : (slhT seed a x).length = 32 := by
  simp [slhT, length_sha512]

theorem length_slhChain (seed : List Byte) (a : SlhAddress) : ∀ n i x, x.length = 32 → (slhChain seed a n i x).length = 32
  | 0, _, _, h => h
  | n + 1, i, _, _ => length_slhChain seed a n (i + 1) _ (length_slhF _ _ _)

/-- Every value of 32 bytes. -/
abbrev Values (vs : List (List Byte)) : Prop := ∀ v ∈ vs, v.length = 32

theorem Values.length_flatten {vs : List (List Byte)} (h : Values vs) : vs.flatten.length = 32 * vs.length := by
  induction vs with
  | nil => rfl
  | cons v vs ih =>
    rw [List.flatten_cons, List.length_append, ih fun u hu => h u (List.mem_cons_of_mem _ hu), h v List.mem_cons_self,
      List.length_cons]; omega

/-- Values that stand one after another in a signature are read back. -/
theorem slhValues_flatten {vs : List (List Byte)} (h : Values vs) (pre post : List Byte) :
    slhValues (pre ++ (vs.flatten ++ post)) pre.length vs.length = vs := by
  unfold slhValues
  induction vs generalizing pre with
  | nil => rfl
  | cons v vs ih =>
    have hv := h v List.mem_cons_self
    have := ih (fun u hu => h u (List.mem_cons_of_mem _ hu)) (pre ++ v)
    rw [List.length_cons, List.range_succ_eq_map, List.map_cons, List.map_map]
    have hd : ((pre ++ ((v :: vs).flatten ++ post)).drop (pre.length + 32 * 0)).take 32 = v := by simp [← hv]
    have ht : List.map ((fun i => ((pre ++ ((v :: vs).flatten ++ post)).drop (pre.length + 32 * i)).take 32) ∘ Nat.succ)
        (List.range vs.length) = vs := by
      refine Eq.trans (List.map_congr_left ?_) this
      intro i _
      simp only [Function.comp, List.flatten_cons, List.append_assoc, List.length_append, hv]
      rw [show pre.length + 32 * i.succ = pre.length + 32 + 32 * i by omega]
    rw [hd, ht]

/-! ## Chains and trees -/

theorem slhChain_add (seed : List Byte) (a : SlhAddress) :
    ∀ m n i x, slhChain seed a n (i + m) (slhChain seed a m i x) = slhChain seed a (m + n) i x
  | 0, n, i, x => by simp [slhChain]
  | m + 1, n, i, x => by
    rw [show m + 1 + n = (m + n) + 1 by omega, slhChain, slhChain, ← slhChain_add seed a m n (i + 1),
      show i + (m + 1) = i + 1 + m by omega]

theorem baseDigits_lt (b n : Nat) (bs : List Byte) : ∀ d ∈ baseDigits b n bs, d < 2 ^ b := by
  intro d hd
  simp only [baseDigits, List.mem_map] at hd
  obtain ⟨i, -, rfl⟩ := hd
  exact Nat.mod_lt _ (Nat.two_pow_pos b)

theorem slhDigits_lt (x : List Byte) : ∀ d ∈ slhDigits x, d < 16 := by
  intro d hd
  simp only [slhDigits, List.mem_append] at hd
  rcases hd with h | h <;> exact baseDigits_lt _ _ _ _ h

theorem length_slhDigits (x : List Byte) : (slhDigits x).length = 67 := by simp [slhDigits, baseDigits]

/-- The nodes beside a path lead to the node above it. -/
theorem slhRoot_slhPath (seed : List Byte) (a : SlhAddress) (leaf : Nat → List Byte) :
    ∀ n h i, slhRoot seed a (slhPath seed a leaf n h i) h i (slhNode seed a leaf h i) = slhNode seed a leaf (h + n) (i / 2 ^ n)
  | 0, h, i => by simp [slhPath, slhRoot]
  | n + 1, h, i => by
    have step : slhT seed { a with height := h + 1, index := i / 2 }
        (if i % 2 = 0 then slhNode seed a leaf h i ++ slhNode seed a leaf h (if i % 2 = 0 then i + 1 else i - 1)
          else slhNode seed a leaf h (if i % 2 = 0 then i + 1 else i - 1) ++ slhNode seed a leaf h i) =
        slhNode seed a leaf (h + 1) (i / 2) := by
      rw [slhNode]
      by_cases hi : i % 2 = 0
      · simp only [hi, if_true]; rw [show 2 * (i / 2) = i by omega]
      · simp only [hi, if_false]; rw [show 2 * (i / 2) = i - 1 by omega, show i - 1 + 1 = i by omega]
    rw [slhPath, slhRoot, step, slhRoot_slhPath seed a leaf n (h + 1) (i / 2), Nat.div_div_eq_div_mul, ← Nat.pow_succ',
      show h + 1 + n = h + (n + 1) by omega]

/-- A one-time signature gives its key. -/
theorem slhOnce_sign (secret seed : List Byte) (a : SlhAddress) (x : List Byte) :
    slhOnce seed a (slhOnceSign secret seed a x) x = slhOnceKey secret seed a := by
  unfold slhOnce slhOnceKey slhOnceSign
  refine congrArg (fun e => slhT seed _ (List.flatten e)) (List.ext_getElem ?_ ?_)
  · simp [length_slhDigits]
  · intro j h1 h2
    have hj : j < (slhDigits x).length := by simpa [length_slhDigits] using h2
    have hd := slhDigits_lt x _ (List.getElem_mem hj)
    simp only [List.getElem_map, List.getElem_zipIdx, List.getElem_zip, List.getElem_range, Nat.zero_add]
    have := slhChain_add seed { a with height := j } (slhDigits x)[j] (15 - (slhDigits x)[j]) 0 (slhOnceSecret secret seed a j)
    rw [Nat.zero_add] at this
    rw [this]; congr 1; omega

theorem length_slhOnceSign (secret seed : List Byte) (a : SlhAddress) (x : List Byte) : (slhOnceSign secret seed a x).length = 67 := by
  simp [slhOnceSign, length_slhDigits]

theorem values_slhOnceSign (secret seed : List Byte) (a : SlhAddress) (x : List Byte) : Values (slhOnceSign secret seed a x) := by
  intro v hv
  simp only [slhOnceSign, List.mem_map] at hv
  obtain ⟨d, -, rfl⟩ := hv
  exact length_slhChain _ _ _ _ _ (length_slhF _ _ _)

theorem length_slhPath (seed : List Byte) (a : SlhAddress) (leaf : Nat → List Byte) :
    ∀ n h i, (slhPath seed a leaf n h i).length = n
  | 0, _, _ => rfl
  | n + 1, h, i => by simp [slhPath, length_slhPath seed a leaf n]

theorem values_slhPath (seed : List Byte) (a : SlhAddress) {leaf : Nat → List Byte} (hl : ∀ i, (leaf i).length = 32) :
    ∀ n h i, Values (slhPath seed a leaf n h i)
  | 0, _, _ => by simp [slhPath, Values]
  | n + 1, h, i => by
    have hn : ∀ h i, (slhNode seed a leaf h i).length = 32
      | 0, i => hl i
      | h + 1, i => length_slhT _ _ _
    simp only [slhPath, Values, List.mem_cons, forall_eq_or_imp]
    exact ⟨hn _ _, values_slhPath seed a hl n _ _⟩

/-! ## Layers -/

/-- A layer's values give the root of its tree. -/
theorem slhLayer_sign (secret seed : List Byte) (layer tree leaf : Nat) (x : List Byte) (h : leaf < 256) :
    slhLayer seed layer tree leaf (slhLayerSign secret seed layer tree leaf x) x =
      slhNode seed { layer := layer, tree := tree, kind := 2 } (slhLeaf secret seed layer tree) 8 0 := by
  have hl := length_slhOnceSign secret seed { layer := layer, tree := tree, pair := leaf } x
  rw [slhLayer, slhLayerSign, ← hl, List.drop_left, List.take_left, slhOnce_sign]
  have := slhRoot_slhPath seed { layer := layer, tree := tree, kind := 2 } (slhLeaf secret seed layer tree) 8 0 leaf
  rw [show leaf / 2 ^ 8 = 0 from Nat.div_eq_of_lt h, slhNode] at this
  exact this

theorem length_slhLayerSign (secret seed : List Byte) (layer tree leaf : Nat) (x : List Byte) :
    (slhLayerSign secret seed layer tree leaf x).length = 75 := by
  simp [slhLayerSign, length_slhOnceSign, length_slhPath]

theorem values_slhLayerSign (secret seed : List Byte) (layer tree leaf : Nat) (x : List Byte) :
    Values (slhLayerSign secret seed layer tree leaf x) := by
  intro v hv
  rcases List.mem_append.1 hv with h | h
  · exact values_slhOnceSign _ _ _ _ v h
  · exact values_slhPath _ _ (fun _ => length_slhT _ _ _) _ _ _ v h

theorem values_slhLayersSign (secret seed : List Byte) :
    ∀ n layer tree leaf x, Values (slhLayersSign secret seed n layer tree leaf x)
  | 0, _, _, _, _ => by simp [slhLayersSign, Values]
  | n + 1, layer, tree, leaf, x => by
    intro v hv
    rcases List.mem_append.1 hv with h | h
    · exact values_slhLayerSign _ _ _ _ _ _ v h
    · exact values_slhLayersSign secret seed n _ _ _ _ v h

theorem length_slhLayersSign (secret seed : List Byte) :
    ∀ n layer tree leaf x, (slhLayersSign secret seed n layer tree leaf x).length = 75 * n
  | 0, _, _, _, _ => rfl
  | n + 1, layer, tree, leaf, x => by
    simp only [slhLayersSign, List.length_append, length_slhLayerSign, length_slhLayersSign secret seed n]; omega

/-- `n` + 1 layers, whose values stand in a signature, give the root of the last one's tree. -/
theorem slhLayers_sign (secret seed : List Byte) (sig : List Byte) :
    ∀ n layer tree leaf x (pre post : List Byte), leaf < 256 → pre.length = 10592 + 2400 * layer →
      sig = pre ++ ((slhLayersSign secret seed (n + 1) layer tree leaf x).flatten ++ post) →
      slhLayers seed sig (n + 1) layer tree leaf x =
        slhNode seed { layer := layer + n, tree := tree / 256 ^ n, kind := 2 } (slhLeaf secret seed (layer + n) (tree / 256 ^ n)) 8 0 := by
  intro n
  induction n with
  | zero =>
    intro layer tree leaf x pre post hl hp hs
    have hv : slhValues sig (10592 + 2400 * layer) 75 = slhLayerSign secret seed layer tree leaf x := by
      have := slhValues_flatten (values_slhLayerSign secret seed layer tree leaf x) pre post
      rw [length_slhLayerSign, hp] at this
      rw [hs]; simpa [slhLayersSign] using this
    simp only [slhLayers, hv, slhLayer_sign _ _ _ _ _ _ hl, Nat.add_zero, Nat.pow_zero, Nat.div_one]
  | succ n ih =>
    intro layer tree leaf x pre post hl hp hs
    rw [slhLayersSign, List.flatten_append, List.append_assoc] at hs
    have hv : slhValues sig (10592 + 2400 * layer) 75 = slhLayerSign secret seed layer tree leaf x := by
      have := slhValues_flatten (values_slhLayerSign secret seed layer tree leaf x) pre
        ((slhLayersSign secret seed (n + 1) (layer + 1) (tree / 256) (tree % 256)
          (slhLayer seed layer tree leaf (slhLayerSign secret seed layer tree leaf x) x)).flatten ++ post)
      rw [length_slhLayerSign, hp] at this
      rw [hs]; exact this
    rw [slhLayers, hv]
    rw [ih (layer + 1) (tree / 256) (tree % 256) _ (pre ++ (slhLayerSign secret seed layer tree leaf x).flatten) post
      (Nat.mod_lt _ (by decide)) ?_ ?_]
    · rw [Nat.div_div_eq_div_mul, ← Nat.pow_succ', show layer + 1 + n = layer + (n + 1) by omega]
    · rw [List.length_append, (values_slhLayerSign secret seed layer tree leaf x).length_flatten, length_slhLayerSign, hp]; omega
    · rw [hs, List.append_assoc]

/-! ## The few-time signature -/

theorem values_slhFewSign (secret seed : List Byte) (tree leaf : Nat) (digest : List Byte) :
    Values (slhFewSign secret seed tree leaf digest) := by
  intro v hv
  simp only [slhFewSign, List.mem_flatMap, List.mem_cons] at hv
  obtain ⟨d, -, rfl | h⟩ := hv
  · exact length_slhF _ _ _
  · exact values_slhPath _ _ (fun _ => length_slhF _ _ _) _ _ _ v h

theorem length_slhFewSign (secret seed : List Byte) (tree leaf : Nat) (digest : List Byte) :
    (slhFewSign secret seed tree leaf digest).length = 330 := by
  simp only [slhFewSign, List.length_flatMap, List.length_cons, length_slhPath, List.map_const', List.sum_replicate_nat,
    List.length_zipIdx]
  simp [baseDigits]

/-- The values of a signature beyond its few-time part do not count for it. -/
theorem slhFew_append (seed pre post : List Byte) (tree leaf : Nat) (digest : List Byte) (h : pre.length = 10592) :
    slhFew seed (pre ++ post) tree leaf digest = slhFew seed pre tree leaf digest := by
  have hv : ∀ k, k < 22 → slhValues (pre ++ post) (32 + 480 * k) 15 = slhValues pre (32 + 480 * k) 15 := by
    intro k hk
    apply List.map_congr_left
    intro i hi
    have hi := List.mem_range.1 hi
    rw [List.drop_append_of_le_length (by omega), List.take_append_of_le_length (by rw [List.length_drop]; omega)]
  unfold slhFew
  refine congrArg (fun e => slhT seed _ (List.flatten e)) (List.map_congr_left ?_)
  intro d hd
  have hk := List.snd_lt_of_mem_zipIdx hd
  simp only [baseDigits, List.length_map, List.length_range] at hk
  simp only [hv d.2 hk]

/-! ## A signature -/

theorem length_slhMessage (r seed root msg : List Byte) : (slhMessage r seed root msg).length = 47 := by
  simp [slhMessage, length_sha512]

theorem leNat_lt : ∀ bs : List Byte, leNat bs < 256 ^ bs.length
  | [] => by simp [leNat]
  | b :: bs => by
    have := leNat_lt bs
    have hb := b.isLt
    rw [leNat, List.length_cons, Nat.pow_succ]
    omega

theorem beNat_lt (bs : List Byte) : beNat bs < 256 ^ bs.length := by simpa [beNat] using leNat_lt bs.reverse

/-- A signature that `slhSign` makes has its length, and holds under the key. -/
theorem slhVerify_slhSign (secret seed r msg : List Byte) (hs : seed.length = 32) (hr : r.length = 32) :
    (slhSign secret seed r msg).length = 29792 ∧ slhVerify (seed ++ slhPublic secret seed) msg (slhSign secret seed r msg) = true := by
  have hm := length_slhMessage r seed (slhPublic secret seed) (0 :: 0 :: msg)
  generalize hd : slhMessage r seed (slhPublic secret seed) (0 :: 0 :: msg) = digest at hm
  generalize ht : beNat ((digest.drop 39).take 7) = tree
  generalize hl : beNat (digest.drop 46) = leaf
  have htree : tree < 256 ^ 7 := by
    rw [← ht]; refine Nat.lt_of_lt_of_le (beNat_lt _) (Nat.le_of_eq ?_); simp [hm]
  have hleaf : leaf < 256 := by
    rw [← hl]; refine Nat.lt_of_lt_of_le (beNat_lt _) (Nat.le_of_eq ?_); simp [hm]
  have hfew : (r ++ (slhFewSign secret seed tree leaf (digest.take 39)).flatten).length = 10592 := by
    rw [List.length_append, (values_slhFewSign _ _ _ _ _).length_flatten, length_slhFewSign, hr]
  generalize hf : r ++ (slhFewSign secret seed tree leaf (digest.take 39)).flatten = few at hfew
  have hsig : slhSign secret seed r msg =
      few ++ (slhLayersSign secret seed 8 0 tree leaf (slhFew seed few tree leaf (digest.take 39))).flatten := by
    simp only [slhSign, hd, ht, hl, hf]
  have hlen : (slhSign secret seed r msg).length = 29792 := by
    rw [hsig, List.length_append, (values_slhLayersSign _ _ _ _ _ _ _).length_flatten, length_slhLayersSign, hfew]
  have hr' : (slhSign secret seed r msg).take 32 = r := by
    rw [hsig, ← hf, List.append_assoc, ← hr, List.take_left]
  refine ⟨hlen, ?_⟩
  have hseed : (seed ++ slhPublic secret seed).take 32 = seed := by rw [← hs, List.take_left]
  have hroot : (seed ++ slhPublic secret seed).drop 32 = slhPublic secret seed := by rw [← hs, List.drop_left]
  simp only [slhVerify, hseed, hroot, hr', hd, ht, hl, hlen, decide_true, Bool.true_and, beq_iff_eq]
  have hx : slhFew seed (slhSign secret seed r msg) tree leaf (digest.take 39) = slhFew seed few tree leaf (digest.take 39) := by
    rw [hsig, slhFew_append _ _ _ _ _ _ hfew]
  rw [hx, slhLayers_sign secret seed _ 7 0 tree leaf _ few [] hleaf (by rw [hfew]) (by rw [hsig, List.append_nil])]
  rw [show tree / 256 ^ 7 = 0 from Nat.div_eq_of_lt htree, slhPublic]

end Sys2Proof.Machine
end

