-- ==== Sys2Proof/Tests/Slice0.lean ====
section
/-! SUPPORT. Tests: ill-formed terms that WellFormed refuses, words written out from the encoding tables, single steps with results
taken from the rules, and witnesses that the hypotheses of the statements can be met. -/

open Sys2Proof Sys2Proof.Machine

namespace Sys2Proof.Tests

set_option Elab.async false

/-! ## WellFormed: a term for each check, which it refuses -/

/-- Fields (R145, R191, R214, R219 to R228). -/
theorem test_wellFormed_fields :
    (Instr.sgets 0 0x00A).wellFormed = false ∧ (Instr.ssets 0 0x050).wellFormed = false ∧ (Instr.sleep 0).wellFormed = false ∧
    (Instr.defer 3).wellFormed = false ∧ (Instr.plot 0).wellFormed = false ∧ (Instr.plot 6).wellFormed = false ∧
    (Instr.give 0).wellFormed = false ∧ (Instr.take 0).wellFormed = false ∧ (Instr.modeset 0 6).wellFormed = false ∧
    (Instr.vcmp 0 0 0 10).wellFormed = false ∧ (Instr.fcmp 0 0 0 8).wellFormed = false ∧ (Instr.vlane 0 4).wellFormed = false ∧
    (Instr.cvt 0 0 1 1 0).wellFormed = false ∧ (Instr.claim 0 0 1 0 0).wellFormed = false ∧
    (Instr.flow 0 0 1 1).wellFormed = false ∧ (Instr.acread 0 0 4).wellFormed = false ∧ (Instr.stepq 0 3 0).wellFormed = false ∧
    (Instr.stepq 0 0 1).wellFormed = false ∧ (Instr.tldD 0 0 1 0).wellFormed = false ∧ (Instr.mma 0 0 0 5 0).wellFormed = false := by
  decide

/-- Widths (R221) and rounding fields (R191). -/
theorem test_wellFormed_widths :
    (∀ i ∈ [Instr.vadd 0 0 0 3, .vsub 0 0 0 3, .vmin 0 0 0 0 3, .vmax 0 0 0 0 3], i.wellFormed = false) ∧
    (∀ i ∈ [Instr.fadd 0 0 0 6, .fsub 0 0 0 7, .fmul 0 0 0 6, .ffma 0 0 0 6, .ffms 0 0 0 6, .fdiv 0 0 0 6, .fsqrt 0 0 6,
      .hadd2 0 0 0 0 6, .hsub2 0 0 0 0 6, .hmul2 0 0 0 0 6, .hfma2 0 0 0 0 6, .hfms2 0 0 0 0 7, .cvt 0 0 0 1 6, .ascale 0 0 6,
      .abias 0 0 6, .amov 0 0 6, .amovQ 0 0 0 6], i.wellFormed = false) := by
  decide

/-- Register pairs and groups (R214), and the fields of collectives (R226, R316). -/
theorem test_wellFormed_groups :
    (∀ i ∈ [Instr.ldg 1 0 0 0 3, .stg 1 0 0 0 3, .ldp 1 0 0 3, .stp 1 0 0 3, .lda 1 0 0 0 0 1, .stl 1 0 0 0 0 1,
      .atomAdd 1 0 0 0 0 0 1, .atomMin 1 0 0 0 0 0 1, .atomMax 1 0 0 0 0 0 1, .atomAnd 1 0 0 0 0 0 1, .atomOr 1 0 0 0 0 0 1,
      .atomXor 1 0 0 0 0 0 1, .atomXchg 1 0 0 0 0 1, .atomCas 2 0 0 0 0 1, .atomCas 1 0 0 0 0 0], i.wellFormed = false) ∧
    (Instr.coll 0 0 0 0 0 5).wellFormed = false ∧ (Instr.coll 0 0 0 0 4 0).wellFormed = false ∧
    (Instr.coll 0 0 0 0 1 2).wellFormed = false ∧ (Instr.coll 16 1 0 0 0 0).wellFormed = false := by
  decide

/-- Numbers of units (R3, R132, R182). -/
theorem test_wellFormed_units :
    (Instr.bankServe 512 0 .ok).wellFormed = false ∧ (Instr.bankServe 0 32 .ok).wellFormed = false ∧
    (Instr.workgroupPlace 256 ⟨0, [], 0, []⟩).wellFormed = false ∧ (Instr.workgroupPlace 0 ⟨512, [], 0, []⟩).wellFormed = false ∧
    (Instr.dequeStart 512 ⟨0, [], 0, []⟩).wellFormed = false ∧ (Instr.dequeStart 0 ⟨0, [64], 0, []⟩).wellFormed = false ∧
    (Instr.teamResume 0 ⟨0, [], 512, []⟩).wellFormed = false ∧ (Instr.teamResume 0 ⟨0, [], 0, [0x200000]⟩).wellFormed = false ∧
    (Instr.portStateChange 16 true false 0).wellFormed = false ∧ (Instr.portStateChange 0 true false 4096).wellFormed = false ∧
    (Instr.pwinWrite 32 0).wellFormed = false ∧ (Instr.addressSpaceRootWrite 4096 false 0).wellFormed = false ∧
    (Instr.stepRegionWrite 256 0 0).wellFormed = false ∧ (Instr.stepRegionWrite 0 4 0).wellFormed = false ∧
    (Instr.vdstepWrite 256 0).wellFormed = false ∧ (Instr.lqbaseWrite 256 0 0).wellFormed = false ∧
    (Instr.lqbaseWrite 0 16 0).wellFormed = false ∧ (Instr.kcmdLoad 32 0).wellFormed = false ∧
    (Instr.kcmdDestroy 32 0).wellFormed = false ∧ (Instr.peerUpSet 4096).wellFormed = false ∧
    (Instr.peerDown 4096).wellFormed = false ∧ (Instr.routeWrite 4096 false 0).wellFormed = false ∧
    (Instr.registerWrite 0 2 0).wellFormed = false ∧ (Instr.millstoneOperationComplete 512).wellFormed = false := by
  decide

/-- A step packet whose entry has 63 bytes, a line that is not aligned, or a kind that does not exist (R132). -/
theorem test_wellFormed_packet :
    let e : StepEntry := ⟨List.replicate 64 0, 0, 0, 0, 0, 0, false, 1, 0, 0, 0⟩
    (Instr.stepPacket { e with data := List.replicate 63 0 }).wellFormed = false ∧
    (Instr.stepPacket { e with line := 32 }).wellFormed = false ∧ (Instr.stepPacket { e with kind := 6 }).wellFormed = false ∧
    (Instr.stepPacket { e with src := 4096 }).wellFormed = false ∧ (Instr.stepPacket { e with region := 256 }).wellFormed = false := by
  decide

/-! ## Decoding: the encodings that the manual writes out -/

/-- Does every word decode to the instruction beside it, and does that instruction encode to the word? -/
def agrees (n : Nat) (l : List (Nat × Instr)) : Bool :=
  l.all fun x => (match decodeWord n x.1 with
    | .ok i => i == x.2
    | .error _ => false) && encode x.2 == some (n, x.1)

/-- Uniform and control instructions (R232 to R254). -/
theorem test_decode_uniform_control : agrees 32
    [(0x00204301, .sadd 3 1 2), (0x14614401, .sdiv 4 5 6), (0x00324903, .saddi 9 9 3), (0x00A2490B, .sshli 9 9 10),
     (0x00500C11, .slui 12 0x140), (0xC2008D19, .sld 13 2 32 0 3), (0x8021091B, .sst 9 4 2 0 2), (0x0430141D, .sgets 20 0x043),
     (0x0005401F, .ssets 21 0), (0xFFFFFC21, .bra 0xFFFFFC), (0x00001023, .call 16), (0x80053F25, .jmpl 63 20 0), (0x2B, .ret),
     (0x00020D27, .bsz 13 4), (0x00018129, .bany 1 6), (0x00019129, .ball 1 6), (0x0000102D, .ifp 1), (0x0000312D, .ifpN 3),
     (0x0000022D, .maskElse), (0x0000032D, .endif), (0x0000242D, .mset 2), (0x0000252D, .mget 2), (0x2F, .barArrive),
     (0x12F, .barWait), (0x22F, .barSync), (0x31, .exit), (0x131, .yield), (0x231, .nop), (0x003E8331, .sleep 1000),
     (0x135, .plot 1), (0x535, .plot 5), (0x00055439, .fork 20 21), (0x0405D639, .join 22 23), (0x0001403B, .modeset 0x20 2),
     (0x00000E3D, .time 14)] = true := by decide

/-- Lane instructions (R257 to R277). -/
theorem test_decode_lanes : agrees 32
    [(0x41828441, .vadd 4 5 6 1), (0x01828443, .vsub 4 5 6 0), (0x21828445, .vmulHi 4 5 6), (0x01828447, .vmad 4 5 6),
     (0x01828449, .vdiv 4 5 6), (0x2182844B, .vremU 4 5 6), (0x01828453, .vandn 4 5 6), (0x01828455, .vshl 4 5 6),
     (0x21828457, .vshrA 4 5 6), (0xA1828459, .vmin 4 5 6 1 2), (0x0002845D, .vabs 4 5), (0x2002845D, .vneg 4 5),
     (0x6002845F, .vffs 4 5), (0x21828461, .vbfxS 4 5 6), (0x01828463, .vbfi 4 5 6), (0x41828465, .vsel 4 5 6 2),
     (0x08305167, .vcmp 1 5 6 2), (0x08428479, .vmuli 4 5 33), (0x0830518F, .fcmp 1 5 6 2), (0x00028491, .fclass 4 5),
     (0x008284A1, .cvt 4 5 1 0 0), (0x2C0284A1, .cvt 4 5 0 3 1), (0x000004A5, .rnd 4), (0x200004A5, .rndLog 4),
     (0x018284A7, .hrnd 4 5 6), (0x000284B5, .vred 4 5 0), (0xA00284B7, .vscan 4 5 5), (0x000284B9, .matchBits 4 5 0),
     (0x200284B9, .matchFloat 4 5 0), (0x018284BB, .bcast 4 5 6), (0x018284BD, .sread 4 5 6)] = true := by decide

/-- Floating-point, packed-half and cross-lane instructions (R261 to R274). -/
theorem test_decode_float : agrees 32
    [(0x21828481, .fadd 4 5 6 1), (0x01828483, .fsub 4 5 6 0), (0x01828485, .fmul 4 5 6 0), (0x01828487, .ffma 4 5 6 0),
     (0x41828489, .ffms 4 5 6 2), (0x41828493, .fdiv 4 5 6 2), (0x00028495, .fsqrt 4 5 0), (0x0182848B, .fmin 4 5 6),
     (0x2182848B, .fmax 4 5 6), (0x0002848D, .fabs 4 5), (0x2002848D, .fneg 4 5), (0x4182848D, .fcpsgn 4 5 6),
     (0x00028497, .frcp 4 5), (0xC0028497, .ftanh 4 5), (0x11828499, .hadd2 4 5 6 1 0), (0x11A28499, .hsub2 4 5 6 1 0),
     (0x0182849B, .hmul2 4 5 6 0 0), (0x11A2849D, .hfms2 4 5 6 1 0), (0x1182849F, .hmin2 4 5 6 1), (0x018284A9, .packH 4 5 6),
     (0xA18284A9, .unpackB 4 5 6), (0x018284B1, .shflIdx 4 5 6), (0x618284B1, .shflXor 4 5 6), (0x000021B3, .voteAny 1 2),
     (0x040021B3, .voteAll 1 2), (0x080051B3, .voteEq 1 5)] = true := by decide

/-- Memory, engine, tile, collective and system instructions (R279 to R332). -/
theorem test_decode_memory_system : agrees 32
    [(0xD0C284C1, .ldg 4 5 6 1 3), (0x80C284C5, .ldp 4 5 6 2), (0x80C284C7, .stp 4 5 6 2), (0x60C284C9, .lda 4 5 6 2 1 0),
     (0x10C284CB, .stl 4 5 6 1 0 0), (0x50C284CF, .atomFadd 4 5 6 0 1 1), (0x28C284D1, .atomAdd 4 5 6 1 2 0 0),
     (0xA8C284D5, .atomMax 4 5 6 1 2 0 1), (0x18C284DD, .atomXchg 4 5 6 1 0 0), (0xA8C284DF, .atomCas 4 5 6 2 0 1),
     (0x000140E1, .claim 0 5 0 0 0), (0x040180E3, .flow 0 6 0 1), (0x000003E5, .unclaim 3), (0x04000BE5, .clstat 11 0),
     (0x009180E7, .acarm 6 9), (0x04018AE7, .acwait 10 6), (0x089180E7, .acadd 6 9), (0x0C0180E7, .acrst 6),
     (0x10218CE7, .acread 12 6 2), (0x04000DE9, .stepq 13 0 0), (0x040554EB, .gsubmit 20 21), (0x0081A2ED, .coll 2 1 6 8 0 0),
     (0x408183ED, .coll 3 0 6 8 0 2), (0x008180EF, .a2av 6 8), (0x3C0400F5, .mma 0 0 1 0 15), (0x089483F5, .mma 3 4 5 1 2),
     (0x040500FD, .tlbinv 20), (0x0D5500FD, .keyld 20 21), (0x100500FD, .keydel 20), (0x155516FD, .pquota 22 20 21),
     (0x180554FD, .csrr 20 21), (0x1D6540FD, .csrw 21 22), (0x000500FF, .trap 5), (0x000001FF, .brk 0)] = true := by decide

/-- Compact instructions (R217), and words that are none (R213, R217, R218). -/
theorem test_decode_compact_and_rejected :
    agrees 16 [(0b0000010001000000, .vmovC 2 1), (0b1111111111110000, .vshrAC 31 31), (0b1000010001011110, .hmax2Bf16C 2 1)] = true ∧
    decodeTableWord 16 0b1000010001000000 = none ∧ decodeTableWord 32 0x0000003F = none ∧ decodeTableWord 32 0x00000331 = none ∧
    decodeTableWord 32 0x0000032F = none ∧ decodeTableWord 32 0x00000433 = some (.defer 1) := by decide

/-! ### Every other encoded instruction: the fixed bits of its row, and its fields with values that differ -/

theorem test_decode_rows_1 : agrees 32
    [(0x7a95401, .ssub 20 37 58), (0xba95401, .smul 20 37 58), (0xfa95401, .smulh 20 37 58), (0x13a95401, .smulhu 20 37 58),
     (0x1ba95401, .sdivu 20 37 58), (0x1fa95401, .srem 20 37 58), (0x23a95401, .sremu 20 37 58), (0x27a95401, .sand 20 37 58),
     (0x2ba95401, .sor 20 37 58), (0x2fa95401, .sxor 20 37 58), (0x33a95401, .sshl 20 37 58), (0x37a95401, .sshr 20 37 58),
     (0x3ba95401, .ssar 20 37 58), (0x3fa95401, .smin 20 37 58), (0x43a95401, .smax 20 37 58), (0x47a95401, .sminu 20 37 58),
     (0x4ba95401, .smaxu 20 37 58), (0x4fa95401, .sslt 20 37 58), (0x53a95401, .ssltu 20 37 58), (0x57a95401, .sseq 20 37 58),
     (0x58095401, .smov 20 37), (0x5c095401, .sclz 20 37), (0x60095401, .spopc 20 37), (0x2a595405, .sandi 20 37 677),
     (0x2a595407, .sori 20 37 677), (0x2a595409, .sxori 20 37 677), (0x3a9540d, .sshri 20 37 58), (0x3a9540f, .ssari 20 37 58),
     (0x2a595417, .sslti 20 37 677), (0xa95413, .sluih 20 677), (0xa95415, .slea 20 677), (0x2a550025, .jmp 20 677),
     (0x152d427, .bsnz 20 677), (0xa96429, .bnone 4 677)] = true := by decide

theorem test_decode_rows_2 : agrees 32
    [(0x1400133, .fbpt 20), (0x837, .rdv 2), (0x2537, .give 9), (0x2637, .take 9), (0x293b, .modeclr 20),
     (0xe929445, .vmul 20 37 58), (0x4e929445, .vmulHiu 20 37 58), (0x2e929449, .vdivU 20 37 58), (0xe92944b, .vrem 20 37 58),
     (0xe92944d, .vand 20 37 58), (0xe92944f, .vor 20 37 58), (0xe929451, .vxor 20 37 58), (0xe929457, .vshr 20 37 58),
     (0x6e92945b, .vmax 20 37 58 1 1), (0x12945f, .vclz 20 37), (0x2012945f, .vpopc 20 37), (0x4012945f, .vbrev 20 37),
     (0xe929461, .vbfx 20 37 58), (0xa9529469, .vaddi 20 37 677), (0xa952946b, .vandi 20 37 677), (0xa952946d, .vori 20 37 677),
     (0xa952946f, .vxori 20 37 677), (0x6929471, .vshli 20 37 26), (0x46929471, .vshri 20 37 26), (0x86929471, .vsari 20 37 26),
     (0xa9529473, .vmovi 20 37 677), (0x329473, .vmovs 20 37), (0x729473, .vmovsHi 20 37), (0x801475, .vlane 20 2),
     (0xe9529477, .vlea 20 37 165 3), (0x20129497, .frsq 20 37), (0x40129497, .fex2 20 37), (0x60129497, .flg2 20 37),
     (0x80129497, .fsin 20 37)] = true := by decide

theorem test_decode_rows_3 : agrees 32
    [(0xa0129497, .fcos 20 37), (0xbe92949d, .hfma2 20 37 58 1 5), (0x1eb2949f, .hmax2 20 37 58 1), (0x2e9294a9, .packB 20 37 58),
     (0x8e9294a9, .unpackH 20 37 58), (0x2e9294b1, .shflUp 20 37 58), (0x4e9294b1, .shflDown 20 37 58),
     (0x775294c3, .stg 20 37 58 3 1), (0xcd, .fence 0), (0x4aa02cd, .pref 20 37), (0x975294d3, .atomMin 20 37 58 0 1 0 1),
     (0x975294d7, .atomAnd 20 37 58 0 1 0 1), (0x975294d9, .atomOr 20 37 58 0 1 0 1), (0x975294db, .atomXor 20 37 58 0 1 0 1),
     (0x43a954f1, .tld 20 37 58 1), (0xc3a954f1, .tldD 20 37 58 1), (0x3a954f3, .tst 20 37 58), (0x800954f3, .tstD 20 37),
     (0x4f7, .aclr 4), (0x341404f7, .ascale 4 5 5), (0x541404f7, .abias 4 5 5), (0x7400b4f7, .amov 20 5 5),
     (0x9468b4f7, .amovQ 20 5 26 5), (0xa000b4f7, .ttrn 20 5), (0x50f9, .mlease 20), (0x52f9, .tzero 20), (0x1cd, .lcinv),
     (0xe9, .step), (0xeb, .grdy), (0x1f9, .mrels), (0xfd, .eret), (0x80000fd, .tlbinvAll), (0x200000fd, .halt)] = true := by decide

theorem test_decode_rows_compact : agrees 16
    [(0x1682, .vaddC 20 5), (0x1684, .vsubC 20 5), (0x1686, .vmulC 20 5), (0x1688, .vandC 20 5), (0x168a, .vorC 20 5),
     (0x168c, .vxorC 20 5), (0x168e, .vshlC 20 5), (0x1690, .vshrC 20 5), (0x1692, .faddC 20 5), (0x9692, .hadd2Bf16C 20 5),
     (0x1694, .fsubC 20 5), (0x9694, .hsub2Bf16C 20 5), (0x1696, .fmulC 20 5), (0x9696, .hmul2Bf16C 20 5), (0x1698, .vminC 20 5),
     (0x9698, .vminUC 20 5), (0x169a, .vmaxC 20 5), (0x969a, .vmaxUC 20 5), (0x169c, .fminC 20 5), (0x969c, .hmin2Bf16C 20 5),
     (0x169e, .fmaxC 20 5)] = true := by decide

/-! ## States for the tests -/

/-- A team of 32 lanes on its own, two of them active. -/
def solo : State := { State.reset with
  team := { Team.vacant with uid := 1, status := .ready, asid := 1, regs := 128, mask := 3 }
  nextId := 2 }

/-- The same at supervisor level. -/
def boss : State := solo.mapTeam fun t => { t with level := .supervisor }

/-- Uniform registers set. -/
def withU (s : State) (l : List (Nat × Word)) : State := s.mapTeam fun t => l.foldl (fun t x => t.setU x.1 x.2) t

/-- Lanes 0 and 1 of a vector register set. -/
def withV (s : State) (r : Nat) (a b : Lane) : State := s.mapTeam fun t => t.setV r [(0, a), (1, b)]

/-- Partition 0 has a window of 32 rows. -/
def plainOn (s : State) : State := s.setReg (partReg 0 0) 0x80200000

/-- The page at address 0 of address space 1 is mapped. -/
def mapped (s : State) : State := s.openCode 1 0

/-- The team is alone in a workgroup. -/
def group : Workgroup := ⟨9, none, false, 0, 1, 0, 1, 0, 0, 0, 0, 0, 0, 0, 0, 0, 0, 0, [], false, [], [], none, 0, []⟩

/-- The team in that workgroup. -/
def grouped (s : State) : State := { s.mapTeam fun t => { t with wg := 9 } with workgroups := [group] }

/-- A second team of the workgroup. -/
def pair (s : State) : State := { s with rest := [{ s.team with uid := 5, slot := 1, tindex := 1 }] }

/-- An access of team 1 under way. -/
def access (id : Nat) (dsts : List RegRef) : Access := ⟨id, 1, 1, dsts, 0, false, false, false, false, [], [], none, none, false, []⟩

theorem except_ok {ε α : Type} {e : Except ε α} {a : α} (h : e.toOption = some a) : e = .ok a := by
  cases e <;> simp_all [Except.toOption]

/-! ## Witnesses: the hypotheses of the statements can be met -/

theorem witness_UniformArithmetic :
    (∀ row ∈ uniformRows, solo.issues (row.1 63 0 1) [.u 0, .u 1] [.u 63] = true) ∧
    (∀ row ∈ uniformUnaryRows, solo.issues (row.1 63 0) [.u 0] [.u 63] = true) ∧
    (∀ row ∈ uniformImmediateRows, solo.issues (row.1 63 0 0x800) [.u 0] [.u 63] = true) ∧
    (∀ row ∈ uniformShiftRows, solo.issues (row.1 63 0 63) [.u 0] [.u 63] = true) ∧
    solo.issues (.slui 63 0x20000) [] [.u 63] = true ∧ solo.issues (.sluih 63 0x20000) [.u 63] [.u 63] = true ∧
    solo.issues (.slea 63 0x20000) [] [.u 63] = true := by decide +kernel

theorem witness_UniformDivision :
    let s := withU solo [(1, 0x8000000000000000), (2, 0xFFFFFFFFFFFFFFFF)]
    (∀ i ∈ [Instr.sdiv 3 1 2, .sdivu 3 1 2, .srem 3 1 2, .sremu 3 1 2], s.issues i [.u 1, .u 2] [.u 3] = true) ∧
    (∀ i ∈ [Instr.sdiv 3 1 0, .sdivu 3 1 0, .srem 3 1 0, .sremu 3 1 0], s.issues i [.u 1, .u 0] [.u 3] = true) ∧
    enabledFlags s.team.mode fIDZ = 0 := by decide +kernel

theorem witness_LaneForms :
    (∀ f ∈ integerForms 127 0 1 ++ divisionForms 127 0 1 ++ bitForms 127 0 1 7 63 0x200 31 0x80 3 ++ compactForms 31 0,
      solo.issues f.i f.srcs [.v f.d] = true ∧
      enabledFlags solo.team.mode (solo.unionFlags fun l => (f.value solo.team l).2) = 0) := by decide +kernel

theorem witness_FloatForms :
    (∀ f ∈ floatForms 127 0 1 63 0 1 5 ++ conversionForms 127 0 1 0 0 ++ crossForms 127 0 1 63 7,
      solo.issues f.i f.srcs [.v f.d] = true ∧
      enabledFlags solo.team.mode (solo.unionFlags fun l => (f.value solo.team l).2) = 0) := by decide +kernel

theorem witness_PredicateOperations :
    solo.issues (.vcmp 15 127 0 0) [.v 127, .v 0] [.p 15] = true ∧ solo.issues (.vcmp 15 127 0 9) [.v 127, .v 0] [.p 15] = true ∧
    solo.issues (.fcmp 0 1 2 7) [.v 1, .v 2] [.p 0] = true ∧
    enabledFlags solo.team.mode (solo.unionFlags fun l => ((floatCondition 7).eval (solo.team.v 1 l) (solo.team.v 2 l)).2) = 0 ∧
    solo.issues (.voteAny 0 15) [.p 15] [.p 0] = true ∧ solo.issues (.voteAll 0 15) [.p 15] [.p 0] = true ∧
    solo.issues (.voteEq 0 127) [.v 127] [.p 0] = true := by decide +kernel

theorem witness_LaneReadAndHash :
    let s := solo.setReg (partReg 0 0x018) 1
    s.issues (.sread 63 127 0) [.v 127, .u 0] [.u 63] = true ∧ s.regBit (partReg s.team.part 0x018) 0 = true ∧
    s.issues (.hrnd 127 0 63) [.u 63, .u 63, .v 0] [.v 127] = true := by decide +kernel

theorem witness_SystemRegisters :
    let s := (boss.setReg (partReg 0 0x040) 1).mapTeam fun t => ((t.setU 1 1).setU 2 5).setU 3 0x14040
    (∀ row ∈ plainSystemRegisters,
      s.issuesAlone (.sgets 63 (BitVec.ofNat 12 row.1)) (supervisorRegister row.1) [] [.u 63] = true) ∧
    s.issuesAlone (.sgets 63 0x040) true [] [.u 63] = true ∧ s.issuesAlone (.sgets 63 0x04F) true [] [.u 63] = true ∧
    s.issuesAlone (.sgets 63 0x020) false [] [.u 63] = true ∧ s.issuesAlone (.sgets 63 0x03F) false [] [.u 63] = true ∧
    s.ownsStone s.team.part s.team.mill = true ∧ s.issuesAlone (.sgets 63 4) false [] [.u 63] = true ∧
    (∀ n ∈ [0x000, 0x001, 0x002, 0x003, 0x004, 0x009, 0x010, 0x011, 0x012, 0x013, 0x020, 0x03F, 0x040, 0x04F],
      ∀ a ∈ [0, 1, 2, 3], s.issuesAlone (.ssets a (BitVec.ofNat 12 n)) (supervisorRegister n) [.u a.toNat] [] = true) ∧
    wbits (s.team.u 0) 2 0 = 0 ∧ wbits (s.team.u 1) 2 0 = 1 ∧ wbits (s.team.u 2) 2 0 = 5 ∧ (shapeOf (s.team.u 3)).valid = true ∧
    (shapeOf (s.team.u 0)).valid = false ∧ wbits (s.team.u 0) 1 0 ≠ 3 := by
  decide +kernel

/-- The mill has no Millstone of the partition; register 4 holds a reserved code of `%defer`; the team is alone in a workgroup, holds a
lease and has a closure of its handler's shelf. -/
theorem witness_SystemRegisters_others :
    let s := (grouped boss).mapTeam fun t => { t.setU 4 3 with leaseGrant := 5, leaseRemain := 4 }
    s.ownsStone s.team.part s.team.mill = false ∧ s.issuesAlone (.sgets 63 0x020) false [] [.u 63] = true ∧
    s.issuesAlone (.sgets 63 0x03F) false [] [.u 63] = true ∧
    s.issuesAlone (.ssets 4 0x020) (supervisorRegister 0x020) [.u 4] [] = true ∧
    s.issuesAlone (.ssets 4 0x03F) (supervisorRegister 0x03F) [.u 4] [] = true ∧ wbits (s.team.u 4) 1 0 = 3 ∧
    s.issuesAlone (.ssets 4 3) (supervisorRegister 3) [.u 4] [] = true ∧ s.issuesAlone (.sgets 63 3) false [] [.u 63] = true ∧
    s.issuesAlone (.sgets 63 5) false [] [.u 63] = true ∧ s.issuesAlone (.sgets 63 6) false [] [.u 63] = true ∧
    s.issuesAlone (.sgets 63 7) false [] [.u 63] = true ∧ s.issuesAlone (.sgets 63 9) false [] [.u 63] = true ∧ s.team.defer < 4 ∧ s.team.shelved.length < 256 ∧
    (s.team.shelved.map (·.slots)).sum < 256 ∧ s.wgOf s.team.wg = some group ∧ 1 ≤ s.team.swaths ∧ s.team.swaths ≤ 32 ∧
    s.team.mill < 512 ∧ s.team.wheel < 4 ∧ s.team.tindex < 16 ∧ 1 ≤ group.nteam ∧ group.nteam ≤ 16 ∧ group.wpRows < 128 ∧
    s.leaseEnding = false ∧ s.team.leaseGrant < 2 ^ 13 ∧ s.team.leaseRemain < 2 ^ 13 := by decide +kernel

theorem witness_Branches :
    (∀ i ∈ [Instr.bra 0x800000, .bra 0x7FFFFF], solo.issues i [] [] = true) ∧
    (∀ i ∈ [Instr.call 0x800000, .call 0x7FFFFF], solo.issues i [] [.u 63] = true) ∧
    (∀ i ∈ [Instr.bsz 63 0x10000, .bsnz 63 0xFFFF], solo.issues i [.u 63] [] = true) ∧
    (∀ i ∈ [Instr.bany 15 0x20000, .ball 15 0x1FFFF, .bnone 15 0], solo.issues i [.p 15] [] = true) := by decide +kernel

theorem witness_Jumps :
    let s := withU solo [(1, 2), (2, 1)]
    (∀ a ∈ [1, 2], s.issues (.jmp a 0x400) [.u a.toNat] [] = true ∧ s.issues (.jmpl a a 0x3FF) [.u a.toNat] [.u a.toNat] = true) ∧
    (s.team.u 1 + (0x400 : BitVec 11).signExtend 64 * 2).getLsbD 0 = false ∧
    (s.team.u 2 + (0x3FF : BitVec 11).signExtend 64 * 2).getLsbD 0 = true ∧ s.issues .ret [.u 63] [] = true := by decide +kernel

theorem witness_MaskStack :
    (∀ n ∈ [0, 1, 31, 32], let s := solo.mapTeam fun t => { t with stack := List.replicate n 7 }
      s.issues (.ifp 15) [.p 15] [] = true ∧ s.issues (.ifpN 0) [.p 0] [] = true ∧ s.issues .maskElse [] [] = true ∧
      s.issues .endif [] [] = true ∧ s.issues (.mset 15) [.p 15] [] = true ∧ s.issues (.mget 15) [] [.p 15] = true) := by decide +kernel

/-- A captured addition of uniform registers 1 and 2 into 3. -/
def captured : Entry := ⟨.uni .add 3 (.reg 1) (.reg 2), 0, 0, 32, 3, 1, 5, [], 0⟩

theorem witness_TeamControl :
    (∀ i ∈ [Instr.nop, .yield, .sleep 1, .sleep 0xFFFFF, .defer 0, .defer 2, .fbpt 0xFFF, .modeset 0x3F 0, .modeset 0 5, .modeclr 0x3F],
      solo.issuesAlone i false [] [] = true) := by decide +kernel

theorem witness_Plot :
    solo.issuesAlone (.plot 1) false [] [] = true ∧ solo.issuesAlone (.plot 5) false [] [] = true ∧ solo.team.status = .ready ∧
    (Instr.plot 5).wellFormed = true ∧ (solo.mapTeam fun t => { t with closure := [captured] }).team.closure ≠ [] := by decide +kernel

theorem witness_ExitAndTime :
    solo.issuesAlone .exit false [] [] = true ∧ solo.quiet = true ∧ solo.wgOf solo.team.wg = none ∧
    solo.issuesAlone (.time 63) false [] [.u 63] = true ∧ solo.accessesOf 1 = [] ∧
    (let s := { solo with accesses := [access 3 [.u 5]] }
     s.issuesAlone (.time 63) false [] [.u 63] = true ∧ s.accessesOf s.team.uid ≠ [] ∧ s.issuesAlone .exit false [] [] = true ∧
     s.quiet = false) := by decide +kernel

/-- Two teams of a workgroup, the first with an outstanding arrival of a generation. -/
def arrived (gen : Option Nat) : State := (pair (grouped solo)).mapTeam fun t => { t with arrival := gen }

theorem witness_Barriers :
    (∀ s ∈ [grouped solo, arrived none, arrived (some 0), arrived (some 7)],
      s.issuesAlone .barArrive false [] [] = true ∧ s.issuesAlone .barWait false [] [] = true ∧
      s.issuesAlone .barSync false [] [] = true ∧ s.wgOf s.team.wg = some group ∧ s.performedAll s.team.uid false = true) ∧
    group.donations = [] ∧ (arrived (some 0)).team.arrival.isSome = true ∧ (grouped solo).team.arrival = none ∧
    ((grouped solo).members 9).length ≤ group.barCount + 1 ∧ group.barCount + 1 < ((arrived none).members 9).length := by
  decide +kernel

/-- A workgroup whose donation set 2 on wheel 0 holds 8 rows. -/
def donating : Workgroup := { group with donations := [⟨0, 2, 8, []⟩] }

/-- Two teams of that workgroup, both in the set; the first holds 64 registers. -/
def donors : State :=
  let s := pair (grouped (solo.mapTeam fun t => { t with donation := some 2, regs := 64, maxG := 16 }))
  { s with workgroups := [donating], rest := [{ s.team with uid := 5, slot := 1, tindex := 1 }] }

/-- A kernel of one team of one swath, with 8 registers. -/
def kernel : Kernel := ⟨0x400, 0, 0, 1, 1, 1, 0, 1, 0, 0⟩

/-- A launch of two stages, of which as many workgroups are left. -/
def launchOf (left : Nat) : Launch := ⟨7, 0, 1, kernel, 1, 1, 1, 2, 0, [], 0, left, none, []⟩

/-- Such a launch. -/
def launch : Launch := launchOf 1

theorem witness_ExitOfAWorkgroup :
    (∀ g ∈ [group, { group with barCount := 1 }],
      let s := { pair (grouped solo) with workgroups := [g] }
      s.issuesAlone .exit false [] [] = true ∧ s.quiet = true ∧ s.wgOf s.team.wg = some g ∧ g.donations = [] ∧ g.arrivals = [] ∧
      s.team.arrival = none ∧ s.stepEn s.team.vd = false ∧ s.millstone s.team.mill = Millstone.idle ∧
      (∀ x ∈ s.rest, x.uid ≠ s.team.uid) ∧ (s.rest.filter fun x => x.wg == s.team.wg && !x.isVacant).length = 1) ∧
    (∀ g ∈ [{ group with launch := some 7 }, { group with launch := some 7, readyFlag := true },
        { group with launch := some 7, readyFlag := true, stage := 1 }],
      let s := { grouped solo with workgroups := [g], launches := [launchOf 2] }
      s.issuesAlone .exit false [] [] = true ∧ s.quiet = true ∧ s.wgOf s.team.wg = some g ∧ g.donations = [] ∧ g.arrivals = [] ∧
      s.team.arrival = none ∧ s.stepEn s.team.vd = false ∧ s.millstone s.team.mill = Millstone.idle ∧ s.rest = [] ∧
      g.forked = false ∧ g.launch.bind s.launchOf = some (launchOf 2)) ∧
    group.stage + 1 < launch.stages ∧ launch.stages ≤ 1 + 1 ∧ 1 < (launchOf 2).left := by decide +kernel

theorem witness_Donation :
    let s := donors
    let new := s.mapTeam fun t => { t with donation := none }
    s.wgOf s.team.wg = some donating ∧ (∀ d ∈ donating.donations, d.queue = []) ∧ (∀ x ∈ s.rest, x.uid ≠ s.team.uid) ∧
    new.issuesAlone (.rdv 3) false [] [] = true ∧ new.team.donation = none ∧ s.issuesAlone (.rdv 2) false [] [] = true ∧
    s.team.donation = some 2 ∧ s.issuesAlone (.rdv 0) false [] [] = true ∧ s.issuesAlone (.give 7) false [] [] = true ∧
    8 * 7 + 8 ≤ s.team.regs ∧ (∀ i < 8 * 7, s.unready (.v (s.team.regs - 8 * 7 + i)) = false) ∧
    s.issuesAlone (.take 1) false [] [] = true ∧ 0 < s.team.swaths ∧ s.team.regs + 8 * 1 ≤ 8 * s.team.maxG ∧
    8 * 1 * s.team.swaths ≤ (donating.donation s.team.wheel 2).pool ∧ s.issuesAlone (.take 8) false [] [] = true ∧
    s.team.regs + 8 * 8 ≤ 8 * s.team.maxG ∧ s.team.regs + 8 * 8 ≤ 128 ∧
    (donating.donation s.team.wheel 2).pool < 8 * 8 * s.team.swaths ∧
    (∃ x ∈ s.rest, x.wg = s.team.wg ∧ x.wheel = s.team.wheel ∧ x.donation = some 2 ∧ x.status = .ready) := by decide +kernel

theorem witness_Noise :
    let log := (plainOn solo).setReg (vdReg 0 0x088) 0x8002000000001000
    let idle := solo.mapTeam fun t => { t with mask := 0 }
    let off := solo.setReg (millReg 0) 0x4000000000000000
    (∀ s ∈ [solo, idle, log, off], s.issuesAlone (.rnd 127) false [] [.v 127] = true ∧ s.issuesAlone (.rndLog 127) false [] [.v 127] = true) ∧
    off.noiseFailed = true ∧ off.team.active ≠ [] ∧ log.noiseFailed = false ∧ solo.noiseFailed = false ∧ solo.team.active ≠ [] ∧ idle.team.active = [] ∧
    log.regBit (vdReg log.team.vd 0x088) 63 = true ∧ log.regBits (vdReg log.team.vd 0x088) 57 48 ≠ 0 ∧
    (log.plainPhys (BitVec.ofNat 64 (log.regBits (vdReg log.team.vd 0x088) 29 0)) (log.regBits (vdReg log.team.vd 0x088) 57 48 * 4096)
      log.team.part 1).toOption = some (0, 4096) ∧
    log.mayAccess log.team.uid = true ∧ log.plainBusy 0 4096 16 = false ∧ log.plainPoisoned 0 4096 8 = false ∧
    ((List.range log.team.swaths).filter fun w => log.team.mask.toNat / 2 ^ (32 * w) % 2 ^ 32 != 0) = [0] := by decide +kernel

/-- A record that would pass the end of the ring goes to its start (R270): rows of 8,192 bytes hold 56 records. -/
theorem test_ring_places :
    ringPlaces 8192 0 2 = [(0, false), (144, false)] ∧ ringPlaces 8192 8032 2 = [(8032, false), (0, true)] ∧
    ringPlaces 8192 8033 1 = [(0, true)] := by decide

/-- The loads and stores of the tests address byte 64 on: uniform register 0 holds 64, and the offset in each lane is 0. -/
def addressed : State := withU (plainOn (mapped solo)) [(0, 64)]

theorem witness_UniformMemory :
    let s := addressed
    (s.team.defer = 0 ∧ s.mayAccess s.team.uid = true) ∧
    ∀ p ∈ [(0 : BitVec 1), 1], ∀ sz ∈ [(0 : BitVec 2), 3],
      let n := 2 ^ sz.toNat
      let eas := [(0, s.team.u 0 + (7 : BitVec 9).signExtend 64 * BitVec.ofNat 64 n)]
      s.issues (.sld 63 0 7 p sz) [.u 0] [.u 63] = true ∧ s.reaches ⟨p == 1, .load, n, .load⟩ (some 0) eas = true ∧
      s.issues (.sst 63 0 7 p sz) [.u 0, .u 63] [] = true ∧ s.reaches ⟨p == 1, .store, n, .store⟩ none eas = true := by
  decide +kernel

/-- The addresses of the active lanes of `addressed`. -/
def addresses : List (Nat × Word) := addressed.team.active.map fun l => (l, addressed.team.u 0 + (addressed.team.v 1 l).setWidth 64)

/-- Do the widths meet the hypotheses of a lane load from `addresses` into vector registers 126 and 127? -/
def loadsIssue (s : State) : Bool :=
  let srcs := [RegRef.u 0, .v 1]
  ([0, 2, 3].all fun sz =>
    let n := 2 ^ BitVec.toNat sz
    s.issues (.ldg 126 0 1 3 sz) srcs (pairRegs n 126) && s.reaches ⟨false, .load, n, .load⟩ (some 3) addresses &&
    s.issues (.ldp 126 0 1 sz) srcs (pairRegs n 126) && s.reaches ⟨true, .load, n, .load⟩ (some 0) addresses) &&
  [0, 1].all fun p => [0, 1].all fun z => [0, 3].all fun c =>
    let na := if z = 1 then 8 else 4
    s.issuesAlone (.lda 126 0 1 c p z) false srcs (pairRegs na 126) && s.reaches ⟨p == 1, .load, na, .other⟩ (some (if 2 ≤ BitVec.toNat c then 3 else 0)) addresses

/-- The same for a lane store of vector registers 126 and 127. -/
def storesIssue (s : State) : Bool :=
  let srcs := fun (n : Nat) => [RegRef.u 0, .v 1] ++ pairRegs n 126
  ([0, 2, 3].all fun sz =>
    let n := 2 ^ BitVec.toNat sz
    s.issues (.stg 126 0 1 3 sz) (srcs n) [] && s.reaches ⟨false, .store, n, .store⟩ none addresses &&
    s.issues (.stp 126 0 1 sz) (srcs n) [] && s.reaches ⟨true, .store, n, .store⟩ none addresses) &&
  [0, 1].all fun p => [0, 1].all fun z => [0, 3].all fun c =>
    let na := if z = 1 then 8 else 4
    s.issuesAlone (.stl 126 0 1 c p z) false (srcs na) [] && s.performedAt c && s.reaches ⟨p == 1, .store, na, .other⟩ none addresses

/-- The same for the atomics on vector register 124. -/
def atomicsIssue (s : State) : Bool :=
  [0, 1].all fun p => [0, 1].all fun sz => [0, 3].all fun c => s.performedAt c && (atomicForms 124 0 1 1 c p sz).all fun f =>
    s.issuesAlone f.1 false ([.u 0, .v 1] ++ f.2.data) (if f.2.ret then f.2.data else []) &&
    s.reaches ⟨f.2.plain, .atomic, f.2.n, if f.2.ret then .other else .atomic f.2.op⟩ none addresses

theorem witness_LaneLoads_LaneStores_Atomics :
    addressed.mayAccess addressed.team.uid = true ∧ addressed.team.defer = 0 ∧ addresses = [(0, 64), (1, 64)] ∧
    loadsIssue addressed = true ∧ storesIssue addressed = true ∧ atomicsIssue addressed = true := by decide +kernel

theorem witness_FencesAndCaches :
    (∀ c ∈ [(0 : BitVec 2), 1, 2, 3], solo.issuesAlone (.fence c) false [] [] = true) ∧ solo.accessesOf solo.team.uid = [] ∧
    solo.performedAll solo.team.uid true = true ∧ solo.performedAll solo.team.uid false = true ∧
    solo.issuesAlone .lcinv false [] [] = true ∧ solo.issuesAlone (.pref 63 127) false [] [.u 63, .v 127] = true ∧
    solo.team.upoison = [] ∧ solo.team.vpoison = [] ∧
    (let base := solo.mapTeam fun t => { t with upoison := [63] }
     let index := solo.mapTeam fun t => { t with vpoison := [(127, 0)] }
     base.issuesAlone (.pref 63 127) false [] [.u 63, .v 127] = true ∧ 63 ∈ base.team.upoison ∧ base.acquiring 1 = false ∧
     index.issuesAlone (.pref 63 127) false [] [.u 63, .v 127] = true ∧ index.acquiring 1 = false ∧
     ∀ l ∈ index.team.active, (127, l / 2) ∈ index.team.vpoison) ∧
    solo.acquiring solo.team.uid = false ∧ solo.team.active ≠ [] ∧
    (∀ l ∈ solo.team.active, (solo.team.u 63 + (solo.team.v 127 l).setWidth 64).toNat < 2 ^ 56) ∧
    solo.tlb (.lane solo.team.mill) = [] := by decide +kernel

/-- Bytes of the page that `mapped` maps at address 0. -/
def putPage (s : State) (va : Nat) (bs : List Byte) : State := (s.memWrite false (0x50000 + va) 0 false bs).1

/-- A tensor descriptor of 16 elements of 4 bytes, from the Plain address 0x1000 to 0x2000 (R79): CTL, and EXT 0. -/
def descriptor : List Byte :=
  leBytes 8 0x1000 ++ leBytes 8 0x2000 ++ leBytes 8 16 ++ leBytes 8 0x23 ++ List.replicate 32 0

/-- The descriptor stands at byte 64 of the page at 0 and of the window. -/
def described : State := (putPage addressed 64 descriptor).plainPut 0 64 descriptor

theorem witness_Claim :
    let s := described
    (∀ v ∈ [(0 : BitVec 1), 1], s.issuesAlone (.claim 15 0 0 1 v) false (if v = 1 then [.v 0, .u 0] else [.u 0]) [] = true) ∧
    (s.claimAddress 0 0 false).toOption = some 64 ∧ (s.claimAddress 0 0 true).toOption = some 64 ∧
    (s.team.claim 15).state.inUse = false ∧ s.performedAll s.team.uid true = true ∧ s.acquiring s.team.uid = false ∧ (64 : Nat) % 64 = 0 ∧
    (s.operand true 64 64).toOption = some (s, descriptor) ∧ (s.operand false 64 64).toOption.map (·.2) = some descriptor ∧
    descInvalid 0 descriptor = false ∧ (s.claimWalk (descOf descriptor)).toOption = some (s, []) := by decide +kernel

/-- The team holds a claim of that descriptor in slot 15. -/
def claimed : State := described.mapTeam fun t =>
  t.setClaim 15 { Claim.free with state := .held, desc := descOf descriptor, total := 64 }

/-- A flow of the team over that claim, with its ranges in the Weir, one chunk left. -/
def chunkFlow : Flow := ⟨7, some 1, 15, 0, 0, 1, descOf descriptor, 0, 64, [0], 0, 0x100, none, [], false, none, none, none⟩

/-- That flow runs. -/
def flowing : State :=
  let s := claimed.mapTeam fun t => t.setClaim 15 { t.claim 15 with state := .flowing }
  { s with flows := [chunkFlow], weir := weirEntries 0 0 7 1 (descOf descriptor) 0 64 }

theorem witness_FlowUnclaimClstat :
    let s := withU claimed [(1, 0x100), (2, 0x4000000010)]
    s.issuesAlone (.flow 15 1 0 1) false [.u 1] [] = true ∧ s.issuesAlone (.flow 15 1 2 0) false [.u 1, .u 2] [] = true ∧
    s.performedAll s.team.uid true = true ∧ (s.team.claim 15).state = .held ∧ (s.team.claim 15).total = 64 ∧
    (s.team.u 2).extractLsb' 57 7 = 0 ∧ s.flowCounter (s.team.claim 15) (s.team.u 1) = none ∧ s.mayFlow 15 0 64 = true ∧
    s.acquiring s.team.uid = false ∧ s.counterBusy (s.team.claim 15).desc.dpeer (s.team.u 1) = false ∧
    (let f := withU flowing [(1, 0x100)]
     f.issuesAlone (.flow 15 1 0 1) false [.u 1] [] = true ∧ f.performedAll 1 true = true ∧ f.acquiring 1 = false ∧
     f.counterBusy false 0x100 = false ∧ (f.team.claim 15).total = 64 ∧ f.flowCounter (f.team.claim 15) 0x100 = none ∧
     f.mayFlow 15 0 64 = false ∧ (f.team.claim 15).state = .flowing) ∧
    s.issuesAlone (.unclaim 15) false [] [] = true ∧ s.issuesAlone (.clstat 63 15) false [] [.u 63] = true := by decide +kernel

theorem witness_FlowUnclaimClstat_range :
    let u := withU claimed [(1, 0x100), (2, 0x3000000010)]
    let len := ((u.team.u 2).extractLsb' 32 25).toNat
    let off := ((u.team.u 2).extractLsb' 0 32).toNat
    len = 48 ∧ off = 16 ∧ off + len ≤ 64 ∧ off % (u.team.claim 15).desc.esize = 0 ∧ len % (u.team.claim 15).desc.esize = 0 ∧
    u.mayFlow 15 off len = true := by decide +kernel

/-- A counter at byte 0x100 of the window, ARRIVED 3 and EXPECTED as given, to which uniform register 1 points. -/
def counting (expected : Nat) : State := withU ((plainOn solo).plainPut 0 0x100 (leBytes 4 3 ++ leBytes 4 expected)) [(1, 0x100)]

/-- All sixteen completion counters of the team are held. -/
def busy (s : State) : State := { s with accesses := (List.range 16).map fun i => access i [] }

theorem witness_Join_Fork_wait :
    (busy (counting 3)).issuesAlone (.join 2 1) false [.u 1] [.u 2] = true ∧ (busy (counting 3)).mayAccess 1 = false ∧
    (busy (counting 3)).acquiring 1 = false ∧ (counting 3).mayAccess 1 = true ∧ (counting 4).mayAccess 1 = true ∧
    ((counting 3).counterPhys 0x100 0).toOption = some (0, 0x100) ∧ (busy (counting 3)).plainBusy 0 0x100 16 = false ∧
    (busy (counting 3)).unwatched 0 0x100 = true ∧
    (busy addressed).issuesAlone (.fork 63 0) false [.u 0] [.u 63] = true ∧ (busy addressed).mayAccess 1 = false := by decide +kernel

theorem witness_Counters :
    (∀ n ∈ [3, 4],
      ((counting n).counterPhys 0x100 0).toOption = some (0, 0x100) ∧ (counting n).plainBusy 0 0x100 16 = false ∧
      (counting n).plainPoisoned 0 0x100 16 = false ∧ (counting n).ctrWord 0 0x100 2 < 256 ∧
      (counting n).unwatched 0 0x100 = true ∧ (counting n).performedAll 1 true = true ∧ (counting n).acquiring 1 = false ∧
      (counting n).issuesAlone (.acread 2 1 3) false [.u 1] [.u 2] = true ∧
      (counting n).issuesAlone (.acwait 2 1) false [.u 1] [.u 2] = true ∧
      (counting n).issuesAlone (.join 2 1) false [.u 1] [.u 2] = true) ∧
    (counting 3).issuesAlone (.acarm 1 2) false [.u 1, .u 2] [] = true ∧
    (counting 3).issuesAlone (.acadd 1 2) false [.u 1, .u 2] [] = true ∧ (counting 3).issuesAlone (.acrst 1) false [.u 1] [] = true ∧
    (counting 3).ctrWord 0 0x100 1 ≤ (counting 3).ctrWord 0 0x100 0 ∧
    (counting 4).ctrWord 0 0x100 0 < (counting 4).ctrWord 0 0x100 1 ∧ (counting 4).ctrWord 0 0x100 2 = 0 := by decide +kernel

/-- A child of virtual device 0. -/
def child : Child := ⟨0, 1, kernel, 0x100, [], 0, 0, 0, 0, 0, 0⟩

/-- Virtual device 0 holds the slice of partition 0. -/
def sliced (s : State) : State := { s with slices := [(0, ⟨some 0, 1, false, 0⟩)] }

theorem witness_Fork :
    let s := sliced (addressed.plainPut 0 64 (leBytes 8 0x400 ++ leBytes 8 0x100))
    let full := { s with deques := [(0, List.replicate 64 child)] }
    let f := fun o n => leNat (((s.plainRead 0 64 64).drop o).take n)
    s.issuesAlone (.fork 63 0) false [.u 0] [.u 63] = true ∧ s.performedAll s.team.uid true = true ∧
    (s.plainPhys 64 64 s.team.part 1).toOption = some (0, 64) ∧ s.plainBusy 0 64 64 = false ∧ s.plainPoisoned 0 64 64 = false ∧
    f 0 8 % 2 = 0 ∧ f 0x10 4 < 2 ^ 20 ∧ saveBad (f 0x14 4) = false ∧ s.childCtrBad (BitVec.ofNat 64 (f 8 8)) = false ∧
    s.acquiring s.team.uid = false ∧ s.counterBusy false (BitVec.ofNat 64 (f 8 8)) = false ∧ (s.team.u 0).toNat % 64 = 0 ∧
    (s.liveDeque s.team.mill).length = 0 ∧ s.mayAccess s.team.uid = true ∧ full.mayAccess full.team.uid = true ∧ full.performedAll full.team.uid true = true ∧ 64 ≤ (full.liveDeque full.team.mill).length ∧
    full.issuesAlone (.fork 63 0) false [.u 0] [.u 63] = true := by decide +kernel

/-- The team's workgroup belongs to that launch. -/
def staged (ready : Bool) : State :=
  { grouped solo with workgroups := [{ group with launch := some 7, readyFlag := ready }], launches := [launch] }

theorem witness_ReadyAndSubmit :
    (∀ r ∈ [true, false], (staged r).issuesAlone .grdy false [] [] = true ∧ (staged r).groupPerformed (staged r).team = true ∧
      (staged r).wgOf (staged r).team.wg = some { group with launch := some 7, readyFlag := r }) ∧
    (staged false).launchOf 7 = some launch ∧ group.stage + 1 < launch.stages ∧ group.forked = false ∧
    (let s := withU described [(0, 128)]
     let full := { s with deviceQueues := [(0, List.replicate 16 ⟨1, 0, []⟩)] }
     s.issuesAlone (.gsubmit 63 0) false [.u 0] [.u 63] = true ∧ (s.team.u 0).toNat % 128 = 0 ∧
     s.performedAll s.team.uid true = true ∧ s.acquiring s.team.uid = false ∧ ((s.operand false (s.team.u 0) 128).toOption.map fun x => x.1.team) = some s.team ∧
     ((full.operand false (full.team.u 0) 128).toOption.map fun x => (mapGet [] x.1.deviceQueues 0).length) = some 16) := by
  decide +kernel

/-- Virtual device 0 is in a step domain of which this module and module 1 are members. -/
def domained (s : State) : State := (s.setReg (vdReg 0 0x050) 0x8000000000000000).setReg (vdReg 0 0x200) 3

theorem witness_Steps :
    let s := domained solo
    let behind := s.mapTeam fun t => { t with stepNo := 1 }
    s.issuesAlone .step false [] [] = true ∧ s.stepEn s.team.vd = true ∧ s.stepFail s.team.vd = false ∧
    s.team.stepNo ≤ s.complete s.team.vd ∧ behind.issuesAlone .step false [] [] = true ∧ behind.stepEn 0 = true ∧
    behind.stepFail 0 = false ∧ behind.complete behind.team.vd < behind.team.stepNo ∧
    s.issuesAlone (.stepq 63 0 0) false [] [.u 63] = true ∧ s.committed s.team.vd < 2 ^ 32 ∧
    s.issuesAlone (.stepq 63 1 62) false [.u 62] [.u 63] = true ∧ s.issuesAlone (.stepq 63 2 62) false [.u 62] [.u 63] = true := by
  decide +kernel

/-- The team is alone in a workgroup, all lanes active; an exchange descriptor with this module alone stands at byte 64 of the page at
0, its counts at 0x200, its receive counts at 0x300, its buffers at 0x400 and 0x500 of the window. -/
def exchanging : State :=
  let s := grouped (domained addressed)
  let s := s.mapTeam fun t => { t with mask := allLanes 32 }
  let at' := fun (n : Nat) => leBytes 4 n
  putPage (withU s [(1, 0x100)]) 64 (leBytes 8 0 ++ List.replicate 6 0 ++ leBytes 2 1 ++ leBytes 2 1 ++ leBytes 2 1 ++ at' 0x200 ++
    at' 0x400 ++ at' 0x300 ++ at' 0x500 ++ at' 64)

/-- The start of a group instruction leaves its team as it stands. -/
def starts (s : State) (bits : Nat) (a b : Word) : Bool :=
  match ({ s with team := { s.team with age := 0 } }.startGroup bits a b) with
  | .ok t => t.team.uid == s.team.uid && t.team.status == .ready
  | _ => false

/-- The same with the descriptor of an all-gather of 64 bytes of a tile of the partition's Millstone, landing at 0x500. -/
def gathering : State :=
  let at' := fun (n : Nat) => leBytes 4 n
  putPage (exchanging.setReg (partReg 0 0x040) 1) 64 (leBytes 8 0 ++ List.replicate 6 0 ++ leBytes 2 1 ++ leBytes 2 1 ++ leBytes 2 1 ++
    at' 0x500 ++ at' 64 ++ List.replicate 36 0)

theorem witness_GroupInstructions :
    let s := exchanging
    (∀ x ∈ [s, pair s], x.issuesAlone (.a2av 1 0) false [.u 1, .u 0] [] = true ∧
      x.issuesAlone (.coll 31 0 1 0 3 4) false [.u 1, .u 0] [] = true ∧ (∀ l < 32, x.team.mask.getLsbD l = true) ∧
      x.team.lanes = 32 ∧ x.performedAll x.team.uid true = true ∧ x.acquiring x.team.uid = false ∧ x.wgOf x.team.wg = some group ∧
      (∀ y ∈ x.rest, y.uid ≠ x.team.uid)) ∧
    group.arrivals.length + 1 < ((pair s).members 9).length ∧ (s.members s.team.wg).length = 1 ∧
    (∀ x ∈ s.workgroups, x.uid = s.team.wg → x.arrivals = []) ∧
    starts s (Instr.a2av 1 0).bits (s.team.u 1) (s.team.u 0) = true ∧
    gathering.issuesAlone (.coll 0 0 1 0 0 2) false [.u 1, .u 0] [] = true ∧ (gathering.members 9).length = 1 ∧
    starts gathering (Instr.coll 0 0 1 0 0 2).bits 0x100 64 = true := by decide +kernel

/-- The read of the descriptor that uniform register 0 names, and its group: the state, the bytes, the members. -/
def groupFound (s : State) : Option (State × List Byte × List Nat) :=
  match { s with team := { s.team with age := 0 } }.teamRead (s.team.u 0).toNat 64 with
  | (s1, .data d) => (s1.groupMembers s.team.vd d).map fun ms => (s1, d, ms)
  | _ => none

/-- Does the test hold of what was found? -/
def found (s : State) (test : State → List Byte → List Nat → Bool) : Bool := (groupFound s).any fun x => test x.1 x.2.1 x.2.2

theorem witness_GroupInstructions_alone :
    (∀ s ∈ [exchanging, gathering], (s.wgOf 9).isSome = true ∧ (s.team.u 0).toNat % 64 = 0 ∧
      found s (fun s1 _ ms => ms == [0] && s1.team == { s.team with age := 0 } && !s1.acquiring 1 &&
        (s1.counterPhys 0x100 0).toOption == some (0, 0x100) && !s1.plainBusy 0 0x100 16 && !s1.plainPoisoned 0 0x100 16 &&
        s1.unwatched 0 0x100 && s1.ctrWord 0 0x100 2 == 0) = true) ∧
    found exchanging (fun s1 d _ =>
      let f := fun o n => leNat ((d.drop o).take n)
      let region := fun o n => (s1.plainPhys (BitVec.ofNat 64 (f o 4)) n 0 1).toOption
      bitsOf (f 4 4) 3 2 == 0 && (d.drop 0x28).all (· == 0) && f 0x14 4 % 4 == 0 && f 0x1C 4 % 4 == 0 &&
      region 0x14 4 == some (0, 0x200) && region 0x18 0 == some (0, 0x400) && region 0x1C 8 == some (0, 0x300) &&
      region 0x20 (f 0x24 4) == some (0, 0x500)) = true ∧
    found exchanging (fun s1 _ _ => leNat (s1.plainRead 0 0x200 4) == 0 && !s1.plainBusy 0 0x200 4 && !s1.plainPoisoned 0 0x200 4 &&
      !s1.plainBusy 0 0x400 0 && !s1.plainPoisoned 0 0x400 0 && s1.chunkRoom 4) = true ∧
    found gathering (fun s1 d ms => !collInvalid d .allGather 0 1 (s1.shape 0).total && leNat ((d.drop 0x18).take 4) == 64 &&
      landingBytes 2 1 (ms.idxOf s1.module) 64 == 64 && (s1.plainPhys 0x500 64 0 1).toOption == some (0, 0x500) &&
      s1.stoneFree [0] [] && s1.chunkRoom 64 && !s1.tilePoisoned 0 64) = true := by decide +kernel

/-- The other team of the workgroup has arrived at an exchange with these operands, and the team of the turn has this TINDEX. -/
def joining (tindex : Nat) (a : Word) : State :=
  let s := pair exchanging
  { s with
    team := { s.team with tindex := tindex }
    rest := s.rest.map fun x => { x with status := .parked .collective }
    workgroups := [{ group with arrivals := [⟨5, 1, (Instr.a2av 1 0).bits, a, 64⟩] }] }

/-- Does the start in a team of the workgroup leave every team as it stands? -/
def startsIn (s : State) (uid : Nat) : Bool :=
  match (s.withdrawn [5, 1]).focus uid with
  | none => false
  | some f => match f.startGroup (Instr.a2av 1 0).bits (s.team.u 1) (s.team.u 0) with
    | .ok t => t.team == f.team && t.rest == f.rest
    | _ => false

theorem witness_GroupInstructions_last :
    (∀ s ∈ [joining 0 0x100, joining 2 0x100, joining 0 0], s.issuesAlone (.a2av 1 0) false [.u 1, .u 0] [] = true ∧
      (∀ l < s.team.lanes, s.team.mask.getLsbD l = true) ∧ s.acquiring 1 = false ∧ s.performedAll 1 true = true ∧
      ((s.wgOf 9).map fun g => g.arrivals.map (·.team)) = some [5] ∧ (s.members 9).length ≤ 2 ∧ (s.teams.map (·.uid)).Nodup ∧
      s.regBit (vdReg s.team.vd 0x040) 0 = false ∧ s.team.closure = [] ∧
      ([5, 1].all fun u => (s.teamOf u).any fun m => m.vd == s.team.vd && m.closure.isEmpty) = true) ∧
    (joining 0 0x100).team.u 1 = 0x100 ∧ (joining 0 0x100).team.u 0 = 64 ∧ startsIn (joining 0 0x100) 1 = true ∧
    startsIn (joining 2 0x100) 5 = true ∧ (joining 0 0).team.u 1 ≠ 0 := by decide +kernel

/-- The team's mill is of its partition, its Millstone free; the team may track one tile and one accumulator, and has all lanes
active. Uniform registers 0 to 2 hold 64, 128 and 256; two tiles of 2 by 2 FP32 elements have a shape, and a third is of 2 by 2
BF16 elements. -/
def stoned : State :=
  let s := withU ((plainOn (mapped solo)).setReg (partReg 0 0x040) 1) [(0, 64), (1, 128), (2, 256)]
  let s := s.mapTeam fun t => { t with maxT := 1, maxA := 1, mask := allLanes 32 }
  let shape := fun (f : Nat) => Shape.word ⟨f, 2, 2⟩
  ((s.setTshape 0 0 (shape 0)).setTshape 0 1 (shape 0)).setTshape 0 2 (shape 1)

/-- Does a side answer these ranges, with nothing in their way? -/
def sideFree (s : State) (w : Bool) (r : Except Res (State × List TileRange)) : Bool :=
  match r with
  | .error _ => false
  | .ok (s1, rs) => s1.weirRange w rs == none && s1.mayAccess s1.team.uid && (rs.all fun r => !s1.rangeBusy r && s1.rangePoison r == none) &&
    (s1.team.track false 0).isSome && !s1.tilePoisoned 0 (s.shape 0).total && !rs.isEmpty

/-- A tensor descriptor of 2 rows of 2 elements of 4 bytes in the Plain from 0x1000 on, rows 64 bytes apart, for a tile load or store. -/
def tileDescriptor (load : Bool) : List Byte :=
  leBytes 8 (if load then 0x1000 else 0) ++ leBytes 8 (if load then 0 else 0x1000) ++ leBytes 2 2 ++ leBytes 2 2 ++ leBytes 4 0 ++
  leBytes 8 (if load then 0x25 else 0x26) ++ leBytes 4 (if load then 64 else 0) ++ leBytes 8 0 ++ leBytes 4 (if load then 0 else 64) ++ leBytes 8 0

theorem witness_TileLoadsAndStores :
    let s := stoned
    s.stoneFree [0] [] = true ∧ s.issuesAlone (.tld 0 0 1 0) false [.u 0, .u 1] [] = true ∧
    s.issuesAlone (.tst 0 0 1) false [.u 0, .u 1] [] = true ∧ s.issuesAlone (.tldD 0 0 0 0) false [.u 0] [] = true ∧
    s.issuesAlone (.tstD 0 0) false [.u 0] [] = true ∧
    sideFree s false (s.strideSide 64 128 true (s.shape 0)) = true ∧ sideFree s true (s.strideSide 64 128 false (s.shape 0)) = true ∧
    sideFree s false ((putPage s 64 (tileDescriptor true)).descriptorSide 64 true (s.shape 0)) = true ∧
    sideFree s true ((putPage s 64 (tileDescriptor false)).descriptorSide 64 false (s.shape 0)) = true ∧
    (s.shape 0).valid = true ∧ (s.shape 0).rows = 2 ∧ (s.shape 0).cols = 2 ∧ (s.shape 0).align = 4 ∧ rowBytesOf (s.shape 0) = 8 ∧
    (∀ i < 2, (s.plainPhys (64 + BitVec.ofNat 64 (i * 128)) 8 s.team.part 1).toOption = some (0, 64 + i * 128)) ∧
    (∀ f ∈ [1, 2], (Shape.mk f 64 64).valid = true) ∧ ∀ f ∈ [4, 5, 6], (Shape.mk f 64 16).valid = true := by decide +kernel

/-- Does a side answer ranges, with a vector of smoothing values at a byte of the window, no element setting an enabled flag? -/
def smoothFree (s : State) (va : Nat) (r : Except Res (State × List TileRange)) : Bool :=
  match r with
  | .error _ => false
  | .ok (s1, rs) =>
    match s1.team.track false 0, (s1.plainVector va (s.shape 0).cols).toOption with
    | some tracked, some v =>
      enabledFlags s.team.mode ((s.shape 0).loaded ({ s1 with team := tracked }.rangesRead rs).2 (some v)).2 == 0
    | _, _ => false

theorem witness_TileLoads_smoothing :
    let s := withU stoned [(1, 0x20000000080)]
    s.stoneFree [0] [] = true ∧ s.issuesAlone (.tld 0 0 1 1) false [.u 0, .u 1] [] = true ∧
    s.issuesAlone (.tldD 0 0 1 1) false [.u 0, .u 1] [] = true ∧ (s.shape 0).fmt ≠ 3 ∧
    ((s.team.u 1).extractLsb' 32 32).toNat = 0x200 ∧
    sideFree s false (s.strideSide 64 ((s.team.u 1).extractLsb' 0 32).toNat true (s.shape 0)) = true ∧
    smoothFree s 0x200 (s.strideSide 64 ((s.team.u 1).extractLsb' 0 32).toNat true (s.shape 0)) = true ∧
    sideFree s false ((putPage s 64 (tileDescriptor true)).descriptorSide 64 true (s.shape 0)) = true ∧
    smoothFree s 0x200 ((putPage s 64 (tileDescriptor true)).descriptorSide 64 true (s.shape 0)) = true := by decide +kernel

/-- The team holds a lease of as many operations. -/
def leased (n : Nat) : State :=
  let s := stoned.mapTeam fun t => { t with leaseHeld := true, leaseGrant := n, leaseRemain := n }
  { s with millstones := [(0, ⟨some 1, [], []⟩)] }

theorem witness_Mma :
    let s := (leased 1).mapTeam fun t => t.setV 0 ((List.range 32).map fun l => (l, 0x11))
    let s := (s.setTshape 0 0 (Shape.word ⟨1, 2, 2⟩)).setTshape 0 1 (Shape.word ⟨1, 2, 2⟩)
    s.issuesAlone (.mma 15 0 1 0 0) false [.v 0] [] = true ∧ s.team.lanes = 32 ∧
    (∀ l < 32, s.team.mask.getLsbD l = true ∧ (s.team.v 0 l).toNat = 0x11) ∧ s.leaseEnding = false ∧ s.team.leaseHeld = true ∧
    s.stoneFree [0, 1] [15] = true ∧ mmaAllowed 0x11 0 = true ∧ (s.shape 0).fmt = 1 ∧ (s.shape 1).fmt = 1 ∧
    (s.shape 1).rows = (s.shape 0).cols ∧ (s.shape 0).cols ≤ min (elemK 1) (elemK 1) ∧ (s.shape 0).rows ≤ 64 ∧ (s.shape 1).cols ≤ 64 ∧
    s.tilePoisoned 0 (s.shape 0).total = false ∧ s.tilePoisoned 1 (s.shape 1).total = false ∧
    (s.team.track true 15).isSome = true ∧ wbits s.team.mode 12 7 = 0 := by decide +kernel

theorem witness_AccumulatorOperations :
    let s := stoned
    s.stoneFree [] [15] = true ∧ (s.team.track true 15).isSome = true ∧ s.issuesAlone (.aclr 15) false [] [] = true ∧
    s.issuesAlone (.ascale 15 0 5) false [.u 0] [] = true ∧ s.issuesAlone (.abias 15 0 0) false [.u 0] [] = true ∧
    (s.plainVector ((s.team.u 0).extractLsb' 0 32).toNat 64).toOption.isSome = true ∧ wbits s.team.mode 12 7 = 0 := by decide +kernel

theorem witness_TileOperationsAndLeases :
    let s := stoned
    s.issuesAlone (.mlease 0xFFF) false [] [] = true ∧ s.team.heldTrap = none ∧ s.team.leaseHeld = false ∧
    (leased 1).issuesAlone (.mlease 0xFFF) false [] [] = true ∧
    s.ownsStone s.team.part s.team.mill = true ∧ s.rest = [] ∧ (s.millstone 0).holder = none ∧ (s.millstone 0).queue = [] ∧
    s.team.releasing = false ∧
    (let b := { s with millstones := [(0, ⟨some 9, [], []⟩)] }
     b.issuesAlone (.mlease 0) false [] [] = true ∧ b.team.heldTrap = none ∧ b.team.leaseHeld = false ∧ b.rest = [] ∧
     b.ownsStone b.team.part b.team.mill = true ∧ (b.millstone b.team.mill).holder = some 9) ∧
    s.issuesAlone .mrels false [] [] = true ∧ (leased 1).issuesAlone .mrels false [] [] = true ∧ (leased 1).team.leaseHeld = true ∧
    ((leased 1).millstone 0).holder = some (leased 1).team.uid ∧ ((leased 1).millstone 0).queue = [] ∧
    (s.team.track false 31).isSome = true ∧ s.issuesAlone (.tzero 31) false [] [] = true ∧ s.stoneFree [31] [] = true ∧
    s.issuesAlone (.ttrn 31 0) false [] [] = true ∧ s.stoneFree [31, 0] [] = true ∧ blockK (s.shape 0).fmt = 0 ∧
    s.tilePoisoned 0 (s.shape 0).total = false ∧ s.issuesAlone (.amov 2 15 5) false [] [] = true ∧ s.stoneFree [2] [15] = true ∧
    (s.shape 2).rows ≤ 64 ∧ (s.shape 2).cols ≤ 64 ∧ wbits s.team.mode 12 7 = 0 := by decide +kernel

theorem witness_TileOperationsAndLeases_quantized :
    let s := stoned.setTshape 0 2 (Shape.word ⟨4, 16, 16⟩)
    (s.team.track false 2).isSome = true ∧ s.issuesAlone (.amovQ 2 15 0 5) false [.u 0] [] = true ∧ s.stoneFree [2] [15] = true ∧
    (s.shape 2).rows ≤ 64 ∧ (s.shape 2).cols ≤ 64 ∧ blockK (s.shape 2).fmt ≠ 0 ∧
    (s.plainVector ((s.team.u 0).extractLsb' 0 32).toNat (s.shape 2).cols).toOption.isSome = true ∧
    wbits s.team.mode 12 7 = 0 := by decide +kernel

theorem witness_IllegalAndPrivileged :
    (encode (.plot 0)).isSome = true ∧ (Instr.plot 0).wellFormed = false ∧ (encode (.vadd 0 0 0 3)).isSome = true ∧
    (Instr.vadd 0 0 0 3).wellFormed = false ∧ (∀ i ∈ privilegedForms 0 63 1, (encode i).isSome = true) ∧
    solo.team.status = .ready ∧ solo.team.level = .user := by decide +kernel

/-- Every flag is enabled, and registers 1 and 2 hold zero, or a signaling NaN in FP32 and in both BF16 halves. -/
def trapping (nan : Bool) : State :=
  let s := solo.mapTeam fun t => { t with mode := 0x1F81 }
  if nan then withV (withV s 1 0x7F817F81 0x7F817F81) 2 0x7F817F81 0x7F817F81 else s

theorem witness_FlagTrap :
    (∀ f ∈ divisionForms 3 1 2, (trapping false).issues f.i f.srcs [.v f.d] = true ∧
      enabledFlags (trapping false).team.mode ((trapping false).unionFlags fun l => (f.value (trapping false).team l).2) ≠ 0) ∧
    (∀ f ∈ floatForms 3 1 2 1 2 1 1, (trapping true).issues f.i f.srcs [.v f.d] = true ∧
      enabledFlags (trapping true).team.mode ((trapping true).unionFlags fun l => (f.value (trapping true).team l).2) ≠ 0) := by
  decide +kernel

/-- The lanes handle the breakpoint of virtual device 0, at 0x10000. -/
def handling : State := (plainOn solo).setReg (vdReg 0 0x040) 0x10001

theorem witness_TrapEntry :
    let s := handling
    let x : Trap := ⟨0x1B, 5, some 3, 0, false, false, 0⟩
    s.lanesRoute s.team x = true ∧ s.pending s.team.uid = [] ∧ s.team.closure = [] ∧ s.team.stack.length ≤ 32 ∧
    (s.plainPhys (BitVec.ofNat 64 s.team.frame) (frameSize s.team.lanes) s.team.part 1).toOption = some (0, 0) ∧
    s.plainBusy 0 0 (frameSize s.team.lanes) = false ∧ s.plainPoisoned 0 0 (frameSize s.team.lanes) = false := by decide +kernel

/-- HEN is set, and VDHMASK is as it stands after reset, or empty. -/
theorem witness_Breakpoints :
    solo.issuesAlone (.trap 0xFFFF) false [] [] = true ∧ solo.issuesAlone (.brk 0xFFFF) false [] [] = true ∧
    (let s := handling
     s.issuesAlone (.trap 0xFFFF) false [] [] = true ∧ s.team.level = .user ∧ s.regBit (vdReg s.team.vd 0x040) 0 = true ∧
     s.regBit (vdReg s.team.vd 0x090) 0x1B = true ∧ s.pending s.team.uid = [] ∧
     (s.plainPhys (BitVec.ofNat 64 s.team.frame) (frameSize s.team.lanes) s.team.part 1).toOption = some (0, 0) ∧
     s.plainBusy 0 0 (frameSize s.team.lanes) = false ∧ s.plainPoisoned 0 0 (frameSize s.team.lanes) = false) ∧
    boss.issuesAlone (.trap 0) false [] [] = true ∧ boss.team.level = .supervisor ∧
    solo.regBit (vdReg solo.team.vd 0x040) 0 = false ∧
    (let s := handling.setReg (vdReg 0 0x090) 0
     s.issuesAlone (.trap 0) false [] [] = true ∧ s.regBit (vdReg s.team.vd 0x090) 0x1B = false) := by decide +kernel

theorem witness_Eret :
    let s := plainOn boss
    s.issuesAlone .eret true [] [] = true ∧ s.pending s.team.uid = [] ∧
    (s.plainPhys (BitVec.ofNat 64 s.team.frame) (frameSize s.team.lanes) s.team.part 1).toOption = some (0, 0) ∧
    s.plainBusy 0 0 (frameSize s.team.lanes) = false ∧ s.plainPoisoned 0 0 (frameSize s.team.lanes) = false ∧
    s.team.shelved = [] ∧ s.team.heldTrap = none ∧ s.team.cause.getLsbD 6 = false ∧ s.team.cause.getLsbD 7 = false ∧
    s.team.epc.getLsbD 0 = false ∧ s.team.lanes ≤ 1024 ∧
    (let f := s.plainPut 0 0 (s.mapTeam fun t => { t with stack := [3, 1] }).team.frameBytes
     let w := fun o n => leNat (((f.plainRead 0 0 (frameSize f.team.lanes)).drop o).take n)
     1 ≤ w 0x18 8 % 8 ∧ w 0x18 8 % 8 ≤ 5 ∧ 1 ≤ w 0x28 8 % 8 ∧ w 0x28 8 % 8 ≤ 5 ∧ w 0x30 8 % 4 ≤ 2 ∧ w 0 8 / 256 % 64 = 2) := by
  decide +kernel

/-- A team at supervisor level whose registers name key indices and operands; index 1 is loaded for partition 0, 2 is being
destroyed, 3 is retired, and 4 is loaded for partition 1. -/
def keyed : State :=
  let s := (((plainOn boss).setReg (kstatReg 1) 0x001).setReg (kstatReg 2) 0x002).setReg (kstatReg 3) 0x003
  withU (s.setReg (kstatReg 4) 0x101) [(1, 1), (2, 2), (3, 3), (4, 4), (5, 0xFFFF), (6, 64)]

theorem witness_InvalidationAndKeys :
    let s := keyed
    s.issuesAlone (.tlbinv 63) true [.u 63] [] = true ∧ s.issuesAlone .tlbinvAll true [] [] = true ∧
    (∀ a ∈ [1, 2, 3, 4, 5, 0], s.issuesAlone (.keyld (BitVec.ofNat 6 a) 6) true [.u a, .u 6] [] = true ∧
      s.issuesAlone (.keydel (BitVec.ofNat 6 a)) true [.u a] [] = true ∧ (s.team.u a).extractLsb' 16 48 = 0) ∧
    s.acquiring s.team.uid = false ∧ (s.team.u 6).toNat % 64 = 0 ∧ (s.plainPhys (s.team.u 6) 64 s.team.part 1).toOption = some (0, 64) ∧
    s.plainBusy 0 64 64 = false ∧ s.plainPoisoned 0 64 64 = false ∧ s.watched = [] ∧ s.team.part < 32 ∧
    s.keyState 0xFFFF = 0 ∧ s.keyState 3 = 3 ∧ s.keyState 1 = 1 ∧ s.keyState 2 = 2 ∧ s.keyOwner 1 = some s.team.part ∧
    s.keyState 4 ≠ 0 ∧ s.keyOwner 4 ≠ some s.team.part := by decide +kernel

theorem witness_QuotaRows :
    (quotaRows boss 0x1FF).map (fun row => (row.1, row.2.1)) = [(0, 9), (1, 11), (2, 9), (3, 9), (4, 0), (5, 0)] ∧
    (0x1FF : Word).toNat < 2 ^ 9 ∧ (0 : Word).toNat < 2 ^ 0 ∧ ¬(1 : Word).toNat < 2 ^ 0 ∧ ¬(0x200 : Word).toNat < 2 ^ 9 :=
  ⟨rfl, by decide⟩

theorem witness_Csr_others :
    let s := withU boss [(0, 0x800000), (1, 0x800008), (2, 0x800010), (3, 0x800011), (4, 0x320000), (5, 0x100000), (6, 1)]
    let full := s.setReg (scrReg 1) 1
    (∀ a ∈ [0, 1, 2, 3, 4, 5], s.issuesAlone (.csrw (BitVec.ofNat 6 a) 6) true [.u a, .u 6] [] = true ∧
      s.issuesAlone (.csrr 63 (BitVec.ofNat 6 a)) true [.u a] [.u 63] = true) ∧
    s.team.part = 0 ∧ s.team.vd < 256 ∧ (s.team.u 0).toNat = scrReg 0 ∧ (s.team.u 1).toNat = scrReg 1 ∧
    (s.team.u 2).toNat = scrReg 2 ∧ (s.team.u 3).toNat % 8 ≠ 0 ∧ reservedOffset (s.team.u 4).toNat = true ∧
    reservedOffset (s.team.u 5).toNat = false ∧ (s.team.u 5).toNat % 8 = 0 ∧ (s.team.u 6).getLsbD 0 = true ∧
    (s.team.u 0).getLsbD 0 = false ∧ s.regBits (scrReg 1) 27 0 = 0 ∧ full.regBits (scrReg 1) 27 0 = 1 ∧ s.boot ≠ .minimal ∧
    full.issuesAlone (.csrw 2 6) true [.u 2, .u 6] [] = true := by decide +kernel

theorem witness_QuotaRegistersAndHalt :
    let s := withU boss [(1, 0), (2, 9), (3, 0x200100), (4, 0x200101), (5, 0x310000), (6, 0x101000), (7, 0x200178)]
    s.issuesAlone (.pquota 63 1 1) true [.u 1, .u 1] [.u 63] = true ∧ (s.quotaWord (s.team.u 1) (s.team.u 1)).isSome = true ∧
    s.issuesAlone (.pquota 63 2 1) true [.u 2, .u 1] [.u 63] = true ∧ s.quotaWord (s.team.u 2) (s.team.u 1) = none ∧
    (∀ a ∈ [3, 4, 5, 6], s.issuesAlone (.csrr 63 (BitVec.ofNat 6 a)) true [.u a] [.u 63] = true) ∧
    (s.team.u 3).toNat % 8 = 0 ∧ reservedOffset (s.team.u 3).toNat = false ∧ s.csrForbidden s.team.part (s.team.u 3).toNat = false ∧
    (s.team.u 4).toNat % 8 ≠ 0 ∧ reservedOffset (s.team.u 5).toNat = true ∧ (s.team.u 6).toNat % 8 = 0 ∧
    reservedOffset (s.team.u 6).toNat = false ∧ s.csrForbidden s.team.part (s.team.u 6).toNat = true ∧
    (∀ a ∈ [3, 7], s.issuesAlone (.csrw (BitVec.ofNat 6 a) 2) true [.u a, .u 2] [] = true) ∧
    (s.team.u 3).toNat = vdReg s.team.vd (0x100 + 8 * 0) ∧ (s.team.u 7).toNat = vdReg s.team.vd (0x100 + 8 * 15) ∧
    s.issuesAlone .halt true [] [] = true ∧ s.rest = [] ∧ s.team.fault = none := by decide +kernel

/-- The team has this status. -/
def inStatus (s : State) (x : Status) : State := s.mapTeam fun t => { t with status := x }

/-- Peer 2 is UP, with a route. -/
def peerUp (s : State) : State :=
  (((s.setReg (peerReg 2) 0x8000000000000000).setReg (routeReg 2 false) 0x8000000000000000).setReg (routeReg 2 true) 0x8000000000000001)
    |>.setReg (fportReg 0) 0xC000000000000000 |>.setReg (fportReg 1) 0xC000000000000000

theorem witness_TeamEvents_sleep_claim_flow :
    let toPeer := { descOf descriptor with dpeer := true, pmod := 2 }
    let asking := fun (d : Desc) => (peerUp claimed).mapTeam fun t => { t.setClaim 15 { t.claim 15 with desc := d } with status := .parked (.claim 15) }
    let waiting := fun (s : State) => inStatus s (.parked (.flow 15 0 64 0x100))
    (let s := { inStatus solo (.parked (.sleep 0 4)) with time := 1 }
     s.focus 1 = some s ∧ 4 * 4 < 9 * (s.time + 1 - 0)) ∧
    (asking (descOf descriptor)).focus 1 = some (asking (descOf descriptor)) ∧ (asking toPeer).focus 1 = some (asking toPeer) ∧
    solo.copyWaits = [] ∧ ((asking toPeer).team.claim 15).stale = false ∧ ((asking toPeer).team.claim 15).desc.dpeer = true ∧
    ((asking (descOf descriptor)).team.claim 15).desc.dpeer = false ∧ ((asking toPeer).peer 2).1 = true ∧
    ((asking toPeer).anyRoute 2).isSome = true ∧ (waiting claimed).focus 1 = some (waiting claimed) ∧
    ((waiting claimed).team.claim 15).state = .held ∧ (waiting claimed).mayFlow 15 0 64 = true ∧
    (waiting described).focus 1 = some (waiting described) ∧ ((waiting described).team.claim 15).state ≠ .held ∧
    (waiting described).flowRuns 1 = false := by decide +kernel

/-- Does a captured instruction run? -/
def runs (s : State) (e : Entry) : Bool :=
  match s.runCap e.cap e.frozen e.mask e.rm e.plot true with
  | .ok _ => true
  | _ => false

/-- Does a captured instruction wait and leave its team READY? -/
def waitsReady (s : State) (e : Entry) : Bool :=
  match s.runCap e.cap e.frozen e.mask e.rm e.plot true with
  | .wait t => t.team.status == .ready
  | _ => false

theorem witness_TeamEvents_closure_trap_fault :
    let s := solo.mapTeam fun t => { t with closure := [captured] }
    let x : TakenTrap := ⟨⟨0x1B, 5, some 3, 0, false, false, 0x400⟩, false⟩
    let trapped := handling.mapTeam fun t => { t with status := .trapping, pendingTrap := some x }
    let f := (inStatus solo (.parked .fault)).mapTeam fun t => { t with fault := some ⟨x, 0, none⟩ }
    let f := f.setReg (faultRing 0).1 0x8000000000010010
    s.focus 1 = some s ∧ s.team.status = .ready ∧ s.team.level = .user ∧ s.team.pendingTrap = none ∧ s.holding 1 = false ∧
    s.headReady captured = true ∧ s.team.entryTrap captured = none ∧ runs s captured = true ∧ wbits s.team.mode 12 7 = 0 ∧
    (let e : Entry := { captured with cap := .umem true true 8 0 1 2 }
     let b := (busy s).mapTeam fun t => { t with closure := [e] }
     b.focus 1 = some b ∧ b.team.status = .ready ∧ b.team.pendingTrap = none ∧ b.holding 1 = false ∧ b.headReady e = true ∧
     b.team.entryTrap e = none ∧ waitsReady b e = true) ∧
    (let p := inStatus (s.mapTeam fun t => { t with upoison := [1], unrewindable := true }) .preempting
     p.focus 1 = some p ∧ p.team.closure = [captured] ∧ p.savesWhole p.team = true ∧ p.team.level = .user ∧
     p.team.pendingTrap = none ∧ p.holding 1 = false ∧ p.headReady captured = true ∧ (p.team.entryTrap captured).isSome = true) ∧
    trapped.focus 1 = some trapped ∧ trapped.pending 1 = [] ∧
    (trapped.plainPhys 0 (frameSize trapped.team.lanes) 0 1).toOption = some (0, 0) ∧
    trapped.plainBusy 0 0 (frameSize trapped.team.lanes) = false ∧ trapped.plainPoisoned 0 0 (frameSize trapped.team.lanes) = false ∧
    trapped.team.stack.length ≤ 32 ∧ f.focus 1 = some f ∧ f.lostRecords = [] ∧ f.ringRoom (faultRing 0) = true := by decide +kernel

/-- A recipe record that keeps the first eight vector registers (R165). -/
def recipe : Recipe := ⟨0, 0, 1, 0, 0, 0, 0⟩

/-- Partition 0 has 64 slots a mill and 512 register rows a wheel; virtual device 0 holds its slice; the team's workgroup knows one
recipe, or none. -/
def placed (recipes : List Recipe) : State :=
  let s := sliced ((plainOn (grouped solo)).setReg (partReg 0 0x008) 0x0200000000400000)
  { s.mapTeam (fun t => { t with regs := 8, maxG := 1 }) with workgroups := [{ group with recipes := recipes }] }

theorem witness_TeamEvents_preemption :
    (∀ r ∈ [[], [recipe]],
      let s := inStatus (placed r) .preempting
      s.focus 1 = some s ∧ s.team.status = .preempting ∧ s.rewindTo s.team = r.head? ∧ s.mayBeSaved r.head? = true ∧ s.sliceStopped s.team.saveSlice = false ∧
      (s.plainPhys s.team.contextAt s.team.contextSize s.team.part 1).toOption = some (0, 9216) ∧
      s.plainBusy 0 9216 s.team.contextSize = false ∧ s.watched = [] ∧
      s.plainPoisoned 0 9216 (s.contextBytes s.team (s.team.kept r.head?)).length = false) ∧
    (let s := inStatus (placed []) .preempted
     let g := group
     s.focus 1 = some s ∧ s.wgOf 9 = some g ∧ g.donations = [] ∧ s.membersInOrder 9 = [s.team] ∧ s.sliceStopped 511 = false ∧
     s.holdsSlice g.vd = true ∧ s.slotsFree (g.vd / 8) 511 [63] = true ∧
     s.rowsFit (g.vd / 8) 511 (fun w => if 63 / 16 = w then s.team.rows else 0) = true ∧
     (s.plainPhys s.team.contextAt s.team.contextSize s.team.part 1).toOption = some (0, 9216) ∧
     s.bankBusy 0 9216 s.team.contextSize = false ∧ s.team.heldTrap = none ∧ s.team.rewound = none ∧ s.team.closure = [] ∧
     s.plainRead 0 (9216 + 0x40) 8 = List.replicate 8 0 ∧ s.needsStone s.team = false ∧
     (let x := s.plainWrite 0 (9216 + 0x48) (leBytes 8 (2 ^ 16))
      x.focus 1 = some x ∧ x.wgOf 9 = some g ∧ x.membersInOrder 9 = [x.team] ∧ x.needsStone x.team = true ∧
      x.ownsStone (g.vd / 8) 511 = false)) := by decide +kernel

theorem witness_TeamEvents_record :
    let e : EventRecord := ⟨some 0, 0x01, 0, 0, 0, none, 0⟩
    let s := { solo.setReg (eventRing (some 0)).1 0x8000000000010010 with events := [e] }
    (s.events.find? fun x => x.vd == some 0) = some e ∧ s.ringRoom (eventRing (some 0)) = true := by decide +kernel

/-- A request of the team at byte 64 of slice 0 or of Basin byte 0x50040, for an access of one register. -/
def request (loc : Loc) (op : ReqOp) (stage : Stage) : Req := ⟨5, 4, 1, 0, 0, 0, loc, 8, op, 64, stage, false, false, false, false⟩

/-- That request and its access are under way. -/
def requested (loc : Loc) (op : ReqOp) (stage : Stage) : State :=
  { solo with requests := [request loc op stage], accesses := [access 4 [.u 5]] }

/-- The operations of the requests in the tests. -/
def reading : ReqOp := .uload 5 0 8
/-- The store of them. -/
def writing : ReqOp := .store [1, 2, 3, 4, 5, 6, 7, 8]
/-- The atomic of them. -/
def adding : ReqOp := .atomic .add 1 0 true 0 0

theorem witness_MemoryEvents_requests :
    let at' := Loc.plain 0 64
    let mem := Loc.mem false 0x50040 0 false
    (∀ x ∈ [requested at' reading .egress, requested at' writing .egress, requested mem writing .egress],
      ∃ r ∈ x.requests, findBy Req.id x.requests r.id = some r ∧ r.stage = .egress ∧ x.firstOnRoute r = true) ∧
    reading.reads = true ∧ (∃ a ∈ (requested at' writing .egress).accesses,
      findBy Access.id (requested at' writing .egress).accesses 4 = some a ∧ a.poisoned = [] ∧ a.deferred = false ∧
      a.guest = none ∧ a.left = 1 ∧ a.data = [] ∧ a.team = (requested at' writing .egress).team.uid) ∧
    (let own := requested at' reading .egress
     let r := request at' reading .egress
     own.bankRoom r = true ∧ own.presented r.mill = some (r.access, r.swath) ∧
     (own.requests.filter fun x => x.atPort r.mill && x.access == r.access && x.swath == r.swath) = [r]) ∧
    (∀ op ∈ [reading, writing],
      let far := requested (.plain 1 64) op .egress
      let r := request (.plain 1 64) op .egress
      findBy Req.id far.requests r.id = some r ∧ (1 : Nat) ≠ r.mill ∧ far.bankRoom r = true ∧ far.firstOnRoute r = true) ∧
    (let two := requested at' reading (.served [1, 2, 3, 4, 5, 6, 7, 8])
     let two := { two with accesses := [{ access 4 [.u 5] with left := 2 }] }
     (two.accesses.map (·.left)) = [2] ∧ (findBy Req.id two.requests 5).isSome = true) ∧
    (requested mem writing .egress).stalls false (0x50040 / 64 * 64) = false ∧
    ((requested mem writing .egress).memWrite false 0x50040 0 false [1, 2, 3, 4, 5, 6, 7, 8]).2 = .ok ∧
    (requested at' reading (.served [1, 2, 3, 4, 5, 6, 7, 8])).team.isVacant = false := by decide +kernel

theorem witness_MemoryEvents_banks :
    ∀ op ∈ [reading, writing, adding],
      let s := requested (.plain 0 64) op .queued
      let r := request (.plain 0 64) op .queued
      s.bankHead 0 17 = some r ∧ (∀ b ∈ banksOf 64 r.n, (s.bankHead 0 b).map (·.id) = some r.id) ∧
      (∀ p ∈ s.promotions, p.waiter ≠ r.id) ∧ r.release = false ∧ r.acquire = false ∧ s.plainPoisoned 0 64 8 = false ∧
      s.watched = [] := by decide +kernel

/-- The walk of a prefetch of the page at 0. -/
def walking : State := { mapped solo with walks := [⟨3, 0, 1, 64, 1, 0, true⟩] }

/-- Has the walk answered a leaf? -/
def isLeaf : Walked → Bool
  | .leaf _ => true
  | _ => false

/-- A promotion of slice 0 that mill 0 has received, or not. -/
def promoted (received : Bool) : State :=
  { requested (.plain 0 64) adding (.promoting 6 [0, 0, 0, 0, 0, 0, 0, 0]) with
    promotions := [⟨6, 0, 0, received, [], 5, some 8⟩] }

theorem witness_MemoryEvents_others :
    findBy WalkReq.id walking.walks 3 = some ⟨3, 0, 1, 64, 1, 0, true⟩ ∧
    isLeaf ({ walking with walks := dropBy WalkReq.id walking.walks 3 }.walkInstall (.lane 0) 64 1 .load
      (((walking.teamOf 1).map Team.sup).getD false)).2 = true ∧
    (let s := { solo with rebuilding := [(0x50040, 0)] }
     (s.rebuilding.find? fun x => x.1 == 0x50040) = some (0x50040, 0) ∧ s.requests = [] ∧ s.cleanCopies = [] ∧
     s.calmLine false 0x50040 = true ∧ s.scrubMarks.contains (0x50040 / 4096) = false) ∧
    (∀ r ∈ [true, false], findBy Promotion.id (promoted r).promotions 6 = some ⟨6, 0, 0, r, [], 5, some 8⟩) ∧
    { solo with scrubMarks := [3, 2, 4] }.scrubMarks = 3 :: [2, 4] := by decide +kernel

/-- A migration of the page that `mapped` maps, whose leaf stands at 0x42000: on touch or asked for, with its state and attempts, and
whether a store has marked it. -/
def migration (touch : Bool) (x : MigState) (attempts : Nat) (marked : Bool) (word : Nat) : Migration :=
  ⟨6, 0, 1, 0, touch, x, attempts, 0x42000, word, 0x50000, true, 0, 0x70000, marked⟩

/-- That migration is under way, and so is the drained invalidation of its page. -/
def migrating (m : Migration) : State :=
  { mapped solo with migrations := [m], invalidations := [⟨8, .migration 6, .page 1 0, [], [], [], 0⟩] }

theorem witness_MigrationEvents :
    (∀ m ∈ [migration true .copying 1 false 0x50C0F, migration true .copying 1 false 0x60C0F, migration true .switching 1 false 0,
        migration false .copying 1 false 0, migration false .copying 3 true 0, migration false .copying 4 true 0,
        migration false .draining 1 false 0, migration false .switching 1 false 0x5040F, migration false .switching 3 true 0x5040F,
        migration false .switching 3 true 0],
      findBy Migration.id (migrating m).migrations m.id = some m ∧ ((migrating m).drainedFor (.migration 6)).isSome = true) ∧
    (∀ m ∈ [migration true .copying 1 false 0x50C0F, migration false .copying 1 false 0],
      let s := migrating m
      s.pageStalls m = false ∧ s.scrubMarks = [] ∧ m.oldFrame % 65536 = 0 ∧ m.newFrame % 65536 = 0 ∧ m.capacity = true ∧
      (List.range 1024).all (fun i => (s.memRead m.capacity (m.oldFrame + 64 * i) m.key false 64).2 == .ok &&
        !s.stackStopped (m.newFrame + 64 * i)) = true) ∧
    (let m := migration true .copying 1 false 0x50C0F
     let s := migrating m
     { s with rebuilding := [(0x42000, 0)] }.pageStalls m = true ∧
     m.leafAt % 8 = 0 ∧ (s.basinRead (m.leafAt / 64 * 64) 0).2 = .ok ∧ m.leafAt / 65536 * 65536 ≠ m.newFrame ∧
     m.newFrame < 2 ^ 52) ∧ { migration false .draining 1 false 0 with capacity := false }.capacity = false ∧
    (mapped solo).tableWord 0x42000 = 0x50C0F ∧ sameLeaf 0x50C0F 0x50C0F = true ∧ sameLeaf 0x50C0F 0x60C0F = false ∧
    bitOf 0x50C0F 11 = true ∧ sameLeaf (leafBit 0x50C0F 11 false) 0x5040F = true ∧ sameLeaf (leafBit 0x50C0F 11 false) 0 = false ∧
    (let s := (mapped solo).putEntry 0x42000 0x5040F 0
     bitOf (s.tableWord 0x42000) 11 = false ∧ sameLeaf (leafBit (s.tableWord 0x42000) 11 false) 0x5040F = true) := by decide +kernel

/-- Virtual device 0 has a migration ring of 16 entries at 0x100000 and a frame ring at 0x200000, with one entry each: the page at 0 of
address space 1, and frame 0x70000. -/
def ringed : State :=
  let s := (((mapped solo).hostStore 0x100000 (leBytes 8 1)).hostStore 0x200000 (leBytes 8 0x70000)).setReg (vdReg 0 0x0F0) 0x8000000000100010
  (s.setReg (vdReg 0 0x0E8) 0x8000000000200010).setReg (vdReg 0 0x0F8) 0x0001000000010000

theorem witness_MigrationEvents_command :
    let idx := ringed.reg (vdReg 0 0x0F8)
    let taken := ringed.setReg (vdReg 0 0x0F8) (wput idx 15 0 (wbits idx 15 0 + 1))
    (ringed.reg (vdReg 0 0x0F0)).getLsbD 63 = true ∧ wbits idx 15 0 ≠ wbits idx 31 16 ∧ ringed.migrations = [] ∧
    ringed.moveStalls 0 1 0 = false ∧ { ringed with rebuilding := [(0x42000, 0)] }.moveStalls 0 1 0 = true ∧
    leNat (ringed.hostRead 0x100000 8) = 1 ∧ (taken.movable 0 1 0).isSome = true ∧
    (State.takeFrame 0 65536 taken).2 = some 0x70000 := by decide +kernel

/-- The start has ended. -/
def started (s : State) : State := { s with boot := .ready }

theorem witness_HostTableWrites_tables :
    let s := started solo
    let window := s.setReg (partReg 1 0) 0x80200000
    let root := s.setReg (rootReg 1) 0x8000000000000001
    let queue := fun (w : Word) => (s.setReg (lqReg 0 15 0x10) 0x10).setReg (lqReg 0 15 0) w
    s.boot ≠ .minimal ∧ (s.window 0).1 = false ∧ s.windowRefused 0 0 32 = false ∧ s.windowRefused 0 512 1 = true ∧
    (let away := { s with rowOwner := [(31, 2)], plain := [(31 * 4096, 5)] }
     away.windowRefused 0 0 32 = false ∧ mapGet 0 away.rowOwner (31 * 4096 % 2097152 / 4096) ≠ 0 + 1) ∧
    (window.window 1).1 = true ∧ window.partitionBusy 1 = false ∧ window.boot ≠ .minimal ∧
    ((plainOn s).window 0).1 = true ∧ (plainOn s).partitionBusy 0 = true ∧
    s.regBit (rootReg 4095) 63 = false ∧ root.regBit (rootReg 1) 63 = true ∧
    (queue 0).regBit (lqReg 0 15 0) 63 = false ∧ (queue 0).regBits (lqReg 0 15 0x10) 15 0 ≠ 0 ∧
    (queue 0x8000000000000000).regBit (lqReg 0 15 0) 63 = true := by decide +kernel

theorem witness_HostTableWrites_queue :
    let s := ((started solo).setReg (lqReg 0 15 0x10) 0x100000010).setReg (rootReg 1) 0x8000000000000001
    s.boot ≠ .minimal ∧ s.regBit (lqReg 0 15 0) 63 = false ∧ wbits (s.reg (lqReg 0 15 0x10)) 15 0 ≠ 0 ∧
    s.ownsAsid 0 (wbits (s.reg (lqReg 0 15 0x10)) 43 32) = true ∧
    leNat (s.hostRead (s.regBits (lqReg 0 15 0x08) 51 6 * 64) 4) ≤ wbits (s.reg (lqReg 0 15 0x10)) 15 0 ∧
    (started solo).ownsAsid 0 0 = false := by decide +kernel

theorem witness_HostTableWrites_domains :
    let s := ((started solo).setReg (vdReg 1 0x058) 0x10000).setReg (vdReg 1 0x200) 1
    let on := started (domained solo)
    let away := on.mapTeam fun t => { t with vd := 1 }
    (∀ x ∈ [on, away], x.stepEn 0 = true ∧ (0 : Nat) < 256) ∧ (∀ row ∈ plainDeviceFields, row.1 = 0x058 ∨ row.1 = 0x060 → s.stepEn 1 = false) ∧
    s.stepEn 1 = false ∧ s.stepRefused 1 0 1 = false ∧ s.stepRefused 1 0 0 = true ∧ on.stepEn 0 = true ∧
    (∃ x ∈ on.teams, x.vd = 0 ∧ x.resident = true) ∧ away.stepEn 0 = true ∧ (∀ x ∈ away.teams, x.vd = 0 → x.resident = false) ∧
    s.boot ≠ .minimal ∧ on.boot ≠ .minimal ∧ away.boot ≠ .minimal := by decide +kernel

theorem witness_HostTableWrites_regions :
    let s := started solo
    let on := s.setReg (regionReg 255 0) 0x8000000000000001
    let enabling := { s with enabling := [255], invalidations := [⟨8, .region 255, .frames 0 0, [], [], [], 0⟩] }
    s.enabling = [] ∧ s.regBit (regionReg 255 0) 63 = false ∧ on.regBit (regionReg 255 0) 63 = true ∧
    s.regionIgnored 255 0x8000000000000000 = true ∧ s.regionIgnored 255 0x8C00000000000001 = false ∧
    (enabling.drainedFor (.region 255)).isSome = true := by decide +kernel

theorem witness_HostTableWrites_others :
    let s := started solo
    let up := started (peerUp solo)
    let lost := ((up.setReg (routeReg 2 false) 0).setReg (routeReg 2 true) 0)
    ((up.setReg (routeReg 2 true) 0).anyRoute 2).isSome = true ∧ (lost.anyRoute 2) = none ∧ s.module = 0 ∧
    reservedOffset 0x310000 = true ∧ s.regionBusy 0x310000 = false ∧ (3 : Nat) ∉ [4, 8] ∧ (4 : Nat) ∈ [4, 8] := by decide +kernel

/-- A fault record of the team, answered as number 7: of a trap that has completed or not. -/
def faulted (done : Bool) : State :=
  (inStatus (started (mapped solo)) (.parked .fault)).mapTeam fun t =>
    { t with fault := some ⟨⟨⟨0x1B, 5, some 3, 0, done, false, 0⟩, false⟩, 0, some 7⟩ }

/-- Does the fetch of the record's instruction leave the team as it stands? -/
def fetches (s : State) : Bool :=
  match ({ s with team := { s.team with fault := none } }.fetchHalf 0) with
  | (t, .ok _) => t.team == { s.team with fault := none }
  | _ => false

theorem witness_HostCommands_commands :
    let s := started solo
    let owns := (s.setReg (rootReg 1) 0x8000000000000001)
    let busy := owns.setReg (vdReg 0 0x048) 0x8000000000000000
    let keys := started keyed
    { solo with boot := .minimal }.regionBusy 0x100000 = false ∧ s.regBits (scrReg 1) 27 0 = 0 ∧
    (s.setReg (scrReg 1) 1).regBits (scrReg 1) 27 0 = 1 ∧ s.regBits (scrReg 0) 38 12 = 0 ∧ keys.keyState 3 = 3 ∧
    owns.regBit (vdReg 0 0x048) 63 = false ∧ owns.ownsAsid 0 1 = true ∧ busy.regBit (vdReg 0 0x048) 63 = true ∧
    owns.ownsAsid 0 2 = false ∧ keys.regBit kcmdReg 63 = false ∧ (keys.setReg kcmdReg 0x8000000000000000).regBit kcmdReg 63 = true ∧
    keys.keyState 5 = 0 ∧ keys.keyState 1 = 1 ∧ keys.keyState 2 = 2 ∧ keys.keyOwner 1 = some 0 := by decide +kernel

theorem witness_HostCommands_answers :
    (∀ d ∈ [true, false], (faulted d).boot ≠ .minimal ∧ (faulted d).team.vd = 0 ∧ (faulted d).team.status = .parked .fault ∧
      (faulted d).team.heldTrap = none ∧ ((faulted d).team.fault.bind (·.seq)) = some (7 : BitVec 32).toNat) ∧
    fetches (faulted false) = true ∧ (faulted true).mayRetire 1 = true ∧ (faulted true).rest = [] ∧
    (faulted true).wgOf (faulted true).team.wg = none ∧
    ({ faulted true with accesses := [access 4 []] }.mayRetire 1) = false ∧
    (∀ x ∈ [Park.guest (some 4), .shadow],
      let s := (inStatus (started solo) (.parked x)).mapTeam fun t => { t with guestSeq := some 7 }
      s.team.vd = 0 ∧ s.team.status = .parked x ∧ s.team.heldTrap = none ∧ s.team.drains = false ∧ s.team.guestSeq = some (7 : BitVec 32).toNat) ∧
    solo.holdsSlice 0 = false ∧ (sliced solo).holdsSlice 0 = true ∧ (sliced solo).rest = [] ∧ solo.team.status = .ready ∧
    solo.team.fault = none ∧ keyed.keyState 2 = 2 ∧ (inStatus keyed (.parked (.keydel 2))).team.status = .parked (.keydel 2) ∧
    { keyed with hostDestroy := some 2 }.keyState 2 = 2 := by decide +kernel

theorem witness_HostCommands_acknowledge :
    ∀ o ∈ [InvOwner.host 255, .team 1],
      let v : Invalidation := ⟨8, o, .page 1 0, [], [], [], 0⟩
      let s := { inStatus solo (.parked (.invalidation 8)) with invalidations := [v] }
      findBy Invalidation.id s.invalidations v.id = some v ∧ s.drained v = true ∧ s.team.status = .parked (.invalidation v.id) ∧
      s.regBit (vdReg s.team.vd 0x040) 1 = false := by decide +kernel

theorem witness_FabricEvents :
    let up := peerUp claimed
    let port := up.setReg (fportReg 15) 0xC000000000000000
    let permit := (plainOn solo).setReg (permitReg 4095) 0x8000000000000000
    (up.peer 3).1 = false ∧ (up.peer 2).1 = true ∧ up.flows = [] ∧ up.colls = [] ∧ up.requests = [] ∧
    (∀ vd < 256, up.stepEn vd = false) ∧ mapGet 0 { solo with rates := [(5, 6)] }.rates 5 ≠ 0 ∧
    mapGet 0 { solo with rates := [(5, 6)], recoverAt := [(5, 10000)], time := 10000 }.recoverAt 5 ≤ 10000 ∧ up.copyWaits = [] ∧
    port.regBit (fportReg 15) 63 = true ∧ port.regBit (fportReg 15) 62 = true ∧ solo.regBit (fportReg 15) 62 = false ∧
    (up.liveRoute 2 false).isSome = true ∧ (up.liveRoute 2 true).isSome = true ∧
    (∀ x ∈ up.teams, ∀ c ∈ x.claims, c.2.toPeer 2 = false) ∧
    (permit.reg (permitReg 4095)).getLsbD 63 = true ∧ wbits (permit.reg (permitReg 4095)) 7 0 = 0 ∧ (permit.window 0).1 = true ∧
    bitsOf 0x1FF1 20 0 + 15 ≤ (permit.window 0).2.2 * 4096 ∧ permit.sliceStopped (bitsOf 0x1FF1 29 21) = false ∧
    (permit.window 0).2.2 * 4096 < 2 ^ 21 - 1 + 1 ∧ (solo.reg (permitReg 4095)).getLsbD 63 = false := by decide +kernel

theorem witness_FabricEvents_chunk :
    let s := flowing
    let f := chunkFlow
    let n := f.desc.chunkAt 0 (f.off + f.len - 1)
    findBy Machine.Flow.id s.flows f.id = some f ∧ 0 ∈ f.chunks ∧ f.desc.sspace = true ∧ f.desc.dspace = true ∧ f.desc.dpeer = false ∧
    f.peer = none ∧ f.error = false ∧ f.desc.pieces true 0 n = [(0, 0x1000, n)] ∧ f.desc.pieces false 0 n = [(0, 0x2000, n)] ∧
    (s.plainPhys 0x1000 n 0 1).toOption = some (0, 0x1000) ∧ (s.plainPhys 0x2000 n 0 1).toOption = some (0, 0x2000) ∧
    s.bankBusy 0 0x1000 n = false ∧ s.bankBusy 0 0x2000 n = false ∧ s.bankBusy f.ctrSlice f.ctrOff 16 = false ∧
    f.countsHere = true ∧ { s with requests := [{ request (.plain f.ctrSlice f.ctrOff) writing .queued with n := 4 }] }.bankBusy f.ctrSlice f.ctrOff 16 = true ∧
    s.plainPoisoned 0 0x1000 n = false ∧
    s.plainPoisoned 0 0x2000 n = false ∧ s.plainPoisoned f.ctrSlice f.ctrOff 16 = false ∧
    plainKey f.ctrSlice f.ctrOff + 16 ≤ plainKey 0 0x2000 ∧ s.watched = [] ∧ s.unwatched f.ctrSlice f.ctrOff = true ∧
    f.chunks.filter (· != 0) = [] ∧ { f with chunks := [0, 64] }.chunks.filter (· != 0) ≠ [] ∧ f.team = some s.team.uid ∧
    s.team.isVacant = false := by decide +kernel

/-- An entry of step 1 for line 0x10000 of region 255, at module 0. -/
def packet (spill : Bool) (line : Nat) : StepEntry := ⟨List.replicate 64 0, 0, line, 0, 255, 0, spill, 1, 0, 0, 0⟩

/-- Region 255 of virtual device 0, one page at 0x10000, is enabled. -/
def regional (s : State) : State := s.setReg (regionReg 255 0) 0x8000000000010001

/-- Boundary 1 of virtual device 0. -/
def boundary (x : BoundaryState) (arrivals : Nat) : Boundary := ⟨0, 1, x, arrivals, false, false, [], [], [], false⟩

/-- The boundary stands at this module. -/
def stepping (x : BoundaryState) : State := { domained solo with boundaries := [boundary x 1] }

theorem witness_StepEvents :
    let r := regional solo
    let held := { r with regs := (r.setReg (vdReg 0 0x068) 1).regs }
    (domained solo).stepEn 0 = true ∧ (domained solo).isMember 0 1 = true ∧ (1 : Nat) ≠ (domained solo).module ∧
    r.regBit (regionReg 255 0) 63 = true ∧ r.regBits (regionReg 255 0) 38 16 * 65536 ≤ 0x10000 ∧
    0x10000 < (r.regBits (regionReg 255 0) 38 16 + r.regBits (regionReg 255 0) 15 0) * 65536 ∧
    (packet true 0x10000).spill = true ∧ (packet false 0x20000).line = 0x20000 ∧ solo.regBit (regionReg 255 0) 63 = false ∧
    (r.regions.find? fun x => x.2.1 ≤ 0x10000 && 0x10000 < x.2.2) = some (255, 0x10000, 0x20000) ∧
    r.committed (r.regionVd 255) < 1 ∧ r.stepFail (r.regionVd 255) = false ∧
    { r with regs := (r.setReg (vdReg 0 0x050) 0x2000000000000000).regs }.stepFail 0 = true ∧
    1 ≤ held.committed (held.regionVd 255) ∧
    (r.regions.find? fun x => x.2.1 ≤ 0x20000 && 0x20000 < x.2.2) = none ∧
    (∀ x ∈ [BoundaryState.collecting, .entered, .applying, .committed],
      ((stepping x).boundaryOf 0 1).state = x ∧ ((stepping x).boundaryOf 0 1).ends = [] ∧
      ((stepping x).boundaryOf 0 1).enterDone = false) ∧
    ((stepping .applying).boundaryOf 0 1).lost = false ∧ (stepping .applying).requests = [] ∧
    (let p := inStatus (stepping .committed) (.parked (.step 2))
     p.team.status = .parked (.step 2) ∧ p.team.vd = 0) := by decide +kernel

/-- A collective or exchange under way, alone at this module, with 64 bytes that land at 0x1000 and a counter at 0x100. -/
def coll (kind : CollKind) (x : CollPhase) : Coll :=
  ⟨7, kind, 0, 0, 0, 0, 0, 0, [0], 0, 64, List.replicate 64 1, 4, [16], none, 0, 0x1000, 64, 0, 0x200, 0, 0x100, 0, x, false, [0]⟩

/-- It is under way. -/
def colling (kind : CollKind) (x : CollPhase) : State := { plainOn solo with colls := [coll kind x] }

theorem witness_CollectiveEvents :
    (∀ x ∈ [CollPhase.joining, .asking, .running], findBy Coll.id (colling .allGather x).colls 7 = some (coll .allGather x) ∧
      (colling .allGather x).slotsUsed < 32 ∧ (coll .allGather x).left ≠ []) ∧
    (let other := { coll .allReduce .asking with id := 6 }
     let s := { colling .allReduce .joining with colls := List.replicate 32 { other with slot := true, phase := .running } ++
       [coll .allReduce .joining] }
     findBy Coll.id s.colls 7 = some (coll .allReduce .joining) ∧ ¬(s.slotsUsed < 32)) ∧
    (let s := colling .allGather .running
     let c := coll .allGather .running
     (c.segments.find? fun g => g.1 ≤ 0 && 0 < g.1 + g.2.1) = some (0, 64, some 0) ∧
     c.chunkBytes 0 64 (some 0) 0 [] = some (List.replicate 64 1) ∧ s.bankBusy 0 0x1000 64 = false ∧ s.counterQueued c = false ∧
     c.phase = .running ∧
     c.left.filter (· != 0) = [] ∧ c.kind ≠ .exchange ∧
     s.plainPoisoned 0 0x1000 64 = false ∧ s.plainPoisoned 0 0x100 16 = false ∧ plainKey 0 0x100 + 16 ≤ plainKey 0 0x1000 ∧
     s.watched = [] ∧ s.unwatched 0 0x100 = true) ∧
    (let s := colling .exchange .running
     findBy Coll.id s.colls 7 = some (coll .exchange .running) ∧ (coll .exchange .running).recvCounts = none ∧
     [16].length = (coll .exchange .running).members.length ∧
     [16].getD 0 0 = (coll .exchange .running).sendCounts.getD 0 0 ∧ s.bankBusy 0 0x200 8 = false ∧
     s.counterQueued (coll .exchange .running) = false ∧ 8 * 1 + 4 * 16 < 2 ^ 32 ∧
     s.plainPoisoned 0 0x200 8 = false ∧ plainKey 0 0x100 + 16 ≤ plainKey 0 0x200 ∧ s.ctrWord 0 0x100 3 = 0 ∧
     s.ctrWord 0 0x100 0 + 8 ≤ 0xFFFFFFFF) ∧
    (∀ e ∈ [true, false],
      let s := { leased 1 with millstones := [(0, ⟨some 1, [], [⟨true, 15, e⟩]⟩)] }
      (s.millstone 0).busy = [⟨true, 15, e⟩] ∧ (s.millstone 0).holder = some s.team.uid ∧ s.team.isVacant = false ∧
      s.team.mill = 0 ∧ (s.millstone 0).queue = []) := by decide +kernel

/-- Partition 0 has 64 slots a mill, 512 register rows a wheel and a window; virtual device 0 has 16 save rows and holds the slice; the
page at 0 of address space 1 is mapped. -/
def distributing : State :=
  sliced ((((plainOn (mapped solo)).setReg (partReg 0 0x008) 0x0200000000400000)).setReg (vdReg 0 0x080) 0x100000)

/-- A submission of that type, whose structures lie at byte 64 of the page, with a word at 0x10. -/
def submitted (type at' n : Nat) : Submitted := ⟨1, 0, leBytes 8 type ++ leBytes 8 at' ++ leBytes 8 n ++ List.replicate 104 0⟩

/-- Does the launch check answer a launch? -/
def launches (s : State) (x : Submitted) : Bool :=
  match (s.checkLaunch (s.room 0) x.asid x.bytes).2 with
  | .ok _ => true
  | .error _ => false

theorem witness_DistributorEvents_submission :
    let s := distributing
    let table := fun (s : State) => (s.distBytes 1 64 64).2.map (pieces 64 1)
    let bad := putPage s 64 [0, 0, 1]
    s.holdsSlice 0 = true ∧ ({ s with readQueue := [(0, submitted 0 64 0, s.room 0)] }.readQueue.find? fun e => e.1 == 0) =
      some (0, submitted 0 64 0, s.room 0) ∧
    s.readQueue = [] ∧ mapGet [] { s with deviceQueues := [(0, [submitted 0 64 0])] }.deviceQueues 0 = submitted 0 64 0 :: [] ∧
    (∀ x ∈ [submitted 0 64 0, submitted 1 64 1, submitted 2 2 0, submitted 2 0 0],
      x.bytes.length = 128 ∧ submissionBad x.bytes = false) ∧
    submissionBad (submitted 0 65 0).bytes = true ∧ (Submitted.mk 1 0 []).bytes.length ≠ 128 ∧
    launches s (submitted 0 64 0) = true ∧ launches s { submitted 0 64 0 with asid := 2 } = false ∧
    (s.distBytes 2 64 64).2 = none ∧
    ((table s).map fun t => t.any fun b => fieldAt b 2 6 != 0 || fieldAt b 0x30 16 != 0) = some false ∧
    ((table bad).map fun t => t.any fun b => fieldAt b 2 6 != 0 || fieldAt b 0x30 16 != 0) = some true ∧
    2 ≠ s.module ∧ ((peerUp s).anyRoute 2).isSome = true ∧ s.anyRoute 2 = none := by decide +kernel

theorem witness_DistributorEvents_queues :
    let s := distributing
    let fab := ((s.setReg (launchReg 4095 0) 0x8000000100000000).setReg (vdReg 0 0x070) 0x8000000000000000)
    let q := (s.setReg (lqReg 0 15 0x10) 0x100000010).setReg (lqReg 0 15 0) 0x8000000000000000
    let one := { q with tails := [(15, 1)] }
    (fab.reg (launchReg 4095 0)).getLsbD 63 = true ∧ wbits (fab.reg (launchReg 4095 0)) 43 32 = 1 ∧
    wbits (fab.reg (launchReg 4095 0)) 7 0 = 0 ∧ fab.regBit (vdReg 0 0x070) 63 = true ∧ (fab.window 0).1 = true ∧
    (s.reg (launchReg 4095 0)).getLsbD 63 = false ∧ q.regBit (lqReg 0 15 0) 63 = true ∧
    (leNat (q.hostRead (q.regBits (lqReg 0 15 0x08) 51 6 * 64) 4) + 2 ^ 32 - q.regBits (lqReg 0 15 0x18) 31 0) % 2 ^ 32 ≤
      q.regBits (lqReg 0 15 0x10) 15 0 ∧
    (let far := q.hostStore 0 [17]
     q.regBits (lqReg 0 15 0x10) 15 0 < leNat (far.hostRead 0 4)) ∧
    one.queueNext 0 = some (15, 1) ∧ mapGet [] one.deviceQueues 0 = [] ∧ one.holdsSlice 0 = true ∧ mapGet [] one.fabricQueue 15 = [] ∧
    { one with fabricQueue := [(15, [(0, submitted 0 64 0)])] }.queueNext 0 = some (15, 1) := by decide +kernel

/-- A graph of one copy node, at an address of address space 1. -/
def graph (asid : Nat) (work : Word) : Graph :=
  ⟨6, 0, asid, 0, 0, 0, [⟨true, .running, work, 0, 0, 0x100, [], kernel, 1, 1, 1, 1, 0, [], [], none, [], 0⟩], false⟩

/-- Has the claim of a copy node its pins? -/
def pinned : CopyWalk → Bool
  | .pins _ => true
  | _ => false

/-- Is the read a fault? -/
def faults : EngineOut → Bool
  | .fault _ _ => true
  | _ => false

theorem witness_DistributorEvents_copy :
    let s := described
    let g := graph 1 64
    ({ s with graphs := [g] }.node 6 0).isSome = true ∧ s.copyClaims = [] ∧ s.copyTouched = [] ∧
    (let w := { s with graphs := [g], copyClaims := [copyKey 6 0], copyTouched := [(copyKey 6 0, descOf descriptor)] }
     (w.node 6 0).isSome = true ∧ (w.copyTouched.find? fun x => x.1 == copyKey 6 0) = some (copyKey 6 0, descOf descriptor) ∧
     pinned (w.copyClaim g (descOf descriptor)).2 = true ∧
     faults (match (w.copyClaim (graph 2 64) { descOf descriptor with sspace := false }).2 with
       | .fault c r => .fault c r
       | _ => .data []) = true) ∧
    (g.nodes.all fun nd => nd.copy && nd.state == .running) = true ∧ (65 : Nat) % 64 ≠ 0 ∧
    faults (s.engineRead 0 2 64 64 .load false).2 = true ∧ (s.engineRead 0 1 64 64 .load false).2 = .data descriptor ∧
    descInvalid 0 descriptor = false ∧ descInvalid 0 (List.replicate 64 0) = true ∧ (descOf descriptor).dpeer = false ∧
    pinned (s.copyClaim g (descOf descriptor)).2 = true ∧
    (s.copyCounter g (g.nodes.getD 0 ⟨true, .running, 0, 0, 0, 0x100, [], kernel, 1, 1, 1, 1, 0, [], [], none, [], 0⟩)).toOption =
      some (0, 0x100) ∧ s.bankBusy 0 0x100 16 = false ∧
    (s.copyArm (descOf descriptor) 0 0x100).ctrWord 0 0x100 1 = 64 ∧
    pinned ((s.copyArm (descOf descriptor) 0 0x100).copyClaim g (descOf descriptor)).2 = true ∧
    faults (match (s.copyClaim (graph 2 64) { descOf descriptor with sspace := false }).2 with
      | .fault c r => .fault c r
      | _ => .data []) = true := by decide +kernel

theorem witness_DistributorEvents_placement :
    let s := distributing
    let x : Launchable := ⟨0, 7, 0, 1⟩
    let l := { s with launches := [launch], launchables := [x] }
    let d := { s with deques := [(511, [child])] }
    let p : Placement := ⟨511, [63], 0, [0]⟩
    (l.launchables.find? fun x => x.vd == 0) = some x ∧ l.launchOf x.launch = some launch ∧ l.holdsSlice 0 = true ∧
    l.liveDeque p.mill = [] ∧ l.placeOk 0 launch.kernel p = true ∧ d.liveDeque 511 = [child] ∧ d.holdsSlice child.vd = true ∧
    d.placeOk child.vd child.kernel p = true ∧ (d.liveDeque 511).getLast? = some child ∧ meshNeighbours 510 511 = true ∧
    d.sliceStopped 510 = false ∧ (d.room child.vd).fits child.kernel = true ∧ d.liveDeque 510 = [] := by decide +kernel

/-- Virtual device 0 runs, with the slice given. -/
def running (x : Slice) : State := { solo.setReg (vdReg 0 0x070) 0x8000000000000000 with slices := [(0, x)] }

theorem witness_DistributorEvents_slices :
    let idle := { running ⟨some 0, 1, true, 0⟩ with team := { solo.team with status := .preempted } }
    let stopped := { solo with slices := [(0, ⟨some 0, 1, false, 0⟩)] }
    (let done := { State.reset with slices := [(0, ⟨some 0, 1, false, 0⟩)] }
     (done.slice 0) = ⟨some 0, 1, false, 0⟩ ∧ (0 : Nat) / 8 = 0 ∧ done.hasWork 0 = false ∧ done.nextVd 0 (some 0) = none) ∧
    (solo.slice 31).vd = none ∧ ((running ⟨some 0, 2, false, 0⟩).slice 0) = ⟨some 0, 2, false, 0⟩ ∧
    (running ⟨some 0, 2, false, 0⟩).takesPart 0 = true ∧ (running ⟨some 0, 1, false, 0⟩).nextVd 0 (some 0) = some 0 ∧
    (let x := (running ⟨some 0, 2, false, 0⟩).slice 0
     let ends := x.since + 1000 * min 10000 (max 10 ((running x).regBits (vdReg 0 0x070) 13 0))
     ends = 10000 ∧ (running x).time < ends ∧ ends ≤ { running x with time := 10000 }.time) ∧
    stopped.takesPart 0 = false ∧ stopped.rest = [] ∧ stopped.team.vd = 0 ∧ stopped.team.status = .ready ∧
    stopped.team.fault = none ∧ (stopped.slice 0).vd = some 0 ∧
    (∀ y ∈ { stopped with team := idle.team }.teams, y.vd = 0 → y.resident = false) ∧
    (∀ y ∈ idle.teams, y.vd = 0 → y.resident = false) ∧ idle.takesPart 0 = true ∧ (idle.slice 0) = ⟨some 0, 1, true, 0⟩ ∧
    ({ idle with slices := [(0, ⟨some 0, 0, true, 0⟩)] }.slice 0).left = 0 := by decide +kernel

/-- Everything passes the start but what the argument says of the pass phrase stage. -/
def report (pass : Bool) : StartReport := ⟨false, true, true, 16, 5, true, [], [], pass, true, []⟩

theorem witness_ModuleEvents :
    solo.copyWaits = [] ∧ (∀ x ∈ [solo, solo.setReg bootrec 0x0200000000000000], ∀ lost ∈ [true, false],
      firstFailure { report false with powerLost := lost } = some 6 ∧ x.regBits bootrec 57 56 ≤ 2) ∧
    firstFailure (report true) = none ∧ firstFailure (report false) = some 6 ∧ solo.regBits bootrec 57 56 < 2 ∧
    2 ≤ (solo.setReg bootrec 0x0200000000000000).regBits bootrec 57 56 ∧ solo.boot ≠ .minimal ∧ solo.attesting = false ∧
    { solo with attesting := true }.attesting = true ∧ { solo with updating := true }.updating = true ∧
    solo.regBit 0x500000 63 = false ∧ solo.flows = [] ∧ solo.colls = [] ∧ solo.routesBy 15 = [] ∧
    (∀ x ∈ solo.teams, ∀ c ∈ x.claims, c.2.desc.dpeer = false) ∧ (List.replicate 32 (0 : Byte)).length = 32 := by decide +kernel

/-- An update of image 0. -/
def updated : State := { solo with updatedImages := [⟨0, 1, 2, 3⟩] }

theorem witness_ModuleEvents_images :
    0 < imageCount ∧ (updated.updatedImages.find? (·.image == 0)) = some ⟨0, 1, 2, 3⟩ ∧ (updated.imageRecord 1).isNone = true :=
  ⟨Nat.succ_pos _, by decide, by decide⟩

/-- R384: an image's own versions. -/
theorem test_image_entry : updated.imageSecurityOf 0 = 2 ∧ updated.imageNumberOf 0 = 3 := by decide

/-- What a turn of the wheel brings: whether a team is chosen that nothing holds, and the word it fetches. -/
def turn (s : State) : Option (Nat × Nat) :=
  match s.tick.settled.agenda with
  | .issue m w :: rest =>
    let a := { s.tick.settled with agenda := rest }
    match a.chosen m w with
    | none => none
    | some t =>
      match (a.age t).focus t.uid with
      | none => none
      | some s2 =>
        if s2.holding s2.team.uid then none
        else
          match (s2.fetch s2.team.pc).2 with
          | .word n bits => some (n, bits)
          | .fault c _ _ => some (0, c)
  | _ => none

/-- Does the instruction that a turn of the wheel brings wait at issue, the team chosen being the only one that is READY there? -/
def turnWaits (s : State) : Option Bool :=
  match s.tick.settled.agenda with
  | .issue m w :: rest =>
    let a := { s.tick.settled with agenda := rest }
    match a.chosen m w with
    | none => none
    | some t =>
      match (a.age t).focus t.uid with
      | none => none
      | some s2 =>
        match s2.fetch s2.team.pc with
        | (s3, .word n bits) =>
          match decodeWord n bits with
          | .ok i => if a.teams.all fun x => !x.readyOn m w || x.uid == t.uid then some (s3.waited i (exec i s3)) else none
          | .error _ => none
        | _ => none
  | _ => none

theorem witness_StepRunsDecoded :
    turn (State.reset.withFetchWord 32 0x231) = some (32, 0x231) ∧ (decodeWord 32 0x231).toOption = some .nop ∧
    turn (State.reset.withFetchWord 16 0b0000010001000000) = some (16, 0b0000010001000000) ∧
    turn (State.reset.withFetchWord 32 0x3F) = some (32, 0x3F) ∧ (decodeWord 32 0x3F).toOption = none ∧
    turn { solo with agenda := [.issue 0 0] } = some (0, 0x08) ∧
    turnWaits (State.reset.withFetchWord 32 0x231) = some false ∧
    (let s := State.reset.withFetchWord 32 0x00000E3D
     turnWaits { s with accesses := [{ access 3 [] with team := s.team.uid }] } = some true) ∧
    (let s := solo.mapTeam fun t => { t with closure := [captured] }
     s.closureTurn 1 = true ∧ { s with agenda := [.event (.closureRun 1)] }.tick.settled.agenda = [.event (.closureRun 1)]) ∧
    { solo with agenda := [.event .scrubBlock] }.tick.settled.agenda = .event .scrubBlock :: [] ∧
    encode .scrubBlock = none ∧ (encode .nop).isSome = true ∧
    (let s := solo.mapTeam fun t => { t with status := .draining none, closure := [captured] }
     { s with rest := [{ (State.reset.withFetchWord 32 0x231).team with uid := 2, pc := 64, age := 9 }] }.closureTurn 1 = false) := by
  decide +kernel

theorem witness_DecodeEncode :
    (Instr.mma 15 31 31 4 63).wellFormed = true ∧ (encode (.mma 15 31 31 4 63)).isSome = true ∧
    0x231 < 2 ^ 32 ∧ (decodeWord 32 0x231).toOption = some .nop := by decide +kernel

/-- Has the step a next state? -/
def isNext : Host.Outcome State Fault Refusal → Bool
  | .next _ => true
  | _ => false

theorem witness_MemoryWfKept :
    (State.reset.withFetchWord 32 0x231).memoryWf = true ∧ isNext (step (State.reset.withFetchWord 32 0x231)) = true := by decide +kernel

/-! ### Waits, and the turns that are no opcode -/

/-- A store of the team to its own slice has not entered its bank queue. -/
def storing (s : State) : State := { s with requests := [request (.plain 0 64) writing .egress], accesses := [access 4 []] }

/-- An acquire of the team is under way. -/
def acquires (s : State) : State := { s with accesses := [{ access 4 [] with acquire := true }] }

theorem witness_Waits :
    (∀ s ∈ [storing (grouped solo), acquires (grouped solo)], s.team.arrival = none ∧ s.wgOf s.team.wg = some group ∧
      group.donations = [] ∧ s.issuesAlone .barArrive false [] [] = true ∧ s.issuesAlone .barSync false [] [] = true ∧
      s.issuesAlone .grdy false [] [] = true ∧ (s.acquiring s.team.uid = true ∨ s.performedAll s.team.uid false = false) ∧
      (s.acquiring s.team.uid = true ∨ s.groupPerformed s.team = false)) ∧
    (grouped solo).acquiring 1 = false ∧ (∀ r ∈ [true, false], (staged r).acquiring 1 = false) ∧
    (∀ s ∈ [storing (withU described [(0, 128)]), acquires (withU described [(0, 128)])],
      s.issuesAlone (.gsubmit 63 0) false [.u 0] [.u 63] = true ∧ (s.acquiring s.team.uid = true ∨
        ((s.team.u 0).toNat % 128 = 0 ∧ s.performedAll s.team.uid true = false))) ∧
    (∀ c ∈ [(0 : BitVec 2), 1, 2, 3], (storing solo).issuesAlone (.fence c) false [] [] = true ∧
      (storing solo).accessesOf (storing solo).team.uid ≠ [] ∧ (storing solo).performedAll (storing solo).team.uid (2 ≤ c.toNat) = false) ∧
    (acquires solo).issuesAlone (.pref 63 127) false [] [.u 63, .v 127] = true ∧ (acquires solo).acquiring 1 = true := by decide +kernel

/-- A leaf of the page at 0 of address space 1, readable. -/
def leafEntry : TlbEntry := ⟨1, 0, 65536, 0x50000, 2, 0, true, true, true, false, false, false, false, true, 0, 0⟩

theorem witness_FencesAndCaches_kept :
    let s := { solo with laneTlb := [(0, [leafEntry, { leafEntry with r := false }])], laneCache := [(0, [⟨false, 0x50040, 0, false, []⟩])] }
    s.issuesAlone (.pref 63 127) false [] [.u 63, .v 127] = true ∧ s.acquiring 1 = false ∧ leafEntry ∈ s.tlb (.lane 0) ∧
    leafEntry.refuses .load s.team.sup = none ∧ { leafEntry with r := false }.refuses .load s.team.sup ≠ none ∧
    mapGet [] s.laneCache 0 ≠ [] := by decide +kernel

theorem witness_Halt_others :
    let s := { boss with rest := [{ solo.team with uid := 5, slot := 1 }, { solo.team with uid := 6, slot := 2, vd := 1 }] }
    s.issuesAlone .halt true [] [] = true ∧ (∀ x ∈ s.rest, x.uid ≠ s.team.uid) ∧ s.team.fault = none ∧
    (s.teams.map (·.uid)).Nodup ∧ (∃ x ∈ s.rest, x.vd = s.team.vd ∧ x.resident = true) := by decide +kernel

theorem witness_TeamEvents_traps :
    let p := inStatus (placed []) .preempted
    let x : TakenTrap := ⟨⟨0x1B, 5, some 3, 0, false, false, 0x400⟩, false⟩
    p.team.pendingTrap = none ∧ (p.mapTeam fun t => { t with pendingTrap := some x }).team.pendingTrap.isSome = true ∧
    (511 : Nat) ≠ p.team.mill ∧ (plainOn boss).team.shelvedTrap = none ∧ (plainOn boss).team.pendingTrap = none := by decide +kernel

theorem witness_MemoryEvents_acquire :
    let s := requested (.plain 0 64) reading (.served [1, 2, 3, 4, 5, 6, 7, 8])
    let a := { access 4 [.u 5] with empties := true }
    let s := { s with accesses := [a] }
    (∃ r ∈ s.requests, findBy Req.id s.requests r.id = some r ∧ findBy Access.id s.accesses r.access = some a ∧
      r.stage = .served [1, 2, 3, 4, 5, 6, 7, 8]) ∧ a.poisoned = [] ∧ a.deferred = false ∧ a.guest = none ∧ a.empties = true ∧ a.left ≤ 1 ∧
    a.team = s.team.uid ∧ s.team.isVacant = false ∧ (access 4 []).empties = false ∧ solo.stalledJobs = [] := by decide +kernel

theorem witness_Turns_upsets :
    solo.focus 1 = some solo ∧ solo.team.lanes ≤ 1024 ∧ (127 : Nat) < solo.team.regs ∧ 2 * 15 < solo.team.lanes ∧
    64 * 0 < solo.team.lanes ∧ solo.calmPlain 511 262143 = true ∧
    (requested (.plain 0 64) reading .egress).calmPlain 0 8 = false ∧
    (let sealed := { solo with basinSeal := [(0x50040, 0)] }
     sealed.readsCells 0x50040 0 = true ∧ sealed.stalls false 0x50040 = false) ∧ solo.hostSealOf 64 = none ∧
    (64 : Nat) % 64 + [(1 : Byte), 2].length ≤ 64 := by decide +kernel

/-- Two lines of the lane cache of mill 0, of which the first is kept. -/
def cachedLines : State := { solo with laneCache := [(0, [⟨false, 0x40, 0, true, []⟩, ⟨false, 0x40, 1, false, []⟩])] }

theorem witness_Turns_replaceLine :
    let s := cachedLines
    let kept : CacheLine := ⟨false, 0x40, 0, true, []⟩
    let loose : CacheLine := ⟨false, 0x40, 1, false, []⟩
    s.laneLine 0 false 0x40 0 = some kept ∧ s.laneLine 0 false 0x40 1 = some loose ∧ loose.keep = false := by decide +kernel

/-- Lines of one line address are of one set. -/
theorem witness_Turns_replaceLine_set :
    (⟨false, 0x40, 1, false, []⟩ : CacheLine) ∈ cachedLines.setLines 0 false 0x40 ∧
    (⟨false, 0x40, 0, true, []⟩ : CacheLine) ∈ cachedLines.setLines 0 false 0x40 := by
  simp [cachedLines, State.setLines, mapGet]

/-- A walk of a prefetch of the page that `mapped` maps, its A clear, under an invalidation of that page. -/
def swapping : State :=
  { (mapped solo).putEntry 0x42000 0x5000F 0 with
    walks := [⟨3, 0, 1, 64, 1, 0, true⟩], invalidations := [⟨8, .host 0, .page 1 0, [], [], [], 0⟩] }

/-- Has the turn a next state? -/
def goesOn : Out → Bool
  | .next _ => true
  | _ => false

theorem witness_Turns_walkSwap : goesOn (swapping.runTurn (.walkSwap 0 1 64 .load false)) = true := by decide +kernel

/-- The same of an execute-only page, with the team's next instruction there and no walk of a prefetch. -/
def fetching : State :=
  { (swapping.putEntry 0x42000 0x50009 0).mapTeam fun t => { t with pc := 64 } with walks := [] }

/-- R73: the swap of a fetch. -/
theorem test_walk_swap_fetch :
    goesOn (fetching.runTurn (.walkSwap 0 1 64 .fetch false)) = true ∧
    goesOn (fetching.runTurn (.walkSwap 0 1 64 .load false)) = false := by decide +kernel

theorem witness_Turns_peerChunk :
    let s := (plainOn solo).setReg (permitReg 4095) 0x8000000000000000
    (s.reg (permitReg 4095)).getLsbD 63 = true ∧ (solo.reg (permitReg 4095)).getLsbD 63 = false ∧ wbits (s.reg (permitReg 4095)) 15 8 / 8 = 0 ∧
    (s.plainPhys 0x1000 2 0 1).toOption = some (0, 0x1000) ∧ s.plainPoisoned 0 0x1000 2 = false ∧ s.watched = [] ∧
    (s.counterPhys 0x100 0).toOption = some (0, 0x100) ∧ s.plainPoisoned 0 0x100 16 = false ∧ s.unwatched 0 0x100 = true ∧
    s.bankBusy 0 0x1000 2 = false ∧ s.bankBusy 0 0x100 16 = false ∧ plainKey 0 0x100 + 16 ≤ plainKey 0 0x1000 := by decide +kernel

/-- A claim held at module 2 over the route 5, with the alternate given. -/
def heldOver (y : Option Word) : State :=
  (peerUp claimed).mapTeam fun t => t.setClaim 15 { t.claim 15 with
    desc := { (t.claim 15).desc with dpeer := true, pmod := 2 }, route := some 5, alternate := y }

theorem witness_Turns_routeLost :
    (heldOver none).flows = [] ∧ ((heldOver none).team.claim 15).toPeer 2 = true ∧
    ((heldOver none).team.claim 15).state = .held ∧ ((heldOver none).team.claim 15).route = some 5 ∧
    ((heldOver none).team.claim 15).alternate = none ∧ ((heldOver none).team.claim 14).toPeer 2 = false := by decide +kernel

theorem witness_Turns_routeLost_alternate :
    (heldOver (some 6)).flows = [] ∧ ((heldOver (some 6)).team.claim 15).toPeer 2 = true ∧
    ((heldOver (some 6)).team.claim 15).state = .held ∧ ((heldOver (some 6)).team.claim 15).route = some 5 ∧
    ((heldOver (some 6)).team.claim 15).alternate = some 6 ∧ wbits (6 : Word) 34 0 ≠ wbits (5 : Word) 34 0 := by decide +kernel

theorem witness_Turns_routeLost_live :
    ((heldOver none).liveRoute 2 true).map (fun w => wbits w 34 0) = some 1 ∧
    ((heldOver none).liveRoute 2 false).map (fun w => wbits w 34 0) = some 0 ∧ wbits (5 : Word) 34 0 = 5 := by decide +kernel

theorem witness_Turns_members :
    let s := domained solo
    let peer := requested (.peer 1 0x10000 1) reading .egress
    s.stepEn 0 = true ∧ s.stepFail 0 = false ∧ s.requests = [] ∧ (∀ b ∈ s.boundaries, b.vd = 0 → b.state ≠ .applying) ∧
    (∀ x ∈ s.teams, x.status = .ready) ∧ (stepping .applying).stepEn 0 = true ∧ (stepping .applying).stepFail 0 = false ∧
    (∃ b ∈ (stepping .applying).boundaries, b.vd = 0 ∧ b.state = .applying) ∧
    (∃ r ∈ peer.requests, findBy Req.id peer.requests r.id = some r ∧ r.op.reads = true ∧ ∃ a ∈ peer.accesses, a.id = r.access) ∧
    peer.module ≠ 1 ∧ writing.reads = false := by decide +kernel

/-- A spilled packet stalls at the millpond when the line of its place there is under rebuild. -/
theorem pond_stalls (s : State) (e : StepEntry) :
    let t := { s with rebuilding := [(s.pondNext e / 64 * 64, 0)] }
    t.stalls false (t.pondNext e) = true := by
  intro t
  have h : t.pondNext e = s.pondNext e := rfl
  simp [State.stalls, h, t]

theorem witness_StepEvents_waits :
    let r := regional solo
    let e := packet true 0x10000
    let stalled := { r with rebuilding := [(r.pondNext e / 64 * 64, 0)] }
    let held := { r with rebuilding := [(0x10000, 0)] }
    let filled := { stepping .applying with millpond := [⟨0, 1, 0x30000⟩], rebuilding := [(0x30000, 0)] }
    e.spill = true ∧ stalled.regBit (regionReg 255 0) 63 = true ∧ stalled.stalls false (stalled.pondNext e) = true ∧
    r.stalls false (r.pondNext e) = false ∧ r.stalls false (r.pondNext e + 64) = false ∧
    (held.regions.find? fun x => x.2.1 ≤ 0x10000 && 0x10000 < x.2.2) = some (255, 0x10000, 0x20000) ∧ held.stalls false 0x10000 = true ∧
    0 ≤ held.committed (held.regionVd 255) ∧ (filled.boundaryOf 0 1).state = .applying ∧ filled.commitStalls 0 1 = true ∧
    (stepping .applying).commitStalls 0 1 = false :=
  ⟨by decide +kernel, by decide +kernel, pond_stalls _ _, by decide +kernel⟩

theorem witness_CollectiveEvents_order :
    let other := { coll .allReduce .asking with id := 6, vd := 0 }
    let granted := { other with slot := true, phase := .running }
    let s := { colling .allReduce .joining with
      slotPointer := 255
      colls := List.replicate 31 granted ++ [other, { coll .allReduce .joining with vd := 1 }] }
    let c := { coll .allReduce .joining with vd := 1 }
    findBy Coll.id s.colls c.id = some c ∧ c.left ≠ [] ∧ s.slotsUsed = 31 ∧ s.slotKey 0 < s.slotKey 1 ∧
    32 ≤ s.slotsUsed + (s.colls.filter fun x => x.phase == .asking && x.id != c.id && decide (s.slotKey x.vd < s.slotKey c.vd)).length := by
  decide +kernel

theorem witness_Distributor_stalls :
    let s := distributing
    s.distStall = false ∧ (s.distRead 1 64 128).1.distStall = false ∧ (s.distBytes 1 64 64).1.distStall = false ∧
    ((s.checkLaunch (s.room 0) 1 (submitted 0 64 0).bytes).1.distStall = false) := by decide +kernel

theorem witness_HostCommands_odd :
    let s := (inStatus (started (mapped solo)) (.parked .fault)).mapTeam fun t =>
      { t with fault := some ⟨⟨⟨0x1B, 5, some 3, 0, false, false, 1⟩, false⟩, 0, some 7⟩ }
    (s.team.fault.map fun r => r.taken.trap.epc.getLsbD 0) = some true ∧ (s.team.fault.map fun r => r.taken.deferred) = some false ∧
    s.team.pendingTrap = none ∧ s.team.heldTrap = none ∧ (faulted false).team.pendingTrap = none ∧
    ((faulted false).team.fault.map fun r => r.taken.trap.epc.getLsbD 0) = some false := by decide +kernel

theorem witness_StepRunsDecoded_closure :
    let s := State.reset.withFetchWord 32 0x00000E3D
    let w := { s with accesses := [{ access 3 [] with team := s.team.uid }] }
    let m := w.mapTeam fun t => { t with closure := [captured] }
    (w.closureIssues w.team.uid).isNone = true ∧ (m.closureIssues m.team.uid).isSome = true := by decide +kernel

/-! ## Single steps, whose results the rules give -/

/-- The state after an instruction, or the state before it where it has no next state. -/
def run (i : Instr) (s : State) : State :=
  match exec i s with
  | .next t => t
  | _ => s

/-- Uniform register 3 after an instruction on registers 1 and 2. -/
def uniform (i : Instr) (a b : Word) : Word := (run i (withU solo [(1, a), (2, b)])).team.u 3

/-- R199, R232: a quotient for a divisor of 0 and for the signed overflow; the remainders there. -/
theorem test_uniform_division :
    uniform (.sdiv 3 1 2) 7 0 = 0xFFFFFFFFFFFFFFFF ∧ uniform (.srem 3 1 2) 7 0 = 7 ∧
    uniform (.sdiv 3 1 2) 0x8000000000000000 0xFFFFFFFFFFFFFFFF = 0x8000000000000000 ∧
    uniform (.srem 3 1 2) 0x8000000000000000 0xFFFFFFFFFFFFFFFF = 0 ∧
    uniform (.sdiv 3 1 2) 0xFFFFFFFFFFFFFFF9 2 = 0xFFFFFFFFFFFFFFFD ∧ uniform (.srem 3 1 2) 0xFFFFFFFFFFFFFFF9 2 = 0xFFFFFFFFFFFFFFFF ∧
    (run (.sdiv 3 1 2) (withU solo [(1, 7)])).team.flags = 0x20 := by decide +kernel

/-- R232, R233, R234: signed and unsigned high products, shifts, immediates. -/
theorem test_uniform_arithmetic :
    uniform (.smulh 3 1 2) 0xFFFFFFFFFFFFFFFF 1 = 0xFFFFFFFFFFFFFFFF ∧ uniform (.smulhu 3 1 2) 0xFFFFFFFFFFFFFFFF 2 = 1 ∧
    uniform (.ssar 3 1 2) 0x8000000000000000 65 = 0xC000000000000000 ∧ uniform (.saddi 3 1 0xFFF) 5 0 = 4 ∧
    uniform (.sandi 3 1 0xFFF) 0xFFFFFFFFFFFFFFFF 0 = 0xFFF ∧ uniform (.slui 3 0x20000) 0 0 = 0xFFFFFFFF80000000 ∧
    uniform (.sclz 3 1) 0 0 = 64 := by decide +kernel

/-- Lane 0 of vector register 3 after an instruction on registers 1 and 2. -/
def lane (i : Instr) (a b : Lane) : Lane := (run i (withV (withV solo 1 a 0) 2 b 0)).team.v 3 0

/-- R198, R257 to R260: halves that wrap, high products, bit fields. -/
theorem test_lane_integer :
    lane (.vadd 3 1 2 1) 0xFFFF0001 0x00010001 = 0x00000002 ∧ lane (.vmulHi 3 1 2) 0xFFFFFFFF 1 = 0xFFFFFFFF ∧
    lane (.vdiv 3 1 2) 0x80000000 0xFFFFFFFF = 0x80000000 ∧ lane (.vabs 3 1) 0x80000000 0 = 0x80000000 ∧
    lane (.vbfx 3 1 2) 0xABCD1234 0x0808 = 0x12 ∧ lane (.vffs 3 1) 0 0 = 32 := by decide +kernel

/-- R196, R261 to R267: a sum of the manual's example, the default NaN, directed rounding, a division by 0, conversions at their ends. -/
theorem test_lane_float :
    lane (.fadd 3 1 2 0) 0x41F80000 0x41F80000 = 0x42780000 ∧ lane (.fadd 3 1 2 0) 0x7F800000 0xFF800000 = 0x7FC00000 ∧
    lane (.fmul 3 1 2 0) 0x3F000000 0x41F80000 = 0x41780000 ∧ lane (.fdiv 3 1 2 0) 0x3F800000 0x80000000 = 0xFF800000 ∧
    lane (.fsqrt 3 1 0) 0x40800000 0 = 0x40000000 ∧ lane (.cvt 3 1 3 0 0) 0x7F800000 0 = 0x7FFFFFFF ∧
    lane (.cvt 3 1 4 0 0) 0xBF800000 0 = 0 ∧ lane (.cvt 3 1 3 0 0) 0x7FC00000 0 = 0 := by decide +kernel

/-- R272 to R277: the other lane of a pair, the sum of the active lanes, and a scan. -/
theorem test_cross_lane :
    let s := withV (withV solo 1 5 7) 2 1 1
    (run (.shflXor 3 1 2) s).team.v 3 0 = 7 ∧ (run (.vred 3 1 0) s).team.v 3 1 = 12 ∧ (run (.vscan 3 1 0) s).team.v 3 0 = 5 ∧
    (run (.matchBits 3 1 0) s).team.v 3 0 = 1 ∧ (run (.shflDown 3 1 2) s).team.v 3 1 = 0 := by decide +kernel

/-- R259: a comparison writes the predicate in the active lanes only. -/
theorem test_predicate :
    let s := (withV (withV solo 1 0xFFFFFFFF 3) 2 1 1).mapTeam fun t => { t with preds := [(4, 0xF0)] }
    (run (.vcmp 4 1 2 2) s).team.p 4 = 0xF1 := by decide +kernel

/-- R217: a compact instruction moves the pc by two. -/
theorem test_compact : (run (.vaddC 2 1) (withV solo 1 5 7)).team.pc = 2 ∧ (run (.vaddC 2 1) (withV solo 1 5 7)).team.v 2 1 = 7 := by
  decide +kernel

/-- R239 to R242: targets in units of two bytes from the instruction, and the link register. -/
theorem test_control :
    let s := solo.mapTeam fun t => { t with pc := 0x100 }
    (run (.bra 0xFFFFFC) s).team.pc = 0xF8 ∧ (run (.call 16) s).team.pc = 0x120 ∧ (run (.call 16) s).team.u 63 = 0x104 ∧
    (run (.bsz 0 4) s).team.pc = 0x108 ∧ (run (.bsnz 0 4) s).team.pc = 0x104 := by decide +kernel

/-- R244: IFP narrows the mask, ELSE takes the other lanes, ENDIF restores it. -/
theorem test_masks :
    let s := solo.mapTeam fun t => { t with preds := [(1, 1)] }
    (run (.ifp 1) s).team.mask = 1 ∧ (run .maskElse (run (.ifp 1) s)).team.mask = 2 ∧
    (run .endif (run (.ifp 1) s)).team.mask = 3 ∧ (run .endif (run (.ifp 1) s)).team.stack = [] := by decide +kernel

/-- R253: MODESET ors its immediate into the enables; R236: SSETS leaves reserved bits. -/
theorem test_modes :
    (run (.modeset 0x20 2) solo).team.mode = 0x1002 ∧ (run (.ssets 0 1) (withU solo [(0, 0xFFFF)])).team.flags = 0x3F := by
  decide +kernel

/-- R97, R98: an add that overflows saturates ARRIVED and sets OVF. -/
theorem test_counter_saturates :
    let s := withU ((counting 4).setCtrWord 0 0x100 0 0xFFFFFFFF) [(2, 1)]
    (run (.acadd 1 2) s).ctrWord 0 0x100 0 = 0xFFFFFFFF ∧ (run (.acadd 1 2) s).ctrWord 0 0x100 2 = 1 := by decide +kernel

/-- R96: the slot word of a HELD claim of 64 bytes. -/
theorem test_clstat : wbits ((run (.clstat 63 15) claimed).team.u 63) 63 32 = 64 := by decide +kernel

/-- R291: an atomic answers what its location held and writes the sum. -/
theorem test_atomic :
    let s := { requested (.plain 0 64) (.atomic .add 3 0 true 0 0) .queued with plain := [(64, 5)] }
    let t := run (.bankServe 0 17 .ok) s
    t.plainRead 0 64 8 = leBytes 8 8 ∧ (t.requests.map (·.stage)) = [.served (leBytes 8 5)] := by decide +kernel

/-- R235, R13: a store reaches the Plain only when its bank serves it. -/
theorem test_store :
    let t := run (.sst 2 0 0 1 2) (withU addressed [(2, 0x11223344)])
    t.plain = [] ∧ (run (.bankServe 0 16 .ok) (run (.memoryRequestComplete ((t.requests.map (·.id)).headD 0) .ok) t)).plainRead 0 64 4 =
      [0x44, 0x33, 0x22, 0x11] := by decide +kernel

/-- R207, R208: one element of a product of BF16 tiles, 1 by 1. -/
theorem test_mma :
    let s := (leased 1).mapTeam fun t => t.setV 0 ((List.range 32).map fun l => (l, 0x11))
    let s := (s.setTshape 0 0 (Shape.word ⟨1, 1, 1⟩)).setTshape 0 1 (Shape.word ⟨1, 1, 1⟩)
    let s := (s.tileWrite 0 0 [0x00, 0x40]).tileWrite 1 0 [0x40, 0x40]
    (run (.mma 15 0 1 0 0) s).acc 15 0 0 = 0x40C00000 ∧ (run (.mma 15 0 1 0 0) s).team.leaseRemain = 0 := by decide +kernel

/-- R332, R348, R349: TRAP enters the handler at HVEC with DONE and its code, `%epc` naming it. -/
theorem test_trap :
    let t := run (.trap 5) (handling.mapTeam fun t => { t with pc := 0x40 })
    t.team.pc = 0x10000 ∧ t.team.epc = 0x40 ∧ t.team.cause = 0x9B ∧ t.team.tval = 5 ∧ t.team.level = .supervisor := by decide +kernel

/-- R346, R213: a privileged instruction at user level goes to the fault queue with cause 0x02. -/
theorem test_privileged :
    (run .halt solo).team.status = .parked .fault ∧ ((run .halt solo).team.fault.map fun f => f.taken.trap.code) = some 0x02 := by
  decide +kernel

/-- R240: an odd target raises misaligned access with the link register unwritten. -/
theorem test_jump_misaligned :
    let t := run (.jmpl 63 0 0) (withU solo [(0, 1)])
    t.team.u 63 = 0 ∧ (t.team.fault.map fun f => f.taken.trap.code) = some 0x06 := by decide +kernel

/-- R328: KEYLD takes the material from the Plain and zeroes it there. -/
theorem test_keyld :
    let t := run (.keyld 5 6) (keyed.plainPut 0 64 (List.replicate 64 0xAA))
    t.keyState 0xFFFF = 1 ∧ t.plain = [] := by decide +kernel

/-- R18, R19: a window that would reach beyond the slice is refused, with REF set. -/
theorem test_window_refused :
    (run (.pwinWrite 0 0x82000001) solo).window 0 = (false, 1, 512) ∧
    (run (.pwinWrite 0 0x82000001) solo).regBit (partReg 0 0) 30 = true ∧ (run (.pwinWrite 0 0x80200000) solo).window 0 = (true, 0, 32) := by
  decide +kernel

/-- R34: a swath of which no request is left at the wheel port holds it no longer. -/
theorem test_port_freed :
    { requested (.plain 0 64) writing .egress with ports := [(0, ⟨0, some (9, 9)⟩)] }.presented 0 = some (4, 0) := by decide +kernel

/-- R105: an engine's access waits behind a store that another team of the mill has presented. -/
theorem test_engine_behind_mill :
    { solo with requests := [{ request (.plain 9 64) writing .egress with team := 9 }] }.plainBusy 9 68 4 = true ∧
    { solo with requests := [{ request (.plain 9 64) writing .egress with team := 9 }] }.plainBusy 9 72 4 = false := by decide +kernel

/-- R107: what ends a counter waits for the store to it that its bank has queued. -/
theorem test_sever_waits :
    let s := { solo with requests := [request (.plain 0 0x100) writing .queued] }.doJobs [.sever 0 0x100 4]
    s.stalledJobs = [.sever 0 0x100 4] ∧ s.ctrWord 0 0x100 2 = 0 ∧ { s with requests := [] }.resumeJobs.ctrWord 0 0x100 2 = 0x44 ∧
    { s with requests := [] }.resumeJobs.stalledJobs = [] := by decide +kernel

/-- R208: an integer term of zero has no sign, whatever the rounding mode. -/
theorem test_integer_zero_term :
    (mmaFloat 2 4 (.num true 0 0) [intVal (mmaIntTerm 2 (1, -1))]).1 = 0 := by decide

end Sys2Proof.Tests
end

section
/-! SUPPORT. A counted chunk of another module in a state that carries the note of a stall: the chunk and its count land, but what
follows from the count is put by with the jobs that wait. -/

namespace Sys2Proof.Machine

/-! ## What a write of the Plain can change -/

/-- The state differs in the Plain alone: its bytes, its poison and the count of discarded writes. -/
def PlainOnly (s t : State) : Prop :=
  t = { s with plain := t.plain, plainPoison := t.plainPoison, poisonedWrites := t.poisonedWrites }

theorem PlainOnly.refl (s : State) : PlainOnly s s := rfl

theorem PlainOnly.trans {s t u : State} (h : PlainOnly s t) (k : PlainOnly t u) : PlainOnly s u := by
  unfold PlainOnly at *
  rw [h] at k
  exact k

theorem PlainOnly.distStall {s t : State} (h : PlainOnly s t) : t.distStall = s.distStall := by rw [h]

theorem PlainOnly.stalledJobs {s t : State} (h : PlainOnly s t) : t.stalledJobs = s.stalledJobs := by rw [h]

theorem State.plainPiece_only (s : State) (slice off : Nat) (bs : List Byte) : PlainOnly s (s.plainPiece slice off bs) := by
  unfold State.plainPiece
  split
  · split <;> exact rfl
  · exact rfl

theorem State.plainPieces_only (slice : Nat) : ∀ (ps : List (Nat × List Byte)) (s : State),
    PlainOnly s (ps.foldl (fun s p => s.plainPiece slice p.1 p.2) s)
  | [], s => PlainOnly.refl s
  | p :: ps, s => (s.plainPiece_only slice p.1 p.2).trans (State.plainPieces_only slice ps _)

theorem State.plainWrite_only (s : State) (slice off : Nat) (bs : List Byte) : PlainOnly s (s.plainWrite slice off bs) := by
  unfold State.plainWrite
  split
  · exact State.plainPieces_only slice _ s
  · exact rfl

theorem State.setCtrWord_only (s : State) (slice off w v : Nat) : PlainOnly s (s.setCtrWord slice off w v) :=
  s.plainWrite_only slice _ _

/-- An add to a counter writes the words of the counter and nothing else (R97). -/
theorem State.ctrAdd_only (s : State) (slice off n : Nat) : PlainOnly s (s.ctrAdd slice off n) := by
  have h := s.setCtrWord_only slice off 0 (min (s.ctrWord slice off 0 + n) 0xFFFFFFFF)
  simp only [State.ctrAdd]
  split
  · exact h.trans (State.setCtrWord_only _ slice off 2 _)
  · exact h

/-! ## An add to a counter under the note of a stall -/

theorem State.dropLaneCaches_distStall : ∀ (mills : List Nat) (s : State),
    (mills.foldl State.dropLaneCache s).distStall = s.distStall
  | [], _ => rfl
  | m :: ms, s => State.dropLaneCaches_distStall ms (s.dropLaneCache m)

/-- The release of waiters leaves the note of a stall as it stands. -/
theorem State.releaseWaiters_distStall (s : State) (slice off : Nat) :
    (s.releaseWaiters slice off).distStall = s.distStall := by
  unfold State.releaseWaiters
  split
  · exact State.dropLaneCaches_distStall _ s
  · rfl

theorem State.doJobs_nil (s : State) : s.doJobs [] = s := rfl

/-- Under the note of a stall the event on a counter is put by, whatever waits on the counter. -/
theorem State.doJobs_counter_noted {s : State} (h : s.distStall = true) (slice off : Nat) :
    s.doJobs [.counter slice off] = { s with stalledJobs := s.stalledJobs ++ [.counter slice off] } := by
  have noted : (s.tryJob (.counter slice off)).1.distStall = true := (s.releaseWaiters_distStall slice off).trans h
  obtain ⟨-, run⟩ | ⟨clear, -⟩ := s.runJob_cases (.counter slice off)
  · show (let r := s.runJob (.counter slice off); State.runJobs 0xFFFFFFFFFFFFFFFF (r.2 ++ []) r.1) = _
    rw [run]
    rfl
  · rw [noted] at clear
    cases clear

theorem State.addCounter_noted {s : State} (h : s.distStall = true) (slice off n : Nat) :
    (s.addCounter slice off n).stalledJobs = s.stalledJobs ++ [.counter slice off] := by
  have only := s.ctrAdd_only slice off n
  rw [State.addCounter, State.doJobs_counter_noted (only.distStall.trans h), ← only.stalledJobs]

/-! ## A counted chunk (R91, R93) -/

/-- With nothing waiting on a counter, an engine's store where no poison lies writes its bytes and nothing follows. -/
theorem State.plainStore_unwatched {s : State} {slice off : Nat} {bs : List Byte} (hw : s.watched = [])
    (hp : s.plainPoisoned slice off bs.length = false) : s.plainStore slice off bs = s.plainPut slice off bs := by
  have write : s.plainWrite slice off bs = s.plainPut slice off bs := by simp [State.plainWrite, hp]
  have idle : (s.plainPut slice off bs).watched = [] := hw
  simp [State.plainStore, write, State.afterPlain, idle, State.doJobs_nil]

/-- A sound chunk under a permit, with nothing in its way: its bytes land, the status goes into word 2 of its counter, and its bytes
are added there. -/
theorem State.peerChunk_counted {s : State} {src addr c status slice off cs co : Nat} {bs : List Byte} (hsrc : src < 4096)
    (hpermit : (s.reg (permitReg src)).getLsbD 63 = true) (hbs : bs ≠ [])
    (hplace : s.plainPhys (BitVec.ofNat 64 addr) bs.length (wbits (s.reg (permitReg src)) 15 8 / 8) 1 = .ok (slice, off))
    (hbusy : s.bankBusy slice off bs.length = false) (hpoison : s.plainPoisoned slice off bs.length = false) (hw : s.watched = [])
    (hctr : s.counterPhys (BitVec.ofNat 64 c) (wbits (s.reg (permitReg src)) 15 8 / 8) = .ok (cs, co))
    (hcbusy : s.bankBusy cs co 16 = false) :
    s.runTurn (.peerChunk src addr bs false (some c) status) = .next (((s.plainPut slice off bs).setCtrWord cs co 2
      (flowWord ((s.plainPut slice off bs).ctrWord cs co 2) status)).addCounter cs co bs.length) := by
  have ctr : (s.plainPut slice off bs).counterPhys (BitVec.ofNat 64 c) (wbits (s.reg (permitReg src)) 15 8 / 8) = .ok (cs, co) := hctr
  have calm : (s.plainPut slice off bs).bankBusy cs co 16 = false := hcbusy
  have unit : ¬4096 ≤ src := by omega
  simp only [State.runTurn, State.peerChunk, unit, hpermit, hplace]
  simp [hbs, hbusy, Except.map, State.landChunk, State.plainStore_unwatched hw hpoison, ctr, calm]

/-- An answer whose value is known is that value. -/
theorem ok_of_toOption {ε α : Type} {x : α} : ∀ {e : Except ε α}, e.toOption = some x → e = .ok x
  | .ok _, h => congrArg Except.ok (Option.some.inj h)

/-- The window of partition 0 is open, module 0 has a permit for it, and the note of a stall stands. -/
def State.permittedNoted : State :=
  { (State.reset.setReg (partReg 0 0) 0x80200000).setReg (permitReg 0) 0x8000000000000000 with distStall := true }

/-- Its permit names partition 0, and the window places byte 0x1000. -/
theorem State.permittedNoted_place : State.permittedNoted.plainPhys (BitVec.ofNat 64 0x1000) [(1 : Byte)].length
    (wbits (State.permittedNoted.reg (permitReg 0)) 15 8 / 8) 1 = .ok (0, 0x1000) :=
  ok_of_toOption (by decide)

/-- The window places a counter at 0x100. -/
theorem State.permittedNoted_counter : State.permittedNoted.counterPhys (BitVec.ofNat 64 0x100)
    (wbits (State.permittedNoted.reg (permitReg 0)) 15 8 / 8) = .ok (0, 0x100) :=
  ok_of_toOption (by decide)

/-- A chunk of one byte that counts there: the add puts its event by. -/
theorem State.permittedNoted_chunk {t : State}
    (h : State.permittedNoted.runTurn (.peerChunk 0 0x1000 [1] false (some 0x100) 0) = .next t) :
    t.stalledJobs = [.counter 0 0x100] := by
  rw [State.peerChunk_counted (by decide) rfl (by decide) State.permittedNoted_place rfl rfl rfl State.permittedNoted_counter rfl] at h
  cases h
  have only := State.setCtrWord_only (State.permittedNoted.plainPut 0 0x1000 [1]) 0 0x100 2
    (flowWord ((State.permittedNoted.plainPut 0 0x1000 [1]).ctrWord 0 0x100 2) 0)
  exact (State.addCounter_noted only.distStall 0 0x100 1).trans (by rw [only.stalledJobs]; rfl)

/-- Refutes O50, by its clause on a counted chunk of another module's flow. That clause lets nothing but the bytes of the Plain change,
and no hypothesis excludes a state in which `distStall`, the note that work of the distributor has to wait, is set: there the add puts its
event by in `stalledJobs` (R107: log 70). -/
theorem not_fabricEventsActOnTheirPort : ¬ Obligations.FabricEventsActOnTheirPort := by
  intro h
  obtain ⟨-, -, -, -, -, -, -, chunks, -⟩ := h
  obtain ⟨-, landing⟩ := chunks State.permittedNoted 0 0x1000 [1] 0 (by decide)
  obtain ⟨-, counted⟩ := landing 0 0x1000 rfl (by decide) State.permittedNoted_place rfl rfl rfl
  obtain ⟨t, turn, -, -, -, frame⟩ := counted 0x100 0 0x100 State.permittedNoted_counter rfl rfl (by decide) rfl
  have put : t.stalledJobs = [.counter 0 0x100] := State.permittedNoted_chunk turn
  have kept : t.stalledJobs = [] := by rw [frame]; rfl
  rw [kept] at put
  cases put

end Sys2Proof.Machine
end

section
/-! SUPPORT. What CLAIM, FLOW, UNCLAIM and CLSTAT do where nothing holds them back (R82 to R96). -/

namespace Sys2Proof.Machine

/-! ## Claim slots, points and fields of a word -/

theorem Team.claim_setClaim (t : Team) (n k : Nat) (c : Claim) : (t.setClaim n c).claim k = if k = n then c else t.claim k :=
  mapGet_mapSet t.claims n k

theorem Team.claim_setClaim_same (t : Team) (n : Nat) (c : Claim) : (t.setClaim n c).claim n = c :=
  (t.claim_setClaim n n c).trans (if_pos rfl)

theorem Team.claim_setClaim_other (t : Team) (n : Nat) (c : Claim) (k : Nat) (h : k ≠ n) : (t.setClaim n c).claim k = t.claim k :=
  (t.claim_setClaim n k c).trans (if_neg h)

/-- The point that an instruction of four bytes sets after itself (R164). -/
theorem Team.setPoint_next (t : Team) : t.setPoint (t.pc + 4) = t.pointed := by
  simp [Team.setPoint, Team.pointed]

@[simp] theorem Team.pointed_pc (t : Team) : t.pointed.pc = t.pc := by
  unfold Team.pointed
  split <;> rfl

/-- A team with a slot rewritten sets the point that it would have set. -/
theorem Team.setPoint_setClaim (t : Team) (n : Nat) (c : Claim) :
    (t.setClaim n c).setPoint (t.pc + 4) = { t.pointed with claims := (t.setClaim n c).claims } := by
  rw [← Team.setPoint_next]
  cases h : t.level == Level.supervisor <;> simp only [Team.setPoint, Team.setClaim, h] <;> rfl

/-- The team changed but for its pc, by an instruction of four bytes. -/
theorem State.advance_mapTeam (s : State) {f : Team → Team} (h : (f s.team).pc = s.team.pc) :
    (s.mapTeam f).advance 4 = s.after f := by
  simp only [State.advance, State.mapTeam, State.after, h]
  rfl

/-- A slot rewritten and a point set, by an instruction of four bytes. -/
theorem State.advance_setClaim (s : State) (n : Nat) (c : Claim) :
    (s.mapTeam fun t => (t.setClaim n c).setPoint (t.pc + 4)).advance 4 =
      { s with team := { s.team.pointed with claims := (s.team.setClaim n c).claims, pc := s.team.pc + 4 } } := by
  simp only [State.advance, State.mapTeam, Team.setPoint_setClaim, Team.pointed_pc]
  rfl

/-- A field of `n` bits read through its highest and its lowest bit. -/
theorem wbits_eq_extractLsb' (w : Word) (lo n : Nat) (hn : 0 < n) : wbits w (lo + n - 1) lo = (w.extractLsb' lo n).toNat := by
  rw [wbits, bitsOf, BitVec.extractLsb'_toNat, Nat.shiftRight_eq_div_pow, show lo + n - 1 + 1 - lo = n by omega]

/-- A closing instruction of 32 bits that issues has its effect. -/
theorem execClosing_issues_32 {s : State} {i : Instr} {c : Issue} {f : State → Res} (hn : i.nbits = 32)
    (h : s.issuesAlone i c.priv c.srcs c.dsts = true) (hi : c.illegal = false) : execClosing i c f s = (f s).finish 4 := by
  rw [execClosing_issues h hi, len_of_32 hn]

/-- Where no acquire of the team is under way, an effect that waits for them comes at once (R104). -/
theorem State.afterAcquires_clear {s : State} (h : s.acquiring s.team.uid = false) (f : State → Res) :
    State.afterAcquires f s = f s := by
  simp [State.afterAcquires, h]

/-! ## CLAIM (R82 to R84) -/

/-- The state in which a claim slot is taken: the team parks on it, and `asks` has gone to the peer. -/
def State.claimTaken (s : State) (c : Nat) (slot : Claim) (asks : List Message) : State :=
  { s with outbox := s.outbox ++ asks, team := { s.team.setClaim c slot with status := .parked (.claim c) } }

/-- The reservation that a claim of virtual device `vd` sends for the rows of its destination (R84). -/
def Desc.asks (d : Desc) (vd : Nat) : List Message := if d.dpeer then [.reserve d.pmod vd d.dstRows] else []

theorem State.claimTaken_of_asks (s : State) (d : Desc) (vd c : Nat) (slot : Claim) :
    ((if d.dpeer then s.send1 (.reserve d.pmod vd d.dstRows) else s).mapTeam
      fun t => { t.setClaim c slot with status := .parked (.claim c) }) = s.claimTaken c slot (d.asks vd) := by
  cases h : d.dpeer with
  | true => simp only [Desc.asks, h, if_true]; rfl
  | false => simp only [State.claimTaken, Desc.asks, h, List.append_nil, Bool.false_eq_true, if_false]; rfl

/-- The effect of a CLAIM whose checks all pass. -/
theorem State.doClaim_walked {s s1 s2 : State} {c a b : Nat} {p v : Bool} {da : Word} {bytes : List Byte} {pins : List TlbEntry}
    (hda : s.claimAddress a b v = .ok da) (hfree : (s.team.claim c).state.inUse = false) (halign : da.toNat % 64 = 0)
    (hperf : s.performedAll s.team.uid true = true) (hread : s.operand p da 64 = .ok (s1, bytes))
    (hvalid : descInvalid s1.module bytes = false) (hwalk : s1.claimWalk (descOf bytes) = .ok (s2, pins)) :
    ∃ slot : Claim, slot.state = .claiming ∧ slot.desc = descOf bytes ∧ slot.pins = pins ∧ slot.total = (descOf bytes).total ∧
      State.doClaim c a b p v s = .wait (s2.claimTaken c slot ((descOf bytes).asks s.team.vd)) := by
  simp only [State.doClaim, hda, hfree, halign, hperf, hread, hvalid, hwalk]
  exact ⟨_, rfl, rfl, rfl, rfl, congrArg Res.wait (s2.claimTaken_of_asks _ _ _ _)⟩

/-- Settles O27: the hypotheses are the checks of CLAIM in their order, and what comes after the last check writes the slot, the outbox
and the status of the team. -/
theorem claimTakesItsSlot : Obligations.ClaimTakesItsSlot := by
  unfold Obligations.ClaimTakesItsSlot
  intro s s1 s2 c a b p v da bytes pins issue hda hfree halign hacq hperf hread hvalid hwalk
  obtain ⟨slot, hstate, hdesc, hpins, htotal, effect⟩ := State.doClaim_walked hda hfree halign hperf hread hvalid hwalk
  have run : exec (.claim c a b p v) s = (State.doClaim c.toNat a.toNat b.toNat (p == 1) (v == 1) s).finish 4 :=
    (execClosing_issues_32 (c := ⟨false, false, if v = 1 then [.v a.toNat, .u b.toNat] else [.u a.toNat], []⟩) rfl issue rfl).trans
      (congrArg (Res.finish 4) (State.afterAcquires_clear hacq _))
  have taken : (s2.claimTaken c.toNat slot ((descOf bytes).asks s.team.vd)).team.claim c.toNat = slot :=
    s2.team.claim_setClaim_same c.toNat slot
  refine ⟨_, run.trans (congrArg (Res.finish 4) effect), ?_, ?_, ?_, ?_, ?_, rfl, rfl, rfl⟩
  · rw [taken, hstate]
  · rw [taken, hdesc]
  · rw [taken, hpins]
  · rw [taken, htotal]
  · exact s2.team.claim_setClaim_other c.toNat slot

/-! ## FLOW (R90 to R92) -/

/-- A flow started over a slot: its ranges stand in the Weir, its slot is FLOWING, and a point is set after it. -/
theorem State.startFlow_eq (s : State) (slot off len : Nat) (ctr : Word) :
    ∃ f : Flow, f.team = some s.team.uid ∧ f.slot = slot ∧ f.off = off ∧ f.len = len ∧
      f.desc = (s.team.claim slot).desc ∧ f.pins = (s.team.claim slot).pins ∧
      s.startFlow slot off len ctr = { s with
        flows := s.flows ++ [f]
        weir := s.weir ++ weirEntries s.module s.team.mill f.id s.team.asid (s.team.claim slot).desc off len
        nextId := s.nextId + 1 }.mapTeam fun t =>
          (t.setClaim slot { s.team.claim slot with state := .flowing }).setPoint (t.pc + 4) :=
  ⟨_, rfl, rfl, rfl, rfl, rfl, rfl, rfl⟩

/-- The effect of a FLOW that names a legal range of a claim that is held and a counter in order: it starts, or it parks behind
another flow. -/
theorem State.doFlow_legal {s : State} {slot a b off len : Nat} {all : Bool}
    (hperf : s.performedAll s.team.uid true = true)
    (hheld : (s.team.claim slot).state = .held ∨ (s.team.claim slot).state = .flowing)
    (hrange : (if all then (0, (s.team.claim slot).total) else (wbits (s.team.u b) 31 0, wbits (s.team.u b) 56 32)) = (off, len))
    (hreserved : all = false → wbits (s.team.u b) 63 57 = 0) (hpos : 0 < len) (hmax : len ≤ 0x1000000)
    (htotal : off + len ≤ (s.team.claim slot).total) (hoff : off % (s.team.claim slot).desc.esize = 0)
    (hlen : len % (s.team.claim slot).desc.esize = 0)
    (hbusy : s.counterBusy (s.team.claim slot).desc.dpeer (s.team.u a) = false)
    (hctr : s.flowCounter (s.team.claim slot) (s.team.u a) = none) :
    State.doFlow slot a b all s = if s.mayFlow slot off len then .ok (s.startFlow slot off len (s.team.u a))
      else .wait (s.mapTeam fun t => { t with status := .parked (.flow slot off len (s.team.u a)) }) := by
  have free : ((s.team.claim slot).state == ClaimState.free) = false := by rcases hheld with h | h <;> rw [h] <;> rfl
  have gone : ((s.team.claim slot).state == .revoked || (s.team.claim slot).state == .pending) = false := by
    rcases hheld with h | h <;> rw [h] <;> rfl
  have reserved : (!all && wbits (s.team.u b) 63 57 != 0) = false := by
    cases all with
    | true => rfl
    | false => simp [hreserved rfl]
  have range : (decide (len = 0) || decide (0x1000000 < len) || decide ((s.team.claim slot).total < off + len) ||
      off % (s.team.claim slot).desc.esize != 0 || len % (s.team.claim slot).desc.esize != 0) = false := by
    simp only [hoff, hlen, Bool.or_eq_false_iff, decide_eq_false_iff_not]
    exact ⟨⟨⟨⟨by omega, by omega⟩, by omega⟩, rfl⟩, rfl⟩
  simp only [State.doFlow, hrange, hperf, free, gone, reserved, range, hbusy, hctr]
  rfl

/-- FLOW of a team that no acquire holds is its effect (R90, R104). -/
theorem exec_flow_issues {s : State} {c : BitVec 4} {a b : BitVec 6} {all : BitVec 1}
    (issue : s.issuesAlone (.flow c a b all) false (if all = 1 then [.u a.toNat] else [.u a.toNat, .u b.toNat]) [] = true)
    (hacq : s.acquiring s.team.uid = false) :
    exec (.flow c a b all) s = (State.doFlow c.toNat a.toNat b.toNat (all == 1) s).finish 4 :=
  (execClosing_issues_32 (c := ⟨false, false, if all = 1 then [.u a.toNat] else [.u a.toNat, .u b.toNat], []⟩) rfl issue rfl).trans
    (congrArg (Res.finish 4) (State.afterAcquires_clear hacq _))

/-- The range that a FLOW names, by the fields of its register or the whole claim (R90). -/
theorem flowRange_fields (w : Word) (total off len : Nat) (all : BitVec 1)
    (h : (off, len) = (if all = 1 then (0, total) else ((w.extractLsb' 0 32).toNat, (w.extractLsb' 32 25).toNat))) :
    (if (all == 1) = true then (0, total) else (wbits w 31 0, wbits w 56 32)) = (off, len) := by
  rw [h, ← wbits_eq_extractLsb' w 0 32 (by decide), ← wbits_eq_extractLsb' w 32 25 (by decide)]
  simp only [beq_iff_eq]

/-! ## UNCLAIM and CLSTAT (R96) -/

/-- UNCLAIM of a slot over which no flow runs frees it and sets a point. -/
theorem exec_unclaim_issues {s : State} {c : BitVec 4} (issue : s.issuesAlone (.unclaim c) false [] [] = true)
    (hflow : (s.team.claim c.toNat).state ≠ .flowing) (hpend : (s.team.claim c.toNat).state ≠ .pending) :
    exec (.unclaim c) s = .next { s with team := { s.team.pointed with
      claims := (s.team.setClaim c.toNat Claim.free).claims, pc := s.team.pc + 4 } } := by
  have idle : ((s.team.claim c.toNat).state == .flowing || (s.team.claim c.toNat).state == .pending) = false := by
    simp [hflow, hpend]
  refine (execClosing_issues_32 (c := ⟨false, false, [], []⟩) rfl issue rfl).trans ?_
  simp only [idle, Bool.false_eq_true, if_false, Res.finish, State.advance_setClaim]

theorem exec_clstat_issues {s : State} {d : BitVec 6} {c : BitVec 4}
    (issue : s.issuesAlone (.clstat d c) false [] [.u d.toNat] = true) :
    exec (.clstat d c) s = .next (s.after fun t => t.setU d.toNat (s.team.claim c.toNat).word) := by
  have run : exec (.clstat d c) s = .next ((s.mapTeam fun t => t.setU d.toNat (t.claim c.toNat).word).advance 4) :=
    execClosing_issues_32 (c := ⟨false, false, [], [.u d.toNat]⟩) rfl issue rfl
  rw [run, State.advance_mapTeam s (Team.setU_pc _ _ _)]
  simp only [State.after]

/-- Settles O28: a legal FLOW starts or parks, UNCLAIM rewrites one slot, CLSTAT one register. -/
theorem flowUnclaimClstatActOnSlot : Obligations.FlowUnclaimClstatActOnSlot := by
  unfold Obligations.FlowUnclaimClstatActOnSlot
  refine ⟨?flow, ?unclaim, fun s d c issue => exec_clstat_issues issue⟩
  case flow =>
    intro s c a b all off len cl issue hacq hperf hheld hbusy hrange hreserved hpos hmax htotal hoff hlen hctr
    have reserved : (all == 1) = false → wbits (s.team.u b.toNat) 63 57 = 0 := by
      intro h
      have zero : all = 0 := (by decide : ∀ x : BitVec 1, (x == 1) = false → x = 0) all h
      rw [wbits_eq_extractLsb' _ 57 7 (by decide), hreserved zero]
      rfl
    have effect := State.doFlow_legal hperf hheld (flowRange_fields _ _ _ _ _ hrange) reserved hpos hmax htotal hoff hlen hbusy hctr
    rw [exec_flow_issues issue hacq, effect]
    constructor
    · intro may
      obtain ⟨f, hteam, hslot, hfoff, hflen, hdesc, hpins, started⟩ := s.startFlow_eq c.toNat off len (s.team.u a.toNat)
      rw [if_pos may, started, Res.finish, State.advance_setClaim]
      exact ⟨_, f, rfl, rfl, hteam, hslot, hfoff, hflen, hdesc, hpins, rfl,
        s.team.claim_setClaim_same c.toNat { s.team.claim c.toNat with state := .flowing },
        s.team.claim_setClaim_other c.toNat { s.team.claim c.toNat with state := .flowing }, rfl⟩
    · intro stays
      rw [if_neg (by simp [stays])]
      rfl
  case unclaim =>
    intro s c issue hflow hpend
    exact ⟨_, exec_unclaim_issues issue hflow hpend, s.team.claim_setClaim_same c.toNat Claim.free,
      s.team.claim_setClaim_other c.toNat Claim.free, rfl⟩

end Sys2Proof.Machine
end

section
/-! SUPPORT. ACADD in a state that carries the note of a stall: the add lands, but the event on the counter is put by. -/

namespace Sys2Proof.Machine

/-- An instruction on a counter in order acts on it (R98), once the acquires of its team are over and, where it releases, what it
releases is performed. -/
theorem State.onCounter_at {s : State} {release : Bool} {ca : Word} {slice off : Nat} {f : Nat → Nat → State → Res}
    (hctr : s.counterAt ca slice off) (hacq : s.acquiring s.team.uid = false)
    (hperf : release = true → s.performedAll s.team.uid true = true) : s.onCounter release ca f = f slice off s := by
  obtain ⟨hphys, hbusy, -, hword, -⟩ := hctr
  have settled : (release && !s.performedAll s.team.uid true) = false := by
    cases release with
    | false => rfl
    | true => simp [hperf rfl]
  have sound : s.ctrWord slice off 2 / 256 = 0 := Nat.div_eq_of_lt hword
  simp [State.onCounter, hacq, settled, hphys, hbusy, sound]

/-- ACADD on a counter in order, where nothing holds it back, is its add (R98). -/
theorem exec_acadd_counterAt {s : State} {a b : BitVec 6} {slice off : Nat}
    (issue : s.issuesAlone (.acadd a b) false [.u a.toNat, .u b.toNat] [] = true) (hctr : s.counterAt (s.team.u a.toNat) slice off)
    (hacq : s.acquiring s.team.uid = false) (hperf : s.performedAll s.team.uid true = true) :
    exec (.acadd a b) s = .next ((s.pointAfter.addCounter slice off (wbits (s.team.u b.toNat) 31 0)).advance 4) :=
  (execClosing_issues_32 (c := ⟨false, false, [.u a.toNat, .u b.toNat], []⟩) rfl issue rfl).trans
    (congrArg (Res.finish 4) (State.onCounter_at hctr hacq fun _ => hperf))

/-- Under the note of a stall that add puts its event by. -/
theorem exec_acadd_noted {s t : State} {a b : BitVec 6} {slice off : Nat}
    (issue : s.issuesAlone (.acadd a b) false [.u a.toNat, .u b.toNat] [] = true) (hctr : s.counterAt (s.team.u a.toNat) slice off)
    (hacq : s.acquiring s.team.uid = false) (hperf : s.performedAll s.team.uid true = true) (noted : s.distStall = true)
    (turn : exec (.acadd a b) s = .next t) : t.stalledJobs = s.stalledJobs ++ [.counter slice off] := by
  rw [exec_acadd_counterAt issue hctr hacq hperf] at turn
  rw [← Host.Outcome.next.inj turn, State.advance_stalledJobs]
  exact State.addCounter_noted (s := s.pointAfter) noted slice off _

/-- A READY team whose uniform registers are 0, in the state in which the window is open and the note of a stall stands. -/
def State.addingNoted : State := { State.permittedNoted with team := { Team.vacant with status := .ready } }

/-- Its registers point to the counter at byte 0, which holds zeros and on which nothing waits. -/
theorem State.addingNoted_counterAt : State.addingNoted.counterAt (State.addingNoted.team.u 0) 0 0 :=
  ⟨ok_of_toOption (by decide), rfl, rfl, by decide, rfl⟩

/-- Nothing holds an ACADD of it back. -/
theorem State.addingNoted_issues : State.addingNoted.issuesAlone (.acadd 0 0) false [.u 0, .u 0] [] = true := by decide +kernel

/-- Refutes O29, by its clause on ACADD. That clause lets nothing but the bytes of the Plain and the team change, and no hypothesis excludes
a state in which `distStall`, the note that work of the distributor has to wait, is set: there the add puts its event by in
`stalledJobs` (R107: log 70). -/
theorem not_countersAddReadAndWait : ¬ Obligations.CountersAddReadAndWait := by
  unfold Obligations.CountersAddReadAndWait
  intro h
  obtain ⟨writes, -⟩ := h
  obtain ⟨-, adds, -⟩ := writes State.addingNoted 0 0 0 0 State.addingNoted_counterAt rfl rfl
  obtain ⟨t, turn, -, -, frame⟩ := adds State.addingNoted_issues
  have put : t.stalledJobs = [.counter 0 0] := exec_acadd_noted State.addingNoted_issues State.addingNoted_counterAt rfl rfl rfl turn
  have kept : t.stalledJobs = [] := by rw [frame]; rfl
  rw [kept] at put
  cases put

end Sys2Proof.Machine
end

section
/-! SUPPORT. A claim to a peer whose own route is lost while the route table holds another: the peer's answer finds it without a route. -/

namespace Sys2Proof.Machine

/-- The peer's acceptance finds a claim that has no route of its own left, whatever routes the table holds: the slot stands again as
before the CLAIM, which raises peer lost (R84, R377). -/
theorem State.claimHeld_routeless {s : State} {c base count : Nat} (hpeer : (s.team.claim c).desc.dpeer = true)
    (hroute : (s.team.claim c).route = none) :
    s.claimHeld c (.accepted base count) =
      (((s.mapTeam fun t => { t with status := .ready }).mapTeam fun t => t.setClaim c (s.team.claim c).restored).wholeTrap 0x11 0x09
        (BitVec.ofNat 64 (s.team.claim c).desc.dst)).finish 4 := by
  simp [State.claimHeld, claimAnswer, hpeer, hroute]

/-- The claim of a team for module 2, over the route given, while it awaits the peer's answer. -/
def Claim.asking (route : Option Word) : Claim :=
  { Claim.free with
    state := .claiming, desc := { Claim.free.desc with dspace := true, dpeer := true, pmod := 2 }, route := route }

/-- Module 2 is up with the generation `gen`, the table holds a route to it, and slot 0 of the team holds that claim over `route`. -/
def State.claiming (gen : Word) (route : Option Word) : State :=
  { (State.reset.setReg (peerReg 2) (0x8000000000000000 + gen)).setReg (routeReg 2 false) 0x8000000000000000 with
    team := { Team.vacant.setClaim 0 (Claim.asking route) with uid := 1, status := .parked (.claim 0) } }

/-- The claim has lost the route that it copied, and the host has written the table's route and set UP since. -/
def State.rerouted : State := State.claiming 1 none

/-- From a claim over the table's route, three events lead there: the loss of the route, a write of the table, and UP set. -/
theorem State.rerouted_follows : ∃ s1 s2, exec (.lossNotice 2 false) (State.claiming 0 (some 0x8000000000000000)) = .next s1 ∧
    exec (.routeWrite 2 false 0x8000000000000000) s1 = .next s2 ∧ exec (.peerUpSet 2) s2 = .next State.rerouted :=
  ⟨_, _, rfl, rfl, rfl⟩

/-- It is the team's turn there. -/
theorem State.rerouted_focus : State.rerouted.focus 1 = some State.rerouted := rfl

/-- The peer's acceptance leaves slot 0 FREE there. -/
theorem State.rerouted_claimHeld {t : State} (h : exec (.claimHeld 1 (.accepted 0 0)) State.rerouted = .next t) :
    (t.team.claim 0).state = .free := by
  have run : exec (.claimHeld 1 (.accepted 0 0)) State.rerouted = State.rerouted.claimHeld 0 (.accepted 0 0) := rfl
  rw [run, State.claimHeld_routeless rfl rfl] at h
  cases h
  rfl

/-- Refutes O45, by its clause on the peer's acceptance of a claim. That clause asks for a route of the module in the table; the model asks
for the route that the claim copied (R84), which no later write of the table gives back (R377). In `State.rerouted`, which
`State.rerouted_follows` reaches, the acceptance raises peer lost, and the slot is not HELD. -/
theorem not_teamEventsCompleteWaits : ¬ Obligations.TeamEventsCompleteWaits := by
  unfold Obligations.TeamEventsCompleteWaits
  intro h
  obtain ⟨teams, -⟩ := h
  obtain ⟨-, claims, -⟩ := teams State.rerouted State.rerouted 1 State.rerouted_focus
  obtain ⟨-, accepted⟩ := claims 0 rfl (fun w hw => absurd hw List.not_mem_nil) rfl
  obtain ⟨t, turn, held, -⟩ := accepted 0 0 rfl (by decide) (by decide)
  rw [State.rerouted_claimHeld turn] at held
  cases held

end Sys2Proof.Machine
end
